-- ==== Sys2Proof/Word.lean ====
section
/-! DEFINITION. The bytes CF-SEQ moves and the widths of its registers (R7, R8, R20). -/

namespace Sys2Proof

/-- A byte: 8 bits (R7). Every access CF-SEQ makes moves bytes (R67). -/
abbrev Byte := BitVec 8

/-- A 16-bit register value (R41, R42, R43). -/
abbrev Half := BitVec 16

end Sys2Proof
end

