-- ==== Sys2Proof/Config.lean ====
section
/-! DEFINITION. What CF-SEQ's spec fixes as a parameter (R6), and the free values: constants with no body, of
which nothing can be computed or proved. -/

namespace Sys2Proof.Config

/-- `SAVE_BASE`, the first physical bank of the save area (R6). -/
def saveBase : Nat := 0x80
/-- `BANKS_PER_SLOT` (R6). -/
def banksPerSlot : Nat := 8
/-- `CARVE_LO`, the first naive bank number that is shifted (R6). -/
def carveLo : Nat := 0xF4
/-- `CARVE_SKIP` (R6). -/
def carveSkip : Nat := 2
/-- `BANK_LIMIT`, the first forbidden bank number (R6). -/
def bankLimit : Nat := 0xFA
/-- `BANK_BYTES` (R6, R62). -/
def bankBytes : Nat := 65536
/-- `PAGE_BYTES` (R6). -/
def pageBytes : Nat := 256
/-- `PAGES_PER_BANK` (R6). -/
def pagesPerBank : Nat := 256
/-- `CHUNK_BYTES` (R6). -/
def chunkBytes : Nat := 2048
/-- `CHUNKS_PER_BANK` (R6). -/
def chunksPerBank : Nat := 32
/-- `RAM_BANKS` (R6, R63). -/
def ramBanks : Nat := 8
/-- `STG_BYTES` (R6, R64). -/
def stgBytes : Nat := 65536
/-- `XM_BLOCK`, the data bytes of a block (R6). -/
def xmBlock : Nat := 128
/-- `XM_MAX_RETRY` (R6). -/
def xmMaxRetry : Nat := 10
/-- `IMAGE_BLOCKS` (R6). -/
def imageBlocks : Nat := 512
/-- `LOCK_MAX` (R6, D16). -/
def lockMax : Nat := 255
/-- `TRAILER_OFF` (R6, D28). -/
def trailerOff : Nat := 0xFFF0
/-- The largest `SRAM_SLOTS` may be, and its default (R6, R122, D3). -/
def maxSlots : Nat := 15

/-- `PAD_BYTE`, the fill for short images and the RAM erase (R6, C2). -/
def padByte : Byte := 0xFF
/-- What an erased flash byte reads as. PRESUMED (the spec's G2, log 16): unsafe. -/
def erased : Byte := 0xFF

/-- `SLOT_NONE` (R6, R92, D4). -/
def slotNone : Byte := 0xFF
/-- `SLOT_ALL` (R6, R92, D4). -/
def slotAll : Byte := 0xFE
/-- `SLOT_FIRST_BOOT` (R6, R92, D4). -/
def slotFirstBoot : Byte := 0xFD

/-- The control byte `SOH`. PRESUMED (the spec's G1, log 17): unsafe. -/
def SOH : Byte := 0x01
/-- The control byte `EOT`. PRESUMED (the spec's G1, log 17): unsafe. -/
def EOT : Byte := 0x04
/-- The control byte `ACK`. PRESUMED (the spec's G1, log 17): unsafe. -/
def ACK : Byte := 0x06
/-- The control byte `NAK`. PRESUMED (the spec's G1, log 17): unsafe. -/
def NAK : Byte := 0x15
/-- The control byte `CAN`. PRESUMED (the spec's G1, log 17): unsafe. -/
def CAN : Byte := 0x18

/-- How many banks one `erase_bank` erases: `ERASE_GRANULE`, OPEN in {1, 2} (R6, D10, C10). -/
inductive Granule where
  | bank
  | pair
deriving DecidableEq, Repr, Inhabited

/-- The machine's `ERASE_GRANULE`: OPEN, so no value is given (log 12; safe). -/
opaque eraseGranule : Granule

/-- The machine's `BIOS_BANK`: OPEN (R6, D29; log 12; safe). -/
opaque biosBank : Byte

/-- The machine's `LAUNCH_SLOT` after the first power-on: OPEN (R6, D6; log 12; safe). -/
opaque launchSlot : Byte

/-- `TRAILER(n)`, the 16 bytes for a block count: OPEN, "a model must not assume any property of the 16
bytes" (R254, U19; log 13; safe). -/
opaque trailer : Nat → Vector Byte 16

/-- A byte the spec leaves without a value: the generation says which event made it so, the second argument
is the address (log 11; safe). -/
opaque freeByte : Nat → Nat → Byte

end Sys2Proof.Config
end

