-- ==== Sys2Proof/Syntax.lean ====
section
/-! DEFINITION. CF-SEQ's instructions: one constructor per row of spec/opcode_table.json (R101), and the
formats their bytes come in (R90). -/

namespace Sys2Proof

/-- The formats of CF-SEQ (R90), and `internal` for the two functions that have no code (R101). -/
inductive Format where
  | cmd
  | port
  | slotv
  | os
  | wire1
  | frame
  | internal
deriving DecidableEq, Repr

/-- The buffer a `read_slot` fills: one of the two page files (R40) or the notional transfer buffer `buf`
(R174, R178). -/
inductive Buf where
  | pageBuf
  | cmpBuf
  | xferBuf
deriving DecidableEq, Repr

/-- The fourteen command codes (R98). -/
inductive Cmd where
  | resolveBank
  | switchToSlot
  | programToFlash
  | restoreFromFlash
  | erase
  | flashImage
  | xmOpen
  | xmClose
  | recvStart
  | recvBlock
  | sendStart
  | sendBlock
  | sendFinish
  | installReceive
deriving DecidableEq, Repr

/-- The instructions. A command carries both operand bytes, used or not (R91): an unused one is ignored (R24). -/
inductive Instr where
  -- format CMD (R98)
  | resolveBank (slot subBank : Byte)
  | switchToSlot (newSlot newOs : Byte)
  | programToFlash (slot os : Byte)
  | restoreFromFlash (slot os : Byte)
  | erase (target os : Byte)
  | flashImage (arg0 arg1 : Byte)
  | xmOpen (baud arg1 : Byte)
  | xmClose (arg0 arg1 : Byte)
  | recvStart (arg0 arg1 : Byte)
  | recvBlock (arg0 arg1 : Byte)
  | sendStart (arg0 arg1 : Byte)
  | sendBlock (arg0 arg1 : Byte)
  | sendFinish (arg0 arg1 : Byte)
  | installReceive (baud arg1 : Byte)
  -- format PORT (R100)
  | eraseBank (device physicalSlot bank : Byte)
  | writeSlot (buffer : List Byte) (physicalSlot bank : Byte) (offset length : Nat)
  | readSlot (buffer : Buf) (physicalSlot bank : Byte) (offset length : Nat)
  | unlock
  | lock
  | getLaunchSlot
  | persist
  | getc
  | getcNb
  | putc (b : Byte)
  | serialOpen (baud : Byte)
  | serialClose
  | rxIrqEnable
  | haltWait
  | irqMask
  | irqUnmask
  | pollCancel
  | progressInit (max : Half)
  | progressDraw (cur : Half)
  | workTick
  | textOut (message : List Byte)
  -- format WIRE1 (R96)
  | soh
  | eot
  | ack
  | nak
  | can
  -- format FRAME (R95)
  | frame (seq nseq : Byte) (data : Vector Byte 128) (checksum : Byte)
  -- the operand formats OS (R93) and SLOTV (R92)
  | os (size offset : BitVec 4)
  | slotv (v : Byte)
  -- the internal functions (R120, R123)
  | decodeOs (os : Byte)
  | checkGeometry (offset size : Nat) (os : Byte)
deriving DecidableEq, Repr

/-- The format an instruction is written in (R90, R98, R100, R101). -/
def Instr.format : Instr → Format
  | .resolveBank .. | .switchToSlot .. | .programToFlash .. | .restoreFromFlash .. | .erase ..
  | .flashImage .. | .xmOpen .. | .xmClose .. | .recvStart .. | .recvBlock .. | .sendStart ..
  | .sendBlock .. | .sendFinish .. | .installReceive .. => .cmd
  | .eraseBank .. | .writeSlot .. | .readSlot .. | .unlock | .lock | .getLaunchSlot | .persist
  | .getc | .getcNb | .putc _ | .serialOpen _ | .serialClose | .rxIrqEnable | .haltWait | .irqMask
  | .irqUnmask | .pollCancel | .progressInit _ | .progressDraw _ | .workTick | .textOut _ => .port
  | .soh | .eot | .ack | .nak | .can => .wire1
  | .frame .. => .frame
  | .os .. => .os
  | .slotv _ => .slotv
  | .decodeOs _ | .checkGeometry .. => .internal

end Sys2Proof
end

