-- ==== Sys2Proof/WellFormed.lean ====
section
/-! DEFINITION. Which instructions their encoding has room for (`fits`), and which are well-formed by the
formats' own rules (`wellFormed`). Both are Bool. -/

namespace Sys2Proof

/-- The `OS` byte of a size and an offset: high nibble size, low nibble offset (R93). -/
def osByte (size offset : BitVec 4) : Byte := size ++ offset

/-- A descriptor `(offset, size)` is well-formed: `1 <= size <= 8`, `offset <= 7`, `offset + size <= 8` (R94). -/
def osFieldsOk (offset size : Nat) : Bool :=
  decide (1 ≤ size) && decide (size ≤ 8) && decide (offset ≤ 7) && decide (offset + size ≤ 8)

/-- The descriptor byte is well-formed (R94, R103). -/
def osOk (os : Byte) : Bool := osFieldsOk (os.toNat % 16) (os.toNat / 16)

/-- A `SLOTV` value that names something for some legal `SRAM_SLOTS`: a slot index, or one of the three
sentinels (R92). -/
def slotvOk (v : Byte) : Bool :=
  decide (v.toNat < Config.maxSlots) || v == Config.slotNone || v == Config.slotAll || v == Config.slotFirstBoot

/-- The one's complement of a byte: `~8(v)` (R8). -/
def complement8 (v : Byte) : Byte := v ^^^ 0xFF

/-- The checksum of a block: the plain 8-bit sum of its bytes (R97). -/
def checksum8 (data : List Byte) : Byte := data.foldl (· + ·) 0

/-- How many bytes a `read_slot` may put into a buffer: the page files have 256 registers (R40). -/
def Buf.capacity : Buf → Nat
  | .pageBuf | .cmpBuf => Config.pageBytes
  | .xferBuf => Config.bankBytes

/-- The operands are values the encoding has room for (log 21 for the PORT units). -/
def Instr.fits : Instr → Bool
  | .writeSlot buffer _ _ offset length =>
      decide (buffer.length = length) && decide (offset < 2 ^ 24) && decide (length < 2 ^ 24)
  | .readSlot _ _ _ offset length => decide (offset < 2 ^ 24) && decide (length < 2 ^ 24)
  | .textOut message => decide (message.length < 2 ^ 16)
  | _ => true

/-- The instruction is well-formed: it fits, and each operand is legal by its format's own rule: descriptors
(R94), sub-banks (R125), slot values (R92), a frame's complement and checksum (R95), driver accesses inside
one bank (R68, R141, R142). -/
def Instr.wellFormed (i : Instr) : Bool :=
  i.fits && match i with
  | .resolveBank slot subBank => decide (slot.toNat < Config.maxSlots) && decide (subBank.toNat ≤ 7)
  | .programToFlash slot desc | .restoreFromFlash slot desc =>
      decide (slot.toNat < Config.maxSlots) && osOk desc
  | .erase target desc => slotvOk target && target != Config.slotFirstBoot && osOk desc
  | .writeSlot _ _ _ offset length => decide (offset + length ≤ Config.bankBytes)
  | .readSlot buffer _ _ offset length =>
      decide (offset + length ≤ Config.bankBytes) && decide (length ≤ buffer.capacity)
  | .frame seq nseq data checksum => nseq == complement8 seq && checksum == checksum8 data.toList
  | .os size offset => osFieldsOk offset.toNat size.toNat
  | .slotv v => slotvOk v
  | .decodeOs desc => osOk desc
  | .checkGeometry offset size _ => osFieldsOk offset size
  | _ => true

end Sys2Proof
end

