-- ==== Sys2Proof/Decode.lean ====
section
/-! DEFINITION. From bytes to instructions, format by format (R90, R98, R100, R96, R95, R93, R92), total on any
bytes and rejecting by name; then the encoder, written from the same tables; then the numbering of
spec/opcode_table.json. -/

namespace Sys2Proof

/-- Why bytes are no instruction. -/
inductive Reject where
  /-- A `CMD` code that R98 does not list: reserved (R102). -/
  | reservedCommand (code : Byte)
  /-- A `PORT` label that R100 does not list (log 5). -/
  | reservedLabel (label : Byte)
  /-- A wire byte that is none of the five control bytes: a stray byte (R104). -/
  | notControl (b : Byte)
  /-- A frame starts with `SOH` (R95). -/
  | notFrame (b : Byte)
  /-- Fewer bytes than the unit has (R105). -/
  | truncated
  /-- The internal functions have no encoding (R101). -/
  | noEncoding
deriving DecidableEq, Repr

/-- What decoding answers: an instruction and the bytes after it, or a rejection by name. -/
inductive Decoded where
  | instr (i : Instr) (rest : List Byte)
  | reject (r : Reject)
deriving DecidableEq, Repr

/-- The number two or three bytes spell, lowest byte first (log 21). -/
def ofLE : List Byte → Nat
  | [] => 0
  | b :: bs => b.toNat + 256 * ofLE bs

/-- `n` bytes of a number, lowest byte first (log 21). -/
def toLE : Nat → Nat → List Byte
  | 0, _ => []
  | n + 1, v => BitVec.ofNat 8 v :: toLE n (v / 256)

/-- The code of a command (R98). -/
def Cmd.code : Cmd → Byte
  | .resolveBank => 0x01
  | .switchToSlot => 0x10
  | .programToFlash => 0x11
  | .restoreFromFlash => 0x12
  | .erase => 0x13
  | .flashImage => 0x14
  | .xmOpen => 0x20
  | .xmClose => 0x21
  | .recvStart => 0x22
  | .recvBlock => 0x23
  | .sendStart => 0x30
  | .sendBlock => 0x31
  | .sendFinish => 0x32
  | .installReceive => 0x40

/-- The command of a code; every other code is reserved (R98, R102). -/
def commandOf (code a0 a1 : Byte) : Option Instr :=
  match code.toNat with
  | 0x01 => some (.resolveBank a0 a1)
  | 0x10 => some (.switchToSlot a0 a1)
  | 0x11 => some (.programToFlash a0 a1)
  | 0x12 => some (.restoreFromFlash a0 a1)
  | 0x13 => some (.erase a0 a1)
  | 0x14 => some (.flashImage a0 a1)
  | 0x20 => some (.xmOpen a0 a1)
  | 0x21 => some (.xmClose a0 a1)
  | 0x22 => some (.recvStart a0 a1)
  | 0x23 => some (.recvBlock a0 a1)
  | 0x30 => some (.sendStart a0 a1)
  | 0x31 => some (.sendBlock a0 a1)
  | 0x32 => some (.sendFinish a0 a1)
  | 0x40 => some (.installReceive a0 a1)
  | _ => none

/-- Format `CMD`: three bytes, one per command register (R91). -/
def decodeCmd : List Byte → Decoded
  | code :: a0 :: a1 :: rest =>
    match commandOf code a0 a1 with
    | some i => .instr i rest
    | none => .reject (.reservedCommand code)
  | _ => .reject .truncated

/-- The buffer designator of a `read_slot` unit (log 21). -/
def bufOf (b : Byte) : Buf :=
  if b = 0 then .pageBuf else if b = 1 then .cmpBuf else .xferBuf

/-- The designator byte of a buffer (log 21). -/
def Buf.code : Buf → Byte
  | .pageBuf => 0
  | .cmpBuf => 1
  | .xferBuf => 2

/-- The primitives whose label is followed by no argument, and the two byte arguments and two step numbers
(R100). DESIGN CHOICE: any other label is rejected, as a reserved `CMD` code is; the spec is silent on labels R100 does
not list (log 5). -/
def shortPort (label : Byte) (args : List Byte) : Decoded :=
  match label.toNat, args with
  | 0x83, rest => .instr .unlock rest
  | 0x84, rest => .instr .lock rest
  | 0x85, rest => .instr .getLaunchSlot rest
  | 0x86, rest => .instr .persist rest
  | 0x90, rest => .instr .getc rest
  | 0x91, rest => .instr .getcNb rest
  | 0x92, b :: rest => .instr (.putc b) rest
  | 0x93, baud :: rest => .instr (.serialOpen baud) rest
  | 0x94, rest => .instr .serialClose rest
  | 0x95, rest => .instr .rxIrqEnable rest
  | 0x96, rest => .instr .haltWait rest
  | 0x97, rest => .instr .irqMask rest
  | 0x98, rest => .instr .irqUnmask rest
  | 0xA0, rest => .instr .pollCancel rest
  | 0xA1, lo :: hi :: rest => .instr (.progressInit (hi ++ lo)) rest
  | 0xA2, lo :: hi :: rest => .instr (.progressDraw (hi ++ lo)) rest
  | 0xA3, rest => .instr .workTick rest
  | 0x92, _ => .reject .truncated
  | 0x93, _ => .reject .truncated
  | 0xA1, _ => .reject .truncated
  | 0xA2, _ => .reject .truncated
  | _, _ => .reject (.reservedLabel label)

/-- `write_slot`: physical slot, bank, offset (3 bytes), length (3 bytes), then the `length` bytes of the
buffer (R100, R141; log 21). -/
def decodeWriteSlot : List Byte → Decoded
  | ps :: bank :: o0 :: o1 :: o2 :: n0 :: n1 :: n2 :: rest =>
    let length := ofLE [n0, n1, n2]
    if rest.length < length then .reject .truncated
    else .instr (.writeSlot (rest.take length) ps bank (ofLE [o0, o1, o2]) length) (rest.drop length)
  | _ => .reject .truncated

/-- `read_slot`: buffer designator, physical slot, bank, offset, length (R100, R142; log 21). -/
def decodeReadSlot : List Byte → Decoded
  | buf :: ps :: bank :: o0 :: o1 :: o2 :: n0 :: n1 :: n2 :: rest =>
    .instr (.readSlot (bufOf buf) ps bank (ofLE [o0, o1, o2]) (ofLE [n0, n1, n2])) rest
  | _ => .reject .truncated

/-- `text_out`: the message's length (2 bytes), then its bytes (R100, R161; log 21). -/
def decodeTextOut : List Byte → Decoded
  | n0 :: n1 :: rest =>
    let length := ofLE [n0, n1]
    if rest.length < length then .reject .truncated
    else .instr (.textOut (rest.take length)) (rest.drop length)
  | _ => .reject .truncated

/-- Format `PORT`: one label byte, then the arguments (R90, R100). -/
def decodePort : List Byte → Decoded
  | [] => .reject .truncated
  | label :: args =>
    if label = 0x80 then
      match args with
      | dev :: ps :: bank :: rest => .instr (.eraseBank dev ps bank) rest
      | _ => .reject .truncated
    else if label = 0x81 then decodeWriteSlot args
    else if label = 0x82 then decodeReadSlot args
    else if label = 0xA4 then decodeTextOut args
    else shortPort label args

/-- Format `WIRE1`: one control byte (R96). Any other byte is none of them (R104). -/
def decodeWire : List Byte → Decoded
  | [] => .reject .truncated
  | b :: rest =>
    if b = Config.SOH then .instr .soh rest
    else if b = Config.EOT then .instr .eot rest
    else if b = Config.ACK then .instr .ack rest
    else if b = Config.NAK then .instr .nak rest
    else if b = Config.CAN then .instr .can rest
    else .reject (.notControl b)

/-- The first 128 bytes of a list that has them, as a block. -/
def blockOf (bytes : List Byte) (h : 128 ≤ bytes.length) : Vector Byte 128 :=
  ⟨(bytes.take 128).toArray, by simp [h]⟩

/-- Format `FRAME`: `SOH, seq, nseq`, 128 data bytes, checksum: 132 bytes (R95, R105). -/
def decodeFrame : List Byte → Decoded
  | b :: seq :: nseq :: rest =>
    if b = Config.SOH then
      if h : 128 < rest.length then
        .instr (.frame seq nseq (blockOf rest (Nat.le_of_lt h)) (rest.getD 128 0)) (rest.drop 129)
      else .reject .truncated
    else .reject (.notFrame b)
  | _ => .reject .truncated

/-- Format `OS`: one byte, high nibble size, low nibble offset (R93). -/
def decodeOsFormat : List Byte → Decoded
  | [] => .reject .truncated
  | b :: rest => .instr (.os (b.extractLsb' 4 4) (b.extractLsb' 0 4)) rest

/-- Format `SLOTV`: one byte (R92). -/
def decodeSlotv : List Byte → Decoded
  | [] => .reject .truncated
  | v :: rest => .instr (.slotv v) rest

/-- The decoder: the format says how the bytes are read (R90). -/
def decode : Format → List Byte → Decoded
  | .cmd, bytes => decodeCmd bytes
  | .port, bytes => decodePort bytes
  | .slotv, bytes => decodeSlotv bytes
  | .os, bytes => decodeOsFormat bytes
  | .wire1, bytes => decodeWire bytes
  | .frame, bytes => decodeFrame bytes
  | .internal, _ => .reject .noEncoding

/-- The encoder: the bytes of an instruction in its format (R91, R93, R95, R96, R98, R100, R108; log 21 for the
arguments of PORT units). The internal functions have none (R101). -/
def encode : Instr → List Byte
  | .resolveBank a0 a1 => [0x01, a0, a1]
  | .switchToSlot a0 a1 => [0x10, a0, a1]
  | .programToFlash a0 a1 => [0x11, a0, a1]
  | .restoreFromFlash a0 a1 => [0x12, a0, a1]
  | .erase a0 a1 => [0x13, a0, a1]
  | .flashImage a0 a1 => [0x14, a0, a1]
  | .xmOpen a0 a1 => [0x20, a0, a1]
  | .xmClose a0 a1 => [0x21, a0, a1]
  | .recvStart a0 a1 => [0x22, a0, a1]
  | .recvBlock a0 a1 => [0x23, a0, a1]
  | .sendStart a0 a1 => [0x30, a0, a1]
  | .sendBlock a0 a1 => [0x31, a0, a1]
  | .sendFinish a0 a1 => [0x32, a0, a1]
  | .installReceive a0 a1 => [0x40, a0, a1]
  | .eraseBank dev ps bank => [0x80, dev, ps, bank]
  | .writeSlot buffer ps bank offset length => [0x81, ps, bank] ++ toLE 3 offset ++ toLE 3 length ++ buffer
  | .readSlot buffer ps bank offset length =>
      [0x82, buffer.code, ps, bank] ++ toLE 3 offset ++ toLE 3 length
  | .unlock => [0x83]
  | .lock => [0x84]
  | .getLaunchSlot => [0x85]
  | .persist => [0x86]
  | .getc => [0x90]
  | .getcNb => [0x91]
  | .putc b => [0x92, b]
  | .serialOpen baud => [0x93, baud]
  | .serialClose => [0x94]
  | .rxIrqEnable => [0x95]
  | .haltWait => [0x96]
  | .irqMask => [0x97]
  | .irqUnmask => [0x98]
  | .pollCancel => [0xA0]
  | .progressInit max => [0xA1, max.extractLsb' 0 8, max.extractLsb' 8 8]
  | .progressDraw cur => [0xA2, cur.extractLsb' 0 8, cur.extractLsb' 8 8]
  | .workTick => [0xA3]
  | .textOut message => 0xA4 :: toLE 2 message.length ++ message
  | .soh => [Config.SOH]
  | .eot => [Config.EOT]
  | .ack => [Config.ACK]
  | .nak => [Config.NAK]
  | .can => [Config.CAN]
  | .frame seq nseq data checksum => [Config.SOH, seq, nseq] ++ data.toList ++ [checksum]
  | .os size offset => [osByte size offset]
  | .slotv v => [v]
  | .decodeOs _ => []
  | .checkGeometry .. => []

/-- The `n` bytes of a table word: byte `k` is bits `8k+7 .. 8k` (the table's numbering). -/
def wordBytes (n w : Nat) : List Byte := (List.range n).map fun k => BitVec.ofNat 8 (w >>> (8 * k))

/-- A label of R100. -/
def isPortLabel (b : Byte) : Bool :=
  decide (0x80 ≤ b.toNat ∧ b.toNat ≤ 0x86 ∨ 0x90 ≤ b.toNat ∧ b.toNat ≤ 0x98 ∨ 0xA0 ≤ b.toNat ∧ b.toNat ≤ 0xA4)

/-- Which format a table word is read in. The table does not say it: 1056 bits are a frame; otherwise the first
byte is looked for among the command codes, then the labels, then the control bytes; a byte that is none of
them can only be an operand (log 22: `0x01` is both RESOLVE_BANK and SOH, and reads as RESOLVE_BANK). -/
def tableFormat (nbits w : Nat) : Format :=
  let b : Byte := BitVec.ofNat 8 w
  if nbits = 1056 then .frame
  else if (commandOf b 0 0).isSome then .cmd
  else if isPortLabel b then .port
  else if b = Config.EOT ∨ b = Config.ACK ∨ b = Config.NAK ∨ b = Config.CAN then .wire1
  else .os

/-- The bytes of the unit a table word stands for: a command has three, a PORT unit is given sixteen (zeros
above the word), a frame 132, anything else one. -/
def tableBytes (nbits w : Nat) : List Byte :=
  match tableFormat nbits w with
  | .frame => wordBytes 132 w
  | .cmd => wordBytes 3 w
  | .port => wordBytes 16 w
  | _ => wordBytes 1 w

/-- The instruction the decoder reads from a table word. -/
def decodeTableWord (nbits w : Nat) : Option Instr :=
  match decode (tableFormat nbits w) (tableBytes nbits w) with
  | .instr i _ => some i
  | .reject _ => none

end Sys2Proof
end

