-- ==== Sys2Proof/Machine/State.lean ====
section
/-! DEFINITION. All the state CF-SEQ's spec gives the machine (R20-R47), as plain data; the reasons a step can
stop; the state after reset (R47, R300). -/

namespace Sys2Proof.Machine

/-- What an address that a memory does not list reads as: one known byte, or a value nobody knows (the
generation of the event that made it so; log 11). -/
inductive Fill where
  | byte (b : Byte)
  | free (generation : Nat)
deriving DecidableEq, Repr

/-- A byte-addressed memory: the listed bytes, and what an unlisted address reads as. -/
structure Mem where
  fill : Fill
  cells : List Host.Cell
deriving DecidableEq, Repr

/-- The settings record: the four fields CF-SEQ uses (R28 to R32). -/
structure Settings where
  /-- `ACTIVE_SLOT` (R29) -/
  activeSlot : Byte
  /-- `ACTIVE_OS` (R30) -/
  activeOs : Byte
  /-- `LEGACY_LAYOUT` (R31) -/
  legacyLayout : Bool
  /-- `PARTIAL_WRITES` (R32) -/
  partialWrites : Bool
deriving DecidableEq, Repr

/-- `XM_PHASE` (R36). -/
inductive Phase where
  | awaitStart
  | awaitBlock
  | sending
deriving DecidableEq, Repr

/-- The status codes (R27, R99). -/
inductive Status where
  | ok
  | error
  | cancel
  | selfCancel
  | complete
deriving DecidableEq, Repr

/-- The fatal causes (R270). -/
inductive FatalCode where
  | bankOverflow
  | oddGeometry
  | badSlot
  | lockUnderflow
  | lockOverflow
  | verifyMismatch
deriving DecidableEq, Repr

/-- The points of the commands' pseudocode (R25): each names one primitive, the one SEQ issues next. -/
inductive Label where
  | idle
  -- SWITCH_TO_SLOT (R170): `persist()` of the adoption, of NONE, of the new slot
  | swAdopt | swPersistNone | swPersistNew
  -- UPGRADE (R174): L; RAM bank 0 to 1, a read and a store; read the sibling; store it
  | upLaunch | upFetch | upMove | upRead | upStore
  -- PROGRAM_TO_FLASH (R173): P3; P4; P5 with PROGRAM_PAGE (R175, R176); P6
  | pgLaunch | pgUnlock | pgInit | pgErase | pgLoad | pgCompare | pgWrite | pgDraw | pgTick | pgLock
  -- RESTORE_FROM_FLASH (R178)
  | rsLaunch | rsInit | rsRead | rsStore | rsDraw | rsTick
  -- ERASE_RAM (R180)
  | erInit | erFill | erDraw | erTick
  -- ERASE_SLOTS (R181)
  | esLaunch | esUnlock | esInit | esErase | esDraw | esTick | esLock
  -- FLASH_IMAGE (R256)
  | fiLaunch | fiUnlock | fiInit | fiErase | fiLoad | fiWrite | fiRead | fiDraw | fiTick | fiLock
  -- XM_OPEN (R200), XM_CLOSE (R201)
  | xoOpen | xcClose
  -- RECV_BLOCK (R203)
  | rcPrime | rcMask | rcPoll | rcGet | rcSelf | rcCancel | rcEot | rcEotAck
  | rcSeq | rcNseq | rcData | rcCheck | rcGood | rcBad
  -- INSTALL_RECEIVE (R250 to R254)
  | inOpen | inStore | inClose | inPad | inTrailer
  -- SEND_START, SEND_BLOCK, SEND_FINISH (R230 to R234)
  | sdIrq | sdSoh | sdSeq | sdNseq | sdData | sdSum | sdEot | sdPoll | sdGet | sdHalt
deriving DecidableEq, Repr

/-- `SEQ_POS = (cmd, label, i, p)`, the position of SEQ inside the running command (R25). -/
structure SeqPos where
  cmd : Option Cmd
  label : Label
  i : Nat
  p : Nat
deriving DecidableEq, Repr

/-- `(IDLE, -, 0, 0)`, the position between commands (R25). -/
def SeqPos.idle : SeqPos := { cmd := none, label := .idle, i := 0, p := 0 }

/-- The variables of the commands' pseudocode (R21: `a0`, `a1`; the others log 20). They are dead between
commands. -/
structure Vars where
  /-- the sampled operands (R21) -/
  a0 : Byte
  a1 : Byte
  /-- the save slot of the running evict or load, and the first slot of an ERASE (R170, R173, R178, R181) -/
  slot : Byte
  /-- how many slots the running ERASE_SLOTS goes through (R181) -/
  slots : Nat
  /-- the descriptor of the running evict or load (R123) -/
  os : Byte
  /-- the decoded descriptor; UPGRADE changes both (R174) -/
  offset : Nat
  size : Nat
  /-- `L`, the value of `get_launch_slot()` (R173) -/
  launch : Byte
  /-- `s`, the received sequence byte (R203) -/
  seqByte : Byte
  /-- `sum` (R203, R231) -/
  sum : Byte
  /-- `r`, RECV_BLOCK's result inside INSTALL_RECEIVE (R250) -/
  status : Status
deriving DecidableEq, Repr

/-- What the last primitive returned (log 20). `waiting` says that a blocking primitive has not completed
(R150, R156). -/
inductive Ret where
  | done
  | byte (b : Byte)
  | noByte
  | flag (v : Bool)
  | waiting
deriving DecidableEq, Repr

/-- How the delta decoder works, a parameter with the default of R251 (U15, log 33): the start value, whether
"previous byte" is the encoded one, whether it starts again at each block. -/
structure DeltaVariant where
  start : Byte
  encoded : Bool
  perBlock : Bool
deriving DecidableEq, Repr

/-- The parameters the spec leaves OPEN (R6), as plain data that no step writes (log 12). -/
structure Params where
  /-- `SRAM_SLOTS` (D3) -/
  sramSlots : Nat
  /-- `ERASE_GRANULE` (D10) -/
  granule : Config.Granule
  /-- `BIOS_BANK` (D29) -/
  biosBank : Byte
  /-- `RX_DEPTH`, `none` for unbounded (D36) -/
  rxDepth : Option Nat
  /-- the delta decoder's variant (U15) -/
  delta : DeltaVariant
deriving DecidableEq, Repr

/-- What the host hands over: bytes of a format (R91, R100; log 3). -/
structure HostUnit where
  format : Format
  bytes : List Byte
deriving DecidableEq, Repr

/-- Where a power loss falls (R302): between two primitives, or inside the one at SEQ's position; inside
`persist()` the record is the new one if `persisted`, else the old one (R146). -/
inductive Cut where
  | between
  | inside (persisted : Bool)
deriving DecidableEq, Repr

/-- A move of an agent other than SEQ (R5, R162, R302). -/
inductive Move where
  /-- PEER appends a byte to `RXQ` (R162). -/
  | peer (b : Byte)
  /-- USER sets or clears `CANCEL_KEY` (R44). -/
  | key (down : Bool)
  /-- TIMER raises the tick (R278). -/
  | tick
  /-- POWER is lost and comes back; `launch` is the launch slot from then on (R302, R44). -/
  | power (cut : Cut) (launch : Byte)
  /-- HOST hands a unit over without waiting for SEQ to be idle (R21, R22). -/
  | host (u : HostUnit)
  /-- HOST writes one payload register (R39). -/
  | payload (k : Nat) (b : Byte)
deriving DecidableEq, Repr

/-- Whose turn it is (log 2). -/
inductive Turn where
  | seq
  | env (m : Move)
deriving DecidableEq, Repr

/-- The state of CF-SEQ. -/
structure State where
  -- the command interface registers (R20)
  cmd : Byte
  arg0 : Byte
  arg1 : Byte
  result : Byte
  resultAux : Byte
  -- the sequencer's position (R25) and its variables (R21, log 20)
  pos : SeqPos
  vars : Vars
  ret : Ret
  xfer : List Byte
  -- the settings record: working and persisted copy (R28)
  w : Settings
  p : Settings
  -- control and status (R33 to R38)
  lockDepth : Nat
  xmSeq : Byte
  xmRetry : Byte
  xmPhase : Phase
  portOpen : Bool
  irqMask : Bool
  rxie : Bool
  -- buffer registers (R39 to R41)
  blockbuf : Vector Byte 128
  pagebuf : Vector Byte 256
  cmpbuf : Vector Byte 256
  deltaPrev : Byte
  blkCount : Half
  -- fault and progress registers (R42, R43)
  halted : Bool
  diagCode : Byte
  diagAux : Half
  progCur : Half
  progMax : Half
  -- inputs (R44)
  cancelKey : Bool
  launchSlot : Byte
  -- memories (R45, R60)
  flash : Mem
  sram : Mem
  stg : Mem
  -- the serial line (R46)
  rxq : List Byte
  txlog : List Byte
  -- the model's own fields (logs 2, 3, 11, 12, 14, 15, 19)
  tickPending : Bool
  overrun : Bool
  freeNext : Nat
  defects : List Host.Cell
  par : Params
  sched : List Turn
  hostq : List HostUnit
deriving DecidableEq, Repr

/-- Where a step stops with a fault. -/
inductive Fault where
  /-- FLASH_IMAGE read a byte of `STG` that nothing has written (R47, U14). Raised by `stgLoad`. Safe. -/
  | unwrittenStaging
  /-- An access to `SRAM` outside its 8 banks (R148). Raised by `sramLoad`, `sramStore`. Safe. -/
  | outsideSram
  /-- An access to `STG` outside its 65536 bytes (R149). Raised by `stgLoad`, `stgStore`. Safe. -/
  | outsideStaging
deriving DecidableEq, Repr

/-- Where the spec says `refuse` (R11): no meaning, no state change. All are safe. -/
inductive Refusal where
  /-- An instruction without a meaning in this model, by its mnemonic. -/
  | notModelled (mnemonic : String)
  /-- Bytes that are no instruction of their format: a reserved `CMD` code (R102, U1); a `PORT` label that R100 does not
  list (DESIGN CHOICE: the spec is silent, log 5). Raised by the fetch. -/
  | notAnInstruction (r : Reject)
  /-- A descriptor that is not well-formed (R103, R120, U2). Raised by DECODE_OS and the commands that use it. -/
  | illFormedDescriptor
  /-- A slot operand that is no slot index (R125, R173, R178, U3). -/
  | notASlot
  /-- A sub-bank above 7 (R125). Raised by RESOLVE_BANK. -/
  | badSubBank
  /-- An ERASE target that is not a slot index, NONE or ALL (R179, U6). -/
  | badEraseTarget
  /-- `erase_bank` or `write_slot` while `LOCK_DEPTH = 0` (R140, R141, U8). -/
  | flashLocked
  /-- A driver call that would cross the end of a bank (R141, R142, U11). -/
  | crossesBank
  /-- A `write_slot` whose buffer does not have `length` bytes; a `read_slot` of more bytes than `PAGEBUF` or `CMPBUF`
  has registers (R40). DESIGN CHOICE: the spec is silent on both (log 5). -/
  | bufferLength
  /-- RECV_START or SEND_START with the port closed (R202, R230, U16). -/
  | portClosed
  /-- RECV_BLOCK, SEND_BLOCK or SEND_FINISH outside its session (R203, R231, R232, U16). -/
  | outsideSession
  /-- INSTALL_RECEIVE while a slot owns the RAM window (R250). -/
  | slotOwnsWindow
deriving DecidableEq, Repr

/-- The outcome of a step. -/
abbrev Outcome := Host.Outcome State Fault Refusal

/-- The variables before any command. DESIGN CHOICE: the spec gives none a reset value (log 6; unsafe). -/
def Vars.zero : Vars :=
  { a0 := 0, a1 := 0, slot := 0, slots := 0, os := 0, offset := 0, size := 0, launch := 0, seqByte := 0,
    sum := 0, status := .ok }

/-- The factory settings: `SLOT_FIRST_BOOT` (R29, R47); the other three DESIGN CHOICE 0 (log 7; unsafe). -/
def Settings.factory : Settings :=
  { activeSlot := Config.slotFirstBoot, activeOs := 0, legacyLayout := false, partialWrites := false }

/-- The parameters of an unnamed unit: the spec's defaults where it has one, free where it has none (log 12). -/
def Params.default : Params :=
  { sramSlots := Config.maxSlots, granule := Config.eraseGranule, biosBank := Config.biosBank, rxDepth := none,
    delta := { start := 0, encoded := false, perBlock := false } }

/-- The machine right after reset, on a factory-fresh unit (R47, R300, R304). Values the spec does not give are
those of logs 6 to 10, 12. -/
def State.reset : State :=
  { cmd := 0, arg0 := 0, arg1 := 0, result := 0, resultAux := 0
    pos := SeqPos.idle, vars := Vars.zero, ret := .done, xfer := []
    w := Settings.factory, p := Settings.factory
    lockDepth := 0, xmSeq := 0, xmRetry := 0, xmPhase := .awaitStart
    portOpen := false, irqMask := false, rxie := false
    blockbuf := Vector.replicate 128 0, pagebuf := Vector.replicate 256 0, cmpbuf := Vector.replicate 256 0
    deltaPrev := 0, blkCount := 0
    halted := false, diagCode := 0, diagAux := 0, progCur := 0, progMax := 0
    cancelKey := false, launchSlot := Config.launchSlot
    flash := { fill := .byte Config.erased, cells := [] }
    sram := { fill := .free 0, cells := [] }
    stg := { fill := .free 1, cells := [] }
    rxq := [], txlog := []
    tickPending := false, overrun := false, freeNext := 2, defects := []
    par := Params.default, sched := [], hostq := [] }

end Sys2Proof.Machine
end

