-- ==== Sys2Proof/Machine/Flags.lean ====
section
/-! DEFINITION. CF-SEQ has no arithmetic flags (R26). What plays their part: the status codes, the fatal codes,
the predicate that chooses the priming byte, the pending interrupt, the header and checksum tests. -/

namespace Sys2Proof.Machine

/-- The number a status writes to `RESULT` (R99). -/
def Status.code : Status → Byte
  | .ok => 0x00
  | .error => 0x01
  | .cancel => 0x02
  | .selfCancel => 0x03
  | .complete => 0x04

/-- The number of a fatal cause in `DIAG_CODE` (R270). -/
def FatalCode.code : FatalCode → Byte
  | .bankOverflow => 0x01
  | .oddGeometry => 0x02
  | .badSlot => 0x03
  | .lockUnderflow => 0x04
  | .lockOverflow => 0x05
  | .verifyMismatch => 0x06

/-- The priming byte: ACK when `XM_RETRY == 0`, else NAK (R26, R203, R208). -/
def primingByte (retry : Byte) : Byte := if retry = 0 then Config.ACK else Config.NAK

/-- `RX_IRQ_PENDING`: `RXIE == 1` and `RXQ` not empty (R46). It does not look at `IRQ_MASK` (log 18). -/
def State.rxIrqPending (s : State) : Bool := s.rxie && !s.rxq.isEmpty

/-- The header test: `s == XM_SEQ` and `ns == ~8(s)` (R203, R204). -/
def headerOk (expected seq nseq : Byte) : Bool := seq == expected && nseq == complement8 seq

/-- The three failing results of a receive (R250). -/
def Status.failed : Status → Bool
  | .error | .cancel | .selfCancel => true
  | .ok | .complete => false

/-- A command is running: SEQ is at a primitive (R22, R25). -/
def State.running (s : State) : Bool := s.pos.label != .idle

end Sys2Proof.Machine
end

