-- ==== Sys2Proof/Machine/Operands.lean ====
section
/-! DEFINITION. Every operand form of CF-SEQ: slot values (R92), the descriptor (R93, R94, R120), the geometry
rule (R123), the bank formula (R121), and the byte addresses of the memory spaces (R10, R60). -/

namespace Sys2Proof.Machine

/-- The operand is a save slot index: less than `SRAM_SLOTS` (R92). -/
def isSlot (par : Params) (v : Byte) : Bool := decide (v.toNat < par.sramSlots)

/-- `offset = os[3:0]` (R94). -/
def osOffset (os : Byte) : Nat := os.toNat % 16

/-- `size = os[7:4]` (R94). -/
def osSize (os : Byte) : Nat := os.toNat / 16

/-- DECODE_OS: the pair (offset, size), or nothing where the spec refuses (R120). -/
def osFields (os : Byte) : Option (Nat × Nat) :=
  if osSize os = 0 ∨ 8 < osSize os ∨ 7 < osOffset os ∨ 8 < osOffset os + osSize os then none
  else some (osOffset os, osSize os)

/-- `SRAM_OFFSET_SIZE(o, n) = (n << 4) | o` (R94). -/
def sramOffsetSize (o n : Nat) : Byte := BitVec.ofNat 8 (n * 16 + o)

/-- CHECK_GEOMETRY's test: an odd size or an odd offset (R123). -/
def oddGeometry (offset size : Nat) : Bool := offset % 2 == 1 || size % 2 == 1

/-- The naive bank number, over the naturals (R121). -/
def naiveBank (slot subBank : Nat) : Nat := Config.saveBase + slot * Config.banksPerSlot + subBank

/-- RESOLVE_BANK's number, before the limit test: the carve-out shifts numbers from `0xF4` on by 2 unless the
legacy layout is set (R121). -/
def bankNumber (legacy : Bool) (slot subBank : Nat) : Nat :=
  if !legacy && decide (Config.carveLo ≤ naiveBank slot subBank) then
    naiveBank slot subBank + Config.carveSkip
  else naiveBank slot subBank

/-- The first bank of the granule an erase of `bank` erases, and how many banks it has (R140): `bank` alone, or
the pair `bank & 0xFE`, `bank | 1`. -/
def eraseSpan (granule : Config.Granule) (bank : Byte) : Byte × Nat :=
  match granule with
  | .bank => (bank, 1)
  | .pair => (bank &&& 0xFE, 2)

/-- The key of `FLASH[dev][ps][bank][off]` (R60; log 29 for the device row's width). -/
def flashAddr (device physicalSlot bank : Byte) (off : Nat) : Nat :=
  ((device.toNat * 256 + physicalSlot.toNat) * 256 + bank.toNat) * Config.bankBytes + off

/-- The key of `SRAM[rb][off]` (R60). -/
def sramAddr (rb off : Nat) : Nat := rb * Config.bankBytes + off

/-- The byte after SOH and the header, data and checksum, as a frame is sent (R95, R108). -/
def frameTail (seq nseq : Byte) (data : List Byte) (checksum : Byte) : List Byte :=
  seq :: nseq :: data ++ [checksum]

/-- A good frame for a sequence number and 128 data bytes (R108). -/
def goodFrame (seq : Byte) (data : List Byte) : List Byte :=
  Config.SOH :: frameTail seq (complement8 seq) data (checksum8 data)

end Sys2Proof.Machine
end

