-- ==== Sys2Proof/Machine/Ops.lean ====
section
/-! DEFINITION. The operations every meaning is written with: the memories, the serial line, taking a fatal halt
(R282) and the reset that is the only return from one (R300), starting and ending a command. -/

namespace Sys2Proof.Machine

/-! ## Memory -/

/-- What an unlisted address reads as (logs 8, 9, 11). -/
def Fill.get : Fill → Nat → Byte
  | .byte b, _ => b
  | .free g, a => Config.freeByte g a

/-- The fill is this known byte; a free fill is no known byte (log 11). -/
def Fill.holds : Fill → Byte → Bool
  | .byte b, v => b == v
  | .free _, _ => false

/-- The listed byte at an address. -/
def findCell : List Host.Cell → Nat → Option Byte
  | [], _ => none
  | (k, v) :: cs, a => if k = a then some v else findCell cs a

/-- One byte of memory. -/
def Mem.get (m : Mem) (a : Nat) : Byte := (findCell m.cells a).getD (m.fill.get a)

/-- The byte is listed, or the fill is a known byte. -/
def Mem.known (m : Mem) (a : Nat) : Bool :=
  match m.fill with
  | .byte _ => true
  | .free _ => (findCell m.cells a).isSome

/-- `n` bytes from an address, lowest first: `MemRead` (R10, R67). -/
def Mem.bytes (m : Mem) (base n : Nat) : List Byte := (List.range n).map fun k => m.get (base + k)

/-- The cells that say "byte `f k` at `base + k`" for `k < n`, those the fill says left out. -/
def newCells (fill : Fill) (base n : Nat) (f : Nat → Byte) : List Host.Cell :=
  (List.range n).filterMap fun k => if fill.holds (f k) then none else some (base + k, f k)

/-- Store byte `f k` at `base + k` for `k < n`, keeping the canonical form: `MemWrite` (R10, R67). -/
def Mem.store (m : Mem) (base n : Nat) (f : Nat → Byte) : Mem :=
  { m with cells := m.cells.filter (fun c => decide (c.1 < base)) ++ newCells m.fill base n f
      ++ m.cells.filter (fun c => decide (base + n ≤ c.1)) }

/-- Store one byte in `n` addresses. Where the fill is that byte, the range is just unlisted. -/
def Mem.fillRange (m : Mem) (base n : Nat) (b : Byte) : Mem :=
  if m.fill.holds b then
    { m with cells := m.cells.filter (fun c => decide (c.1 < base))
        ++ m.cells.filter (fun c => decide (base + n ≤ c.1)) }
  else m.store base n fun _ => b

/-- Store a sequence of bytes, the first at the lowest address (R67). -/
def Mem.storeList (m : Mem) (base : Nat) (data : List Byte) : Mem :=
  m.store base data.length fun k => data.getD k 0

/-- The canonical form: addresses strictly rising, and no entry equal to the byte an unlisted address reads
as. -/
abbrev Mem.wf (m : Mem) : Prop :=
  m.cells.Pairwise (fun a b => a.1 < b.1) ∧ ∀ c ∈ m.cells, m.fill.holds c.2 = false

/-- A register file whose register `k` holds `f k`. -/
def tabulate (n : Nat) (f : Nat → Byte) : Vector Byte n :=
  ⟨((List.range n).map f).toArray, by simp⟩

/-! ## Flash (R140 to R142) -/

/-- Every byte of the granule's banks reads `0xFF` (R140). -/
def eraseFlash (granule : Config.Granule) (device physicalSlot bank : Byte) (flash : Mem) : Mem :=
  let span := eraseSpan granule bank
  flash.fillRange (flashAddr device physicalSlot span.1 0) (span.2 * Config.bankBytes) Config.erased

/-- The byte a program leaves: the defect's value where the cell has one (U10, log 15), else `old & new`
(R141, log 16). -/
def programmed (flash : Mem) (defects : List Host.Cell) (a : Nat) (b : Byte) : Byte :=
  (findCell defects a).getD (flash.get a &&& b)

/-- Program a sequence of bytes from an address on (R141). -/
def programFlash (defects : List Host.Cell) (base : Nat) (data : List Byte) (flash : Mem) : Mem :=
  flash.store base data.length fun k => programmed flash defects (base + k) (data.getD k 0)

/-- `buffer[k] <- byte k` for the bytes read (R142). -/
def fillBuf (b : Buf) (data : List Byte) (s : State) : State :=
  match b with
  | .pageBuf => { s with pagebuf := tabulate 256 fun k => data.getD k (s.pagebuf.toList.getD k 0) }
  | .cmpBuf => { s with cmpbuf := tabulate 256 fun k => data.getD k (s.cmpbuf.toList.getD k 0) }
  | .xferBuf => { s with xfer := data }

/-! ## Plain memory accesses (R148, R149) -/

/-- `MemRead(SRAM:rb:off, n)` into the transfer buffer (R148). Outside the window it faults (log 36). -/
def sramLoad (rb off n : Nat) (s : State) : Outcome :=
  if rb < Config.ramBanks ∧ off + n ≤ Config.bankBytes then
    .next { s with xfer := s.sram.bytes (sramAddr rb off) n, ret := .done }
  else .fault .outsideSram

/-- `MemWrite(SRAM:rb:off, n, v)` (R148). Outside the window it faults (log 36). -/
def sramStore (rb off : Nat) (data : List Byte) (s : State) : Outcome :=
  if rb < Config.ramBanks ∧ off + data.length ≤ Config.bankBytes then
    .next { s with sram := s.sram.storeList (sramAddr rb off) data, ret := .done }
  else .fault .outsideSram

/-- `MemRead(STG:0:off, n)` into the transfer buffer (R149). A byte that nothing has written faults (R47, U14). -/
def stgLoad (off n : Nat) (s : State) : Outcome :=
  if off + n ≤ Config.stgBytes then
    if (List.range n).all fun k => s.stg.known (off + k) then
      .next { s with xfer := s.stg.bytes off n, ret := .done }
    else .fault .unwrittenStaging
  else .fault .outsideStaging

/-- `MemWrite(STG:0:off, n, v)` (R149). Outside the space it faults (log 36). -/
def stgStore (off : Nat) (data : List Byte) (s : State) : Outcome :=
  if off + data.length ≤ Config.stgBytes then
    .next { s with stg := s.stg.storeList off data, ret := .done }
  else .fault .outsideStaging

/-! ## The serial line (R46, R162) -/

/-- A byte PEER sends goes to the tail of `RXQ` (R162). With a finite `RX_DEPTH` a byte that finds it full is an
overrun: the newest byte held, and every byte stored from then on, is a free value (U13, log 14). -/
def pushRx (b : Byte) (s : State) : State :=
  match s.par.rxDepth with
  | none => { s with rxq := s.rxq ++ [b] }
  | some depth =>
    if s.rxq.length < depth then
      if s.overrun then
        { s with rxq := s.rxq ++ [Config.freeByte s.freeNext 0], freeNext := s.freeNext + 1 }
      else { s with rxq := s.rxq ++ [b] }
    else if depth = 0 then { s with overrun := true }
    else
      { s with
        rxq := s.rxq.dropLast ++ [Config.freeByte s.freeNext 0], freeNext := s.freeNext + 1, overrun := true }

/-- Several bytes, one after the other. -/
def pushRxAll : List Byte → State → State
  | [], s => s
  | b :: bs, s => pushRxAll bs (pushRx b s)

/-! ## The fatal halt (R282) and the return from it (R300) -/

/-- `raise Fatal(code, aux)`: nothing but `HALTED`, `DIAG_CODE`, `DIAG_AUX` is written, nothing is saved, nothing
undone, and there is no handler (R282, R276). -/
def raiseFatal (code : FatalCode) (aux : Nat) (s : State) : State :=
  { s with halted := true, diagCode := code.code, diagAux := BitVec.ofNat 16 aux }

/-- After a halt no register, memory cell or port is written until reset (R42): an operation on a halted machine
changes nothing. -/
def whenLive (s : State) (o : Outcome) : Outcome := if s.halted then .next s else o

/-- Reset, the only one being power-on (R300, R301, R47): `FLASH`, `SRAM` and `P` are kept, `W <- P`, everything
volatile takes its reset value, `STG` is unspecified again (R64), the line is empty. The inputs and the model's
own fields that describe the world outside are kept; `launch` is the launch slot from now on (R44; log 26). -/
def powerUp (launch : Byte) (s : State) : State :=
  { State.reset with
      flash := s.flash, sram := s.sram, p := s.p, w := s.p
      stg := { fill := .free s.freeNext, cells := [] }, freeNext := s.freeNext + 1
      cancelKey := s.cancelKey, launchSlot := launch
      defects := s.defects, par := s.par, sched := s.sched, hostq := s.hostq }

/-! ## Commands (R21 to R23) -/

/-- SEQ goes to a point of the running command (R25). -/
def goto (label : Label) (i p : Nat) (s : State) : State :=
  { s with pos := { cmd := s.pos.cmd, label := label, i := i, p := p } }

/-- `return S`: `RESULT <- S`, and SEQ is idle (R11, R23, R25). -/
def finish (status : Status) (s : State) : State :=
  { s with result := status.code, pos := SeqPos.idle }

/-- A command starts only when no command is running and the machine is not halted (R22); it samples its
operands (R21). Otherwise it does not start and changes nothing (U17, log 4). -/
def startCommand (c : Cmd) (a0 a1 : Byte) (s : State) (body : State → Outcome) : Outcome :=
  if s.halted || s.running then .next s
  else body { s with
    pos := { cmd := some c, label := .idle, i := 0, p := 0 }, vars := { s.vars with a0 := a0, a1 := a1 } }

/-- The byte the last primitive returned (log 20). -/
def State.retByte (s : State) : Byte :=
  match s.ret with
  | .byte b => b
  | _ => 0

/-! ## Ends and branches of the transfer commands -/

/-- `end(S)` of RECV_BLOCK (R203): the session closes; the command returns, or INSTALL_RECEIVE goes to its shared
cleanup (R250, R255). -/
def recvEnd (status : Status) (s : State) : State :=
  let s := { s with xmPhase := .awaitStart }
  if s.pos.cmd = some .installReceive then
    goto .inClose 0 0 { s with vars := { s.vars with status := status } }
  else finish status s

/-- `end(S)` of the send side (R230, R235). -/
def sendEnd (status : Status) (s : State) : State := finish status { s with xmPhase := .awaitStart }

/-- The head of the send side's wait: SEND_FINISH's does not look at the cancel key (R232, R234). -/
def sendWait (s : State) : State :=
  if s.pos.cmd = some .sendFinish then goto .sdGet 0 0 s else goto .sdPoll 0 0 s

/-- The start of a transmission: a block, or SEND_FINISH's `EOT` (R231, R232). -/
def sendTransmit (s : State) : State :=
  if s.pos.cmd = some .sendFinish then goto .sdEot 0 0 s else goto .sdSoh 0 0 s

/-- A `NAK` while SEND_BLOCK or SEND_FINISH waits: one more retry, the tenth gives up (R231, R232; log 31). -/
def sendNak (s : State) : State :=
  let retry := s.xmRetry.toNat + 1
  let s := { s with xmRetry := BitVec.ofNat 8 retry }
  if 10 ≤ retry then sendEnd .error s else sendTransmit s

/-- A byte that ends a wait of the send side (R230 to R233). -/
def sendReply (c : Byte) (s : State) : State :=
  if c = Config.CAN then sendEnd .cancel s
  else if s.pos.cmd = some .sendStart then
    if c = Config.NAK then finish .ok s else sendWait s
  else if c = Config.NAK then sendNak s
  else if c = Config.ACK then
    if s.pos.cmd = some .sendFinish then sendEnd .complete s
    else finish .ok { s with xmSeq := s.xmSeq + 1 }
  else sendWait s

/-- The leading byte of a unit while RECV_BLOCK polls: `CAN`, `EOT`, `SOH`, any other, in that order (R203, R206,
R212, R281). -/
def recvLeading (c : Byte) (s : State) : State :=
  if c = Config.CAN then goto .rcCancel 0 0 s
  else if c = Config.EOT then goto .rcEot 0 0 s
  else if c = Config.SOH then goto .rcSeq 0 0 s
  else goto .rcBad 0 0 s

/-- A byte that stands first on the line: SEQ takes it where it waits for one (R203, R230 to R233); where it does
not, the byte stays on the line (R162; log 23). -/
def takeLeading (c : Byte) (s : State) : State :=
  match s.pos.label with
  | .rcGet => recvLeading c s
  | .sdGet => sendReply c s
  | _ => pushRx c s

end Sys2Proof.Machine
end

