-- ==== Sys2Proof/Machine/Bank.lean ====
section
/-! DEFINITION. Bank address computation (40_bank_address.md) and the two operand formats (R92, R93): RESOLVE_BANK,
DECODE_OS, CHECK_GEOMETRY, OS, SLOTV. -/

namespace Sys2Proof.Machine

/-- RESOLVE_BANK as a command (R121, R125): the bank number in `RESULT_AUX`, or `Fatal(BANK_OVERFLOW)`. -/
def execResolveBank (slot subBank : Byte) (s : State) : Outcome :=
  startCommand .resolveBank slot subBank s fun s =>
    if 7 < subBank.toNat then .refused .badSubBank
    else if !isSlot s.par slot then .refused .notASlot
    else
      let bank := bankNumber s.w.legacyLayout slot.toNat subBank.toNat
      if Config.bankLimit ≤ bank then .next (raiseFatal .bankOverflow bank s)
      else .next (finish .ok { s with resultAux := BitVec.ofNat 8 bank })

/-- DECODE_OS (R120): the running command's `offset` and `size`, or a refusal (log 25). -/
def execDecodeOs (os : Byte) (s : State) : Outcome :=
  whenLive s <|
    match osFields os with
    | none => .refused .illFormedDescriptor
    | some (offset, size) => .next { s with vars := { s.vars with offset := offset, size := size } }

/-- CHECK_GEOMETRY (R123): `Fatal(ODD_GEOMETRY, os)` for an odd size or offset, else nothing (log 25). -/
def execCheckGeometry (offset size : Nat) (os : Byte) (s : State) : Outcome :=
  whenLive s <|
    if oddGeometry offset size then .next (raiseFatal .oddGeometry os.toNat s) else .next s

/-- An `OS` byte is operand 1: the host writes it to `ARG1` (R20, R91, R93; log 24). -/
def execOs (size offset : BitVec 4) (s : State) : Outcome :=
  whenLive s <| .next { s with arg1 := osByte size offset }

/-- A `SLOTV` byte is operand 0: the host writes it to `ARG0` (R20, R91, R92; log 24). -/
def execSlotv (v : Byte) (s : State) : Outcome := whenLive s <| .next { s with arg0 := v }

end Sys2Proof.Machine
end

