-- ==== Sys2Proof/Machine/Install.lean ====
section
/-! DEFINITION. The starts of the firmware commands (45_firmware_install.md). -/

namespace Sys2Proof.Machine

/-- Every byte of `SRAM` becomes a free value, because `STG` may overlap it (R64, U18, D30; log 11). -/
def loseSram (s : State) : State :=
  { s with sram := { fill := .free s.freeNext, cells := [] }, freeNext := s.freeNext + 1 }

/-- INSTALL_RECEIVE (R250): refused while a slot owns the RAM window (I0), else from I1 on; `SRAM` is unspecified from
here on (R64, U18). -/
def execInstallReceive (baud arg1 : Byte) (s : State) : Outcome :=
  startCommand .installReceive baud arg1 s fun s =>
    if isSlot s.par s.w.activeSlot then .refused .slotOwnsWindow else .next (goto .inOpen 0 0 (loseSram s))

/-- FLASH_IMAGE (R256): from F0 on. -/
def execFlashImage (arg0 arg1 : Byte) (s : State) : Outcome :=
  startCommand .flashImage arg0 arg1 s fun s => .next (goto .fiLaunch 0 0 s)

/-- I1 of INSTALL_RECEIVE after `serial_open` (R250): the session and the decoder start, and the whole of `SRAM`, which
is unspecified since the command's start, is so anew (log 37). -/
def beginInstall (s : State) : State :=
  loseSram { s with
    xmSeq := 1, xmRetry := 1, xmPhase := .awaitBlock, deltaPrev := s.par.delta.start, blkCount := 0 }

/-- The decoded byte `k` of the block in `BLOCKBUF` (R251). -/
def deltaByte (k : Nat) (s : State) : Byte := s.blockbuf.toList.getD k 0 ^^^ s.deltaPrev

/-- What "previous byte" is after byte `k`: the decoded byte; the encoded one in the other variant (R251, U15). -/
def deltaNext (k : Nat) (s : State) : Byte :=
  if s.par.delta.encoded then s.blockbuf.toList.getD k 0 else deltaByte k s

/-- A block has been stored (R251, R252): the next one is asked for, or the 512th ends the loop. -/
def blockStored (s : State) : State :=
  let count := s.blkCount.toNat + 1
  let s := { s with
    blkCount := BitVec.ofNat 16 count
    deltaPrev := if s.par.delta.perBlock then s.par.delta.start else s.deltaPrev }
  if count < Config.imageBlocks then goto .rcPrime 0 0 s
  else goto .inClose 0 0 { s with vars := { s.vars with status := .ok } }

/-- CLEANUP after `serial_close` (R250, R255): a failing result is returned, otherwise the image is finished. -/
def installCleanup (s : State) : State :=
  let s := { s with xmPhase := .awaitStart }
  if s.vars.status.failed then finish s.vars.status s
  else if Config.xmBlock * s.blkCount.toNat < Config.stgBytes then
    goto .inPad 0 (Config.xmBlock * s.blkCount.toNat) s
  else goto .inTrailer 0 0 s

end Sys2Proof.Machine
end

