-- ==== Sys2Proof/Machine/Port.lean ====
section
/-! DEFINITION. The port primitives (41_port_primitives.md): the bank driver, the serial transport, the user
interface. Each leaves in `ret` what it returns (log 20). -/

namespace Sys2Proof.Machine

/-! ## Physical bank driver -/

/-- `erase_bank(device, physical_slot, bank)` (R140); refused while the flash is locked (U8). -/
def execEraseBank (device physicalSlot bank : Byte) (s : State) : Outcome :=
  whenLive s <|
    if s.lockDepth = 0 then .refused .flashLocked
    else .next { s with
      flash := eraseFlash s.par.granule device physicalSlot bank s.flash, ret := .done }

/-- `write_slot(buffer, physical_slot, bank, offset, length)` (R141), on device row 0. -/
def execWriteSlot (buffer : List Byte) (physicalSlot bank : Byte) (offset length : Nat) (s : State) : Outcome :=
  whenLive s <|
    if s.lockDepth = 0 then .refused .flashLocked
    else if Config.bankBytes < offset + length then .refused .crossesBank
    else if buffer.length ≠ length then .refused .bufferLength
    else .next { s with
      flash := programFlash s.defects (flashAddr 0 physicalSlot bank offset) buffer s.flash, ret := .done }

/-- `read_slot(buffer, physical_slot, bank, offset, length)` (R142), on device row 0; no lock is needed. DESIGN CHOICE: more
than 256 bytes into `PAGEBUF` or `CMPBUF` are refused; the spec is silent on a buffer that is too short (R40; log 5). -/
def execReadSlot (buffer : Buf) (physicalSlot bank : Byte) (offset length : Nat) (s : State) : Outcome :=
  whenLive s <|
    if Config.bankBytes < offset + length then .refused .crossesBank
    else if buffer.capacity < length then .refused .bufferLength
    else .next (fillBuf buffer (s.flash.bytes (flashAddr 0 physicalSlot bank offset) length) { s with ret := .done })

/-- `unlock()` (R143): one deeper, or `Fatal(LOCK_OVERFLOW)` at the end of the counter. -/
def execUnlock (s : State) : Outcome :=
  whenLive s <|
    if s.lockDepth = Config.lockMax then .next (raiseFatal .lockOverflow s.lockDepth s)
    else .next { s with lockDepth := s.lockDepth + 1, ret := .done }

/-- `lock()` (R144): one less deep, or `Fatal(LOCK_UNDERFLOW)` at 0. -/
def execLock (s : State) : Outcome :=
  whenLive s <|
    if s.lockDepth = 0 then .next (raiseFatal .lockUnderflow 0 s)
    else .next { s with lockDepth := s.lockDepth - 1, ret := .done }

/-- `get_launch_slot()` returns `LAUNCH_SLOT` (R145). -/
def execGetLaunchSlot (s : State) : Outcome := whenLive s <| .next { s with ret := .byte s.launchSlot }

/-- `persist()`: `P <- W` (R146). -/
def execPersist (s : State) : Outcome := whenLive s <| .next { s with p := s.w, ret := .done }

/-! ## Serial transport -/

/-- `getc()` waits for a byte and takes it (R150). An empty line leaves it waiting: nothing but the return value
is written. -/
def execGetc (s : State) : Outcome :=
  whenLive s <|
    match s.rxq with
    | [] => .next { s with ret := .waiting }
    | b :: rest => .next { s with rxq := rest, ret := .byte b }

/-- `getc_nb()` takes a byte or returns NOBYTE (R151). -/
def execGetcNb (s : State) : Outcome :=
  whenLive s <|
    match s.rxq with
    | [] => .next { s with ret := .noByte }
    | b :: rest => .next { s with rxq := rest, ret := .byte b }

/-- `putc(b)` appends to `TXLOG` and always completes (R152; log 28). -/
def execPutc (b : Byte) (s : State) : Outcome :=
  whenLive s <| .next { s with txlog := s.txlog ++ [b], ret := .done }

/-- `serial_open(baud)` (R153): the baud value is opaque and has no effect; `RXQ` is kept. -/
def execSerialOpen (_baud : Byte) (s : State) : Outcome :=
  whenLive s <| .next { s with portOpen := true, ret := .done }

/-- `serial_close()` (R154). -/
def execSerialClose (s : State) : Outcome :=
  whenLive s <| .next { s with portOpen := false, rxie := false, ret := .done }

/-- `rx_irq_enable()` (R155). -/
def execRxIrqEnable (s : State) : Outcome := whenLive s <| .next { s with rxie := true, ret := .done }

/-- `halt_wait()` returns at an interrupt: a pending receive interrupt, or a timer tick, which it takes (R156,
R277, R278; logs 18, 19). Otherwise it waits. -/
def execHaltWait (s : State) : Outcome :=
  whenLive s <|
    if s.rxIrqPending || s.tickPending then .next { s with tickPending := false, ret := .done }
    else .next { s with ret := .waiting }

/-- `irq_mask()` (R157). -/
def execIrqMask (s : State) : Outcome := whenLive s <| .next { s with irqMask := true, ret := .done }

/-- `irq_unmask()` (R157). -/
def execIrqUnmask (s : State) : Outcome := whenLive s <| .next { s with irqMask := false, ret := .done }

/-! ## User interface -/

/-- `poll_cancel()` returns the level of `CANCEL_KEY` and does not clear it (R158). -/
def execPollCancel (s : State) : Outcome := whenLive s <| .next { s with ret := .flag s.cancelKey }

/-- `progress_init(max)` (R159). -/
def execProgressInit (max : Half) (s : State) : Outcome :=
  whenLive s <| .next { s with progMax := max, progCur := 0, ret := .done }

/-- `progress_draw(cur)` (R159). -/
def execProgressDraw (cur : Half) (s : State) : Outcome :=
  whenLive s <| .next { s with progCur := cur, ret := .done }

/-- `work_tick()` changes no state of the model (R160). -/
def execWorkTick (s : State) : Outcome := whenLive s <| .next { s with ret := .done }

/-- `text_out(msg)` changes no state of the model (R161). -/
def execTextOut (_message : List Byte) (s : State) : Outcome := whenLive s <| .next { s with ret := .done }

end Sys2Proof.Machine
end

