-- ==== Sys2Proof/Machine/Relocation.lean ====
section
/-! DEFINITION. The starts of the save relocation commands (42_relocation.md): sampling, tests, first position.
Their primitives are issued by the sequencer (Machine/Sequencer.lean), one a step (R25, log 1). -/

namespace Sys2Proof.Machine

/-- P2 of PROGRAM_TO_FLASH: CHECK_GEOMETRY, then on to P3 (R173, R123). -/
def enterProgram (s : State) : State :=
  if oddGeometry s.vars.offset s.vars.size then raiseFatal .oddGeometry s.vars.os.toNat s
  else goto .pgLaunch 0 0 s

/-- PROGRAM_TO_FLASH from P1 on, for a decoded descriptor (R173): a size of 1 is upgraded first (R174). -/
def beginProgram (slot os : Byte) (offset size : Nat) (s : State) : State :=
  let s := { s with vars := { s.vars with slot := slot, os := os, offset := offset, size := size } }
  if size = 1 then goto .upLaunch 0 0 s else enterProgram s

/-- RESTORE_FROM_FLASH after its guards, for a decoded descriptor (R178). -/
def beginRestore (slot os : Byte) (offset size : Nat) (s : State) : State :=
  goto .rsLaunch 0 0 { s with vars := { s.vars with slot := slot, os := os, offset := offset, size := size } }

/-- PROGRAM_TO_FLASH (R173). -/
def execProgramToFlash (slot os : Byte) (s : State) : Outcome :=
  startCommand .programToFlash slot os s fun s =>
    if !isSlot s.par slot then .refused .notASlot
    else match osFields os with
      | none => .refused .illFormedDescriptor
      | some (offset, size) => .next (beginProgram slot os offset size s)

/-- RESTORE_FROM_FLASH (R178): no geometry check (U5). -/
def execRestoreFromFlash (slot os : Byte) (s : State) : Outcome :=
  startCommand .restoreFromFlash slot os s fun s =>
    if !isSlot s.par slot then .refused .notASlot
    else match osFields os with
      | none => .refused .illFormedDescriptor
      | some (offset, size) => .next (beginRestore slot os offset size s)

/-- ERASE_SLOTS (R181): `count` slots from `first` on, in ascending order. -/
def beginEraseSlots (first : Byte) (count : Nat) (s : State) : State :=
  goto .esLaunch 0 0 { s with vars := { s.vars with slot := first, slots := count } }

/-- ERASE (R179): the RAM mode (R180), one slot (R181), all slots (R182). -/
def execErase (target os : Byte) (s : State) : Outcome :=
  startCommand .erase target os s fun s =>
    match osFields os with
    | none => .refused .illFormedDescriptor
    | some (offset, size) =>
      let s := { s with vars := { s.vars with os := os, offset := offset, size := size } }
      if target = Config.slotNone then .next (goto .erInit 0 0 s)
      else if isSlot s.par target then .next (beginEraseSlots target 1 s)
      else if target = Config.slotAll then .next (beginEraseSlots 0 s.par.sramSlots s)
      else .refused .badEraseTarget

/-- Steps 4 and 5 of SWITCH_TO_SLOT, when both descriptors that will be used have been decoded (R170). -/
def switchBody (newSlot newOs : Byte) (s : State) : Outcome :=
  let cur := s.w.activeSlot
  if isSlot s.par cur then
    match osFields s.w.activeOs with
    | none => .refused .illFormedDescriptor
    | some (offset, size) =>
      if isSlot s.par newSlot && (osFields newOs).isNone then .refused .illFormedDescriptor
      else .next (beginProgram cur s.w.activeOs offset size s)
  else if newSlot = Config.slotNone then .next (finish .ok s)
  else
    match osFields newOs with
    | none => .refused .illFormedDescriptor
    | some (offset, size) => .next (beginRestore newSlot newOs offset size s)

/-- SWITCH_TO_SLOT (R170 to R172): the no-op test, the first-boot adoption, the two validations, then evict and
load. -/
def execSwitchToSlot (newSlot newOs : Byte) (s : State) : Outcome :=
  startCommand .switchToSlot newSlot newOs s fun s =>
    let cur := s.w.activeSlot
    if newSlot = cur ∧ newOs = s.w.activeOs then .next (finish .ok s)
    else if cur = Config.slotFirstBoot then
      if newSlot = Config.slotNone then .next (finish .ok s)
      else .next (goto .swAdopt 0 0 { s with w := { s.w with activeSlot := newSlot, activeOs := newOs } })
    else if !(isSlot s.par newSlot || newSlot == Config.slotNone) then
      .next (raiseFatal .badSlot newSlot.toNat s)
    else if !(isSlot s.par cur || cur == Config.slotNone) then
      .next (raiseFatal .badSlot cur.toNat s)
    else switchBody newSlot newOs s

end Sys2Proof.Machine
end

