-- ==== Sys2Proof/Machine/Transfer.lean ====
section
/-! DEFINITION. The starts of the transfer commands (43_xmodem_receive.md, 44_xmodem_send.md). -/

namespace Sys2Proof.Machine

/-- XM_OPEN (R200): `serial_open(baud)`, then `OK`. -/
def execXmOpen (baud arg1 : Byte) (s : State) : Outcome :=
  startCommand .xmOpen baud arg1 s fun s => .next (goto .xoOpen 0 0 s)

/-- XM_CLOSE (R201): `serial_close()`, the session ends, `OK`. -/
def execXmClose (arg0 arg1 : Byte) (s : State) : Outcome :=
  startCommand .xmClose arg0 arg1 s fun s => .next (goto .xcClose 0 0 s)

/-- RECV_START (R202): a new receive session; no primitive. -/
def execRecvStart (arg0 arg1 : Byte) (s : State) : Outcome :=
  startCommand .recvStart arg0 arg1 s fun s =>
    if s.portOpen then .next (finish .ok { s with xmSeq := 1, xmRetry := 1, xmPhase := .awaitBlock })
    else .refused .portClosed

/-- RECV_BLOCK (R203): from PRIME on. -/
def execRecvBlock (arg0 arg1 : Byte) (s : State) : Outcome :=
  startCommand .recvBlock arg0 arg1 s fun s =>
    if s.xmPhase = .awaitBlock then .next (goto .rcPrime 0 0 s) else .refused .outsideSession

/-- SEND_START (R230). -/
def execSendStart (arg0 arg1 : Byte) (s : State) : Outcome :=
  startCommand .sendStart arg0 arg1 s fun s =>
    if s.portOpen then .next (goto .sdIrq 0 0 { s with xmSeq := 1, xmRetry := 0, xmPhase := .sending })
    else .refused .portClosed

/-- SEND_BLOCK (R231): from XMIT on. -/
def execSendBlock (arg0 arg1 : Byte) (s : State) : Outcome :=
  startCommand .sendBlock arg0 arg1 s fun s =>
    if s.xmPhase = .sending then .next (sendTransmit { s with xmRetry := 0 }) else .refused .outsideSession

/-- SEND_FINISH (R232): from XMIT on. -/
def execSendFinish (arg0 arg1 : Byte) (s : State) : Outcome :=
  startCommand .sendFinish arg0 arg1 s fun s =>
    if s.xmPhase = .sending then .next (sendTransmit { s with xmRetry := 0 }) else .refused .outsideSession

end Sys2Proof.Machine
end

