-- ==== Sys2Proof/Machine/Wire.lean ====
section
/-! DEFINITION. The units of the serial line (R95, R96, R104, R105): what SEQ does with a unit that stands first on
the line. The byte `getc_nb` has taken is no longer in `RXQ` (log 23). -/

namespace Sys2Proof.Machine

/-- `SOH`: starts a frame while RECV_BLOCK polls; ignored by the send side (R203, R233). -/
def execSoh (s : State) : Outcome := whenLive s <| .next (takeLeading Config.SOH s)

/-- `EOT`: the clean end of the stream (R203, R212); ignored by the send side (R233). -/
def execEot (s : State) : Outcome := whenLive s <| .next (takeLeading Config.EOT s)

/-- `ACK`: a stray byte to RECV_BLOCK (R212); the block or the `EOT` was accepted, to the send side (R231, R232). -/
def execAck (s : State) : Outcome := whenLive s <| .next (takeLeading Config.ACK s)

/-- `NAK`: a stray byte to RECV_BLOCK (R212); start, or send again, to the send side (R230 to R232). -/
def execNak (s : State) : Outcome := whenLive s <| .next (takeLeading Config.NAK s)

/-- `CAN`: abort from the peer (R203, R209, R230 to R232). -/
def execCan (s : State) : Outcome := whenLive s <| .next (takeLeading Config.CAN s)

/-- A whole frame: its `SOH` stands first, the other 131 bytes follow it on the line (R95, R105). Where SEQ waits
for no leading byte all 132 stay on the line (log 23). -/
def execFrame (seq nseq : Byte) (data : Vector Byte 128) (checksum : Byte) (s : State) : Outcome :=
  whenLive s <|
    if s.pos.label = .rcGet ∨ s.pos.label = .sdGet then
      .next (takeLeading Config.SOH { s with rxq := frameTail seq nseq data.toList checksum ++ s.rxq })
    else .next (pushRxAll (Config.SOH :: frameTail seq nseq data.toList checksum) s)

end Sys2Proof.Machine
end

