-- ==== Sys2Proof/Machine/Dispatch.lean ====
section
/-! DEFINITION. The one match that gives every instruction its meaning. -/

namespace Sys2Proof.Machine

def exec (i : Instr) (s : State) : Host.Outcome State Fault Refusal :=
  match i with
  | .resolveBank slot subBank => Sys2Proof.Machine.execResolveBank slot subBank s
  | .switchToSlot newSlot newOs => Sys2Proof.Machine.execSwitchToSlot newSlot newOs s
  | .programToFlash slot desc => Sys2Proof.Machine.execProgramToFlash slot desc s
  | .restoreFromFlash slot desc => Sys2Proof.Machine.execRestoreFromFlash slot desc s
  | .erase target desc => Sys2Proof.Machine.execErase target desc s
  | .flashImage arg0 arg1 => Sys2Proof.Machine.execFlashImage arg0 arg1 s
  | .xmOpen baud arg1 => Sys2Proof.Machine.execXmOpen baud arg1 s
  | .xmClose arg0 arg1 => Sys2Proof.Machine.execXmClose arg0 arg1 s
  | .recvStart arg0 arg1 => Sys2Proof.Machine.execRecvStart arg0 arg1 s
  | .recvBlock arg0 arg1 => Sys2Proof.Machine.execRecvBlock arg0 arg1 s
  | .sendStart arg0 arg1 => Sys2Proof.Machine.execSendStart arg0 arg1 s
  | .sendBlock arg0 arg1 => Sys2Proof.Machine.execSendBlock arg0 arg1 s
  | .sendFinish arg0 arg1 => Sys2Proof.Machine.execSendFinish arg0 arg1 s
  | .installReceive baud arg1 => Sys2Proof.Machine.execInstallReceive baud arg1 s
  | .eraseBank device physicalSlot bank => Sys2Proof.Machine.execEraseBank device physicalSlot bank s
  | .writeSlot buffer physicalSlot bank offset length => Sys2Proof.Machine.execWriteSlot buffer physicalSlot bank offset length s
  | .readSlot buffer physicalSlot bank offset length => Sys2Proof.Machine.execReadSlot buffer physicalSlot bank offset length s
  | .unlock => Sys2Proof.Machine.execUnlock s
  | .lock => Sys2Proof.Machine.execLock s
  | .getLaunchSlot => Sys2Proof.Machine.execGetLaunchSlot s
  | .persist => Sys2Proof.Machine.execPersist s
  | .getc => Sys2Proof.Machine.execGetc s
  | .getcNb => Sys2Proof.Machine.execGetcNb s
  | .putc b => Sys2Proof.Machine.execPutc b s
  | .serialOpen baud => Sys2Proof.Machine.execSerialOpen baud s
  | .serialClose => Sys2Proof.Machine.execSerialClose s
  | .rxIrqEnable => Sys2Proof.Machine.execRxIrqEnable s
  | .haltWait => Sys2Proof.Machine.execHaltWait s
  | .irqMask => Sys2Proof.Machine.execIrqMask s
  | .irqUnmask => Sys2Proof.Machine.execIrqUnmask s
  | .pollCancel => Sys2Proof.Machine.execPollCancel s
  | .progressInit max => Sys2Proof.Machine.execProgressInit max s
  | .progressDraw cur => Sys2Proof.Machine.execProgressDraw cur s
  | .workTick => Sys2Proof.Machine.execWorkTick s
  | .textOut message => Sys2Proof.Machine.execTextOut message s
  | .soh => Sys2Proof.Machine.execSoh s
  | .eot => Sys2Proof.Machine.execEot s
  | .ack => Sys2Proof.Machine.execAck s
  | .nak => Sys2Proof.Machine.execNak s
  | .can => Sys2Proof.Machine.execCan s
  | .frame seq nseq data checksum => Sys2Proof.Machine.execFrame seq nseq data checksum s
  | .os size offset => Sys2Proof.Machine.execOs size offset s
  | .slotv v => Sys2Proof.Machine.execSlotv v s
  | .decodeOs desc => Sys2Proof.Machine.execDecodeOs desc s
  | .checkGeometry offset size desc => Sys2Proof.Machine.execCheckGeometry offset size desc s

end Sys2Proof.Machine
end

