-- ==== Sys2Proof/Machine/Sequencer.lean ====
section
/-! DEFINITION. SEQ inside a running command (R25): which primitive it issues at each point of the pseudocode
(`want`), and what it does when that primitive has completed (`resume`). One primitive is one step (`runStep`). -/

namespace Sys2Proof.Machine

/-- A primitive: a port primitive, or a plain access to `SRAM` or `STG` (R10, R148, R149, R302). -/
inductive Prim where
  | port (i : Instr)
  | sramLoad (rb off n : Nat)
  | sramStore (rb off : Nat) (data : List Byte)
  | stgLoad (off n : Nat)
  | stgStore (off : Nat) (data : List Byte)
deriving DecidableEq, Repr

/-- What SEQ does next: issue a primitive, or raise a fatal halt before it (R121); between commands nothing. -/
inductive Want where
  | nothing
  | prim (p : Prim)
  | fatal (code : FatalCode) (aux : Nat)
deriving DecidableEq, Repr

/-- Carry out a primitive. -/
def Prim.run : Prim → State → Outcome
  | .port i, s => exec i s
  | .sramLoad rb off n, s => Machine.sramLoad rb off n s
  | .sramStore rb off data, s => Machine.sramStore rb off data s
  | .stgLoad off n, s => Machine.stgLoad off n s
  | .stgStore off data, s => Machine.stgStore off data s

/-- A primitive on the bank RESOLVE_BANK gives, or its fatal halt (R121, R124). -/
def onBank (s : State) (slot subBank : Nat) (k : Byte → Prim) : Want :=
  let bank := bankNumber s.w.legacyLayout slot subBank
  if Config.bankLimit ≤ bank then .fatal .bankOverflow bank else .prim (k (BitVec.ofNat 8 bank))

/-- The live bank of a size-1 region is the upper bank of its pair (R174). -/
def upperHalf (s : State) : Bool := s.vars.offset % 2 == 1

/-- The sub-bank of the sibling in a size-1 region's pair (R174). -/
def siblingSubBank (s : State) : Nat :=
  if upperHalf s then s.vars.offset - 1 else s.vars.offset + 1

/-- A step number of the progress bar, 16 bits (R43, R159). -/
def stepNumber (n : Nat) : Half := BitVec.ofNat 16 n

/-- What SEQ issues at its position. -/
def want (s : State) : Want :=
  let v := s.vars
  let i := s.pos.i
  let p := s.pos.p
  match s.pos.label with
  | .idle => .nothing
  -- SWITCH_TO_SLOT (R170)
  | .swAdopt => .prim (.port .persist)
  | .swPersistNone => .prim (.port .persist)
  | .swPersistNew => .prim (.port .persist)
  -- UPGRADE (R174)
  | .upLaunch => .prim (.port .getLaunchSlot)
  | .upFetch => .prim (.sramLoad 0 (2048 * p) Config.chunkBytes)
  | .upMove => .prim (.sramStore 1 (2048 * p) s.xfer)
  | .upRead =>
      onBank s v.slot.toNat (siblingSubBank s) fun b =>
        .port (.readSlot .xferBuf v.launch b (2048 * p) Config.chunkBytes)
  | .upStore => .prim (.sramStore (if upperHalf s then 0 else 1) (2048 * p) s.xfer)
  -- PROGRAM_TO_FLASH (R173, R175, R176, R177)
  | .pgLaunch => .prim (.port .getLaunchSlot)
  | .pgUnlock => .prim (.port .unlock)
  | .pgInit => .prim (.port (.progressInit (stepNumber (256 * v.size))))
  | .pgErase => onBank s v.slot.toNat (v.offset + i) fun b => .port (.eraseBank 0 v.launch b)
  | .pgLoad => .prim (.sramLoad i (256 * p) Config.pageBytes)
  | .pgCompare =>
      onBank s v.slot.toNat (v.offset + i) fun b =>
        .port (.readSlot .cmpBuf v.launch b (256 * p) Config.pageBytes)
  | .pgWrite =>
      onBank s v.slot.toNat (v.offset + i) fun b =>
        .port (.writeSlot s.pagebuf.toList v.launch b (256 * p) Config.pageBytes)
  | .pgDraw => .prim (.port (.progressDraw (stepNumber (256 * i + p + 1))))
  | .pgTick => .prim (.port .workTick)
  | .pgLock => .prim (.port .lock)
  -- RESTORE_FROM_FLASH (R178)
  | .rsLaunch => .prim (.port .getLaunchSlot)
  | .rsInit => .prim (.port (.progressInit (stepNumber (32 * v.size))))
  | .rsRead =>
      onBank s v.slot.toNat (v.offset + i) fun b =>
        .port (.readSlot .xferBuf v.launch b (2048 * p) Config.chunkBytes)
  | .rsStore => .prim (.sramStore i (2048 * p) s.xfer)
  | .rsDraw => .prim (.port (.progressDraw (stepNumber (32 * i + p + 1))))
  | .rsTick => .prim (.port .workTick)
  -- ERASE_RAM (R180)
  | .erInit => .prim (.port (.progressInit (stepNumber v.size)))
  | .erFill => .prim (.sramStore i (2048 * p) (List.replicate Config.chunkBytes Config.padByte))
  | .erDraw => .prim (.port (.progressDraw (stepNumber (i + 1))))
  | .erTick => .prim (.port .workTick)
  -- ERASE_SLOTS (R181): slot number `i` of the list, sub-bank number `p` of the region
  | .esLaunch => .prim (.port .getLaunchSlot)
  | .esUnlock => .prim (.port .unlock)
  | .esInit => .prim (.port (.progressInit (stepNumber (v.slots * v.size))))
  | .esErase => onBank s (v.slot.toNat + i) (v.offset + p) fun b => .port (.eraseBank 0 v.launch b)
  | .esDraw => .prim (.port (.progressDraw (stepNumber (i * v.size + p + 1))))
  | .esTick => .prim (.port .workTick)
  | .esLock => .prim (.port .lock)
  -- FLASH_IMAGE (R256)
  | .fiLaunch => .prim (.port .getLaunchSlot)
  | .fiUnlock => .prim (.port .unlock)
  | .fiInit => .prim (.port (.progressInit (stepNumber 256)))
  | .fiErase => .prim (.port (.eraseBank 0 v.launch s.par.biosBank))
  | .fiLoad => .prim (.stgLoad (256 * p) Config.pageBytes)
  | .fiWrite =>
      .prim (.port (.writeSlot s.pagebuf.toList v.launch s.par.biosBank (256 * p) Config.pageBytes))
  | .fiRead => .prim (.port (.readSlot .cmpBuf v.launch s.par.biosBank (256 * p) Config.pageBytes))
  | .fiDraw => .prim (.port (.progressDraw (stepNumber (p + 1))))
  | .fiTick => .prim (.port .workTick)
  | .fiLock => .prim (.port .lock)
  -- XM_OPEN, XM_CLOSE (R200, R201)
  | .xoOpen => .prim (.port (.serialOpen v.a0))
  | .xcClose => .prim (.port .serialClose)
  -- RECV_BLOCK (R203)
  | .rcPrime => .prim (.port (.putc (primingByte s.xmRetry)))
  | .rcMask => .prim (.port .irqMask)
  | .rcPoll => .prim (.port .pollCancel)
  | .rcGet => .prim (.port .getcNb)
  | .rcSelf => .prim (.port .irqUnmask)
  | .rcCancel => .prim (.port .irqUnmask)
  | .rcEot => .prim (.port .irqUnmask)
  | .rcEotAck => .prim (.port (.putc Config.ACK))
  | .rcSeq => .prim (.port .getc)
  | .rcNseq => .prim (.port .getc)
  | .rcData => .prim (.port .getc)
  | .rcCheck => .prim (.port .getc)
  | .rcGood => .prim (.port .irqUnmask)
  | .rcBad => .prim (.port .irqUnmask)
  -- INSTALL_RECEIVE (R250 to R254)
  | .inOpen => .prim (.port (.serialOpen v.a0))
  | .inStore => .prim (.stgStore (128 * s.blkCount.toNat + p) [deltaByte p s])
  | .inClose => .prim (.port .serialClose)
  | .inPad => .prim (.stgStore p [Config.padByte])
  | .inTrailer => .prim (.stgStore Config.trailerOff (Config.trailer s.blkCount.toNat).toList)
  -- SEND_START, SEND_BLOCK, SEND_FINISH (R230 to R234)
  | .sdIrq => .prim (.port .rxIrqEnable)
  | .sdSoh => .prim (.port (.putc Config.SOH))
  | .sdSeq => .prim (.port (.putc s.xmSeq))
  | .sdNseq => .prim (.port (.putc (complement8 s.xmSeq)))
  | .sdData => .prim (.port (.putc (s.blockbuf.toList.getD p 0)))
  | .sdSum => .prim (.port (.putc v.sum))
  | .sdEot => .prim (.port (.putc Config.EOT))
  | .sdPoll => .prim (.port .pollCancel)
  | .sdGet => .prim (.port .getcNb)
  | .sdHalt => .prim (.port .haltWait)

/-- `L = get_launch_slot()` (R173). -/
def takeLaunch (s : State) : State := { s with vars := { s.vars with launch := s.retByte } }

/-- The end of UPGRADE: the region is the even pair (R174). -/
def upgraded (s : State) : State :=
  enterProgram { s with
    vars := { s.vars with
      offset := if upperHalf s then s.vars.offset - 1 else s.vars.offset, size := 2 } }

/-- The end of PROGRAM_TO_FLASH: `OK`, or step 4 of SWITCH_TO_SLOT goes on (R170, R173). -/
def programDone (s : State) : State :=
  if s.pos.cmd = some .switchToSlot then
    goto .swPersistNone 0 0 { s with w := { s.w with activeSlot := Config.slotNone } }
  else finish .ok s

/-- The end of RESTORE_FROM_FLASH: `OK`, or step 5 of SWITCH_TO_SLOT goes on (R170, R178). -/
def restoreDone (s : State) : State :=
  if s.pos.cmd = some .switchToSlot then
    goto .swPersistNew 0 0 { s with w := { s.w with activeSlot := s.vars.a0, activeOs := s.vars.a1 } }
  else finish .ok s

/-- After `persist()` of NONE: the load, unless the new slot is NONE (R170 step 5). -/
def switchLoad (s : State) : Outcome :=
  if s.vars.a0 = Config.slotNone then .next (finish .ok s)
  else
    match osFields s.vars.a1 with
    | none => .refused .illFormedDescriptor
    | some (offset, size) => .next (beginRestore s.vars.a0 s.vars.a1 offset size s)

/-- The unit that starts with the byte `getc_nb` returned, taken from the line: a whole frame if it is all there,
else one control byte, else a stray byte (R104, R105). -/
def takeUnitFromLine (c : Byte) (s : State) : Outcome :=
  match decode .frame (c :: s.rxq) with
  | .instr i rest => exec i { s with rxq := rest }
  | .reject _ =>
    match decode .wire1 [c] with
    | .instr i _ => exec i s
    | .reject _ => .next (takeLeading c s)

/-- After the header bytes (R203, R204): the data, or `CANCEL`. -/
def headerRead (nseq : Byte) (s : State) : State :=
  if headerOk s.xmSeq s.vars.seqByte nseq then
    goto .rcData 0 0 { s with vars := { s.vars with sum := 0 } }
  else goto .rcCancel 0 0 s

/-- A data byte of the frame (R203). -/
def dataRead (b : Byte) (s : State) : State :=
  let s := { s with
    blockbuf := s.blockbuf.setIfInBounds s.pos.p b, vars := { s.vars with sum := s.vars.sum + b } }
  if s.pos.p + 1 < Config.xmBlock then goto .rcData 0 (s.pos.p + 1) s else goto .rcCheck 0 0 s

/-- The checksum byte of the frame (R203, R205). -/
def checksumRead (ck : Byte) (s : State) : State :=
  if s.vars.sum = ck then goto .rcGood 0 0 { s with xmSeq := s.xmSeq + 1, xmRetry := 0 }
  else goto .rcBad 0 0 s

/-- The rest of BAD (R203, R207; log 31): one more retry; above 10 the session ends with `ERROR`. -/
def badUnit (s : State) : State :=
  let retry := s.xmRetry.toNat + 1
  let s := { s with xmRetry := BitVec.ofNat 8 retry }
  if Config.xmMaxRetry < retry then recvEnd .error s else goto .rcPrime 0 0 s

/-- What SEQ does when the primitive at its position has completed. -/
def resume (s : State) : Outcome :=
  let v := s.vars
  let i := s.pos.i
  let p := s.pos.p
  match s.pos.label with
  | .idle => .next s
  -- SWITCH_TO_SLOT (R170)
  | .swAdopt => .next (finish .ok s)
  | .swPersistNone => switchLoad s
  | .swPersistNew => .next (finish .ok s)
  -- UPGRADE (R174)
  | .upLaunch =>
      .next (if upperHalf s then goto .upFetch 0 0 (takeLaunch s) else goto .upRead 0 0 (takeLaunch s))
  | .upFetch => .next (goto .upMove 0 p s)
  | .upMove => .next (if p + 1 < 32 then goto .upFetch 0 (p + 1) s else goto .upRead 0 0 s)
  | .upRead => .next (goto .upStore 0 p s)
  | .upStore => .next (if p + 1 < 32 then goto .upRead 0 (p + 1) s else upgraded s)
  -- PROGRAM_TO_FLASH (R173)
  | .pgLaunch => .next (goto .pgUnlock 0 0 (takeLaunch s))
  | .pgUnlock => .next (goto .pgInit 0 0 s)
  | .pgInit => .next (goto .pgErase 0 0 s)
  | .pgErase => .next (if i + 1 < v.size then goto .pgErase (i + 1) 0 s else goto .pgLoad 0 0 s)
  | .pgLoad =>
      let s := { s with pagebuf := tabulate 256 fun k => s.xfer.getD k 0 }
      .next (if s.w.partialWrites then goto .pgCompare i p s else goto .pgWrite i p s)
  | .pgCompare => .next (if s.cmpbuf = s.pagebuf then goto .pgDraw i p s else goto .pgWrite i p s)
  | .pgWrite => .next (goto .pgDraw i p s)
  | .pgDraw => .next (goto .pgTick i p s)
  | .pgTick =>
      .next (if p + 1 < 256 then goto .pgLoad i (p + 1) s
        else if i + 1 < v.size then goto .pgLoad (i + 1) 0 s
        else goto .pgLock 0 0 s)
  | .pgLock => .next (programDone s)
  -- RESTORE_FROM_FLASH (R178)
  | .rsLaunch => .next (goto .rsInit 0 0 (takeLaunch s))
  | .rsInit => .next (goto .rsRead 0 0 s)
  | .rsRead => .next (goto .rsStore i p s)
  | .rsStore => .next (goto .rsDraw i p s)
  | .rsDraw => .next (goto .rsTick i p s)
  | .rsTick =>
      .next (if p + 1 < 32 then goto .rsRead i (p + 1) s
        else if i + 1 < v.size then goto .rsRead (i + 1) 0 s
        else restoreDone s)
  -- ERASE_RAM (R180)
  | .erInit => .next (goto .erFill 0 0 s)
  | .erFill => .next (if p + 1 < 32 then goto .erFill i (p + 1) s else goto .erDraw i 0 s)
  | .erDraw => .next (goto .erTick i 0 s)
  | .erTick => .next (if i + 1 < v.size then goto .erFill (i + 1) 0 s else finish .ok s)
  -- ERASE_SLOTS (R181)
  | .esLaunch => .next (goto .esUnlock 0 0 (takeLaunch s))
  | .esUnlock => .next (goto .esInit 0 0 s)
  | .esInit => .next (if 0 < v.slots then goto .esErase 0 0 s else goto .esLock 0 0 s)
  | .esErase => .next (goto .esDraw i p s)
  | .esDraw => .next (goto .esTick i p s)
  | .esTick =>
      .next (if p + 1 < v.size then goto .esErase i (p + 1) s
        else if i + 1 < v.slots then goto .esErase (i + 1) 0 s
        else goto .esLock 0 0 s)
  | .esLock => .next (finish .ok s)
  -- FLASH_IMAGE (R256, R257)
  | .fiLaunch => .next (goto .fiUnlock 0 0 (takeLaunch s))
  | .fiUnlock => .next (goto .fiInit 0 0 s)
  | .fiInit => .next (goto .fiErase 0 0 s)
  | .fiErase => .next (goto .fiLoad 0 0 s)
  | .fiLoad => .next (goto .fiWrite 0 p { s with pagebuf := tabulate 256 fun k => s.xfer.getD k 0 })
  | .fiWrite => .next (goto .fiRead 0 p s)
  | .fiRead => .next (if s.cmpbuf = s.pagebuf then goto .fiDraw 0 p s else raiseFatal .verifyMismatch p s)
  | .fiDraw => .next (goto .fiTick 0 p s)
  | .fiTick => .next (if p + 1 < 256 then goto .fiLoad 0 (p + 1) s else goto .fiLock 0 0 s)
  | .fiLock => .next (finish .ok s)
  -- XM_OPEN, XM_CLOSE (R200, R201)
  | .xoOpen => .next (finish .ok s)
  | .xcClose => .next (finish .ok { s with xmPhase := .awaitStart })
  -- RECV_BLOCK (R203)
  | .rcPrime => .next (goto .rcMask 0 0 s)
  | .rcMask => .next (goto .rcPoll 0 0 s)
  | .rcPoll => .next (if s.ret = .flag true then goto .rcSelf 0 0 s else goto .rcGet 0 0 s)
  | .rcGet => if s.ret = .noByte then .next (goto .rcPoll 0 0 s) else takeUnitFromLine s.retByte s
  | .rcSelf => .next (recvEnd .selfCancel s)
  | .rcCancel => .next (recvEnd .cancel s)
  | .rcEot => .next (goto .rcEotAck 0 0 s)
  | .rcEotAck => .next (recvEnd .complete s)
  | .rcSeq => .next (goto .rcNseq 0 0 { s with vars := { v with seqByte := s.retByte } })
  | .rcNseq => .next (headerRead s.retByte s)
  | .rcData => .next (dataRead s.retByte s)
  | .rcCheck => .next (checksumRead s.retByte s)
  | .rcGood =>
      .next (if s.pos.cmd = some .installReceive then goto .inStore 0 0 s else finish .ok s)
  | .rcBad => .next (badUnit s)
  -- INSTALL_RECEIVE (R250 to R254)
  | .inOpen => .next (goto .rcPrime 0 0 (beginInstall s))
  | .inStore =>
      let s := { s with deltaPrev := deltaNext p s }
      .next (if p + 1 < Config.xmBlock then goto .inStore 0 (p + 1) s else blockStored s)
  | .inClose => .next (installCleanup s)
  | .inPad => .next (if p + 1 < Config.stgBytes then goto .inPad 0 (p + 1) s else goto .inTrailer 0 0 s)
  | .inTrailer => .next (finish .complete s)
  -- SEND_START, SEND_BLOCK, SEND_FINISH (R230 to R234)
  | .sdIrq => .next (sendWait s)
  | .sdSoh => .next (goto .sdSeq 0 0 s)
  | .sdSeq => .next (goto .sdNseq 0 0 s)
  | .sdNseq => .next (goto .sdData 0 0 { s with vars := { v with sum := 0 } })
  | .sdData =>
      let s := { s with vars := { v with sum := v.sum + s.blockbuf.toList.getD p 0 } }
      .next (if p + 1 < Config.xmBlock then goto .sdData 0 (p + 1) s else goto .sdSum 0 0 s)
  | .sdSum => .next (sendWait s)
  | .sdEot => .next (sendWait s)
  | .sdPoll => .next (if s.ret = .flag true then sendEnd .selfCancel s else goto .sdGet 0 0 s)
  | .sdGet => if s.ret = .noByte then .next (goto .sdHalt 0 0 s) else takeUnitFromLine s.retByte s
  | .sdHalt => .next (sendWait s)

/-- What follows a primitive: a halt stops SEQ (R282), a primitive that waits leaves SEQ where it is (R150, R156),
a completed one lets it go on (R25). -/
def afterPrim (o : Outcome) : Outcome :=
  match o with
  | .next t => if t.halted || t.ret == .waiting then .next t else resume t
  | .fault r => .fault r
  | .refused r => .refused r

/-- One step of the running command: the primitive at SEQ's position, and SEQ moves past it (R25). -/
def runStep (s : State) : Outcome :=
  match want s with
  | .nothing => .next s
  | .fatal code aux => .next (raiseFatal code aux s)
  | .prim pr => afterPrim (pr.run s)

end Sys2Proof.Machine
end

