-- ==== Sys2Proof/Machine/Environment.lean ====
section
/-! DEFINITION. The agents other than SEQ (R5, R162): HOST handing units over (R20 to R22), PEER, USER, TIMER, and
POWER with the damage a loss does inside a primitive (R302). -/

namespace Sys2Proof.Machine

/-- The host writes the command registers with a command word (R20, R91). -/
def writeCommandRegisters (u : HostUnit) (s : State) : State :=
  if u.format = .cmd then
    { s with cmd := u.bytes.getD 0 0, arg0 := u.bytes.getD 1 0, arg1 := u.bytes.getD 2 0 }
  else s

/-- SEQ, idle, takes a unit: its bytes are decoded in its format and the instruction runs. A direct call that
waits stays first in the host's queue (R150; log 3). -/
def takeUnit (u : HostUnit) (s : State) : Outcome :=
  match decode u.format u.bytes with
  | .reject r => .refused (.notAnInstruction r)
  | .instr i _ =>
    match exec i (writeCommandRegisters u { s with ret := .done }) with
    | .next t => if t.ret = .waiting then .next { t with hostq := u :: t.hostq } else .next t
    | .fault r => .fault r
    | .refused r => .refused r

/-- HOST hands a unit over now. While a command runs, a command word writes the registers and starts nothing, an
operand byte writes its register, and a direct call is not taken; after a halt nothing is written (R21, R22, R42,
U17; log 3). DESIGN CHOICE: while a direct `getc` or `halt_wait` waits no command runs, and the unit is taken ahead of
the waiting call, which stays in the queue (log 3). -/
def hostMove (u : HostUnit) (s : State) : Outcome :=
  if s.halted then .next s
  else if s.running then
    if u.format = .os ∨ u.format = .slotv then takeUnit u s else .next (writeCommandRegisters u s)
  else takeUnit u s

/-- The primitive in progress at SEQ's position, or of the direct call that waits (R302). -/
def current (s : State) : Option Prim :=
  if s.halted then none
  else if s.running then
    match want s with
    | .prim pr => some pr
    | _ => none
  else
    match s.hostq with
    | u :: _ =>
      if u.format = .port then
        match decode .port u.bytes with
        | .instr i _ => some (.port i)
        | .reject _ => none
      else none
    | [] => none

/-- Every byte of a range becomes a free value (U20, log 26). -/
def scramble (m : Mem) (base n generation : Nat) : Mem :=
  m.store base n fun k => Config.freeByte generation (base + k)

/-- What a power loss inside a primitive leaves behind, before the reset (R302). -/
def damage (persisted : Bool) (s : State) : State :=
  match current s with
  | some (.port (.eraseBank device physicalSlot bank)) =>
    if s.lockDepth = 0 then s
    else
      let span := eraseSpan s.par.granule bank
      { s with
        flash := scramble s.flash (flashAddr device physicalSlot span.1 0) (span.2 * Config.bankBytes) s.freeNext
        freeNext := s.freeNext + 1 }
  | some (.port (.writeSlot _ physicalSlot bank offset length)) =>
    if s.lockDepth = 0 ∨ Config.bankBytes < offset + length then s
    else { s with
      flash := scramble s.flash (flashAddr 0 physicalSlot bank offset) length s.freeNext
      freeNext := s.freeNext + 1 }
  | some (.sramStore rb off data) =>
    if rb < Config.ramBanks ∧ off + data.length ≤ Config.bankBytes then
      { s with
        sram := scramble s.sram (sramAddr rb off) data.length s.freeNext, freeNext := s.freeNext + 1 }
    else s
  | some (.port .persist) => if persisted then { s with p := s.w } else s
  | _ => s

/-- POWER is lost and comes back (R288, R300, R302). -/
def powerLoss (cut : Cut) (launch : Byte) (s : State) : State :=
  match cut with
  | .between => powerUp launch s
  | .inside persisted => powerUp launch (damage persisted s)

/-- A move of the environment. -/
def envMove (m : Move) (s : State) : Outcome :=
  match m with
  | .peer b => .next (pushRx b s)
  | .key down => .next { s with cancelKey := down }
  | .tick => .next { s with tickPending := true }
  | .power cut launch => .next (powerLoss cut launch s)
  | .host u => hostMove u s
  | .payload k b =>
    if s.halted || s.running then .next s
    else .next { s with blockbuf := s.blockbuf.setIfInBounds k b }

end Sys2Proof.Machine
end

