-- ==== Sys2Proof/Machine/Step.lean ====
section
/-! DEFINITION. One step of CF-SEQ: a turn of the schedule, which is SEQ's when nothing else is scheduled. -/

namespace Sys2Proof.Machine

/-- SEQ's turn: halted, it does nothing (R283); running, it issues one primitive (R25); idle, it takes the next
unit the host hands over, or waits for one (R22, R300). -/
def seqTurn (s : State) : Outcome :=
  if s.halted then .next s
  else if s.running then runStep s
  else
    match s.hostq with
    | [] => .next s
    | u :: rest => takeUnit u { s with hostq := rest }

/-- One step: the turn the schedule says is next, else SEQ's (log 2). -/
def step (s : State) : Outcome :=
  match s.sched with
  | [] => seqTurn s
  | .seq :: rest => seqTurn { s with sched := rest }
  | .env m :: rest => envMove m { s with sched := rest }

/-- `s` with a table word where the next step fetches, and the next turn SEQ's: a unit of the line stands first in
`RXQ` while RECV_BLOCK polls; any other unit is the next the host hands over to an idle sequencer. -/
def State.withFetchWord (s : State) (nbits w : Nat) : State :=
  let format := tableFormat nbits w
  let bytes := tableBytes nbits w
  if format = .wire1 ∨ format = .frame then
    { s with
      halted := false, sched := .seq :: s.sched, rxq := bytes ++ s.rxq
      pos := { cmd := some .recvBlock, label := .rcGet, i := 0, p := 0 } }
  else
    { s with
      halted := false, sched := .seq :: s.sched, pos := SeqPos.idle
      hostq := { format := format, bytes := bytes } :: s.hostq }

end Sys2Proof.Machine
end

