-- ==== Sys2Proof/Safety.lean ====
section
/-! DEFINITION. The terms claims about CF-SEQ are made in: when SEQ can take a command, what it means that a run goes
from one state to another, what a state is without the working registers the spec does not name, and what a safe
state is. -/

namespace Sys2Proof.Machine

/-- No move of another agent is scheduled: every step from here is SEQ's. -/
def Quiet (s : State) : Prop := s.sched = []

/-- SEQ can take a command: no command is running and `HALTED == 0` (R22). -/
def Idle (s : State) : Prop := s.halted = false ∧ s.pos.label = .idle

/-- A run of some number of steps leads from `s` to `t`. -/
def Runs (s t : State) : Prop := ∃ n, Host.Core.run Sys2Proof.core n s = .next t

/-- The state without the working registers, which the spec does not name (log 20). -/
def State.arch (s : State) : State := { s with vars := Vars.zero, ret := .done, xfer := [] }

/-- `SRAM_SLOTS` is 1 to 15 (R6, D3). -/
def LegalParams (par : Params) : Prop := 1 ≤ par.sramSlots ∧ par.sramSlots ≤ 15

/-- No byte of `SRAM` is known: each reads as a free value (R64, U18). -/
def SramUnspecified (s : State) : Prop := ∀ a : Nat, s.sram.known a = false

/-- Every memory is in its canonical form. -/
def MemInv (s : State) : Prop := s.flash.wf ∧ s.sram.wf ∧ s.stg.wf

/-- The address in `FLASH[0][LAUNCH_SLOT]` of an offset of the bank that RESOLVE_BANK gives (R60, R121). -/
def State.saveAddr (s : State) (slot : Byte) (subBank off : Nat) : Nat :=
  flashAddr 0 s.launchSlot (BitVec.ofNat 8 (bankNumber s.w.legacyLayout slot.toNat subBank)) off

/-- Two banks that one erase erases together: the same bank, or the two of an aligned pair (R140, R69). -/
def SameGranule (granule : Config.Granule) (b bank : Byte) : Prop :=
  match granule with
  | .bank => b = bank
  | .pair => b.toNat / 2 = bank.toNat / 2

/-- The sum of the bytes, mod 256 (R95, R97). -/
def sum8 (data : List Byte) : Byte := BitVec.ofNat 8 (data.map BitVec.toNat).sum

/-- The 132 bytes of a frame, as R95 lists them: `SOH`, the number, 255 minus it, the data, the sum. -/
def wireFrame (seq : Byte) (data : Vector Byte 128) : List Byte :=
  0x01 :: seq :: (255 - seq) :: (data.toList ++ [sum8 data.toList])

/-- A unit that costs one retry: a stray byte, or a frame with a good header and a wrong checksum (R203, R212). -/
def BadUnit (seq : Byte) (unit : List Byte) : Prop :=
  (∃ c, c ≠ 0x01 ∧ c ≠ 0x04 ∧ c ≠ 0x18 ∧ unit = [c]) ∨
    ∃ (data : Vector Byte 128) (ck : Byte), ck ≠ sum8 data.toList ∧
      unit = 0x01 :: seq :: (255 - seq) :: (data.toList ++ [ck])

/-- The running XOR of a sequence of bytes (R251). -/
abbrev xorFrom (prev : Byte) (bytes : List Byte) : Byte := bytes.foldl (· ^^^ ·) prev

/-- The delta decoder of R251: it holds the decoded byte and runs on across blocks (log 33). -/
def DeltaVariant.stated : DeltaVariant := { start := 0, encoded := false, perBlock := false }

/-- The frames of a stream of blocks, the first with number `seq` (R95, R108). -/
def framesFrom (seq : Byte) : List (Vector Byte 128) → List Byte
  | [] => []
  | b :: bs => wireFrame seq b ++ framesFrom (seq + 1) bs

/-- The bytes of a stream of blocks, one block after the other (R252). -/
def streamOf (blocks : List (Vector Byte 128)) : List Byte := (blocks.map Vector.toList).flatten

/-- The points at which a flash batch is open: after `unlock()` and up to `lock()` (R147). -/
def Label.inBatch : Label → Bool
  | .pgInit | .pgErase | .pgLoad | .pgCompare | .pgWrite | .pgDraw | .pgTick | .pgLock
  | .esInit | .esErase | .esDraw | .esTick | .esLock
  | .fiInit | .fiErase | .fiLoad | .fiWrite | .fiRead | .fiDraw | .fiTick | .fiLock => true
  | _ => false

/-- The points at which interrupts are masked: after `irq_mask()` and up to `irq_unmask()` (R211). -/
def Label.masked : Label → Bool
  | .rcPoll | .rcGet | .rcSelf | .rcCancel | .rcEot | .rcSeq | .rcNseq | .rcData | .rcCheck | .rcGood
  | .rcBad => true
  | _ => false

/-- The points between a write of `W` and its `persist()` (R171). -/
def Label.saving : Label → Bool
  | .swAdopt | .swPersistNone | .swPersistNew => true
  | _ => false

/-- The points of an evict or a load. -/
def Label.relocating : Label → Bool
  | .upLaunch | .upFetch | .upMove | .upRead | .upStore
  | .pgLaunch | .pgUnlock | .pgInit | .pgErase | .pgLoad | .pgCompare | .pgWrite | .pgDraw | .pgTick | .pgLock
  | .rsLaunch | .rsInit | .rsRead | .rsStore | .rsDraw | .rsTick => true
  | _ => false

/-- The points of the size-1 upgrade. -/
def Label.upgrading : Label → Bool
  | .upLaunch | .upFetch | .upMove | .upRead | .upStore => true
  | _ => false

/-- The points of an evict. -/
def Label.evicting : Label → Bool
  | .upLaunch | .upFetch | .upMove | .upRead | .upStore
  | .pgLaunch | .pgUnlock | .pgInit | .pgErase | .pgLoad | .pgCompare | .pgWrite | .pgDraw | .pgTick
  | .pgLock => true
  | _ => false

/-- The points of ERASE_SLOTS. -/
def Label.erasing : Label → Bool
  | .esLaunch | .esUnlock | .esInit | .esErase | .esDraw | .esTick | .esLock => true
  | _ => false

/-- The points of a block read and of INSTALL_RECEIVE. -/
def Label.receiving : Label → Bool
  | .rcPrime | .rcMask | .rcPoll | .rcGet | .rcSelf | .rcCancel | .rcEot | .rcEotAck
  | .rcSeq | .rcNseq | .rcData | .rcCheck | .rcGood | .rcBad
  | .inOpen | .inStore | .inClose | .inPad | .inTrailer => true
  | _ => false

/-- What holds of SEQ between any two steps when only commands, operand bytes and line units are handed over: the
lock is open exactly in a batch (R147, R274), interrupts are masked exactly inside a block read (R211), `W = P` but
for the points between a write and its `persist()` (R171), and the region of a relocation lies inside one save slot
(R92, R94, R124). -/
structure SeqInv (s : State) : Prop where
  params : LegalParams s.par
  lock : s.lockDepth = if s.pos.label.inBatch then 1 else 0
  mask : s.irqMask = s.pos.label.masked
  saved : s.pos.label.saving = false → s.w = s.p
  region : s.pos.label.relocating = true →
    isSlot s.par s.vars.slot = true ∧ s.vars.offset + s.vars.size ≤ 8 ∧ s.pos.i < s.vars.size
  upgrade : s.pos.label.upgrading = true → s.vars.size = 1
  slots : s.pos.label.erasing = true →
    s.vars.slot.toNat + s.vars.slots ≤ s.par.sramSlots ∧ s.vars.offset + s.vars.size ≤ 8 ∧
      s.pos.i < s.vars.slots ∧ s.pos.p < s.vars.size
  target : (s.pos.label.evicting = true ∧ s.pos.cmd = some .switchToSlot) ∨ s.pos.label = .swPersistNone →
    isSlot s.par s.vars.a0 = true ∨ s.vars.a0 = Config.slotNone

/-- What the host hands over, now and later, holds no direct call of a port primitive (R309: a host that calls the
driver itself has the lock's balance as its own duty). -/
def CommandsOnly (s : State) : Prop :=
  (∀ u ∈ s.hostq, u.format ≠ .port) ∧ ∀ u, Turn.env (.host u) ∈ s.sched → u.format ≠ .port

/-- The next turn is a power loss. -/
def PowerNext (s : State) : Prop := ∃ cut launch rest, s.sched = .env (.power cut launch) :: rest

end Sys2Proof.Machine
end

