-- ==== Sys2Proof/Certificates/Slice0/Obligations.lean ====
section
/-! DEFINITION. The statements for the provers. Each docstring names the rule of the spec it formalises; a decision of
the spec is cited as "D<n>", a choice of the model as "log <n>". -/

section

open Sys2Proof Sys2Proof.Machine

/-! ## Encodings -/

/-- Every instruction the encoding has room for decodes back from its own bytes, with every operand, whatever bytes
follow (the byte layout of PORT arguments is the model's choice, log 21). -/
def Obligations.EncodedInstructionsDecodeBack : Prop :=
  ∀ (i : Instr) (rest : List Byte), i.fits = true → i.format ≠ .internal →
    decode i.format (encode i ++ rest) = .instr i rest

/-- What decodes is of the format asked for, fits, and was written as the encoder writes it; only `read_slot`'s buffer
designator has more than one spelling (log 21). -/
def Obligations.DecodedBytesAreTheEncoding : Prop :=
  ∀ (f : Format) (bytes rest : List Byte) (i : Instr), decode f bytes = .instr i rest →
    i.format = f ∧ i.fits = true ∧
      ((∀ buffer ps bank offset length, i ≠ .readSlot buffer ps bank offset length) → encode i ++ rest = bytes)

/-- Words written out from R98, R100, R96, R95, R93, R92 decode to what they stand for (the argument bytes of the PORT
words stand as log 21 lays them out, the control bytes have the values of log 17). -/
def Obligations.SpecWordsDecode : Prop :=
  decode .cmd [0x01, 0x0E, 0x07] = .instr (.resolveBank 14 7) [] ∧
  decode .cmd [0x10, 0x01, 0x80] = .instr (.switchToSlot 1 0x80) [] ∧
  decode .cmd [0x13, 0xFF, 0x80] = .instr (.erase 0xFF 0x80) [] ∧
  decode .cmd [0x23, 0x00, 0x00] = .instr (.recvBlock 0 0) [] ∧
  decode .cmd [0x31, 0x00, 0x00] = .instr (.sendBlock 0 0) [] ∧
  decode .cmd [0x40, 0x05, 0x00] = .instr (.installReceive 5 0) [] ∧
  decode .port [0x80, 0x00, 0x05, 0x86] = .instr (.eraseBank 0 5 0x86) [] ∧
  decode .port [0x83] = .instr .unlock [] ∧
  decode .port [0x92, 0x15] = .instr (.putc 0x15) [] ∧
  decode .os [0x13] = .instr (.os 1 3) [] ∧
  decode .slotv [0xFD] = .instr (.slotv 0xFD) [] ∧
  decode .wire1 [0x18] = .instr .can [] ∧
  decode .frame (0x01 :: 0x01 :: 0xFE :: (List.replicate 128 0x02 ++ [0x00])) =
    .instr (.frame 1 0xFE (Vector.replicate 128 0x02) 0) []

/-- Every command code that R98 does not list is reserved and refused; every code it lists decodes (R102, D1). -/
def Obligations.ReservedCodesAreRefused : Prop :=
  ∀ (code a0 a1 : Byte) (rest : List Byte),
    if code ∈ ([0x01, 0x10, 0x11, 0x12, 0x13, 0x14, 0x20, 0x21, 0x22, 0x23, 0x30, 0x31, 0x32, 0x40] : List Byte) then
      ∃ i, decode .cmd (code :: a0 :: a1 :: rest) = .instr i rest ∧ encode i = [code, a0, a1]
    else
      decode .cmd (code :: a0 :: a1 :: rest) = .reject (.reservedCommand code) ∧
      ∀ (s : State) (q : List HostUnit), Quiet s → Idle s →
        s.hostq = { format := .cmd, bytes := code :: a0 :: a1 :: rest } :: q →
        step s = .refused (.notAnInstruction (.reservedCommand code))

/-- DECODE_OS: offset in the low nibble, size in the high nibble, the four refusals (R120, D8; that it leaves its pair in
the working registers is log 25). -/
def Obligations.DecodeOsGivesOffsetAndSize : Prop :=
  ∀ (s : State) (os : Byte), s.halted = false →
    (1 ≤ os.toNat / 16 ∧ os.toNat / 16 ≤ 8 ∧ os.toNat % 16 ≤ 7 ∧ os.toNat % 16 + os.toNat / 16 ≤ 8 →
      exec (.decodeOs os) s =
        .next { s with vars := { s.vars with offset := os.toNat % 16, size := os.toNat / 16 } }) ∧
    (os.toNat / 16 = 0 ∨ 8 < os.toNat / 16 ∨ 7 < os.toNat % 16 ∨ 8 < os.toNat % 16 + os.toNat / 16 →
      exec (.decodeOs os) s = .refused .illFormedDescriptor)

/-- CHECK_GEOMETRY: an odd size or an odd offset raises `Fatal(ODD_GEOMETRY, os)` and writes nothing but the three fault
registers; even ones pass and change nothing (R123). -/
def Obligations.CheckGeometryHaltsOnOddOnly : Prop :=
  ∀ (s : State) (offset size : Nat) (os : Byte), s.halted = false →
    (size % 2 = 1 ∨ offset % 2 = 1 →
      exec (.checkGeometry offset size os) s =
        .next { s with halted := true, diagCode := FatalCode.oddGeometry.code, diagAux := os.setWidth 16 }) ∧
    (size % 2 = 0 ∧ offset % 2 = 0 → exec (.checkGeometry offset size os) s = .next s)

/-- An operand byte of format OS is the second operand, one of format SLOTV the first; nothing else is written (R91, R92,
R93; that such a unit alone is the host's write of the register is the model's reading, log 24). -/
def Obligations.OperandUnitsWriteTheirRegister : Prop :=
  ∀ (s : State) (size offset : BitVec 4) (v : Byte), s.halted = false →
    exec (.os size offset) s = .next { s with arg1 := BitVec.ofNat 8 (size.toNat * 16 + offset.toNat) } ∧
    exec (.slotv v) s = .next { s with arg0 := v }

/-! ## Bank addresses -/

/-- R122: injective, strictly increasing, below `0xFA` for all slots exactly when there are at most 15, and shifted by
2 from naive `0xF4` on unless the layout is legacy. -/
def Obligations.ResolvedBanksAreDistinctAndBelowLimit : Prop :=
  ∀ legacy : Bool,
    (∀ slot sub slot' sub' : Nat, sub < 8 → sub' < 8 →
      bankNumber legacy slot sub = bankNumber legacy slot' sub' → slot = slot' ∧ sub = sub') ∧
    (∀ slot sub slot' sub' : Nat, sub < 8 → sub' < 8 → slot * 8 + sub < slot' * 8 + sub' →
      bankNumber legacy slot sub < bankNumber legacy slot' sub') ∧
    (∀ slots : Nat, (∀ slot sub : Nat, slot < slots → sub < 8 → bankNumber legacy slot sub < 0xFA) ↔ slots ≤ 15) ∧
    (∀ slot sub : Nat, sub < 8 →
      bankNumber legacy slot sub =
        0x80 + slot * 8 + sub + (if legacy = false ∧ 0xF4 ≤ 0x80 + slot * 8 + sub then 2 else 0))

/-- Sub-banks `2k` and `2k+1` of a slot are an aligned pair of physical banks (R69), so that in the non-legacy layout no
erase of a save bank, of either granule, touches the carve-out banks `0xF4`, `0xF5` (R182). -/
def Obligations.PairsAreAlignedAndTheCarveOutIsSpared : Prop :=
  (∀ (legacy : Bool) (slot k : Nat),
    bankNumber legacy slot (2 * k) % 2 = 0 ∧
      bankNumber legacy slot (2 * k + 1) = bankNumber legacy slot (2 * k) + 1) ∧
  ∀ (granule : Config.Granule) (slot sub : Nat) (b : Byte), slot < 15 → sub < 8 →
    SameGranule granule b (BitVec.ofNat 8 (bankNumber false slot sub)) → b ≠ 0xF4 ∧ b ≠ 0xF5

/-- RESOLVE_BANK as a command: the bank in `RESULT_AUX` and `OK`, nothing else; `Fatal(BANK_OVERFLOW)` with the untruncated
number from `0xFA` on (R121, R125, D1, D14). -/
def Obligations.ResolveBankCommand : Prop :=
  ∀ (s : State) (slot sub : Byte) (bank : Nat), Idle s → slot.toNat < s.par.sramSlots → sub.toNat ≤ 7 →
    bank = 0x80 + slot.toNat * 8 + sub.toNat +
      (if s.w.legacyLayout = false ∧ 0xF4 ≤ 0x80 + slot.toNat * 8 + sub.toNat then 2 else 0) →
    (bank < 0xFA → ∃ t, exec (.resolveBank slot sub) s = .next t ∧
      t.arch = { s with pos := SeqPos.idle, result := 0x00, resultAux := BitVec.ofNat 8 bank }.arch) ∧
    (0xFA ≤ bank → ∃ t, exec (.resolveBank slot sub) s = .next t ∧
      t.arch = { s with pos := t.pos, halted := true, diagCode := 0x01, diagAux := BitVec.ofNat 16 bank }.arch)

/-! ## Commands that do not start, and refusals -/

/-- R22: a command starts only when no command is running and `HALTED == 0`; otherwise it changes nothing (log 4). -/
def Obligations.CommandsStartOnlyWhenIdle : Prop :=
  ∀ (i : Instr) (s : State), i.format = .cmd → s.halted = true ∨ s.pos.label ≠ .idle → exec i s = .next s

/-- Where the commands are refused (R120, R125, R170 step 3b, R173, R178, R179, R202, R203, R230 to R232, R250), and the
driver calls: an erase and a program while the lock depth is 0, an access across the end of a bank (R140, R141, R142,
R284). Which of two refusals comes first, as in RESOLVE_BANK, and the refusal of a buffer of another length are log 5. -/
def Obligations.RefusedWhereTheSpecRefuses : Prop :=
  ∀ s : State, Idle s →
    (∀ slot sub : Byte, 7 < sub.toNat → exec (.resolveBank slot sub) s = .refused .badSubBank) ∧
    (∀ slot sub : Byte, sub.toNat ≤ 7 → s.par.sramSlots ≤ slot.toNat →
      exec (.resolveBank slot sub) s = .refused .notASlot) ∧
    (∀ slot os : Byte, s.par.sramSlots ≤ slot.toNat →
      exec (.programToFlash slot os) s = .refused .notASlot ∧
      exec (.restoreFromFlash slot os) s = .refused .notASlot) ∧
    (∀ slot os : Byte, slot.toNat < s.par.sramSlots → osOk os = false →
      exec (.programToFlash slot os) s = .refused .illFormedDescriptor ∧
      exec (.restoreFromFlash slot os) s = .refused .illFormedDescriptor) ∧
    (LegalParams s.par → s.w.activeSlot.toNat < s.par.sramSlots → ∀ slot os : Byte,
      ¬ (slot = s.w.activeSlot ∧ os = s.w.activeOs) → slot.toNat < s.par.sramSlots ∨ slot = 0xFF →
      osOk s.w.activeOs = false ∨ slot.toNat < s.par.sramSlots ∧ osOk os = false →
      exec (.switchToSlot slot os) s = .refused .illFormedDescriptor) ∧
    (LegalParams s.par → s.w.activeSlot = 0xFF → ∀ slot os : Byte, slot.toNat < s.par.sramSlots → osOk os = false →
      exec (.switchToSlot slot os) s = .refused .illFormedDescriptor) ∧
    (∀ target os : Byte, osOk os = false → exec (.erase target os) s = .refused .illFormedDescriptor) ∧
    (∀ target os : Byte, osOk os = true → s.par.sramSlots ≤ target.toNat → target ≠ 0xFF → target ≠ 0xFE →
      exec (.erase target os) s = .refused .badEraseTarget) ∧
    (∀ a0 a1 : Byte, s.portOpen = false →
      exec (.recvStart a0 a1) s = .refused .portClosed ∧ exec (.sendStart a0 a1) s = .refused .portClosed) ∧
    (∀ a0 a1 : Byte, s.xmPhase ≠ .awaitBlock → exec (.recvBlock a0 a1) s = .refused .outsideSession) ∧
    (∀ a0 a1 : Byte, s.xmPhase ≠ .sending →
      exec (.sendBlock a0 a1) s = .refused .outsideSession ∧
      exec (.sendFinish a0 a1) s = .refused .outsideSession) ∧
    (∀ a0 a1 : Byte, s.w.activeSlot.toNat < s.par.sramSlots →
      exec (.installReceive a0 a1) s = .refused .slotOwnsWindow) ∧
    (s.lockDepth = 0 → ∀ device ps bank : Byte, exec (.eraseBank device ps bank) s = .refused .flashLocked) ∧
    (s.lockDepth = 0 → ∀ (buffer : List Byte) (ps bank : Byte) (offset length : Nat),
      exec (.writeSlot buffer ps bank offset length) s = .refused .flashLocked) ∧
    (s.lockDepth ≠ 0 → ∀ (buffer : List Byte) (ps bank : Byte) (offset length : Nat), 65536 < offset + length →
      exec (.writeSlot buffer ps bank offset length) s = .refused .crossesBank) ∧
    (s.lockDepth ≠ 0 → ∀ (buffer : List Byte) (ps bank : Byte) (offset length : Nat), offset + length ≤ 65536 →
      buffer.length ≠ length → exec (.writeSlot buffer ps bank offset length) s = .refused .bufferLength) ∧
    (∀ (buffer : Buf) (ps bank : Byte) (offset length : Nat), 65536 < offset + length →
      exec (.readSlot buffer ps bank offset length) s = .refused .crossesBank) ∧
    ∀ (buffer : Buf) (ps bank : Byte) (offset length : Nat), offset + length ≤ 65536 → buffer ≠ .xferBuf →
      256 < length → exec (.readSlot buffer ps bank offset length) s = .refused .bufferLength

/-- After a halt no instruction has an effect, and a step that is not a power loss leaves every register, memory and the
transmit log as they are: only the inputs may move (R42, R282, R283). -/
def Obligations.HaltIsLeftOnlyByReset : Prop :=
  ∀ s : State, s.halted = true →
    (∀ i : Instr, exec i s = .next s) ∧
    ∀ t : State, ¬ PowerNext s → step s = .next t →
      t = { s with
        cancelKey := t.cancelKey, rxq := t.rxq, overrun := t.overrun, freeNext := t.freeNext
        tickPending := t.tickPending, sched := t.sched }

/-! ## Port primitives -/

/-- `erase_bank`: every byte of the granule's banks reads `0xFF`, every other byte of flash as before (R140, D10; the
erased value is PRESUMED by the spec, log 16). -/
def Obligations.EraseBankErasesTheWholeGranule : Prop :=
  ∀ (s : State) (device ps bank : Byte), s.halted = false → s.lockDepth ≠ 0 →
    ∃ f, exec (.eraseBank device ps bank) s = .next { s with flash := f, ret := .done } ∧
      (∀ (b : Byte) (off : Nat), off < 65536 → SameGranule s.par.granule b bank →
        f.get (flashAddr device ps b off) = 0xFF) ∧
      ∀ a : Nat, (∀ (b : Byte) (off : Nat), off < 65536 → SameGranule s.par.granule b bank →
        a ≠ flashAddr device ps b off) → f.get a = s.flash.get a

/-- `write_slot`: each byte of the range becomes `old & new`, unless its cell is defective; every other byte reads as
before (R141, D15; U10, log 15). -/
def Obligations.WriteSlotStoresOldAndNew : Prop :=
  ∀ (s : State) (buffer : List Byte) (ps bank : Byte) (offset length : Nat), s.halted = false → s.lockDepth ≠ 0 →
    offset + length ≤ 65536 → buffer.length = length →
    ∃ f, exec (.writeSlot buffer ps bank offset length) s = .next { s with flash := f, ret := .done } ∧
      (∀ k < length,
        f.get (flashAddr 0 ps bank (offset + k)) =
          (findCell s.defects (flashAddr 0 ps bank (offset + k))).getD
            (s.flash.get (flashAddr 0 ps bank (offset + k)) &&& buffer.getD k 0)) ∧
      ∀ a : Nat, (∀ k < length, a ≠ flashAddr 0 ps bank (offset + k)) → f.get a = s.flash.get a

/-- `read_slot`: the bytes of the range go to the buffer, the rest of a page file keeps what it held, and nothing else is
written: no lock is needed (R142, R70). -/
def Obligations.ReadSlotFillsOnlyItsBuffer : Prop :=
  ∀ (s : State) (ps bank : Byte) (offset length : Nat), s.halted = false → offset + length ≤ 65536 →
    (length ≤ 256 → ∃ v : Vector Byte 256,
      exec (.readSlot .pageBuf ps bank offset length) s = .next { s with pagebuf := v, ret := .done } ∧
      ∀ (k : Nat) (hk : k < 256),
        v[k] = if k < length then s.flash.get (flashAddr 0 ps bank (offset + k)) else s.pagebuf[k]) ∧
    (length ≤ 256 → ∃ v : Vector Byte 256,
      exec (.readSlot .cmpBuf ps bank offset length) s = .next { s with cmpbuf := v, ret := .done } ∧
      ∀ (k : Nat) (hk : k < 256),
        v[k] = if k < length then s.flash.get (flashAddr 0 ps bank (offset + k)) else s.cmpbuf[k]) ∧
    ∃ l : List Byte,
      exec (.readSlot .xferBuf ps bank offset length) s = .next { s with xfer := l, ret := .done } ∧
      l.length = length ∧ ∀ k < length, l.getD k 0 = s.flash.get (flashAddr 0 ps bank (offset + k))

/-- `unlock` and `lock` move the depth by one, at the ends of the counter they raise LOCK_OVERFLOW and LOCK_UNDERFLOW (R143,
R144, R33, D16); `get_launch_slot` returns the input and `persist` copies `W` to `P` (R145, R146, D6, D17; the returned
value stands in the model's `ret`, log 20). -/
def Obligations.LockLaunchAndPersistPrimitives : Prop :=
  ∀ s : State, s.halted = false →
    (s.lockDepth < 255 → exec .unlock s = .next { s with lockDepth := s.lockDepth + 1, ret := .done }) ∧
    (s.lockDepth = 255 → exec .unlock s = .next { s with halted := true, diagCode := 0x05, diagAux := 255 }) ∧
    (0 < s.lockDepth → exec .lock s = .next { s with lockDepth := s.lockDepth - 1, ret := .done }) ∧
    (s.lockDepth = 0 → exec .lock s = .next { s with halted := true, diagCode := 0x04, diagAux := 0 }) ∧
    exec .getLaunchSlot s = .next { s with ret := .byte s.launchSlot } ∧
    exec .persist s = .next { s with p := s.w, ret := .done }

/-- `getc` and `getc_nb` take the head of `RXQ`, on an empty line the one waits and the other returns NOBYTE (R150, R151,
D36); `putc`, `serial_open`, `serial_close`, `irq_mask`, `irq_unmask` write what their rules say and no more (R152, R153,
R154, R157, D39, D40, D23). -/
def Obligations.SerialAndMaskPrimitives : Prop :=
  ∀ (s : State) (b : Byte) (rest : List Byte), s.halted = false →
    (s.rxq = b :: rest →
      exec .getc s = .next { s with rxq := rest, ret := .byte b } ∧
      exec .getcNb s = .next { s with rxq := rest, ret := .byte b }) ∧
    (s.rxq = [] → exec .getc s = .next { s with ret := .waiting } ∧ exec .getcNb s = .next { s with ret := .noByte }) ∧
    exec (.putc b) s = .next { s with txlog := s.txlog ++ [b], ret := .done } ∧
    exec (.serialOpen b) s = .next { s with portOpen := true, ret := .done } ∧
    exec .serialClose s = .next { s with portOpen := false, rxie := false, ret := .done } ∧
    exec .irqMask s = .next { s with irqMask := true, ret := .done } ∧
    exec .irqUnmask s = .next { s with irqMask := false, ret := .done }

/-- R155: `RXIE <- 1`. -/
def Obligations.RxIrqEnableSetsRxie : Prop :=
  ∀ s : State, s.halted = false → exec .rxIrqEnable s = .next { s with rxie := true, ret := .done }

/-- `halt_wait` returns when a receive interrupt is pending or a tick has come, and waits otherwise; a returned tick is
used up (R156, R277, R278, D35; logs 18, 19). -/
def Obligations.HaltWaitReturnsAtAnInterrupt : Prop :=
  ∀ s : State, s.halted = false →
    ((s.rxie = true ∧ s.rxq ≠ []) ∨ s.tickPending = true →
      exec .haltWait s = .next { s with tickPending := false, ret := .done }) ∧
    ((s.rxie = false ∨ s.rxq = []) ∧ s.tickPending = false → exec .haltWait s = .next { s with ret := .waiting })

/-- `poll_cancel` returns the level of the key and does not clear it; the progress primitives write the two step numbers
(R158, R159, D20, D22). -/
def Obligations.UserInterfacePrimitives : Prop :=
  ∀ (s : State) (n : Half), s.halted = false →
    exec .pollCancel s = .next { s with ret := .flag s.cancelKey } ∧
    exec (.progressInit n) s = .next { s with progMax := n, progCur := 0, ret := .done } ∧
    exec (.progressDraw n) s = .next { s with progCur := n, ret := .done }

/-- R160, R161: `work_tick` and `text_out` change no state of the model but the model's own return value (log 20). -/
def Obligations.WorkTickAndTextOutChangeNothing : Prop :=
  ∀ (s : State) (message : List Byte), s.halted = false →
    exec .workTick s = .next { s with ret := .done } ∧ exec (.textOut message) s = .next { s with ret := .done }

/-! ## Units of the serial line -/

/-- A unit that stands first while RECV_BLOCK polls is taken; one that arrives where SEQ waits for none stays on the line
(R96, R104, R105, R162; what a unit means outside a poll is log 23). -/
def Obligations.WireUnitsAreTakenOrKept : Prop :=
  ∀ (s : State) (seq nseq ck : Byte) (data : Vector Byte 128), s.halted = false →
    (s.pos.label = .rcGet →
      exec .can s = .next { s with pos := { cmd := s.pos.cmd, label := .rcCancel, i := 0, p := 0 } } ∧
      exec .eot s = .next { s with pos := { cmd := s.pos.cmd, label := .rcEot, i := 0, p := 0 } } ∧
      exec .soh s = .next { s with pos := { cmd := s.pos.cmd, label := .rcSeq, i := 0, p := 0 } } ∧
      exec .ack s = .next { s with pos := { cmd := s.pos.cmd, label := .rcBad, i := 0, p := 0 } } ∧
      exec .nak s = .next { s with pos := { cmd := s.pos.cmd, label := .rcBad, i := 0, p := 0 } } ∧
      exec (.frame seq nseq data ck) s = .next { s with
        pos := { cmd := s.pos.cmd, label := .rcSeq, i := 0, p := 0 }
        rxq := seq :: nseq :: (data.toList ++ ck :: s.rxq) }) ∧
    (s.pos.label ≠ .rcGet → s.pos.label ≠ .sdGet →
      (∀ d, s.par.rxDepth = some d → s.rxq.length + 132 ≤ d ∧ s.overrun = false) →
      exec .soh s = .next { s with rxq := s.rxq ++ [0x01] } ∧
      exec .eot s = .next { s with rxq := s.rxq ++ [0x04] } ∧
      exec .ack s = .next { s with rxq := s.rxq ++ [0x06] } ∧
      exec .nak s = .next { s with rxq := s.rxq ++ [0x15] } ∧
      exec .can s = .next { s with rxq := s.rxq ++ [0x18] } ∧
      exec (.frame seq nseq data ck) s = .next { s with
        rxq := s.rxq ++ 0x01 :: seq :: nseq :: (data.toList ++ [ck]) })

/-- While RECV_BLOCK polls, each of the 256 byte values takes its own path and exactly that byte is consumed, also when a
whole frame follows (R104, R203, R206, R281). -/
def Obligations.EveryLeadingByteTakesItsPath : Prop :=
  ∀ (s : State) (c : Byte) (rest : List Byte), Quiet s → s.halted = false → s.pos.label = .rcGet →
    s.rxq = c :: rest →
    ∃ t, step s = .next t ∧
      t.arch = { s with
        rxq := rest
        pos := { cmd := s.pos.cmd, i := 0, p := 0
                 label := if c = 0x18 then .rcCancel else if c = 0x04 then .rcEot else if c = 0x01 then .rcSeq
                          else .rcBad } }.arch

/-- While the send side waits, ACK, NAK and CAN are recognised as each command's rule says, and every other byte is
dropped and the wait goes on, frames included (R104, R230 to R233, D25). -/
def Obligations.EveryReplyByteTakesItsPath : Prop :=
  ∀ (s : State) (c : Byte) (rest : List Byte), Quiet s → s.halted = false → s.pos.label = .sdGet →
    s.rxq = c :: rest →
    (c = 0x18 → ∃ t, step s = .next t ∧
      t.arch = { s with rxq := rest, xmPhase := .awaitStart, result := 0x02, pos := SeqPos.idle }.arch) ∧
    (s.pos.cmd = some .sendStart → c = 0x15 → ∃ t, step s = .next t ∧
      t.arch = { s with rxq := rest, result := 0x00, pos := SeqPos.idle }.arch) ∧
    (s.pos.cmd = some .sendStart → c ≠ 0x15 → c ≠ 0x18 → ∃ t, step s = .next t ∧
      t.arch = { s with rxq := rest, pos := { cmd := s.pos.cmd, label := .sdPoll, i := 0, p := 0 } }.arch) ∧
    (s.pos.cmd = some .sendBlock → c = 0x06 → ∃ t, step s = .next t ∧
      t.arch = { s with rxq := rest, result := 0x00, xmSeq := s.xmSeq + 1, pos := SeqPos.idle }.arch) ∧
    (s.pos.cmd = some .sendFinish → c = 0x06 → ∃ t, step s = .next t ∧
      t.arch = { s with rxq := rest, result := 0x04, xmPhase := .awaitStart, pos := SeqPos.idle }.arch) ∧
    (s.pos.cmd = some .sendBlock ∨ s.pos.cmd = some .sendFinish → c = 0x15 → s.xmRetry.toNat < 9 →
      ∃ t, step s = .next t ∧
        t.arch = { s with
          rxq := rest, xmRetry := s.xmRetry + 1
          pos := { cmd := s.pos.cmd, i := 0, p := 0
                   label := if s.pos.cmd = some Cmd.sendFinish then .sdEot else .sdSoh } }.arch) ∧
    (s.pos.cmd = some .sendBlock ∨ s.pos.cmd = some .sendFinish → c = 0x15 → s.xmRetry.toNat = 9 →
      ∃ t, step s = .next t ∧
        t.arch = { s with
          rxq := rest, xmRetry := 10, xmPhase := .awaitStart, result := 0x01, pos := SeqPos.idle }.arch) ∧
    (s.pos.cmd = some .sendBlock ∨ s.pos.cmd = some .sendFinish → c ≠ 0x06 → c ≠ 0x15 → c ≠ 0x18 →
      ∃ t, step s = .next t ∧
        t.arch = { s with
          rxq := rest
          pos := { cmd := s.pos.cmd, i := 0, p := 0
                   label := if s.pos.cmd = some Cmd.sendFinish then .sdGet else .sdPoll } }.arch)

/-! ## A step -/

/-- The step of an idle SEQ runs the instruction that the first unit of the host's queue decodes to, after the three bytes
of a command word are written to `CMD`, `ARG0` and `ARG1`; a call that waits stays first in the queue. A command word
that comes while a command runs writes the three registers and nothing else, one that comes after a halt nothing (R20,
R21, R22, R42, R91; logs 1, 3). -/
def Obligations.IdleStepRunsTheDecodedInstruction : Prop :=
  (∀ (s : State) (u : HostUnit) (q : List HostUnit) (i : Instr) (rest : List Byte), Quiet s → Idle s →
    s.hostq = u :: q → decode u.format u.bytes = .instr i rest →
    step s =
      match exec i (if u.format = .cmd then { s with
          hostq := q, ret := .done, cmd := u.bytes.getD 0 0, arg0 := u.bytes.getD 1 0, arg1 := u.bytes.getD 2 0 }
        else { s with hostq := q, ret := .done }) with
      | .next t => if t.ret = .waiting then .next { t with hostq := u :: t.hostq } else .next t
      | .fault r => .fault r
      | .refused r => .refused r) ∧
  ∀ (s : State) (c a0 a1 : Byte) (more : List Byte) (rest : List Turn),
    s.sched = .env (.host { format := .cmd, bytes := c :: a0 :: a1 :: more }) :: rest →
    (s.halted = false → s.pos.label ≠ .idle →
      step s = .next { s with sched := rest, cmd := c, arg0 := a0, arg1 := a1 }) ∧
    (s.halted = true → step s = .next { s with sched := rest })

/-- The step of a running command issues the primitive at SEQ's position; where it halts or waits SEQ stays, else SEQ
goes on (R25, R78, D2; log 1). -/
def Obligations.RunningStepIssuesOnePrimitive : Prop :=
  ∀ (s : State) (i : Instr), Quiet s → s.halted = false → s.pos.label ≠ .idle → want s = .prim (.port i) →
    step s =
      match exec i s with
      | .next t => if t.halted = true ∨ t.ret = .waiting then .next t else resume t
      | .fault r => .fault r
      | .refused r => .refused r

/-! ## Transfer commands -/

/-- XM_OPEN and XM_CLOSE (R200, R201, D40). -/
def Obligations.OpenAndCloseThePort : Prop :=
  ∀ (s : State) (a0 a1 : Byte), Quiet s → Idle s →
    (∃ t u, exec (.xmOpen a0 a1) s = .next t ∧ Runs t u ∧
      u.arch = { s with portOpen := true, result := 0x00, pos := SeqPos.idle }.arch) ∧
    ∃ t u, exec (.xmClose a0 a1) s = .next t ∧ Runs t u ∧
      u.arch = { s with
        portOpen := false, rxie := false, xmPhase := .awaitStart, result := 0x00, pos := SeqPos.idle }.arch

/-- R202: sequence counter 1, retry counter 1, session open, `OK`; nothing is sent or read; with the port closed the
command is refused. -/
def Obligations.RecvStartOpensASession : Prop :=
  ∀ (s : State) (a0 a1 : Byte), Idle s →
    (s.portOpen = true → ∃ t, exec (.recvStart a0 a1) s = .next t ∧
      t.arch = { s with
        xmSeq := 1, xmRetry := 1, xmPhase := .awaitBlock, result := Status.ok.code, pos := SeqPos.idle }.arch) ∧
    (s.portOpen = false → exec (.recvStart a0 a1) s = .refused .portClosed)

/-- R205: a frame whose checksum is the sum of its data mod 256 is accepted, one whose checksum is not costs a retry, and
`BLOCKBUF` then holds the rejected bytes. -/
def Obligations.RecvBlockChecksTheSum : Prop :=
  ∀ (s : State) (a0 a1 : Byte) (data : Vector Byte 128) (ck : Byte) (rest : List Byte), Quiet s → Idle s →
    s.xmPhase = .awaitBlock → s.cancelKey = false →
    s.rxq = Config.SOH :: s.xmSeq :: (255 - s.xmSeq) :: (data.toList ++ ck :: rest) →
    (ck.toNat = (data.toList.map BitVec.toNat).sum % 256 →
      ∃ t u, exec (.recvBlock a0 a1) s = .next t ∧ Runs t u ∧
        u.arch = { s with
          txlog := s.txlog ++ [if s.xmRetry = 0 then Config.ACK else Config.NAK], rxq := rest, blockbuf := data
          xmSeq := s.xmSeq + 1, xmRetry := 0, irqMask := false, result := Status.ok.code, pos := SeqPos.idle }.arch) ∧
    (ck.toNat ≠ (data.toList.map BitVec.toNat).sum % 256 → s.xmRetry.toNat < 10 →
      ∃ t u, exec (.recvBlock a0 a1) s = .next t ∧ Runs t u ∧
        u.arch = { s with
          txlog := s.txlog ++ [if s.xmRetry = 0 then Config.ACK else Config.NAK], rxq := rest, blockbuf := data
          xmRetry := s.xmRetry + 1, irqMask := false
          pos := { cmd := some .recvBlock, label := .rcPrime, i := 0, p := 0 } }.arch)

/-- The four other ends of RECV_BLOCK: the key, `CAN`, `EOT`, a header that does not match (R203, R204, R209, R212, R213).
What a frame with a bad header leaves on the line is not stated (U7, log 32). -/
def Obligations.RecvBlockOtherEnds : Prop :=
  ∀ (s : State) (a0 a1 : Byte) (rest : List Byte), Quiet s → Idle s → s.xmPhase = .awaitBlock →
    (s.cancelKey = true →
      ∃ t u, exec (.recvBlock a0 a1) s = .next t ∧ Runs t u ∧
        u.arch = { s with
          txlog := s.txlog ++ [if s.xmRetry = 0 then 0x06 else 0x15], irqMask := false
          xmPhase := .awaitStart, result := 0x03, pos := SeqPos.idle }.arch) ∧
    (s.cancelKey = false → s.rxq = 0x18 :: rest →
      ∃ t u, exec (.recvBlock a0 a1) s = .next t ∧ Runs t u ∧
        u.arch = { s with
          txlog := s.txlog ++ [if s.xmRetry = 0 then 0x06 else 0x15], rxq := rest, irqMask := false
          xmPhase := .awaitStart, result := 0x02, pos := SeqPos.idle }.arch) ∧
    (s.cancelKey = false → s.rxq = 0x04 :: rest →
      ∃ t u, exec (.recvBlock a0 a1) s = .next t ∧ Runs t u ∧
        u.arch = { s with
          txlog := s.txlog ++ [if s.xmRetry = 0 then 0x06 else 0x15, 0x06], rxq := rest, irqMask := false
          xmPhase := .awaitStart, result := 0x04, pos := SeqPos.idle }.arch) ∧
    ∀ seq nseq : Byte, s.cancelKey = false → s.rxq = 0x01 :: seq :: nseq :: rest →
      seq ≠ s.xmSeq ∨ nseq ≠ 255 - seq →
      ∃ t u, exec (.recvBlock a0 a1) s = .next t ∧ Runs t u ∧
        u.arch = { s with
          txlog := s.txlog ++ [if s.xmRetry = 0 then 0x06 else 0x15], rxq := u.rxq, irqMask := false
          xmPhase := .awaitStart, result := 0x02, pos := SeqPos.idle }.arch

/-- R207: each bad unit costs one retry and one `NAK`; the one that takes the counter above 10 ends the command with
`ERROR`, and `XM_SEQ` never moves on this path: 11 failures after a good block, 10 on the first block. Fewer failures
followed by a good frame end with `OK`. -/
def Obligations.BadUnitsAreRetriedUntilTheEleventh : Prop :=
  ∀ (s : State) (a0 a1 : Byte) (units : List (List Byte)) (rest : List Byte), Quiet s → Idle s →
    s.xmPhase = .awaitBlock → s.cancelKey = false → (∀ unit ∈ units, BadUnit s.xmSeq unit) →
    (units ≠ [] → s.rxq = units.flatten ++ rest → s.xmRetry.toNat + units.length = 11 →
      ∃ t u bb, exec (.recvBlock a0 a1) s = .next t ∧ Runs t u ∧
        u.arch = { s with
          txlog := s.txlog ++ (if s.xmRetry = 0 then 0x06 else 0x15) :: List.replicate (units.length - 1) 0x15
          rxq := rest, blockbuf := bb, xmRetry := 11, irqMask := false, xmPhase := .awaitStart
          result := 0x01, pos := SeqPos.idle }.arch) ∧
    ∀ data : Vector Byte 128, s.rxq = units.flatten ++ (wireFrame s.xmSeq data ++ rest) →
      s.xmRetry.toNat + units.length ≤ 10 →
      ∃ t u, exec (.recvBlock a0 a1) s = .next t ∧ Runs t u ∧
        u.arch = { s with
          txlog := s.txlog ++ (if s.xmRetry = 0 then 0x06 else 0x15) :: List.replicate units.length 0x15
          rxq := rest, blockbuf := data, xmSeq := s.xmSeq + 1, xmRetry := 0, irqMask := false
          result := 0x00, pos := SeqPos.idle }.arch

/-- No wait ends by itself: inside a frame, in the poll loop, and in the send side's waits a silent line keeps the command
running for ever; inside a frame, and while SEND_FINISH waits, the cancel key is not looked at (R318, R210, R232, D22,
D25). A tick that has come is used up and changes nothing else (log 19). -/
def Obligations.SilentPeerKeepsTheCommandRunning : Prop :=
  ∀ (s : State) (n : Nat), Quiet s → s.halted = false → s.rxq = [] →
    (s.pos.label = .rcSeq ∨ s.pos.label = .rcNseq ∨ s.pos.label = .rcData ∨ s.pos.label = .rcCheck →
      Host.Core.run Sys2Proof.core (n + 1) s = .next { s with ret := .waiting }) ∧
    (s.pos.label = .rcPoll ∨ s.pos.label = .rcGet → s.cancelKey = false →
      ∃ t, Host.Core.run Sys2Proof.core n s = .next t ∧ (t.pos.label = .rcPoll ∨ t.pos.label = .rcGet) ∧
        t.arch = { s with pos := t.pos }.arch) ∧
    (s.pos.label = .sdPoll ∨ s.pos.label = .sdGet ∨ s.pos.label = .sdHalt → s.cancelKey = false →
      ∃ t, Host.Core.run Sys2Proof.core n s = .next t ∧
        (t.pos.label = .sdPoll ∨ t.pos.label = .sdGet ∨ t.pos.label = .sdHalt) ∧ t.pos.cmd = s.pos.cmd ∧
        t.arch = { s with pos := t.pos, tickPending := t.tickPending }.arch) ∧
    (s.pos.cmd = some .sendFinish → s.pos.label = .sdGet ∨ s.pos.label = .sdHalt →
      ∃ t, Host.Core.run Sys2Proof.core n s = .next t ∧
        (t.pos.label = .sdGet ∨ t.pos.label = .sdHalt) ∧ t.pos.cmd = some .sendFinish ∧
        t.arch = { s with pos := t.pos, tickPending := t.tickPending }.arch)

/-- SEND_START: bytes that are no `NAK` and no `CAN` are dropped; `NAK` releases it; `CAN` and the key end it (R230, R233,
R234, D25, D35). -/
def Obligations.SendStartWaitsForNak : Prop :=
  ∀ (s : State) (a0 a1 : Byte) (junk rest : List Byte), Quiet s → Idle s → s.portOpen = true →
    (∀ c ∈ junk, c ≠ 0x15 ∧ c ≠ 0x18) →
    (s.cancelKey = false → s.rxq = junk ++ 0x15 :: rest →
      ∃ t u, exec (.sendStart a0 a1) s = .next t ∧ Runs t u ∧
        u.arch = { s with
          xmSeq := 1, xmRetry := 0, xmPhase := .sending, rxie := true, rxq := rest, result := 0x00
          pos := SeqPos.idle }.arch) ∧
    (s.cancelKey = false → s.rxq = junk ++ 0x18 :: rest →
      ∃ t u, exec (.sendStart a0 a1) s = .next t ∧ Runs t u ∧
        u.arch = { s with
          xmSeq := 1, xmRetry := 0, xmPhase := .awaitStart, rxie := true, rxq := rest, result := 0x02
          pos := SeqPos.idle }.arch) ∧
    (s.cancelKey = true →
      ∃ t u, exec (.sendStart a0 a1) s = .next t ∧ Runs t u ∧
        u.arch = { s with
          xmSeq := 1, xmRetry := 0, xmPhase := .awaitStart, rxie := true, result := 0x03
          pos := SeqPos.idle }.arch)

/-- SEND_BLOCK sends the whole frame once and once more for each `NAK`; `ACK` advances `XM_SEQ`; the tenth `NAK` gives up
after ten transmissions; with the key down it sends one frame and ends (R231, D25). -/
def Obligations.SendBlockTransmitsUntilAcked : Prop :=
  ∀ (s : State) (a0 a1 : Byte) (n : Nat) (rest : List Byte), Quiet s → Idle s → s.xmPhase = .sending →
    (s.cancelKey = false → n ≤ 9 → s.rxq = List.replicate n 0x15 ++ 0x06 :: rest →
      ∃ t u, exec (.sendBlock a0 a1) s = .next t ∧ Runs t u ∧
        u.arch = { s with
          txlog := s.txlog ++ (List.replicate (n + 1) (wireFrame s.xmSeq s.blockbuf)).flatten, rxq := rest
          xmSeq := s.xmSeq + 1, xmRetry := BitVec.ofNat 8 n, result := 0x00, pos := SeqPos.idle }.arch) ∧
    (s.cancelKey = false → s.rxq = List.replicate 10 0x15 ++ rest →
      ∃ t u, exec (.sendBlock a0 a1) s = .next t ∧ Runs t u ∧
        u.arch = { s with
          txlog := s.txlog ++ (List.replicate 10 (wireFrame s.xmSeq s.blockbuf)).flatten, rxq := rest
          xmRetry := 10, xmPhase := .awaitStart, result := 0x01, pos := SeqPos.idle }.arch) ∧
    (s.cancelKey = true →
      ∃ t u, exec (.sendBlock a0 a1) s = .next t ∧ Runs t u ∧
        u.arch = { s with
          txlog := s.txlog ++ wireFrame s.xmSeq s.blockbuf, xmRetry := 0, xmPhase := .awaitStart
          result := 0x03, pos := SeqPos.idle }.arch)

/-- SEND_FINISH sends `EOT` once and once more for each `NAK`, up to ten times, and does not look at the cancel key (R232,
R234, D25). -/
def Obligations.SendFinishTransmitsEotUntilAcked : Prop :=
  ∀ (s : State) (a0 a1 : Byte) (n : Nat) (rest : List Byte), Quiet s → Idle s → s.xmPhase = .sending →
    (n ≤ 9 → s.rxq = List.replicate n 0x15 ++ 0x06 :: rest →
      ∃ t u, exec (.sendFinish a0 a1) s = .next t ∧ Runs t u ∧
        u.arch = { s with
          txlog := s.txlog ++ List.replicate (n + 1) 0x04, rxq := rest
          xmRetry := BitVec.ofNat 8 n, xmPhase := .awaitStart, result := 0x04, pos := SeqPos.idle }.arch) ∧
    (s.rxq = List.replicate 10 0x15 ++ rest →
      ∃ t u, exec (.sendFinish a0 a1) s = .next t ∧ Runs t u ∧
        u.arch = { s with
          txlog := s.txlog ++ List.replicate 10 0x04, rxq := rest
          xmRetry := 10, xmPhase := .awaitStart, result := 0x01, pos := SeqPos.idle }.arch)

/-! ## Save relocation -/

/-- The switches that move no save: the save that is already active (zero primitives), NONE on a first boot, NONE to NONE;
and the first-boot adoption of any other operands, be they valid or not, which persists and touches neither RAM nor flash
(R170 steps 1 and 2, R171, R304). -/
def Obligations.SwitchesThatMoveNothing : Prop :=
  ∀ (s : State) (slot os : Byte), Quiet s → Idle s →
    (slot = s.w.activeSlot → os = s.w.activeOs →
      ∃ t, exec (.switchToSlot slot os) s = .next t ∧ t.arch = { s with result := 0x00, pos := SeqPos.idle }.arch) ∧
    (s.w.activeSlot = 0xFD → slot = 0xFF →
      ∃ t, exec (.switchToSlot slot os) s = .next t ∧ t.arch = { s with result := 0x00, pos := SeqPos.idle }.arch) ∧
    (LegalParams s.par → s.w.activeSlot = 0xFF → slot = 0xFF →
      ∃ t, exec (.switchToSlot slot os) s = .next t ∧ t.arch = { s with result := 0x00, pos := SeqPos.idle }.arch) ∧
    (s.w.activeSlot = 0xFD → ¬ (slot = 0xFD ∧ os = s.w.activeOs) → slot ≠ 0xFF →
      ∃ t u, exec (.switchToSlot slot os) s = .next t ∧ Runs t u ∧
        u.arch = { s with
          w := { s.w with activeSlot := slot, activeOs := os }, p := { s.w with activeSlot := slot, activeOs := os }
          result := 0x00, pos := SeqPos.idle }.arch)

/-- A slot operand that is neither a slot index nor NONE, and then a stored active slot that is neither, is
`Fatal(BAD_SLOT)` with that byte, and nothing else is written (R170 steps 3 and 3a, R273, D18). -/
def Obligations.SwitchHaltsOnABadSlot : Prop :=
  ∀ (s : State) (slot os : Byte), Idle s → ¬ (slot = s.w.activeSlot ∧ os = s.w.activeOs) →
    s.w.activeSlot ≠ 0xFD →
    (s.par.sramSlots ≤ slot.toNat → slot ≠ 0xFF →
      ∃ t, exec (.switchToSlot slot os) s = .next t ∧
        t.arch = { s with pos := t.pos, halted := true, diagCode := 0x03, diagAux := slot.setWidth 16 }.arch) ∧
    (slot.toNat < s.par.sramSlots ∨ slot = 0xFF → s.par.sramSlots ≤ s.w.activeSlot.toNat → s.w.activeSlot ≠ 0xFF →
      ∃ t, exec (.switchToSlot slot os) s = .next t ∧
        t.arch = { s with
          pos := t.pos, halted := true, diagCode := 0x03, diagAux := s.w.activeSlot.setWidth 16 }.arch)

/-- From one slot to another (R170 steps 4 and 5, R183 c and d): the run first reaches a state in which the RAM window is
in the old slot's flash, no slot is active and that is persisted; then the new slot's flash is in the RAM window, the
new slot is active and that is persisted. Where the old region has size 1, the evict gathers its sibling first (R174). -/
def Obligations.SwitchEvictsThenLoads : Prop :=
  ∀ (s : State) (slot os : Byte) (oa ob nb : Nat), Quiet s → Idle s → LegalParams s.par → s.defects = [] →
    s.lockDepth < 255 → s.w.activeSlot.toNat < s.par.sramSlots → slot.toNat < s.par.sramSlots →
    ¬ (slot = s.w.activeSlot ∧ os = s.w.activeOs) → oa = s.w.activeOs.toNat % 16 →
    ob = os.toNat % 16 → nb = os.toNat / 16 → 1 ≤ nb → ob + nb ≤ 8 →
    (∀ na : Nat, na = s.w.activeOs.toNat / 16 → 1 ≤ na → oa + na ≤ 8 → oa % 2 = 0 → na % 2 = 0 →
      ∃ t m u pb cb, exec (.switchToSlot slot os) s = .next t ∧ Runs t m ∧ Runs m u ∧
        m.w = { s.w with activeSlot := 0xFF } ∧ m.p = { s.w with activeSlot := 0xFF } ∧ m.sram = s.sram ∧
        (∀ k < na, ∀ off < 65536,
          m.flash.get (s.saveAddr s.w.activeSlot (oa + k) off) = s.sram.get (sramAddr k off)) ∧
        (∀ a : Nat, (∀ k < na, ∀ off < 65536, a ≠ s.saveAddr s.w.activeSlot (oa + k) off) →
          m.flash.get a = s.flash.get a) ∧
        (∀ k < nb, ∀ off < 65536, u.sram.get (sramAddr k off) = m.flash.get (s.saveAddr slot (ob + k) off)) ∧
        (∀ a : Nat, 65536 * nb ≤ a → u.sram.get a = s.sram.get a) ∧
        u.arch = { s with
          w := { s.w with activeSlot := slot, activeOs := os }, p := { s.w with activeSlot := slot, activeOs := os }
          flash := m.flash, sram := u.sram, pagebuf := pb, cmpbuf := cb
          progCur := BitVec.ofNat 16 (32 * nb), progMax := BitVec.ofNat 16 (32 * nb)
          result := 0x00, pos := SeqPos.idle }.arch) ∧
    (s.w.activeOs.toNat / 16 = 1 → oa ≤ 7 →
      ∃ t m u pb cb, exec (.switchToSlot slot os) s = .next t ∧ Runs t m ∧ Runs m u ∧
        m.w = { s.w with activeSlot := 0xFF } ∧ m.p = { s.w with activeSlot := 0xFF } ∧
        (∀ off < 65536, m.sram.get (sramAddr (oa % 2) off) = s.sram.get (sramAddr 0 off)) ∧
        (∀ off < 65536, m.sram.get (sramAddr (1 - oa % 2) off) =
          s.flash.get (s.saveAddr s.w.activeSlot (oa - oa % 2 + (1 - oa % 2)) off)) ∧
        (∀ a : Nat, 131072 ≤ a → m.sram.get a = s.sram.get a) ∧
        (∀ k < 2, ∀ off < 65536,
          m.flash.get (s.saveAddr s.w.activeSlot (oa - oa % 2 + k) off) = m.sram.get (sramAddr k off)) ∧
        (∀ a : Nat, (∀ k < 2, ∀ off < 65536, a ≠ s.saveAddr s.w.activeSlot (oa - oa % 2 + k) off) →
          m.flash.get a = s.flash.get a) ∧
        (∀ k < nb, ∀ off < 65536, u.sram.get (sramAddr k off) = m.flash.get (s.saveAddr slot (ob + k) off)) ∧
        (∀ a : Nat, 65536 * nb ≤ a → u.sram.get a = m.sram.get a) ∧
        u.arch = { s with
          w := { s.w with activeSlot := slot, activeOs := os }, p := { s.w with activeSlot := slot, activeOs := os }
          flash := m.flash, sram := u.sram, pagebuf := pb, cmpbuf := cb
          progCur := BitVec.ofNat 16 (32 * nb), progMax := BitVec.ofNat 16 (32 * nb)
          result := 0x00, pos := SeqPos.idle }.arch)

/-- From a slot to NONE, the stored region even or of size 1, and from NONE to a slot (R170, R171 d and g, R174). -/
def Obligations.SwitchToAndFromNone : Prop :=
  ∀ (s : State) (slot os : Byte) (o n : Nat), Quiet s → Idle s → LegalParams s.par →
    (s.w.activeSlot.toNat < s.par.sramSlots → slot = 0xFF → s.defects = [] → s.lockDepth < 255 →
      o = s.w.activeOs.toNat % 16 → n = s.w.activeOs.toNat / 16 → 1 ≤ n → o + n ≤ 8 → o % 2 = 0 → n % 2 = 0 →
      ∃ t u f pb cb, exec (.switchToSlot slot os) s = .next t ∧ Runs t u ∧
        (∀ k < n, ∀ off < 65536,
          f.get (s.saveAddr s.w.activeSlot (o + k) off) = s.sram.get (sramAddr k off)) ∧
        (∀ a : Nat, (∀ k < n, ∀ off < 65536, a ≠ s.saveAddr s.w.activeSlot (o + k) off) →
          f.get a = s.flash.get a) ∧
        u.arch = { s with
          w := { s.w with activeSlot := 0xFF }, p := { s.w with activeSlot := 0xFF }
          flash := f, pagebuf := pb, cmpbuf := cb
          progCur := BitVec.ofNat 16 (256 * n), progMax := BitVec.ofNat 16 (256 * n)
          result := 0x00, pos := SeqPos.idle }.arch) ∧
    (s.w.activeSlot.toNat < s.par.sramSlots → slot = 0xFF → s.defects = [] → s.lockDepth < 255 →
      o = s.w.activeOs.toNat % 16 → s.w.activeOs.toNat / 16 = 1 → o ≤ 7 →
      ∃ t u f m pb cb, exec (.switchToSlot slot os) s = .next t ∧ Runs t u ∧
        (∀ off < 65536, m.get (sramAddr (o % 2) off) = s.sram.get (sramAddr 0 off)) ∧
        (∀ off < 65536, m.get (sramAddr (1 - o % 2) off) =
          s.flash.get (s.saveAddr s.w.activeSlot (o - o % 2 + (1 - o % 2)) off)) ∧
        (∀ a : Nat, 131072 ≤ a → m.get a = s.sram.get a) ∧
        (∀ k < 2, ∀ off < 65536,
          f.get (s.saveAddr s.w.activeSlot (o - o % 2 + k) off) = m.get (sramAddr k off)) ∧
        (∀ a : Nat, (∀ k < 2, ∀ off < 65536, a ≠ s.saveAddr s.w.activeSlot (o - o % 2 + k) off) →
          f.get a = s.flash.get a) ∧
        u.arch = { s with
          w := { s.w with activeSlot := 0xFF }, p := { s.w with activeSlot := 0xFF }
          flash := f, sram := m, pagebuf := pb, cmpbuf := cb
          progCur := 512, progMax := 512, result := 0x00, pos := SeqPos.idle }.arch) ∧
    (s.w.activeSlot = 0xFF → slot.toNat < s.par.sramSlots →
      o = os.toNat % 16 → n = os.toNat / 16 → 1 ≤ n → o + n ≤ 8 →
      ∃ t u m, exec (.switchToSlot slot os) s = .next t ∧ Runs t u ∧
        (∀ k < n, ∀ off < 65536, m.get (sramAddr k off) = s.flash.get (s.saveAddr slot (o + k) off)) ∧
        (∀ a : Nat, 65536 * n ≤ a → m.get a = s.sram.get a) ∧
        u.arch = { s with
          w := { s.w with activeSlot := slot, activeOs := os }, p := { s.w with activeSlot := slot, activeOs := os }
          sram := m, progCur := BitVec.ofNat 16 (32 * n), progMax := BitVec.ofNat 16 (32 * n)
          result := 0x00, pos := SeqPos.idle }.arch)

/-- PROGRAM_TO_FLASH of an even region: each bank of the region is the RAM bank, no other byte of flash has changed, with
and without partial writes, with either erase granule (R173, R175, R176, R177, R69). -/
def Obligations.ProgramMakesTheRegionEqualToRam : Prop :=
  ∀ (s : State) (slot os : Byte) (o n : Nat), Quiet s → Idle s → LegalParams s.par → s.defects = [] →
    s.lockDepth < 255 → slot.toNat < s.par.sramSlots →
    o = os.toNat % 16 → n = os.toNat / 16 → 1 ≤ n → o + n ≤ 8 → o % 2 = 0 → n % 2 = 0 →
    ∃ t u f pb cb, exec (.programToFlash slot os) s = .next t ∧ Runs t u ∧
      (∀ k < n, ∀ off < 65536, f.get (s.saveAddr slot (o + k) off) = s.sram.get (sramAddr k off)) ∧
      (∀ a : Nat, (∀ k < n, ∀ off < 65536, a ≠ s.saveAddr slot (o + k) off) → f.get a = s.flash.get a) ∧
      u.arch = { s with
        flash := f, pagebuf := pb, cmpbuf := cb
        progCur := BitVec.ofNat 16 (256 * n), progMax := BitVec.ofNat 16 (256 * n)
        result := 0x00, pos := SeqPos.idle }.arch

/-- R272: an odd geometry that the upgrade does not cover halts at once, before `unlock` and before any erase, in
PROGRAM_TO_FLASH and in the evict of SWITCH_TO_SLOT: flash and lock are untouched. -/
def Obligations.OddGeometryHaltsBeforeFlashIsTouched : Prop :=
  ∀ (s : State) (slot os : Byte) (o n : Nat), Idle s → slot.toNat < s.par.sramSlots →
    o = os.toNat % 16 → n = os.toNat / 16 → 2 ≤ n → o + n ≤ 8 → o % 2 = 1 ∨ n % 2 = 1 →
    (∃ t, exec (.programToFlash slot os) s = .next t ∧
      t.arch = { s with
        pos := t.pos, halted := true, diagCode := FatalCode.oddGeometry.code
        diagAux := os.setWidth 16 }.arch) ∧
    ∀ newSlot newOs : Byte, LegalParams s.par → s.w.activeSlot = slot → s.w.activeOs = os →
      ¬ (newSlot = slot ∧ newOs = os) →
      newSlot = 0xFF ∨ newSlot.toNat < s.par.sramSlots ∧ osOk newOs = true →
      ∃ t, exec (.switchToSlot newSlot newOs) s = .next t ∧
        t.arch = { s with
          pos := t.pos, halted := true, diagCode := FatalCode.oddGeometry.code
          diagAux := os.setWidth 16 }.arch

/-- PROGRAM_TO_FLASH of a size-1 region: the live bank and its sibling end up in RAM in sub-bank order, and the even pair of
flash banks is rewritten from them (R174, D9). -/
def Obligations.ProgramOfSizeOneRewritesThePair : Prop :=
  ∀ (s : State) (slot os : Byte) (o : Nat), Quiet s → Idle s → LegalParams s.par → s.defects = [] →
    s.lockDepth < 255 → slot.toNat < s.par.sramSlots → os.toNat / 16 = 1 → o = os.toNat % 16 → o ≤ 7 →
    ∃ t u f m pb cb, exec (.programToFlash slot os) s = .next t ∧ Runs t u ∧
      (∀ off < 65536, m.get (sramAddr (o % 2) off) = s.sram.get (sramAddr 0 off)) ∧
      (∀ off < 65536, m.get (sramAddr (1 - o % 2) off) =
        s.flash.get (s.saveAddr slot (o - o % 2 + (1 - o % 2)) off)) ∧
      (∀ a : Nat, 131072 ≤ a → m.get a = s.sram.get a) ∧
      (∀ k < 2, ∀ off < 65536, f.get (s.saveAddr slot (o - o % 2 + k) off) = m.get (sramAddr k off)) ∧
      (∀ a : Nat, (∀ k < 2, ∀ off < 65536, a ≠ s.saveAddr slot (o - o % 2 + k) off) → f.get a = s.flash.get a) ∧
      u.arch = { s with
        flash := f, sram := m, pagebuf := pb, cmpbuf := cb
        progCur := 512, progMax := 512, result := 0x00, pos := SeqPos.idle }.arch

/-- RESTORE_FROM_FLASH: RAM bank `k` is bank `k` of the region, the RAM banks above it have not changed, and nothing else
has; any well-formed geometry loads, odd ones too (R178, D9). -/
def Obligations.RestoreMakesRamEqualToTheRegion : Prop :=
  ∀ (s : State) (slot os : Byte) (o n : Nat), Quiet s → Idle s → LegalParams s.par → slot.toNat < s.par.sramSlots →
    o = os.toNat % 16 → n = os.toNat / 16 → 1 ≤ n → o + n ≤ 8 →
    ∃ t u m, exec (.restoreFromFlash slot os) s = .next t ∧ Runs t u ∧
      (∀ k < n, ∀ off < 65536, m.get (sramAddr k off) = s.flash.get (s.saveAddr slot (o + k) off)) ∧
      (∀ a : Nat, 65536 * n ≤ a → m.get a = s.sram.get a) ∧
      u.arch = { s with
        sram := m, progCur := BitVec.ofNat 16 (32 * n), progMax := BitVec.ofNat 16 (32 * n)
        result := 0x00, pos := SeqPos.idle }.arch

/-- R183 (a), the round trip: programming a slot and then restoring it, whatever the RAM holds in between, gives back the
RAM banks of the region; for size 1, RAM bank 0. -/
def Obligations.ProgramThenRestoreGivesBackRam : Prop :=
  ∀ (s : State) (slot os : Byte) (o n : Nat), Quiet s → Idle s → LegalParams s.par → s.defects = [] →
    s.lockDepth < 255 → slot.toNat < s.par.sramSlots →
    o = os.toNat % 16 → n = os.toNat / 16 → 1 ≤ n → o + n ≤ 8 → n = 1 ∨ o % 2 = 0 ∧ n % 2 = 0 →
    ∃ t u, exec (.programToFlash slot os) s = .next t ∧ Runs t u ∧ Idle u ∧ u.result = 0x00 ∧
      ∀ sram : Mem, ∃ t' u', exec (.restoreFromFlash slot os) { u with sram := sram } = .next t' ∧ Runs t' u' ∧
        u'.result = 0x00 ∧ ∀ k < n, ∀ off < 65536, u'.sram.get (sramAddr k off) = s.sram.get (sramAddr k off)

/-- ERASE: with NONE the RAM banks of the size are filled with `0xFF` and flash is untouched; with a slot, or ALL, every
granule that holds a bank of the region of the slot, or of every slot, is erased and nothing else of flash changes
(R179 to R182, R311, D19). -/
def Obligations.EraseModes : Prop :=
  ∀ (s : State) (os : Byte) (o n : Nat), Quiet s → Idle s → LegalParams s.par →
    o = os.toNat % 16 → n = os.toNat / 16 → 1 ≤ n → o + n ≤ 8 →
    (∃ t u m, exec (.erase 0xFF os) s = .next t ∧ Runs t u ∧
      (∀ a : Nat, m.get a = if a < 65536 * n then 0xFF else s.sram.get a) ∧
      u.arch = { s with
        sram := m, progCur := BitVec.ofNat 16 n, progMax := BitVec.ofNat 16 n
        result := 0x00, pos := SeqPos.idle }.arch) ∧
    ∀ (target : Byte) (first count : Nat), s.lockDepth < 255 →
      (target.toNat < s.par.sramSlots ∧ first = target.toNat ∧ count = 1) ∨
        (target = 0xFE ∧ first = 0 ∧ count = s.par.sramSlots) →
      ∃ t u f, exec (.erase target os) s = .next t ∧ Runs t u ∧
        (∀ (slot k off : Nat) (b : Byte), first ≤ slot → slot < first + count → k < n → off < 65536 →
          SameGranule s.par.granule b (BitVec.ofNat 8 (bankNumber s.w.legacyLayout slot (o + k))) →
          f.get (flashAddr 0 s.launchSlot b off) = 0xFF) ∧
        (∀ a : Nat, (∀ (slot k off : Nat) (b : Byte), first ≤ slot → slot < first + count → k < n → off < 65536 →
          SameGranule s.par.granule b (BitVec.ofNat 8 (bankNumber s.w.legacyLayout slot (o + k))) →
          a ≠ flashAddr 0 s.launchSlot b off) → f.get a = s.flash.get a) ∧
        u.arch = { s with
          flash := f, progCur := BitVec.ofNat 16 (count * n), progMax := BitVec.ofNat 16 (count * n)
          result := 0x00, pos := SeqPos.idle }.arch

/-! ## Firmware -/

/-- FLASH_IMAGE of a wholly written staging buffer, when no flash cell of the image shows a defect: the BIOS bank is the
staging buffer, the rest of its granule is erased, nothing else of flash changes, and the command returns `OK`
(R256, D29). -/
def Obligations.FlashImageCommitsTheStagingBuffer : Prop :=
  ∀ (s : State) (a0 a1 : Byte), Quiet s → Idle s → s.lockDepth < 255 →
    (∀ off < 65536, s.stg.known off = true) →
    (∀ off < 65536, ∀ v, findCell s.defects (flashAddr 0 s.launchSlot s.par.biosBank off) = some v →
      v = s.stg.get off) →
    ∃ t u f pb cb, exec (.flashImage a0 a1) s = .next t ∧ Runs t u ∧
      (∀ off < 65536, f.get (flashAddr 0 s.launchSlot s.par.biosBank off) = s.stg.get off) ∧
      (∀ (b : Byte) (off : Nat), off < 65536 → SameGranule s.par.granule b s.par.biosBank → b ≠ s.par.biosBank →
        f.get (flashAddr 0 s.launchSlot b off) = 0xFF) ∧
      (∀ a : Nat, (∀ (b : Byte) (off : Nat), off < 65536 → SameGranule s.par.granule b s.par.biosBank →
        a ≠ flashAddr 0 s.launchSlot b off) → f.get a = s.flash.get a) ∧
      u.arch = { s with
        flash := f, pagebuf := pb, cmpbuf := cb, progCur := 256, progMax := 256
        result := 0x00, pos := SeqPos.idle }.arch

/-- R257: the first page whose read-back differs halts the machine with `VERIFY_MISMATCH` and the page number; the lock is
not closed, no result is written, the page stands as its cells took it, no later page has been programmed, the rest of
the BIOS bank's granule is erased and no other byte of flash has changed (R140, R256; U10, log 15). -/
def Obligations.VerifyMismatchHaltsAtTheFirstBadPage : Prop :=
  ∀ (s : State) (a0 a1 : Byte) (page k : Nat) (v : Byte), Quiet s → Idle s → s.lockDepth < 255 →
    (∀ off < 65536, s.stg.known off = true) → page < 256 → k < 256 →
    findCell s.defects (flashAddr 0 s.launchSlot s.par.biosBank (256 * page + k)) = some v →
    v ≠ s.stg.get (256 * page + k) →
    (∀ off < 256 * page, ∀ w, findCell s.defects (flashAddr 0 s.launchSlot s.par.biosBank off) = some w →
      w = s.stg.get off) →
    ∃ t u f pb cb, exec (.flashImage a0 a1) s = .next t ∧ Runs t u ∧
      (∀ off < 256 * page, f.get (flashAddr 0 s.launchSlot s.par.biosBank off) = s.stg.get off) ∧
      (∀ off < 65536, 256 * page ≤ off → off < 256 * page + 256 →
        f.get (flashAddr 0 s.launchSlot s.par.biosBank off) =
          (findCell s.defects (flashAddr 0 s.launchSlot s.par.biosBank off)).getD (s.stg.get off)) ∧
      (∀ off < 65536, 256 * page + 256 ≤ off → f.get (flashAddr 0 s.launchSlot s.par.biosBank off) = 0xFF) ∧
      (∀ (b : Byte) (off : Nat), off < 65536 → SameGranule s.par.granule b s.par.biosBank → b ≠ s.par.biosBank →
        f.get (flashAddr 0 s.launchSlot b off) = 0xFF) ∧
      (∀ a : Nat, (∀ (b : Byte) (off : Nat), off < 65536 → SameGranule s.par.granule b s.par.biosBank →
        a ≠ flashAddr 0 s.launchSlot b off) → f.get a = s.flash.get a) ∧
      u.arch = { s with
        flash := f, pagebuf := pb, cmpbuf := cb, progCur := BitVec.ofNat 16 page, progMax := 256
        lockDepth := s.lockDepth + 1, halted := true, diagCode := 0x06, diagAux := BitVec.ofNat 16 page
        pos := u.pos }.arch

/-- INSTALL_RECEIVE of a stream of up to 512 good blocks, ended by `EOT` or by the 512th: the staging buffer holds the
running XOR of the stream, `0xFF` after it, and the trailer; the port is closed; `COMPLETE`. No byte
of `SRAM` is known once the command has started, nor when it has ended (R64, R250 to R254, R259 e, U18; the delta decoder
as R251 states it, log 33). -/
def Obligations.InstallReceiveDecodesAndPads : Prop :=
  ∀ (s : State) (a0 a1 : Byte) (blocks : List (Vector Byte 128)) (rest : List Byte), Quiet s → Idle s →
    s.par.sramSlots ≤ s.w.activeSlot.toNat → s.cancelKey = false → s.par.delta = .stated → blocks.length ≤ 512 →
    s.rxq = framesFrom 1 blocks ++ (if blocks.length < 512 then 0x04 :: rest else rest) →
    ∃ t u m sram free bb, exec (.installReceive a0 a1) s = .next t ∧ Runs t u ∧
      SramUnspecified t ∧ SramUnspecified u ∧
      (∀ off < 65536, m.get off =
        if 0xFFF0 ≤ off then (Config.trailer blocks.length).toList.getD (off - 0xFFF0) 0
        else if 128 * blocks.length ≤ off then 0xFF
        else ((streamOf blocks).take (off + 1)).foldl (· ^^^ ·) 0) ∧
      u.arch = { s with
        stg := m, sram := sram, freeNext := free, blockbuf := bb
        txlog := s.txlog ++ 0x15 ::
          List.replicate (if blocks.length < 512 then blocks.length + 1 else blocks.length - 1) 0x06
        rxq := rest, xmSeq := 1 + BitVec.ofNat 8 blocks.length, xmRetry := if blocks = [] then 1 else 0
        blkCount := BitVec.ofNat 16 blocks.length, deltaPrev := (streamOf blocks).foldl (· ^^^ ·) 0
        portOpen := false, rxie := false, irqMask := false, xmPhase := .awaitStart
        result := 0x04, pos := SeqPos.idle }.arch

/-- INSTALL_RECEIVE that `CAN` or a header that does not match aborts after some good blocks, that the user aborts, or
that dies of bad units (ten on the first block, eleven on a later one), returns the failing result with the port closed
and flash, settings, lock and the unpadded staging buffer as they were but for the stored blocks; no byte of `SRAM` is
known once the command has started, nor when it has ended (R64, R204, R207, R250, R259 c and e, R289, U18; log 33). The last
clause is the key at any poll of a running install. What a header mismatch leaves on the line is not stated (U7, log 32). -/
def Obligations.FailedInstallTouchesNoFlash : Prop :=
  ∀ (s : State) (a0 a1 : Byte) (rest : List Byte), Quiet s →
    (Idle s → s.par.sramSlots ≤ s.w.activeSlot.toNat → s.par.delta = .stated →
      (∀ blocks : List (Vector Byte 128), s.cancelKey = false → blocks.length < 512 →
        s.rxq = framesFrom 1 blocks ++ 0x18 :: rest →
        ∃ t u, exec (.installReceive a0 a1) s = .next t ∧ Runs t u ∧ Idle u ∧
          SramUnspecified t ∧ SramUnspecified u ∧ u.result = 0x02 ∧
          u.portOpen = false ∧ u.xmPhase = .awaitStart ∧ u.flash = s.flash ∧ u.w = s.w ∧ u.p = s.p ∧
          u.lockDepth = s.lockDepth ∧ u.rxq = rest ∧ u.blkCount = BitVec.ofNat 16 blocks.length ∧
          ∀ a : Nat, 128 * blocks.length ≤ a → u.stg.get a = s.stg.get a) ∧
      (∀ (blocks : List (Vector Byte 128)) (seq nseq : Byte), s.cancelKey = false → blocks.length < 512 →
        s.rxq = framesFrom 1 blocks ++ 0x01 :: seq :: nseq :: rest →
        seq ≠ 1 + BitVec.ofNat 8 blocks.length ∨ nseq ≠ 255 - seq →
        ∃ t u, exec (.installReceive a0 a1) s = .next t ∧ Runs t u ∧ Idle u ∧
          SramUnspecified t ∧ SramUnspecified u ∧ u.result = 0x02 ∧
          u.portOpen = false ∧ u.xmPhase = .awaitStart ∧ u.flash = s.flash ∧ u.w = s.w ∧ u.p = s.p ∧
          u.lockDepth = s.lockDepth ∧ u.blkCount = BitVec.ofNat 16 blocks.length ∧
          ∀ a : Nat, 128 * blocks.length ≤ a → u.stg.get a = s.stg.get a) ∧
      (s.cancelKey = true →
        ∃ t u, exec (.installReceive a0 a1) s = .next t ∧ Runs t u ∧ Idle u ∧
          SramUnspecified t ∧ SramUnspecified u ∧ u.result = 0x03 ∧
          u.portOpen = false ∧ u.xmPhase = .awaitStart ∧ u.flash = s.flash ∧ u.w = s.w ∧ u.p = s.p ∧
          u.lockDepth = s.lockDepth ∧ u.stg = s.stg ∧ u.rxq = s.rxq ∧ u.blkCount = 0 ∧
          u.txlog = s.txlog ++ [0x15]) ∧
      (∀ units : List (List Byte), s.cancelKey = false → units.length = 10 → (∀ unit ∈ units, BadUnit 1 unit) →
        s.rxq = units.flatten ++ rest →
        ∃ t u, exec (.installReceive a0 a1) s = .next t ∧ Runs t u ∧ Idle u ∧
          SramUnspecified t ∧ SramUnspecified u ∧ u.result = 0x01 ∧
          u.portOpen = false ∧ u.xmPhase = .awaitStart ∧ u.flash = s.flash ∧ u.w = s.w ∧ u.p = s.p ∧
          u.lockDepth = s.lockDepth ∧ u.stg = s.stg ∧ u.rxq = rest ∧ u.blkCount = 0 ∧
          u.txlog = s.txlog ++ List.replicate 10 0x15) ∧
      ∀ (blocks : List (Vector Byte 128)) (units : List (List Byte)), s.cancelKey = false → blocks ≠ [] →
        blocks.length < 512 → units.length = 11 →
        (∀ unit ∈ units, BadUnit (1 + BitVec.ofNat 8 blocks.length) unit) →
        s.rxq = framesFrom 1 blocks ++ (units.flatten ++ rest) →
        ∃ t u, exec (.installReceive a0 a1) s = .next t ∧ Runs t u ∧ Idle u ∧
          SramUnspecified t ∧ SramUnspecified u ∧ u.result = 0x01 ∧
          u.portOpen = false ∧ u.xmPhase = .awaitStart ∧ u.flash = s.flash ∧ u.w = s.w ∧ u.p = s.p ∧
          u.lockDepth = s.lockDepth ∧ u.rxq = rest ∧ u.blkCount = BitVec.ofNat 16 blocks.length ∧
          u.txlog = s.txlog ++ 0x15 :: (List.replicate blocks.length 0x06 ++ List.replicate 10 0x15) ∧
          ∀ a : Nat, 128 * blocks.length ≤ a → u.stg.get a = s.stg.get a) ∧
    (s.halted = false → s.pos.cmd = some .installReceive → s.pos.label = .rcPoll → s.cancelKey = true →
      ∃ u, Runs s u ∧
        u.arch = { s with
          portOpen := false, rxie := false, irqMask := false, xmPhase := .awaitStart
          result := 0x03, pos := SeqPos.idle }.arch)

/-- R255: no step ends INSTALL_RECEIVE but the clean-up, which closes the port and returns a failing result, and the
trailer's store, which comes after the clean-up and returns `COMPLETE`; and the clean-up is entered from the last block,
from `COMPLETE` and from the failing results. -/
def Obligations.InstallEndsOnlyThroughCleanup : Prop :=
  ∀ s t : State, Quiet s → s.halted = false → s.pos.cmd = some .installReceive → s.pos.label.receiving = true →
    step s = .next t →
    (t.pos.label = .idle →
      (s.pos.label = .inClose ∧ t.portOpen = false ∧ t.xmPhase = .awaitStart ∧
        ((s.vars.status = .error ∧ t.result = Status.error.code) ∨ (s.vars.status = .cancel ∧ t.result = Status.cancel.code) ∨
          (s.vars.status = .selfCancel ∧ t.result = Status.selfCancel.code))) ∨
      (s.pos.label = .inTrailer ∧ t.result = Status.complete.code)) ∧
    (t.pos.label ≠ .idle → t.pos.cmd = some .installReceive ∧ t.pos.label.receiving = true) ∧
    (t.pos.label = .inPad ∨ t.pos.label = .inTrailer →
      s.pos.label = .inClose ∧ t.portOpen = false ∨ s.pos.label = .inPad) ∧
    (t.pos.label = .inClose →
      ((s.pos.label = .inStore ∧ 511 ≤ s.blkCount.toNat ∧ t.vars.status = .ok) ∨ (s.pos.label = .rcEotAck ∧ t.vars.status = .complete) ∨
        (s.pos.label = .rcCancel ∧ t.vars.status = .cancel) ∨
        (s.pos.label = .rcSelf ∧ t.vars.status = .selfCancel) ∨
        (s.pos.label = .rcBad ∧ t.vars.status = .error)))

/-! ## The whole machine -/

/-- Every step, of every agent, keeps the three memories in their canonical form. -/
def Obligations.EveryStepKeepsMemoryCanonical : Prop :=
  ∀ s t : State, MemInv s → step s = .next t → MemInv t

/-- Every step keeps what holds of SEQ when the host issues commands only: lock, interrupt mask, settings copies, and the
region of the running relocation (R147, R171 c, R211, R274). -/
def Obligations.EveryStepKeepsTheSequencerInvariant : Prop :=
  ∀ s t : State, SeqInv s → CommandsOnly s → step s = .next t → SeqInv t ∧ CommandsOnly t

/-- With commands only, a halt is ODD_GEOMETRY, BAD_SLOT or VERIFY_MISMATCH: the other three fatal causes are out of reach
(R271, R274). -/
def Obligations.CommandsAloneReachThreeFatalCauses : Prop :=
  ∀ s t : State, SeqInv s → CommandsOnly s → s.halted = false → step s = .next t → t.halted = true →
    t.diagCode = 0x02 ∨ t.diagCode = 0x03 ∨ t.diagCode = 0x06

/-- The state after reset meets the three invariants. -/
def Obligations.ResetMeetsTheInvariants : Prop :=
  MemInv State.reset ∧ SeqInv State.reset ∧ CommandsOnly State.reset

/-- While the lock depth is 0 no step, of any agent, changes flash (R284, R33). -/
def Obligations.LockedFlashNeverChanges : Prop :=
  ∀ s t : State, s.lockDepth = 0 → step s = .next t → t.flash = s.flash

/-- R66: the persisted settings change only to the value of the working copy, and only where a `persist()` is issued: by
SEQ between a write of `W` and the next point, or by a direct call. -/
def Obligations.PersistedSettingsChangeOnlyByPersist : Prop :=
  ∀ s t : State, step s = .next t →
    t.p = s.p ∨
      t.p = s.w ∧ (s.pos.label.saving = true ∨
        ∃ u : HostUnit, u.format = .port ∧ u.bytes.head? = some 0x86 ∧
          (u ∈ s.hostq ∨ Turn.env (.host u) ∈ s.sched))

/-- R317: the cancel key is read only in RECV_BLOCK's poll loop and in the send side's waits: a turn of SEQ, whether it
starts a command, goes on with one or waits, does the same with the key up and with the key down, but at these two
polls and where the host itself calls `poll_cancel`. -/
def Obligations.CancelKeyIsReadOnlyWherePolled : Prop :=
  ∀ (s : State) (key : Bool), s.pos.label ≠ .rcPoll → s.pos.label ≠ .sdPoll →
    (∀ (u : HostUnit) (q : List HostUnit) (rest : List Byte), s.pos.label = .idle → s.hostq = u :: q →
      decode u.format u.bytes ≠ .instr .pollCancel rest) →
    seqTurn { s with cancelKey := key } =
      match seqTurn s with
      | .next t => .next { t with cancelKey := key }
      | .fault r => .fault r
      | .refused r => .refused r

/-- A power loss between primitives keeps flash, `SRAM` and the persisted settings, gives the working settings the
persisted ones and every volatile register that R47 gives a value that value (R300, R301, R47, D33). -/
def Obligations.PowerLossKeepsWhatSurvivesReset : Prop :=
  ∀ (s : State) (launch : Byte), ∃ t, envMove (.power .between launch) s = .next t ∧
    t.flash = s.flash ∧ t.sram = s.sram ∧ t.p = s.p ∧ t.w = s.p ∧
    t.halted = false ∧ t.pos = SeqPos.idle ∧ t.lockDepth = 0 ∧ t.xmPhase = .awaitStart ∧
    t.cmd = 0 ∧ t.arg0 = 0 ∧ t.arg1 = 0 ∧ t.result = 0 ∧ t.resultAux = 0 ∧
    t.portOpen = false ∧ t.irqMask = false ∧ t.rxie = false ∧ t.rxq = [] ∧ t.txlog = [] ∧
    t.launchSlot = launch ∧ t.cancelKey = s.cancelKey ∧ ∀ a : Nat, t.stg.known a = false

/-- A power loss inside a primitive damages no byte of flash or `SRAM` but those the primitive can touch, and leaves the
persisted settings the old ones or, inside `persist()`, perhaps the working ones (R302, R146, D34, D17). -/
def Obligations.PowerLossDamagesOnlyTheBytesInProgress : Prop :=
  ∀ (s : State) (persisted : Bool) (launch : Byte), ∃ t,
    envMove (.power (.inside persisted) launch) s = .next t ∧
    (t.p = s.p ∨ t.p = s.w ∧ current s = some (.port .persist)) ∧
    (∀ a : Nat, t.flash.get a ≠ s.flash.get a →
      (∃ (device ps bank b : Byte) (off : Nat), current s = some (.port (.eraseBank device ps bank)) ∧
        SameGranule s.par.granule b bank ∧ off < 65536 ∧ a = flashAddr device ps b off) ∨
      ∃ (buffer : List Byte) (ps bank : Byte) (offset length k : Nat),
        current s = some (.port (.writeSlot buffer ps bank offset length)) ∧ k < length ∧
        a = flashAddr 0 ps bank (offset + k)) ∧
    ∀ a : Nat, t.sram.get a ≠ s.sram.get a →
      ∃ (rb off k : Nat) (data : List Byte), current s = some (.sramStore rb off data) ∧ k < data.length ∧
        a = sramAddr rb (off + k)

end
end

