-- ==== Sys2Proof/Laws/Memory.lean ====
section
/-! SUPPORT. The laws of memory: what a byte reads as after a store, that every operation keeps the canonical form,
and that nothing else of a memory is looked at. -/

namespace Sys2Proof.Machine

theorem findCell_append (xs ys : List Host.Cell) (a : Nat) :
    findCell (xs ++ ys) a = (findCell xs a).or (findCell ys a) := by
  induction xs with
  | nil => simp [findCell]
  | cons c cs ih =>
    obtain ⟨k, v⟩ := c
    by_cases h : k = a <;> simp [findCell, h, ih]

theorem findCell_filter_of_pos (cs : List Host.Cell) (q : Nat → Bool) (a : Nat) (h : q a = true) :
    findCell (cs.filter fun c => q c.1) a = findCell cs a := by
  induction cs with
  | nil => rfl
  | cons c cs ih =>
    obtain ⟨k, v⟩ := c
    by_cases hk : k = a
    · subst hk; simp [findCell, h]
    · by_cases hq : q k = true <;> simp [findCell, hk, hq, ih]

theorem findCell_filter_of_neg (cs : List Host.Cell) (q : Nat → Bool) (a : Nat) (h : q a = false) :
    findCell (cs.filter fun c => q c.1) a = none := by
  induction cs with
  | nil => rfl
  | cons c cs ih =>
    obtain ⟨k, v⟩ := c
    by_cases hk : k = a
    · subst hk; simpa [findCell, h] using ih
    · by_cases hq : q k = true <;> simp [findCell, hk, hq, ih]

theorem findCell_eq_none {cs : List Host.Cell} {a : Nat} (h : ∀ c ∈ cs, c.1 ≠ a) : findCell cs a = none := by
  induction cs with
  | nil => rfl
  | cons c cs ih =>
    obtain ⟨k, v⟩ := c
    have hk : k ≠ a := h (k, v) (by simp)
    simp [findCell, hk, ih fun c hc => h c (by simp [hc])]

theorem newCells_succ (fill : Fill) (base n : Nat) (f : Nat → Byte) :
    newCells fill base (n + 1) f =
      newCells fill base n f ++ (if fill.holds (f n) then [] else [(base + n, f n)]) := by
  by_cases h : fill.holds (f n) = true <;> simp [newCells, List.range_succ, List.filterMap_append, h]

theorem findCell_newCells (fill : Fill) (base n : Nat) (f : Nat → Byte) (a : Nat) :
    findCell (newCells fill base n f) a =
      if base ≤ a ∧ a < base + n ∧ fill.holds (f (a - base)) = false then some (f (a - base)) else none := by
  induction n with
  | zero =>
    have : ¬(base ≤ a ∧ a < base + 0 ∧ fill.holds (f (a - base)) = false) := by omega
    simp [newCells, findCell]
    omega
  | succ n ih =>
    rw [newCells_succ, findCell_append, ih]
    by_cases ha : a = base + n
    · subst ha
      have h1 : ¬(base ≤ base + n ∧ base + n < base + n ∧ fill.holds (f (base + n - base)) = false) := by omega
      rw [if_neg h1]
      have hs : base + n - base = n := by omega
      by_cases h : fill.holds (f n) = true
      · simp [h, findCell]
      · simp [h, findCell]
    · have h2 : findCell (if fill.holds (f n) then [] else [(base + n, f n)]) a = none := by
        split
        · rfl
        · simp [findCell, Ne.symm ha]
      rw [h2, Option.or_none]
      have : (a < base + (n + 1)) ↔ (a < base + n) ∨ a = base + n := by omega
      simp [this, ha]

theorem Fill.get_of_holds {fill : Fill} {v : Byte} (h : fill.holds v = true) (a : Nat) : fill.get a = v := by
  cases fill with
  | byte b => simpa [Fill.holds, Fill.get] using h
  | free g => simp [Fill.holds] at h

/-- What a byte reads as after a store: the stored byte inside the range, the old one outside. -/
@[simp] theorem Mem.get_store (m : Mem) (base n : Nat) (f : Nat → Byte) (a : Nat) :
    (m.store base n f).get a = if base ≤ a ∧ a < base + n then f (a - base) else m.get a := by
  unfold Mem.store Mem.get
  simp only [findCell_append, findCell_newCells]
  by_cases h : base ≤ a ∧ a < base + n
  · rw [findCell_filter_of_neg _ (fun k => decide (k < base)) a (by simp; omega),
      findCell_filter_of_neg _ (fun k => decide (base + n ≤ k)) a (by simp; omega)]
    by_cases hh : m.fill.holds (f (a - base)) = true
    · simp [h, hh, Fill.get_of_holds hh]
    · simp only [Bool.not_eq_true] at hh
      simp [h, hh]
  · rw [if_neg h, if_neg (by tauto)]
    by_cases hb : a < base
    · rw [findCell_filter_of_pos _ (fun k => decide (k < base)) a (by simpa using hb),
        findCell_filter_of_neg _ (fun k => decide (base + n ≤ k)) a (by simp; omega)]
      simp
    · rw [findCell_filter_of_neg _ (fun k => decide (k < base)) a (by simpa using hb),
        findCell_filter_of_pos _ (fun k => decide (base + n ≤ k)) a (by simp; omega)]
      simp

@[simp] theorem Mem.fill_store (m : Mem) (base n : Nat) (f : Nat → Byte) : (m.store base n f).fill = m.fill := rfl

/-- Leaving out a range of bytes that the fill already says is the store of that byte. -/
theorem Mem.fillRange_eq_store (m : Mem) (base n : Nat) (b : Byte) :
    m.fillRange base n b = m.store base n fun _ => b := by
  unfold Mem.fillRange
  split
  · rename_i h
    have : newCells m.fill base n (fun _ => b) = [] := by simp [newCells, h]
    simp [Mem.store, this]
  · rfl

@[simp] theorem Mem.get_fillRange (m : Mem) (base n : Nat) (b : Byte) (a : Nat) :
    (m.fillRange base n b).get a = if base ≤ a ∧ a < base + n then b else m.get a := by
  rw [Mem.fillRange_eq_store, Mem.get_store]

@[simp] theorem Mem.get_storeList (m : Mem) (base : Nat) (data : List Byte) (a : Nat) :
    (m.storeList base data).get a =
      if base ≤ a ∧ a < base + data.length then data.getD (a - base) 0 else m.get a := by
  simp [Mem.storeList]

theorem newCells_mem {fill : Fill} {base n : Nat} {f : Nat → Byte} {c : Host.Cell}
    (h : c ∈ newCells fill base n f) : base ≤ c.1 ∧ c.1 < base + n ∧ fill.holds c.2 = false := by
  unfold newCells at h
  simp only [List.mem_filterMap, List.mem_range] at h
  obtain ⟨k, hk, h⟩ := h
  split at h
  · cases h
  · rename_i hh
    cases h
    exact ⟨by omega, by omega, by simpa using hh⟩

theorem newCells_pairwise (fill : Fill) (base n : Nat) (f : Nat → Byte) :
    (newCells fill base n f).Pairwise fun a b => a.1 < b.1 := by
  induction n with
  | zero => simp [newCells]
  | succ n ih =>
    rw [newCells_succ, List.pairwise_append]
    refine ⟨ih, by split <;> simp, fun c hc d hd => ?_⟩
    have := newCells_mem hc
    split at hd
    · simp at hd
    · simp only [List.mem_singleton] at hd
      subst hd
      exact this.2.1

/-- A store keeps the canonical form. -/
theorem Mem.wf_store {m : Mem} (h : m.wf) (base n : Nat) (f : Nat → Byte) : (m.store base n f).wf := by
  refine ⟨?_, ?_⟩
  · show (_ ++ _ ++ _ : List Host.Cell).Pairwise _
    rw [List.pairwise_append, List.pairwise_append]
    refine ⟨⟨h.1.filter _, newCells_pairwise .., fun c hc d hd => ?_⟩, h.1.filter _, fun c hc d hd => ?_⟩
    · have h1 : c.1 < base := by simpa using (List.mem_filter.1 hc).2
      have h2 := newCells_mem hd
      omega
    · have h2 : base + n ≤ d.1 := by simpa using (List.mem_filter.1 hd).2
      rcases List.mem_append.1 hc with hc | hc
      · have h1 : c.1 < base := by simpa using (List.mem_filter.1 hc).2
        omega
      · have := newCells_mem hc
        omega
  · intro c hc
    simp only [Mem.store, List.mem_append] at hc
    rcases hc with (hc | hc) | hc
    · exact h.2 c (List.mem_filter.1 hc).1
    · exact (newCells_mem hc).2.2
    · exact h.2 c (List.mem_filter.1 hc).1

theorem Mem.wf_fillRange {m : Mem} (h : m.wf) (base n : Nat) (b : Byte) : (m.fillRange base n b).wf := by
  rw [Mem.fillRange_eq_store]
  exact Mem.wf_store h ..

theorem Mem.wf_storeList {m : Mem} (h : m.wf) (base : Nat) (data : List Byte) : (m.storeList base data).wf :=
  Mem.wf_store h ..

theorem Mem.wf_programFlash {m : Mem} (h : m.wf) (defects : List Host.Cell) (base : Nat) (data : List Byte) :
    (programFlash defects base data m).wf :=
  Mem.wf_store h ..

theorem Mem.wf_eraseFlash {m : Mem} (h : m.wf) (g : Config.Granule) (dev ps bank : Byte) :
    (eraseFlash g dev ps bank m).wf :=
  Mem.wf_fillRange h ..

theorem Mem.wf_empty (fill : Fill) : (Mem.mk fill []).wf := by simp [Mem.wf]

@[simp] theorem Mem.length_bytes (m : Mem) (base n : Nat) : (m.bytes base n).length = n := by simp [Mem.bytes]

theorem Mem.getD_bytes (m : Mem) (base n k : Nat) (h : k < n) (d : Byte) :
    (m.bytes base n).getD k d = m.get (base + k) := by
  simp [Mem.bytes, List.getD_eq_getElem?_getD, h]

/-- A byte of a programmed range (R141). -/
theorem get_programFlash (defects : List Host.Cell) (base : Nat) (data : List Byte) (m : Mem) (a : Nat) :
    (programFlash defects base data m).get a =
      if base ≤ a ∧ a < base + data.length then programmed m defects a (data.getD (a - base) 0) else m.get a := by
  unfold programFlash
  rw [Mem.get_store]
  split
  · rename_i h
    rw [show base + (a - base) = a by omega]
  · rfl

/-- A byte after an erase (R140). -/
theorem get_eraseFlash (g : Config.Granule) (dev ps bank : Byte) (m : Mem) (a : Nat) :
    (eraseFlash g dev ps bank m).get a =
      if flashAddr dev ps (eraseSpan g bank).1 0 ≤ a ∧
          a < flashAddr dev ps (eraseSpan g bank).1 0 + (eraseSpan g bank).2 * Config.bankBytes
      then Config.erased else m.get a := by
  simp [eraseFlash]

theorem Mem.known_store {m : Mem} {base n : Nat} {f : Nat → Byte} {a : Nat} (h : m.known a = true) :
    (m.store base n f).known a = true := by
  revert h
  unfold Mem.known Mem.store
  cases hf : m.fill with
  | byte b => simp
  | free g =>
    simp only [findCell_append, findCell_newCells]
    by_cases h : base ≤ a ∧ a < base + n
    · simp [h, Fill.holds]
    · by_cases hb : a < base
      · rw [findCell_filter_of_pos _ (fun k => decide (k < base)) a (by simpa using hb)]
        intro hk; simp [hk]
      · rw [findCell_filter_of_pos _ (fun k => decide (base + n ≤ k)) a (by simp; omega)]
        intro hk; simp [hk]

theorem Mem.known_store_of_mem (m : Mem) {base n : Nat} (f : Nat → Byte) {a : Nat} (h : base ≤ a ∧ a < base + n) :
    (m.store base n f).known a = true := by
  unfold Mem.known Mem.store
  cases hf : m.fill with
  | byte b => simp
  | free g =>
    simp only [findCell_append, findCell_newCells]
    simp [h, Fill.holds]

@[simp] theorem tabulate_toList (n : Nat) (f : Nat → Byte) : (tabulate n f).toList = (List.range n).map f := rfl

theorem getElem_tabulate (n : Nat) (f : Nat → Byte) (k : Nat) (h : k < n) : (tabulate n f)[k] = f k := by
  simp [tabulate]

end Sys2Proof.Machine
end

