-- ==== Sys2Proof/Laws/State.lean ====
section
/-! SUPPORT. What each named update of the state leaves in each field, so that no proof unfolds one: `goto`,
`finish`, `raiseFatal`, `takeLaunch`, `loseSram`. -/

namespace Sys2Proof.Machine

@[simp] theorem goto_cmd (l : Label) (i p : Nat) (s : State) : (goto l i p s).cmd = s.cmd := rfl
@[simp] theorem goto_arg0 (l : Label) (i p : Nat) (s : State) : (goto l i p s).arg0 = s.arg0 := rfl
@[simp] theorem goto_arg1 (l : Label) (i p : Nat) (s : State) : (goto l i p s).arg1 = s.arg1 := rfl
@[simp] theorem goto_result (l : Label) (i p : Nat) (s : State) : (goto l i p s).result = s.result := rfl
@[simp] theorem goto_resultAux (l : Label) (i p : Nat) (s : State) : (goto l i p s).resultAux = s.resultAux := rfl
@[simp] theorem goto_pos (l : Label) (i p : Nat) (s : State) : (goto l i p s).pos = { cmd := s.pos.cmd, label := l, i := i, p := p } := rfl
@[simp] theorem goto_vars (l : Label) (i p : Nat) (s : State) : (goto l i p s).vars = s.vars := rfl
@[simp] theorem goto_ret (l : Label) (i p : Nat) (s : State) : (goto l i p s).ret = s.ret := rfl
@[simp] theorem goto_xfer (l : Label) (i p : Nat) (s : State) : (goto l i p s).xfer = s.xfer := rfl
@[simp] theorem goto_w (l : Label) (i p : Nat) (s : State) : (goto l i p s).w = s.w := rfl
@[simp] theorem goto_p (l : Label) (i p : Nat) (s : State) : (goto l i p s).p = s.p := rfl
@[simp] theorem goto_lockDepth (l : Label) (i p : Nat) (s : State) : (goto l i p s).lockDepth = s.lockDepth := rfl
@[simp] theorem goto_xmSeq (l : Label) (i p : Nat) (s : State) : (goto l i p s).xmSeq = s.xmSeq := rfl
@[simp] theorem goto_xmRetry (l : Label) (i p : Nat) (s : State) : (goto l i p s).xmRetry = s.xmRetry := rfl
@[simp] theorem goto_xmPhase (l : Label) (i p : Nat) (s : State) : (goto l i p s).xmPhase = s.xmPhase := rfl
@[simp] theorem goto_portOpen (l : Label) (i p : Nat) (s : State) : (goto l i p s).portOpen = s.portOpen := rfl
@[simp] theorem goto_irqMask (l : Label) (i p : Nat) (s : State) : (goto l i p s).irqMask = s.irqMask := rfl
@[simp] theorem goto_rxie (l : Label) (i p : Nat) (s : State) : (goto l i p s).rxie = s.rxie := rfl
@[simp] theorem goto_blockbuf (l : Label) (i p : Nat) (s : State) : (goto l i p s).blockbuf = s.blockbuf := rfl
@[simp] theorem goto_pagebuf (l : Label) (i p : Nat) (s : State) : (goto l i p s).pagebuf = s.pagebuf := rfl
@[simp] theorem goto_cmpbuf (l : Label) (i p : Nat) (s : State) : (goto l i p s).cmpbuf = s.cmpbuf := rfl
@[simp] theorem goto_deltaPrev (l : Label) (i p : Nat) (s : State) : (goto l i p s).deltaPrev = s.deltaPrev := rfl
@[simp] theorem goto_blkCount (l : Label) (i p : Nat) (s : State) : (goto l i p s).blkCount = s.blkCount := rfl
@[simp] theorem goto_halted (l : Label) (i p : Nat) (s : State) : (goto l i p s).halted = s.halted := rfl
@[simp] theorem goto_diagCode (l : Label) (i p : Nat) (s : State) : (goto l i p s).diagCode = s.diagCode := rfl
@[simp] theorem goto_diagAux (l : Label) (i p : Nat) (s : State) : (goto l i p s).diagAux = s.diagAux := rfl
@[simp] theorem goto_progCur (l : Label) (i p : Nat) (s : State) : (goto l i p s).progCur = s.progCur := rfl
@[simp] theorem goto_progMax (l : Label) (i p : Nat) (s : State) : (goto l i p s).progMax = s.progMax := rfl
@[simp] theorem goto_cancelKey (l : Label) (i p : Nat) (s : State) : (goto l i p s).cancelKey = s.cancelKey := rfl
@[simp] theorem goto_launchSlot (l : Label) (i p : Nat) (s : State) : (goto l i p s).launchSlot = s.launchSlot := rfl
@[simp] theorem goto_flash (l : Label) (i p : Nat) (s : State) : (goto l i p s).flash = s.flash := rfl
@[simp] theorem goto_sram (l : Label) (i p : Nat) (s : State) : (goto l i p s).sram = s.sram := rfl
@[simp] theorem goto_stg (l : Label) (i p : Nat) (s : State) : (goto l i p s).stg = s.stg := rfl
@[simp] theorem goto_rxq (l : Label) (i p : Nat) (s : State) : (goto l i p s).rxq = s.rxq := rfl
@[simp] theorem goto_txlog (l : Label) (i p : Nat) (s : State) : (goto l i p s).txlog = s.txlog := rfl
@[simp] theorem goto_tickPending (l : Label) (i p : Nat) (s : State) : (goto l i p s).tickPending = s.tickPending := rfl
@[simp] theorem goto_overrun (l : Label) (i p : Nat) (s : State) : (goto l i p s).overrun = s.overrun := rfl
@[simp] theorem goto_freeNext (l : Label) (i p : Nat) (s : State) : (goto l i p s).freeNext = s.freeNext := rfl
@[simp] theorem goto_defects (l : Label) (i p : Nat) (s : State) : (goto l i p s).defects = s.defects := rfl
@[simp] theorem goto_par (l : Label) (i p : Nat) (s : State) : (goto l i p s).par = s.par := rfl
@[simp] theorem goto_sched (l : Label) (i p : Nat) (s : State) : (goto l i p s).sched = s.sched := rfl
@[simp] theorem goto_hostq (l : Label) (i p : Nat) (s : State) : (goto l i p s).hostq = s.hostq := rfl

@[simp] theorem finish_cmd (r : Status) (s : State) : (finish r s).cmd = s.cmd := rfl
@[simp] theorem finish_arg0 (r : Status) (s : State) : (finish r s).arg0 = s.arg0 := rfl
@[simp] theorem finish_arg1 (r : Status) (s : State) : (finish r s).arg1 = s.arg1 := rfl
@[simp] theorem finish_result (r : Status) (s : State) : (finish r s).result = r.code := rfl
@[simp] theorem finish_resultAux (r : Status) (s : State) : (finish r s).resultAux = s.resultAux := rfl
@[simp] theorem finish_pos (r : Status) (s : State) : (finish r s).pos = SeqPos.idle := rfl
@[simp] theorem finish_vars (r : Status) (s : State) : (finish r s).vars = s.vars := rfl
@[simp] theorem finish_ret (r : Status) (s : State) : (finish r s).ret = s.ret := rfl
@[simp] theorem finish_xfer (r : Status) (s : State) : (finish r s).xfer = s.xfer := rfl
@[simp] theorem finish_w (r : Status) (s : State) : (finish r s).w = s.w := rfl
@[simp] theorem finish_p (r : Status) (s : State) : (finish r s).p = s.p := rfl
@[simp] theorem finish_lockDepth (r : Status) (s : State) : (finish r s).lockDepth = s.lockDepth := rfl
@[simp] theorem finish_xmSeq (r : Status) (s : State) : (finish r s).xmSeq = s.xmSeq := rfl
@[simp] theorem finish_xmRetry (r : Status) (s : State) : (finish r s).xmRetry = s.xmRetry := rfl
@[simp] theorem finish_xmPhase (r : Status) (s : State) : (finish r s).xmPhase = s.xmPhase := rfl
@[simp] theorem finish_portOpen (r : Status) (s : State) : (finish r s).portOpen = s.portOpen := rfl
@[simp] theorem finish_irqMask (r : Status) (s : State) : (finish r s).irqMask = s.irqMask := rfl
@[simp] theorem finish_rxie (r : Status) (s : State) : (finish r s).rxie = s.rxie := rfl
@[simp] theorem finish_blockbuf (r : Status) (s : State) : (finish r s).blockbuf = s.blockbuf := rfl
@[simp] theorem finish_pagebuf (r : Status) (s : State) : (finish r s).pagebuf = s.pagebuf := rfl
@[simp] theorem finish_cmpbuf (r : Status) (s : State) : (finish r s).cmpbuf = s.cmpbuf := rfl
@[simp] theorem finish_deltaPrev (r : Status) (s : State) : (finish r s).deltaPrev = s.deltaPrev := rfl
@[simp] theorem finish_blkCount (r : Status) (s : State) : (finish r s).blkCount = s.blkCount := rfl
@[simp] theorem finish_halted (r : Status) (s : State) : (finish r s).halted = s.halted := rfl
@[simp] theorem finish_diagCode (r : Status) (s : State) : (finish r s).diagCode = s.diagCode := rfl
@[simp] theorem finish_diagAux (r : Status) (s : State) : (finish r s).diagAux = s.diagAux := rfl
@[simp] theorem finish_progCur (r : Status) (s : State) : (finish r s).progCur = s.progCur := rfl
@[simp] theorem finish_progMax (r : Status) (s : State) : (finish r s).progMax = s.progMax := rfl
@[simp] theorem finish_cancelKey (r : Status) (s : State) : (finish r s).cancelKey = s.cancelKey := rfl
@[simp] theorem finish_launchSlot (r : Status) (s : State) : (finish r s).launchSlot = s.launchSlot := rfl
@[simp] theorem finish_flash (r : Status) (s : State) : (finish r s).flash = s.flash := rfl
@[simp] theorem finish_sram (r : Status) (s : State) : (finish r s).sram = s.sram := rfl
@[simp] theorem finish_stg (r : Status) (s : State) : (finish r s).stg = s.stg := rfl
@[simp] theorem finish_rxq (r : Status) (s : State) : (finish r s).rxq = s.rxq := rfl
@[simp] theorem finish_txlog (r : Status) (s : State) : (finish r s).txlog = s.txlog := rfl
@[simp] theorem finish_tickPending (r : Status) (s : State) : (finish r s).tickPending = s.tickPending := rfl
@[simp] theorem finish_overrun (r : Status) (s : State) : (finish r s).overrun = s.overrun := rfl
@[simp] theorem finish_freeNext (r : Status) (s : State) : (finish r s).freeNext = s.freeNext := rfl
@[simp] theorem finish_defects (r : Status) (s : State) : (finish r s).defects = s.defects := rfl
@[simp] theorem finish_par (r : Status) (s : State) : (finish r s).par = s.par := rfl
@[simp] theorem finish_sched (r : Status) (s : State) : (finish r s).sched = s.sched := rfl
@[simp] theorem finish_hostq (r : Status) (s : State) : (finish r s).hostq = s.hostq := rfl

@[simp] theorem raiseFatal_cmd (c : FatalCode) (aux : Nat) (s : State) : (raiseFatal c aux s).cmd = s.cmd := rfl
@[simp] theorem raiseFatal_arg0 (c : FatalCode) (aux : Nat) (s : State) : (raiseFatal c aux s).arg0 = s.arg0 := rfl
@[simp] theorem raiseFatal_arg1 (c : FatalCode) (aux : Nat) (s : State) : (raiseFatal c aux s).arg1 = s.arg1 := rfl
@[simp] theorem raiseFatal_result (c : FatalCode) (aux : Nat) (s : State) : (raiseFatal c aux s).result = s.result := rfl
@[simp] theorem raiseFatal_resultAux (c : FatalCode) (aux : Nat) (s : State) : (raiseFatal c aux s).resultAux = s.resultAux := rfl
@[simp] theorem raiseFatal_pos (c : FatalCode) (aux : Nat) (s : State) : (raiseFatal c aux s).pos = s.pos := rfl
@[simp] theorem raiseFatal_vars (c : FatalCode) (aux : Nat) (s : State) : (raiseFatal c aux s).vars = s.vars := rfl
@[simp] theorem raiseFatal_ret (c : FatalCode) (aux : Nat) (s : State) : (raiseFatal c aux s).ret = s.ret := rfl
@[simp] theorem raiseFatal_xfer (c : FatalCode) (aux : Nat) (s : State) : (raiseFatal c aux s).xfer = s.xfer := rfl
@[simp] theorem raiseFatal_w (c : FatalCode) (aux : Nat) (s : State) : (raiseFatal c aux s).w = s.w := rfl
@[simp] theorem raiseFatal_p (c : FatalCode) (aux : Nat) (s : State) : (raiseFatal c aux s).p = s.p := rfl
@[simp] theorem raiseFatal_lockDepth (c : FatalCode) (aux : Nat) (s : State) : (raiseFatal c aux s).lockDepth = s.lockDepth := rfl
@[simp] theorem raiseFatal_xmSeq (c : FatalCode) (aux : Nat) (s : State) : (raiseFatal c aux s).xmSeq = s.xmSeq := rfl
@[simp] theorem raiseFatal_xmRetry (c : FatalCode) (aux : Nat) (s : State) : (raiseFatal c aux s).xmRetry = s.xmRetry := rfl
@[simp] theorem raiseFatal_xmPhase (c : FatalCode) (aux : Nat) (s : State) : (raiseFatal c aux s).xmPhase = s.xmPhase := rfl
@[simp] theorem raiseFatal_portOpen (c : FatalCode) (aux : Nat) (s : State) : (raiseFatal c aux s).portOpen = s.portOpen := rfl
@[simp] theorem raiseFatal_irqMask (c : FatalCode) (aux : Nat) (s : State) : (raiseFatal c aux s).irqMask = s.irqMask := rfl
@[simp] theorem raiseFatal_rxie (c : FatalCode) (aux : Nat) (s : State) : (raiseFatal c aux s).rxie = s.rxie := rfl
@[simp] theorem raiseFatal_blockbuf (c : FatalCode) (aux : Nat) (s : State) : (raiseFatal c aux s).blockbuf = s.blockbuf := rfl
@[simp] theorem raiseFatal_pagebuf (c : FatalCode) (aux : Nat) (s : State) : (raiseFatal c aux s).pagebuf = s.pagebuf := rfl
@[simp] theorem raiseFatal_cmpbuf (c : FatalCode) (aux : Nat) (s : State) : (raiseFatal c aux s).cmpbuf = s.cmpbuf := rfl
@[simp] theorem raiseFatal_deltaPrev (c : FatalCode) (aux : Nat) (s : State) : (raiseFatal c aux s).deltaPrev = s.deltaPrev := rfl
@[simp] theorem raiseFatal_blkCount (c : FatalCode) (aux : Nat) (s : State) : (raiseFatal c aux s).blkCount = s.blkCount := rfl
@[simp] theorem raiseFatal_halted (c : FatalCode) (aux : Nat) (s : State) : (raiseFatal c aux s).halted = true := rfl
@[simp] theorem raiseFatal_diagCode (c : FatalCode) (aux : Nat) (s : State) : (raiseFatal c aux s).diagCode = c.code := rfl
@[simp] theorem raiseFatal_diagAux (c : FatalCode) (aux : Nat) (s : State) : (raiseFatal c aux s).diagAux = BitVec.ofNat 16 aux := rfl
@[simp] theorem raiseFatal_progCur (c : FatalCode) (aux : Nat) (s : State) : (raiseFatal c aux s).progCur = s.progCur := rfl
@[simp] theorem raiseFatal_progMax (c : FatalCode) (aux : Nat) (s : State) : (raiseFatal c aux s).progMax = s.progMax := rfl
@[simp] theorem raiseFatal_cancelKey (c : FatalCode) (aux : Nat) (s : State) : (raiseFatal c aux s).cancelKey = s.cancelKey := rfl
@[simp] theorem raiseFatal_launchSlot (c : FatalCode) (aux : Nat) (s : State) : (raiseFatal c aux s).launchSlot = s.launchSlot := rfl
@[simp] theorem raiseFatal_flash (c : FatalCode) (aux : Nat) (s : State) : (raiseFatal c aux s).flash = s.flash := rfl
@[simp] theorem raiseFatal_sram (c : FatalCode) (aux : Nat) (s : State) : (raiseFatal c aux s).sram = s.sram := rfl
@[simp] theorem raiseFatal_stg (c : FatalCode) (aux : Nat) (s : State) : (raiseFatal c aux s).stg = s.stg := rfl
@[simp] theorem raiseFatal_rxq (c : FatalCode) (aux : Nat) (s : State) : (raiseFatal c aux s).rxq = s.rxq := rfl
@[simp] theorem raiseFatal_txlog (c : FatalCode) (aux : Nat) (s : State) : (raiseFatal c aux s).txlog = s.txlog := rfl
@[simp] theorem raiseFatal_tickPending (c : FatalCode) (aux : Nat) (s : State) : (raiseFatal c aux s).tickPending = s.tickPending := rfl
@[simp] theorem raiseFatal_overrun (c : FatalCode) (aux : Nat) (s : State) : (raiseFatal c aux s).overrun = s.overrun := rfl
@[simp] theorem raiseFatal_freeNext (c : FatalCode) (aux : Nat) (s : State) : (raiseFatal c aux s).freeNext = s.freeNext := rfl
@[simp] theorem raiseFatal_defects (c : FatalCode) (aux : Nat) (s : State) : (raiseFatal c aux s).defects = s.defects := rfl
@[simp] theorem raiseFatal_par (c : FatalCode) (aux : Nat) (s : State) : (raiseFatal c aux s).par = s.par := rfl
@[simp] theorem raiseFatal_sched (c : FatalCode) (aux : Nat) (s : State) : (raiseFatal c aux s).sched = s.sched := rfl
@[simp] theorem raiseFatal_hostq (c : FatalCode) (aux : Nat) (s : State) : (raiseFatal c aux s).hostq = s.hostq := rfl

@[simp] theorem takeLaunch_cmd (s : State) : (takeLaunch s).cmd = s.cmd := rfl
@[simp] theorem takeLaunch_arg0 (s : State) : (takeLaunch s).arg0 = s.arg0 := rfl
@[simp] theorem takeLaunch_arg1 (s : State) : (takeLaunch s).arg1 = s.arg1 := rfl
@[simp] theorem takeLaunch_result (s : State) : (takeLaunch s).result = s.result := rfl
@[simp] theorem takeLaunch_resultAux (s : State) : (takeLaunch s).resultAux = s.resultAux := rfl
@[simp] theorem takeLaunch_pos (s : State) : (takeLaunch s).pos = s.pos := rfl
@[simp] theorem takeLaunch_vars (s : State) : (takeLaunch s).vars = { s.vars with launch := s.retByte } := rfl
@[simp] theorem takeLaunch_ret (s : State) : (takeLaunch s).ret = s.ret := rfl
@[simp] theorem takeLaunch_xfer (s : State) : (takeLaunch s).xfer = s.xfer := rfl
@[simp] theorem takeLaunch_w (s : State) : (takeLaunch s).w = s.w := rfl
@[simp] theorem takeLaunch_p (s : State) : (takeLaunch s).p = s.p := rfl
@[simp] theorem takeLaunch_lockDepth (s : State) : (takeLaunch s).lockDepth = s.lockDepth := rfl
@[simp] theorem takeLaunch_xmSeq (s : State) : (takeLaunch s).xmSeq = s.xmSeq := rfl
@[simp] theorem takeLaunch_xmRetry (s : State) : (takeLaunch s).xmRetry = s.xmRetry := rfl
@[simp] theorem takeLaunch_xmPhase (s : State) : (takeLaunch s).xmPhase = s.xmPhase := rfl
@[simp] theorem takeLaunch_portOpen (s : State) : (takeLaunch s).portOpen = s.portOpen := rfl
@[simp] theorem takeLaunch_irqMask (s : State) : (takeLaunch s).irqMask = s.irqMask := rfl
@[simp] theorem takeLaunch_rxie (s : State) : (takeLaunch s).rxie = s.rxie := rfl
@[simp] theorem takeLaunch_blockbuf (s : State) : (takeLaunch s).blockbuf = s.blockbuf := rfl
@[simp] theorem takeLaunch_pagebuf (s : State) : (takeLaunch s).pagebuf = s.pagebuf := rfl
@[simp] theorem takeLaunch_cmpbuf (s : State) : (takeLaunch s).cmpbuf = s.cmpbuf := rfl
@[simp] theorem takeLaunch_deltaPrev (s : State) : (takeLaunch s).deltaPrev = s.deltaPrev := rfl
@[simp] theorem takeLaunch_blkCount (s : State) : (takeLaunch s).blkCount = s.blkCount := rfl
@[simp] theorem takeLaunch_halted (s : State) : (takeLaunch s).halted = s.halted := rfl
@[simp] theorem takeLaunch_diagCode (s : State) : (takeLaunch s).diagCode = s.diagCode := rfl
@[simp] theorem takeLaunch_diagAux (s : State) : (takeLaunch s).diagAux = s.diagAux := rfl
@[simp] theorem takeLaunch_progCur (s : State) : (takeLaunch s).progCur = s.progCur := rfl
@[simp] theorem takeLaunch_progMax (s : State) : (takeLaunch s).progMax = s.progMax := rfl
@[simp] theorem takeLaunch_cancelKey (s : State) : (takeLaunch s).cancelKey = s.cancelKey := rfl
@[simp] theorem takeLaunch_launchSlot (s : State) : (takeLaunch s).launchSlot = s.launchSlot := rfl
@[simp] theorem takeLaunch_flash (s : State) : (takeLaunch s).flash = s.flash := rfl
@[simp] theorem takeLaunch_sram (s : State) : (takeLaunch s).sram = s.sram := rfl
@[simp] theorem takeLaunch_stg (s : State) : (takeLaunch s).stg = s.stg := rfl
@[simp] theorem takeLaunch_rxq (s : State) : (takeLaunch s).rxq = s.rxq := rfl
@[simp] theorem takeLaunch_txlog (s : State) : (takeLaunch s).txlog = s.txlog := rfl
@[simp] theorem takeLaunch_tickPending (s : State) : (takeLaunch s).tickPending = s.tickPending := rfl
@[simp] theorem takeLaunch_overrun (s : State) : (takeLaunch s).overrun = s.overrun := rfl
@[simp] theorem takeLaunch_freeNext (s : State) : (takeLaunch s).freeNext = s.freeNext := rfl
@[simp] theorem takeLaunch_defects (s : State) : (takeLaunch s).defects = s.defects := rfl
@[simp] theorem takeLaunch_par (s : State) : (takeLaunch s).par = s.par := rfl
@[simp] theorem takeLaunch_sched (s : State) : (takeLaunch s).sched = s.sched := rfl
@[simp] theorem takeLaunch_hostq (s : State) : (takeLaunch s).hostq = s.hostq := rfl

@[simp] theorem SeqPos.idle_label : SeqPos.idle.label = .idle := rfl

@[simp] theorem loseSram_cmd (s : State) : (loseSram s).cmd = s.cmd := rfl
@[simp] theorem loseSram_arg0 (s : State) : (loseSram s).arg0 = s.arg0 := rfl
@[simp] theorem loseSram_arg1 (s : State) : (loseSram s).arg1 = s.arg1 := rfl
@[simp] theorem loseSram_result (s : State) : (loseSram s).result = s.result := rfl
@[simp] theorem loseSram_resultAux (s : State) : (loseSram s).resultAux = s.resultAux := rfl
@[simp] theorem loseSram_pos (s : State) : (loseSram s).pos = s.pos := rfl
@[simp] theorem loseSram_vars (s : State) : (loseSram s).vars = s.vars := rfl
@[simp] theorem loseSram_ret (s : State) : (loseSram s).ret = s.ret := rfl
@[simp] theorem loseSram_xfer (s : State) : (loseSram s).xfer = s.xfer := rfl
@[simp] theorem loseSram_w (s : State) : (loseSram s).w = s.w := rfl
@[simp] theorem loseSram_p (s : State) : (loseSram s).p = s.p := rfl
@[simp] theorem loseSram_lockDepth (s : State) : (loseSram s).lockDepth = s.lockDepth := rfl
@[simp] theorem loseSram_xmSeq (s : State) : (loseSram s).xmSeq = s.xmSeq := rfl
@[simp] theorem loseSram_xmRetry (s : State) : (loseSram s).xmRetry = s.xmRetry := rfl
@[simp] theorem loseSram_xmPhase (s : State) : (loseSram s).xmPhase = s.xmPhase := rfl
@[simp] theorem loseSram_portOpen (s : State) : (loseSram s).portOpen = s.portOpen := rfl
@[simp] theorem loseSram_irqMask (s : State) : (loseSram s).irqMask = s.irqMask := rfl
@[simp] theorem loseSram_rxie (s : State) : (loseSram s).rxie = s.rxie := rfl
@[simp] theorem loseSram_blockbuf (s : State) : (loseSram s).blockbuf = s.blockbuf := rfl
@[simp] theorem loseSram_pagebuf (s : State) : (loseSram s).pagebuf = s.pagebuf := rfl
@[simp] theorem loseSram_cmpbuf (s : State) : (loseSram s).cmpbuf = s.cmpbuf := rfl
@[simp] theorem loseSram_deltaPrev (s : State) : (loseSram s).deltaPrev = s.deltaPrev := rfl
@[simp] theorem loseSram_blkCount (s : State) : (loseSram s).blkCount = s.blkCount := rfl
@[simp] theorem loseSram_halted (s : State) : (loseSram s).halted = s.halted := rfl
@[simp] theorem loseSram_diagCode (s : State) : (loseSram s).diagCode = s.diagCode := rfl
@[simp] theorem loseSram_diagAux (s : State) : (loseSram s).diagAux = s.diagAux := rfl
@[simp] theorem loseSram_progCur (s : State) : (loseSram s).progCur = s.progCur := rfl
@[simp] theorem loseSram_progMax (s : State) : (loseSram s).progMax = s.progMax := rfl
@[simp] theorem loseSram_cancelKey (s : State) : (loseSram s).cancelKey = s.cancelKey := rfl
@[simp] theorem loseSram_launchSlot (s : State) : (loseSram s).launchSlot = s.launchSlot := rfl
@[simp] theorem loseSram_flash (s : State) : (loseSram s).flash = s.flash := rfl
@[simp] theorem loseSram_sram (s : State) : (loseSram s).sram = { fill := .free s.freeNext, cells := [] } := rfl
@[simp] theorem loseSram_stg (s : State) : (loseSram s).stg = s.stg := rfl
@[simp] theorem loseSram_rxq (s : State) : (loseSram s).rxq = s.rxq := rfl
@[simp] theorem loseSram_txlog (s : State) : (loseSram s).txlog = s.txlog := rfl
@[simp] theorem loseSram_tickPending (s : State) : (loseSram s).tickPending = s.tickPending := rfl
@[simp] theorem loseSram_overrun (s : State) : (loseSram s).overrun = s.overrun := rfl
@[simp] theorem loseSram_freeNext (s : State) : (loseSram s).freeNext = s.freeNext + 1 := rfl
@[simp] theorem loseSram_defects (s : State) : (loseSram s).defects = s.defects := rfl
@[simp] theorem loseSram_par (s : State) : (loseSram s).par = s.par := rfl
@[simp] theorem loseSram_sched (s : State) : (loseSram s).sched = s.sched := rfl
@[simp] theorem loseSram_hostq (s : State) : (loseSram s).hostq = s.hostq := rfl

end Sys2Proof.Machine
end

