-- ==== Sys2Proof/Laws/Step.lean ====
section
/-! SUPPORT. One law per point of the pseudocode: what the step there answers. The proofs cite these and never unfold
`runStep`, `want`, `resume` or a primitive. -/

namespace Sys2Proof.Machine

variable {s : State}

theorem runStep_swAdopt (h : s.halted = false) (hp : s.pos.label = .swAdopt) :
    runStep s =
      .next (finish .ok { s with p := s.w, ret := .done }) := by
  simp [runStep, want, hp, Prim.run, exec, execPersist, whenLive, h, afterPrim, resume]
theorem runStep_swPersistNone (h : s.halted = false) (hp : s.pos.label = .swPersistNone) :
    runStep s =
      switchLoad { s with p := s.w, ret := .done } := by
  simp [runStep, want, hp, Prim.run, exec, execPersist, whenLive, h, afterPrim, resume]
theorem runStep_swPersistNew (h : s.halted = false) (hp : s.pos.label = .swPersistNew) :
    runStep s =
      .next (finish .ok { s with p := s.w, ret := .done }) := by
  simp [runStep, want, hp, Prim.run, exec, execPersist, whenLive, h, afterPrim, resume]
theorem runStep_upLaunch (h : s.halted = false) (hp : s.pos.label = .upLaunch) :
    runStep s =
      .next (if upperHalf s then goto .upFetch 0 0 (takeLaunch { s with ret := .byte s.launchSlot })
        else goto .upRead 0 0 (takeLaunch { s with ret := .byte s.launchSlot })) := by
  simp [runStep, want, hp, Prim.run, exec, execGetLaunchSlot, whenLive, h, afterPrim, resume, upperHalf]
theorem runStep_pgLaunch (h : s.halted = false) (hp : s.pos.label = .pgLaunch) :
    runStep s =
      .next (goto .pgUnlock 0 0 (takeLaunch { s with ret := .byte s.launchSlot })) := by
  simp [runStep, want, hp, Prim.run, exec, execGetLaunchSlot, whenLive, h, afterPrim, resume]
theorem runStep_rsLaunch (h : s.halted = false) (hp : s.pos.label = .rsLaunch) :
    runStep s =
      .next (goto .rsInit 0 0 (takeLaunch { s with ret := .byte s.launchSlot })) := by
  simp [runStep, want, hp, Prim.run, exec, execGetLaunchSlot, whenLive, h, afterPrim, resume]
theorem runStep_esLaunch (h : s.halted = false) (hp : s.pos.label = .esLaunch) :
    runStep s =
      .next (goto .esUnlock 0 0 (takeLaunch { s with ret := .byte s.launchSlot })) := by
  simp [runStep, want, hp, Prim.run, exec, execGetLaunchSlot, whenLive, h, afterPrim, resume]
theorem runStep_fiLaunch (h : s.halted = false) (hp : s.pos.label = .fiLaunch) :
    runStep s =
      .next (goto .fiUnlock 0 0 (takeLaunch { s with ret := .byte s.launchSlot })) := by
  simp [runStep, want, hp, Prim.run, exec, execGetLaunchSlot, whenLive, h, afterPrim, resume]
theorem runStep_pgUnlock (h : s.halted = false) (hp : s.pos.label = .pgUnlock) :
    runStep s =
      .next (if s.lockDepth = Config.lockMax then raiseFatal .lockOverflow s.lockDepth s
        else goto .pgInit 0 0 { s with lockDepth := s.lockDepth + 1, ret := .done }) := by
  by_cases hc : s.lockDepth = Config.lockMax <;>
    simp [runStep, want, hp, Prim.run, exec, execUnlock, whenLive, h, afterPrim, resume, hc]
theorem runStep_esUnlock (h : s.halted = false) (hp : s.pos.label = .esUnlock) :
    runStep s =
      .next (if s.lockDepth = Config.lockMax then raiseFatal .lockOverflow s.lockDepth s
        else goto .esInit 0 0 { s with lockDepth := s.lockDepth + 1, ret := .done }) := by
  by_cases hc : s.lockDepth = Config.lockMax <;>
    simp [runStep, want, hp, Prim.run, exec, execUnlock, whenLive, h, afterPrim, resume, hc]
theorem runStep_fiUnlock (h : s.halted = false) (hp : s.pos.label = .fiUnlock) :
    runStep s =
      .next (if s.lockDepth = Config.lockMax then raiseFatal .lockOverflow s.lockDepth s
        else goto .fiInit 0 0 { s with lockDepth := s.lockDepth + 1, ret := .done }) := by
  by_cases hc : s.lockDepth = Config.lockMax <;>
    simp [runStep, want, hp, Prim.run, exec, execUnlock, whenLive, h, afterPrim, resume, hc]
theorem runStep_pgLock (h : s.halted = false) (hp : s.pos.label = .pgLock) :
    runStep s =
      .next (if s.lockDepth = 0 then raiseFatal .lockUnderflow 0 s
        else programDone { s with lockDepth := s.lockDepth - 1, ret := .done }) := by
  by_cases hc : s.lockDepth = 0 <;>
    simp [runStep, want, hp, Prim.run, exec, execLock, whenLive, h, afterPrim, resume, hc]
theorem runStep_esLock (h : s.halted = false) (hp : s.pos.label = .esLock) :
    runStep s =
      .next (if s.lockDepth = 0 then raiseFatal .lockUnderflow 0 s
        else finish .ok { s with lockDepth := s.lockDepth - 1, ret := .done }) := by
  by_cases hc : s.lockDepth = 0 <;>
    simp [runStep, want, hp, Prim.run, exec, execLock, whenLive, h, afterPrim, resume, hc]
theorem runStep_fiLock (h : s.halted = false) (hp : s.pos.label = .fiLock) :
    runStep s =
      .next (if s.lockDepth = 0 then raiseFatal .lockUnderflow 0 s
        else finish .ok { s with lockDepth := s.lockDepth - 1, ret := .done }) := by
  by_cases hc : s.lockDepth = 0 <;>
    simp [runStep, want, hp, Prim.run, exec, execLock, whenLive, h, afterPrim, resume, hc]
theorem runStep_pgInit (h : s.halted = false) (hp : s.pos.label = .pgInit) :
    runStep s =
      .next (goto .pgErase 0 0
        { s with progMax := stepNumber (256 * s.vars.size), progCur := 0, ret := .done }) := by
  simp [runStep, want, hp, Prim.run, exec, execProgressInit, whenLive, h, afterPrim, resume]
theorem runStep_rsInit (h : s.halted = false) (hp : s.pos.label = .rsInit) :
    runStep s =
      .next (goto .rsRead 0 0
        { s with progMax := stepNumber (32 * s.vars.size), progCur := 0, ret := .done }) := by
  simp [runStep, want, hp, Prim.run, exec, execProgressInit, whenLive, h, afterPrim, resume]
theorem runStep_erInit (h : s.halted = false) (hp : s.pos.label = .erInit) :
    runStep s =
      .next (goto .erFill 0 0 { s with progMax := stepNumber s.vars.size, progCur := 0, ret := .done }) := by
  simp [runStep, want, hp, Prim.run, exec, execProgressInit, whenLive, h, afterPrim, resume]
theorem runStep_esInit (h : s.halted = false) (hp : s.pos.label = .esInit) :
    runStep s =
      .next (if 0 < s.vars.slots then
          goto .esErase 0 0 { s with progMax := stepNumber (s.vars.slots * s.vars.size), progCur := 0, ret := .done }
        else
          goto .esLock 0 0 { s with progMax := stepNumber (s.vars.slots * s.vars.size), progCur := 0, ret := .done }) := by
  simp [runStep, want, hp, Prim.run, exec, execProgressInit, whenLive, h, afterPrim, resume]
theorem runStep_fiInit (h : s.halted = false) (hp : s.pos.label = .fiInit) :
    runStep s =
      .next (goto .fiErase 0 0 { s with progMax := stepNumber 256, progCur := 0, ret := .done }) := by
  simp [runStep, want, hp, Prim.run, exec, execProgressInit, whenLive, h, afterPrim, resume]
theorem runStep_pgDraw (h : s.halted = false) (hp : s.pos.label = .pgDraw) :
    runStep s =
      .next (goto .pgTick s.pos.i s.pos.p
        { s with progCur := stepNumber (256 * s.pos.i + s.pos.p + 1), ret := .done }) := by
  simp [runStep, want, hp, Prim.run, exec, execProgressDraw, whenLive, h, afterPrim, resume]
theorem runStep_rsDraw (h : s.halted = false) (hp : s.pos.label = .rsDraw) :
    runStep s =
      .next (goto .rsTick s.pos.i s.pos.p
        { s with progCur := stepNumber (32 * s.pos.i + s.pos.p + 1), ret := .done }) := by
  simp [runStep, want, hp, Prim.run, exec, execProgressDraw, whenLive, h, afterPrim, resume]
theorem runStep_erDraw (h : s.halted = false) (hp : s.pos.label = .erDraw) :
    runStep s =
      .next (goto .erTick s.pos.i 0 { s with progCur := stepNumber (s.pos.i + 1), ret := .done }) := by
  simp [runStep, want, hp, Prim.run, exec, execProgressDraw, whenLive, h, afterPrim, resume]
theorem runStep_esDraw (h : s.halted = false) (hp : s.pos.label = .esDraw) :
    runStep s =
      .next (goto .esTick s.pos.i s.pos.p
        { s with progCur := stepNumber (s.pos.i * s.vars.size + s.pos.p + 1), ret := .done }) := by
  simp [runStep, want, hp, Prim.run, exec, execProgressDraw, whenLive, h, afterPrim, resume]
theorem runStep_fiDraw (h : s.halted = false) (hp : s.pos.label = .fiDraw) :
    runStep s =
      .next (goto .fiTick 0 s.pos.p { s with progCur := stepNumber (s.pos.p + 1), ret := .done }) := by
  simp [runStep, want, hp, Prim.run, exec, execProgressDraw, whenLive, h, afterPrim, resume]
theorem runStep_pgTick (h : s.halted = false) (hp : s.pos.label = .pgTick) :
    runStep s =
      .next (if s.pos.p + 1 < 256 then goto .pgLoad s.pos.i (s.pos.p + 1) { s with ret := .done }
        else if s.pos.i + 1 < s.vars.size then goto .pgLoad (s.pos.i + 1) 0 { s with ret := .done }
        else goto .pgLock 0 0 { s with ret := .done }) := by
  simp [runStep, want, hp, Prim.run, exec, execWorkTick, whenLive, h, afterPrim, resume]
theorem runStep_rsTick (h : s.halted = false) (hp : s.pos.label = .rsTick) :
    runStep s =
      .next (if s.pos.p + 1 < 32 then goto .rsRead s.pos.i (s.pos.p + 1) { s with ret := .done }
        else if s.pos.i + 1 < s.vars.size then goto .rsRead (s.pos.i + 1) 0 { s with ret := .done }
        else restoreDone { s with ret := .done }) := by
  simp [runStep, want, hp, Prim.run, exec, execWorkTick, whenLive, h, afterPrim, resume]
theorem runStep_erTick (h : s.halted = false) (hp : s.pos.label = .erTick) :
    runStep s =
      .next (if s.pos.i + 1 < s.vars.size then goto .erFill (s.pos.i + 1) 0 { s with ret := .done }
        else finish .ok { s with ret := .done }) := by
  simp [runStep, want, hp, Prim.run, exec, execWorkTick, whenLive, h, afterPrim, resume]
theorem runStep_esTick (h : s.halted = false) (hp : s.pos.label = .esTick) :
    runStep s =
      .next (if s.pos.p + 1 < s.vars.size then goto .esErase s.pos.i (s.pos.p + 1) { s with ret := .done }
        else if s.pos.i + 1 < s.vars.slots then goto .esErase (s.pos.i + 1) 0 { s with ret := .done }
        else goto .esLock 0 0 { s with ret := .done }) := by
  simp [runStep, want, hp, Prim.run, exec, execWorkTick, whenLive, h, afterPrim, resume]
theorem runStep_fiTick (h : s.halted = false) (hp : s.pos.label = .fiTick) :
    runStep s =
      .next (if s.pos.p + 1 < 256 then goto .fiLoad 0 (s.pos.p + 1) { s with ret := .done }
        else goto .fiLock 0 0 { s with ret := .done }) := by
  simp [runStep, want, hp, Prim.run, exec, execWorkTick, whenLive, h, afterPrim, resume]
theorem runStep_xoOpen (h : s.halted = false) (hp : s.pos.label = .xoOpen) :
    runStep s =
      .next (finish .ok { s with portOpen := true, ret := .done }) := by
  simp [runStep, want, hp, Prim.run, exec, execSerialOpen, whenLive, h, afterPrim, resume]
theorem runStep_xcClose (h : s.halted = false) (hp : s.pos.label = .xcClose) :
    runStep s =
      .next (finish .ok { s with portOpen := false, rxie := false, ret := .done, xmPhase := .awaitStart }) := by
  simp [runStep, want, hp, Prim.run, exec, execSerialClose, whenLive, h, afterPrim, resume]
theorem runStep_rcPrime (h : s.halted = false) (hp : s.pos.label = .rcPrime) :
    runStep s =
      .next (goto .rcMask 0 0 { s with txlog := s.txlog ++ [primingByte s.xmRetry], ret := .done }) := by
  simp [runStep, want, hp, Prim.run, exec, execPutc, whenLive, h, afterPrim, resume]
theorem runStep_rcMask (h : s.halted = false) (hp : s.pos.label = .rcMask) :
    runStep s =
      .next (goto .rcPoll 0 0 { s with irqMask := true, ret := .done }) := by
  simp [runStep, want, hp, Prim.run, exec, execIrqMask, whenLive, h, afterPrim, resume]
theorem runStep_rcPoll (h : s.halted = false) (hp : s.pos.label = .rcPoll) :
    runStep s =
      .next (if s.cancelKey then goto .rcSelf 0 0 { s with ret := .flag true }
        else goto .rcGet 0 0 { s with ret := .flag false }) := by
  by_cases hc : s.cancelKey = true <;>
    simp [runStep, want, hp, Prim.run, exec, execPollCancel, whenLive, h, afterPrim, resume, hc]
theorem runStep_rcSelf (h : s.halted = false) (hp : s.pos.label = .rcSelf) :
    runStep s =
      .next (recvEnd .selfCancel { s with irqMask := false, ret := .done }) := by
  simp [runStep, want, hp, Prim.run, exec, execIrqUnmask, whenLive, h, afterPrim, resume]
theorem runStep_rcCancel (h : s.halted = false) (hp : s.pos.label = .rcCancel) :
    runStep s =
      .next (recvEnd .cancel { s with irqMask := false, ret := .done }) := by
  simp [runStep, want, hp, Prim.run, exec, execIrqUnmask, whenLive, h, afterPrim, resume]
theorem runStep_rcEot (h : s.halted = false) (hp : s.pos.label = .rcEot) :
    runStep s =
      .next (goto .rcEotAck 0 0 { s with irqMask := false, ret := .done }) := by
  simp [runStep, want, hp, Prim.run, exec, execIrqUnmask, whenLive, h, afterPrim, resume]
theorem runStep_rcEotAck (h : s.halted = false) (hp : s.pos.label = .rcEotAck) :
    runStep s =
      .next (recvEnd .complete { s with txlog := s.txlog ++ [Config.ACK], ret := .done }) := by
  simp [runStep, want, hp, Prim.run, exec, execPutc, whenLive, h, afterPrim, resume]
theorem runStep_rcGood (h : s.halted = false) (hp : s.pos.label = .rcGood) :
    runStep s =
      .next (if s.pos.cmd = some .installReceive then goto .inStore 0 0 { s with irqMask := false, ret := .done }
        else finish .ok { s with irqMask := false, ret := .done }) := by
  simp [runStep, want, hp, Prim.run, exec, execIrqUnmask, whenLive, h, afterPrim, resume]
theorem runStep_rcBad (h : s.halted = false) (hp : s.pos.label = .rcBad) :
    runStep s =
      .next (badUnit { s with irqMask := false, ret := .done }) := by
  simp [runStep, want, hp, Prim.run, exec, execIrqUnmask, whenLive, h, afterPrim, resume]
theorem runStep_inOpen (h : s.halted = false) (hp : s.pos.label = .inOpen) :
    runStep s =
      .next (goto .rcPrime 0 0 (beginInstall { s with portOpen := true, ret := .done })) := by
  simp [runStep, want, hp, Prim.run, exec, execSerialOpen, whenLive, h, afterPrim, resume]
theorem runStep_inClose (h : s.halted = false) (hp : s.pos.label = .inClose) :
    runStep s =
      .next (installCleanup { s with portOpen := false, rxie := false, ret := .done }) := by
  simp [runStep, want, hp, Prim.run, exec, execSerialClose, whenLive, h, afterPrim, resume]
theorem runStep_sdIrq (h : s.halted = false) (hp : s.pos.label = .sdIrq) :
    runStep s =
      .next (sendWait { s with rxie := true, ret := .done }) := by
  simp [runStep, want, hp, Prim.run, exec, execRxIrqEnable, whenLive, h, afterPrim, resume]
theorem runStep_sdSoh (h : s.halted = false) (hp : s.pos.label = .sdSoh) :
    runStep s =
      .next (goto .sdSeq 0 0 { s with txlog := s.txlog ++ [Config.SOH], ret := .done }) := by
  simp [runStep, want, hp, Prim.run, exec, execPutc, whenLive, h, afterPrim, resume]
theorem runStep_sdSeq (h : s.halted = false) (hp : s.pos.label = .sdSeq) :
    runStep s =
      .next (goto .sdNseq 0 0 { s with txlog := s.txlog ++ [s.xmSeq], ret := .done }) := by
  simp [runStep, want, hp, Prim.run, exec, execPutc, whenLive, h, afterPrim, resume]
theorem runStep_sdNseq (h : s.halted = false) (hp : s.pos.label = .sdNseq) :
    runStep s =
      .next (goto .sdData 0 0
        { s with txlog := s.txlog ++ [complement8 s.xmSeq], ret := .done, vars := { s.vars with sum := 0 } }) := by
  simp [runStep, want, hp, Prim.run, exec, execPutc, whenLive, h, afterPrim, resume]
theorem runStep_sdSum (h : s.halted = false) (hp : s.pos.label = .sdSum) :
    runStep s =
      .next (sendWait { s with txlog := s.txlog ++ [s.vars.sum], ret := .done }) := by
  simp [runStep, want, hp, Prim.run, exec, execPutc, whenLive, h, afterPrim, resume]
theorem runStep_sdEot (h : s.halted = false) (hp : s.pos.label = .sdEot) :
    runStep s =
      .next (sendWait { s with txlog := s.txlog ++ [Config.EOT], ret := .done }) := by
  simp [runStep, want, hp, Prim.run, exec, execPutc, whenLive, h, afterPrim, resume]
theorem runStep_sdPoll (h : s.halted = false) (hp : s.pos.label = .sdPoll) :
    runStep s =
      .next (if s.cancelKey then sendEnd .selfCancel { s with ret := .flag true }
        else goto .sdGet 0 0 { s with ret := .flag false }) := by
  by_cases hc : s.cancelKey = true <;>
    simp [runStep, want, hp, Prim.run, exec, execPollCancel, whenLive, h, afterPrim, resume, hc]
theorem runStep_sdHalt (h : s.halted = false) (hp : s.pos.label = .sdHalt) :
    runStep s =
      .next (if s.rxIrqPending || s.tickPending then sendWait { s with tickPending := false, ret := .done }
        else { s with ret := .waiting }) := by
  by_cases hc : (s.rxIrqPending || s.tickPending) = true <;>
    simp [runStep, want, hp, Prim.run, exec, execHaltWait, whenLive, h, afterPrim, resume, hc]

/-- The physical bank of sub-bank number `k` of the running command's region, before the limit test (R124). -/
abbrev regionNumber (s : State) (k : Nat) : Nat :=
  bankNumber s.w.legacyLayout s.vars.slot.toNat (s.vars.offset + k)

theorem onBank_ok {slot subBank : Nat} {k : Byte → Prim}
    (hb : bankNumber s.w.legacyLayout slot subBank < Config.bankLimit) :
    onBank s slot subBank k = .prim (k (BitVec.ofNat 8 (bankNumber s.w.legacyLayout slot subBank))) := by
  simp [onBank, Nat.not_le.2 hb]

theorem onBank_fatal {slot subBank : Nat} {k : Byte → Prim}
    (hb : Config.bankLimit ≤ bankNumber s.w.legacyLayout slot subBank) :
    onBank s slot subBank k = .fatal .bankOverflow (bankNumber s.w.legacyLayout slot subBank) := by
  simp [onBank, hb]

theorem runStep_pgErase (h : s.halted = false) (hp : s.pos.label = .pgErase)
    (hb : regionNumber s s.pos.i < Config.bankLimit) (hk : s.lockDepth ≠ 0) :
    runStep s =
      .next (if s.pos.i + 1 < s.vars.size then
          goto .pgErase (s.pos.i + 1) 0 { s with
            flash := eraseFlash s.par.granule 0 s.vars.launch (BitVec.ofNat 8 (regionNumber s s.pos.i)) s.flash
            ret := .done }
        else
          goto .pgLoad 0 0 { s with
            flash := eraseFlash s.par.granule 0 s.vars.launch (BitVec.ofNat 8 (regionNumber s s.pos.i)) s.flash
            ret := .done }) := by
  simp [runStep, want, hp, onBank_ok hb, Prim.run, exec, execEraseBank, whenLive, h, hk, afterPrim, resume]

theorem runStep_esErase (h : s.halted = false) (hp : s.pos.label = .esErase)
    (hb : bankNumber s.w.legacyLayout (s.vars.slot.toNat + s.pos.i) (s.vars.offset + s.pos.p) < Config.bankLimit)
    (hk : s.lockDepth ≠ 0) :
    runStep s =
      .next (goto .esDraw s.pos.i s.pos.p { s with
        flash := eraseFlash s.par.granule 0 s.vars.launch
          (BitVec.ofNat 8 (bankNumber s.w.legacyLayout (s.vars.slot.toNat + s.pos.i) (s.vars.offset + s.pos.p)))
          s.flash
        ret := .done }) := by
  simp [runStep, want, hp, onBank_ok hb, Prim.run, exec, execEraseBank, whenLive, h, hk, afterPrim, resume]

theorem runStep_fiErase (h : s.halted = false) (hp : s.pos.label = .fiErase) (hk : s.lockDepth ≠ 0) :
    runStep s =
      .next (goto .fiLoad 0 0 { s with
        flash := eraseFlash s.par.granule 0 s.vars.launch s.par.biosBank s.flash, ret := .done }) := by
  simp [runStep, want, hp, Prim.run, exec, execEraseBank, whenLive, h, hk, afterPrim, resume]

/-- The page of `SRAM` that a load puts into `PAGEBUF` (R175). -/
def pageOf (m : Mem) (base : Nat) : Vector Byte 256 := tabulate 256 fun k => (m.bytes base 256).getD k 0

/-- A full page read into `CMPBUF` leaves nothing of the old contents. -/
theorem fillBuf_cmpBuf_page (m : Mem) (base : Nat) :
    fillBuf .cmpBuf (m.bytes base 256) s = { s with cmpbuf := pageOf m base } := by
  have key : (tabulate 256 fun k => (m.bytes base 256).getD k (s.cmpbuf.toList.getD k 0)) = pageOf m base := ?_
  · simp only [fillBuf, key]
  unfold pageOf
  apply Vector.toList_inj.1
  rw [tabulate_toList, tabulate_toList]
  refine List.map_congr_left fun k hk => ?_
  have hd : k < (m.bytes base 256).length := by simpa using hk
  rw [List.getD_eq_getElem _ _ hd, List.getD_eq_getElem _ _ hd]

theorem runStep_pgLoad (h : s.halted = false) (hp : s.pos.label = .pgLoad) (hi : s.pos.i < 8) (hpp : s.pos.p < 256) :
    runStep s =
      .next (goto (if s.w.partialWrites then .pgCompare else .pgWrite) s.pos.i s.pos.p { s with
        xfer := s.sram.bytes (sramAddr s.pos.i (256 * s.pos.p)) 256
        pagebuf := pageOf s.sram (sramAddr s.pos.i (256 * s.pos.p)), ret := .done }) := by
  have h1 : 256 * s.pos.p + 256 ≤ 65536 := by omega
  by_cases hw : s.w.partialWrites = true <;>
    simp [runStep, want, hp, Prim.run, sramLoad, Config.ramBanks, Config.bankBytes, Config.pageBytes, h, hi, h1,
      afterPrim, resume, pageOf, hw]

theorem runStep_pgCompare (h : s.halted = false) (hp : s.pos.label = .pgCompare) (hpp : s.pos.p < 256)
    (hb : regionNumber s s.pos.i < Config.bankLimit) :
    runStep s =
      .next (goto (if pageOf s.flash (flashAddr 0 s.vars.launch (BitVec.ofNat 8 (regionNumber s s.pos.i))
            (256 * s.pos.p)) = s.pagebuf then .pgDraw else .pgWrite) s.pos.i s.pos.p { s with
        cmpbuf := pageOf s.flash (flashAddr 0 s.vars.launch (BitVec.ofNat 8 (regionNumber s s.pos.i))
            (256 * s.pos.p)), ret := .done }) := by
  have h1 : ¬ 65536 < 256 * s.pos.p + 256 := by omega
  simp [runStep, want, hp, onBank_ok hb, Prim.run, exec, execReadSlot, Buf.capacity, Config.bankBytes,
    Config.pageBytes, whenLive, h, h1, afterPrim, fillBuf_cmpBuf_page, resume]
  split <;> rfl

theorem runStep_pgWrite (h : s.halted = false) (hp : s.pos.label = .pgWrite) (hpp : s.pos.p < 256)
    (hb : regionNumber s s.pos.i < Config.bankLimit) (hk : s.lockDepth ≠ 0) :
    runStep s =
      .next (goto .pgDraw s.pos.i s.pos.p { s with
        flash := programFlash s.defects
          (flashAddr 0 s.vars.launch (BitVec.ofNat 8 (regionNumber s s.pos.i)) (256 * s.pos.p))
          s.pagebuf.toList s.flash
        ret := .done }) := by
  have h1 : ¬ 65536 < 256 * s.pos.p + 256 := by omega
  simp [runStep, want, hp, onBank_ok hb, Prim.run, exec, execWriteSlot, Config.bankBytes, Config.pageBytes,
    whenLive, h, h1, hk, afterPrim, resume]

theorem runStep_rsRead (h : s.halted = false) (hp : s.pos.label = .rsRead) (hpp : s.pos.p < 32)
    (hb : regionNumber s s.pos.i < Config.bankLimit) :
    runStep s =
      .next (goto .rsStore s.pos.i s.pos.p { s with
        xfer := s.flash.bytes (flashAddr 0 s.vars.launch (BitVec.ofNat 8 (regionNumber s s.pos.i))
            (2048 * s.pos.p)) 2048, ret := .done }) := by
  have h1 : ¬ 65536 < 2048 * s.pos.p + 2048 := by omega
  simp [runStep, want, hp, onBank_ok hb, Prim.run, exec, execReadSlot, Buf.capacity, Config.bankBytes,
    Config.chunkBytes, whenLive, h, h1, afterPrim, fillBuf, resume]

theorem runStep_rsStore (h : s.halted = false) (hp : s.pos.label = .rsStore) (hi : s.pos.i < 8)
    (hpp : s.pos.p < 32) (hx : s.xfer.length = 2048) :
    runStep s =
      .next (goto .rsDraw s.pos.i s.pos.p { s with
        sram := s.sram.storeList (sramAddr s.pos.i (2048 * s.pos.p)) s.xfer, ret := .done }) := by
  have h1 : 2048 * s.pos.p + 2048 ≤ 65536 := by omega
  simp [runStep, want, hp, Prim.run, sramStore, Config.ramBanks, Config.bankBytes, h, hi, hx, h1, afterPrim, resume]

theorem runStep_erFill (h : s.halted = false) (hp : s.pos.label = .erFill) (hi : s.pos.i < 8) (hpp : s.pos.p < 32) :
    runStep s =
      .next (if s.pos.p + 1 < 32 then goto .erFill s.pos.i (s.pos.p + 1) { s with
          sram := s.sram.storeList (sramAddr s.pos.i (2048 * s.pos.p)) (List.replicate 2048 Config.padByte)
          ret := .done }
        else goto .erDraw s.pos.i 0 { s with
          sram := s.sram.storeList (sramAddr s.pos.i (2048 * s.pos.p)) (List.replicate 2048 Config.padByte)
          ret := .done }) := by
  have h1 : 2048 * s.pos.p + 2048 ≤ 65536 := by omega
  simp [runStep, want, hp, Prim.run, sramStore, Config.ramBanks, Config.bankBytes, Config.chunkBytes, h, hi, h1,
    afterPrim, resume, -List.reduceReplicate]

theorem runStep_upFetch (h : s.halted = false) (hp : s.pos.label = .upFetch) (hpp : s.pos.p < 32) :
    runStep s = .next (goto .upMove 0 s.pos.p { s with
      xfer := s.sram.bytes (sramAddr 0 (2048 * s.pos.p)) 2048, ret := .done }) := by
  have h1 : 2048 * s.pos.p + 2048 ≤ 65536 := by omega
  simp [runStep, want, hp, Prim.run, sramLoad, Config.ramBanks, Config.bankBytes, Config.chunkBytes, h, h1,
    afterPrim, resume]

theorem runStep_upMove (h : s.halted = false) (hp : s.pos.label = .upMove) (hpp : s.pos.p < 32)
    (hl : s.xfer.length = 2048) :
    runStep s =
      .next (if s.pos.p + 1 < 32 then goto .upFetch 0 (s.pos.p + 1) { s with
          sram := s.sram.storeList (sramAddr 1 (2048 * s.pos.p)) s.xfer, ret := .done }
        else goto .upRead 0 0 { s with
          sram := s.sram.storeList (sramAddr 1 (2048 * s.pos.p)) s.xfer, ret := .done }) := by
  have h1 : 2048 * s.pos.p + 2048 ≤ 65536 := by omega
  simp [runStep, want, hp, Prim.run, sramStore, Config.ramBanks, Config.bankBytes, h, h1, hl, afterPrim, resume]

theorem runStep_upRead (h : s.halted = false) (hp : s.pos.label = .upRead) (hpp : s.pos.p < 32)
    (hb : bankNumber s.w.legacyLayout s.vars.slot.toNat (siblingSubBank s) < Config.bankLimit) :
    runStep s =
      .next (goto .upStore 0 s.pos.p { s with
        xfer := s.flash.bytes (flashAddr 0 s.vars.launch
            (BitVec.ofNat 8 (bankNumber s.w.legacyLayout s.vars.slot.toNat (siblingSubBank s)))
            (2048 * s.pos.p)) 2048, ret := .done }) := by
  have h1 : ¬ 65536 < 2048 * s.pos.p + 2048 := by omega
  simp [runStep, want, hp, onBank_ok hb, Prim.run, exec, execReadSlot, Buf.capacity, Config.bankBytes,
    Config.chunkBytes, whenLive, h, h1, afterPrim, fillBuf, resume]

theorem runStep_upStore (h : s.halted = false) (hp : s.pos.label = .upStore)
    (hpp : s.pos.p < 32) (hx : s.xfer.length = 2048) :
    runStep s =
      .next (if s.pos.p + 1 < 32 then goto .upRead 0 (s.pos.p + 1) { s with
          sram := s.sram.storeList (sramAddr (if upperHalf s then 0 else 1) (2048 * s.pos.p)) s.xfer, ret := .done }
        else upgraded { s with
          sram := s.sram.storeList (sramAddr (if upperHalf s then 0 else 1) (2048 * s.pos.p)) s.xfer
          ret := .done }) := by
  have h1 : 2048 * s.pos.p + 2048 ≤ 65536 := by omega
  have h2 : (if upperHalf s = true then 0 else 1) < 8 := by split <;> omega
  simp [runStep, want, hp, Prim.run, sramStore, Config.ramBanks, Config.bankBytes, h, h2, hx, h1, afterPrim, resume]

theorem runStep_fiLoad (h : s.halted = false) (hp : s.pos.label = .fiLoad) (hpp : s.pos.p < 256)
    (hk : ∀ a, a < 65536 → s.stg.known a = true) :
    runStep s =
      .next (goto .fiWrite 0 s.pos.p { s with
        xfer := s.stg.bytes (256 * s.pos.p) 256, pagebuf := pageOf s.stg (256 * s.pos.p), ret := .done }) := by
  have h1 : 256 * s.pos.p + 256 ≤ 65536 := by omega
  have h2 : (List.range 256).all (fun k => s.stg.known (256 * s.pos.p + k)) = true :=
    List.all_eq_true.2 fun k hm => hk _ (by have := List.mem_range.1 hm; omega)
  simp only [runStep, want, hp, Prim.run, stgLoad, Config.stgBytes, Config.pageBytes, h1, h2, if_true, afterPrim]
  simp [h, resume, hp, pageOf]

theorem runStep_fiWrite (h : s.halted = false) (hp : s.pos.label = .fiWrite) (hpp : s.pos.p < 256)
    (hk : s.lockDepth ≠ 0) :
    runStep s =
      .next (goto .fiRead 0 s.pos.p { s with
        flash := programFlash s.defects (flashAddr 0 s.vars.launch s.par.biosBank (256 * s.pos.p))
          s.pagebuf.toList s.flash
        ret := .done }) := by
  have h1 : ¬ 65536 < 256 * s.pos.p + 256 := by omega
  simp [runStep, want, hp, Prim.run, exec, execWriteSlot, Config.bankBytes, Config.pageBytes,
    whenLive, h, h1, hk, afterPrim, resume]

theorem runStep_fiRead (h : s.halted = false) (hp : s.pos.label = .fiRead) (hpp : s.pos.p < 256) :
    runStep s =
      .next (if pageOf s.flash (flashAddr 0 s.vars.launch s.par.biosBank (256 * s.pos.p)) = s.pagebuf then
          goto .fiDraw 0 s.pos.p { s with
            cmpbuf := pageOf s.flash (flashAddr 0 s.vars.launch s.par.biosBank (256 * s.pos.p)), ret := .done }
        else raiseFatal .verifyMismatch s.pos.p { s with
            cmpbuf := pageOf s.flash (flashAddr 0 s.vars.launch s.par.biosBank (256 * s.pos.p)), ret := .done }) := by
  have h1 : ¬ 65536 < 256 * s.pos.p + 256 := by omega
  simp [runStep, want, hp, Prim.run, exec, execReadSlot, Buf.capacity, Config.bankBytes,
    Config.pageBytes, whenLive, h, h1, afterPrim, fillBuf_cmpBuf_page, resume]

/-! ## Points that read the line -/

theorem runStep_rcGet_empty (h : s.halted = false) (hp : s.pos.label = .rcGet) (hq : s.rxq = []) :
    runStep s = .next (goto .rcPoll 0 0 { s with ret := .noByte }) := by
  simp [runStep, want, hp, Prim.run, exec, execGetcNb, whenLive, h, hq, afterPrim, resume]

theorem runStep_sdGet_empty (h : s.halted = false) (hp : s.pos.label = .sdGet) (hq : s.rxq = []) :
    runStep s = .next (goto .sdHalt 0 0 { s with ret := .noByte }) := by
  simp [runStep, want, hp, Prim.run, exec, execGetcNb, whenLive, h, hq, afterPrim, resume]

theorem take_getD_drop (r : List Byte) (h : 128 < r.length) :
    r.take 128 ++ [r.getD 128 0] ++ r.drop 129 = r := by
  rw [List.getD_eq_getElem _ _ h, ← List.take_succ_eq_append_getElem h, List.take_append_drop]

/-- A unit taken from the line has no other effect than its leading byte: a frame's other bytes go on standing on
the line (R105). -/
theorem takeUnitFromLine_eq (c : Byte) (h : s.halted = false) (hp : s.pos.label = .rcGet ∨ s.pos.label = .sdGet) :
    takeUnitFromLine c s = .next (takeLeading c s) := by
  unfold takeUnitFromLine
  split
  · rename_i i rest hd
    simp only [decode, decodeFrame] at hd
    split at hd
    · rename_i b seq nseq r heq
      obtain ⟨rfl, hr⟩ := List.cons.inj heq
      split at hd
      · rename_i hc
        split at hd
        · rename_i hl
          obtain ⟨rfl, rfl⟩ := Decoded.instr.inj hd
          have hlist := take_getD_drop r hl
          have hb : (blockOf r (Nat.le_of_lt hl)).toList = r.take 128 := by simp [blockOf, Vector.toList]
          simp only [exec, execFrame, whenLive, h, hp, if_true, Bool.false_eq_true, if_false, hb, hc, frameTail]
          congr 2
          rw [show seq :: nseq :: List.take 128 r ++ [r.getD 128 0] ++ List.drop 129 r
              = seq :: nseq :: (List.take 128 r ++ [r.getD 128 0] ++ List.drop 129 r) by simp, hlist, ← hr, ← h]
        · cases hd
      · cases hd
    · cases hd
  · by_cases h1 : c = Config.SOH
    · simp [decode, decodeWire, h1, exec, execSoh, whenLive, h]
    by_cases h2 : c = Config.EOT
    · simp [decode, decodeWire, h2, Config.SOH, Config.EOT, exec, execEot, whenLive, h]
    by_cases h3 : c = Config.ACK
    · simp [decode, decodeWire, h3, Config.SOH, Config.EOT, Config.ACK, exec, execAck, whenLive, h]
    by_cases h4 : c = Config.NAK
    · simp [decode, decodeWire, h4, Config.SOH, Config.EOT, Config.ACK, Config.NAK, exec, execNak, whenLive, h]
    by_cases h5 : c = Config.CAN
    · simp [decode, decodeWire, h5, Config.SOH, Config.EOT, Config.ACK, Config.NAK, Config.CAN, exec, execCan,
        whenLive, h]
    · simp [decode, decodeWire, h1, h2, h3, h4, h5]

/-- A byte at the head of the line while RECV_BLOCK polls: it is taken, and SEQ goes where `recvLeading` says. -/
theorem runStep_rcGet (h : s.halted = false) (hp : s.pos.label = .rcGet) {c : Byte} {rest : List Byte}
    (hq : s.rxq = c :: rest) :
    runStep s = .next (recvLeading c { s with rxq := rest, ret := .byte c }) := by
  simp only [runStep, want, hp, Prim.run, exec, execGetcNb, whenLive, h, hq, afterPrim, resume]
  simp [takeUnitFromLine_eq, hp, takeLeading, State.retByte]

/-- A byte at the head of the line while the send side waits. -/
theorem runStep_sdGet (h : s.halted = false) (hp : s.pos.label = .sdGet) {c : Byte} {rest : List Byte}
    (hq : s.rxq = c :: rest) :
    runStep s = .next (sendReply c { s with rxq := rest, ret := .byte c }) := by
  simp only [runStep, want, hp, Prim.run, exec, execGetcNb, whenLive, h, hq, afterPrim, resume]
  simp [takeUnitFromLine_eq, hp, takeLeading, State.retByte]

theorem runStep_wait (h : s.halted = false)
    (hp : s.pos.label = .rcSeq ∨ s.pos.label = .rcNseq ∨ s.pos.label = .rcData ∨ s.pos.label = .rcCheck)
    (hq : s.rxq = []) : runStep s = .next { s with ret := .waiting } := by
  rcases hp with hp | hp | hp | hp <;>
    simp [runStep, want, hp, Prim.run, exec, execGetc, whenLive, h, hq, afterPrim]

theorem runStep_rcSeq (h : s.halted = false) (hp : s.pos.label = .rcSeq) {c : Byte} {rest : List Byte}
    (hq : s.rxq = c :: rest) :
    runStep s = .next (goto .rcNseq 0 0
      { s with rxq := rest, ret := .byte c, vars := { s.vars with seqByte := c } }) := by
  simp [runStep, want, hp, Prim.run, exec, execGetc, whenLive, h, hq, afterPrim, resume, State.retByte]

theorem runStep_rcNseq (h : s.halted = false) (hp : s.pos.label = .rcNseq) {c : Byte} {rest : List Byte}
    (hq : s.rxq = c :: rest) :
    runStep s = .next (headerRead c { s with rxq := rest, ret := .byte c }) := by
  simp [runStep, want, hp, Prim.run, exec, execGetc, whenLive, h, hq, afterPrim, resume, State.retByte]

theorem runStep_rcData (h : s.halted = false) (hp : s.pos.label = .rcData) {c : Byte} {rest : List Byte}
    (hq : s.rxq = c :: rest) :
    runStep s = .next (dataRead c { s with rxq := rest, ret := .byte c }) := by
  simp [runStep, want, hp, Prim.run, exec, execGetc, whenLive, h, hq, afterPrim, resume, State.retByte]

theorem runStep_rcCheck (h : s.halted = false) (hp : s.pos.label = .rcCheck) {c : Byte} {rest : List Byte}
    (hq : s.rxq = c :: rest) :
    runStep s = .next (checksumRead c { s with rxq := rest, ret := .byte c }) := by
  simp [runStep, want, hp, Prim.run, exec, execGetc, whenLive, h, hq, afterPrim, resume, State.retByte]

/-! ## Points that send a data byte or write the staging buffer -/

theorem runStep_sdData (h : s.halted = false) (hp : s.pos.label = .sdData) :
    runStep s =
      .next (goto (if s.pos.p + 1 < 128 then .sdData else .sdSum) 0 (if s.pos.p + 1 < 128 then s.pos.p + 1 else 0)
        { s with
          txlog := s.txlog ++ [s.blockbuf.toList.getD s.pos.p 0], ret := .done
          vars := { s.vars with sum := s.vars.sum + s.blockbuf.toList.getD s.pos.p 0 } }) := by
  by_cases hc : s.pos.p + 1 < 128 <;>
    simp [runStep, want, hp, Prim.run, exec, execPutc, whenLive, h, afterPrim, resume, Config.xmBlock, hc]

theorem runStep_inStore (h : s.halted = false) (hp : s.pos.label = .inStore) (hb : s.blkCount.toNat < 512)
    (hpp : s.pos.p < 128) :
    runStep s =
      .next (if s.pos.p + 1 < 128 then goto .inStore 0 (s.pos.p + 1) { s with
          stg := s.stg.storeList (128 * s.blkCount.toNat + s.pos.p) [deltaByte s.pos.p s]
          deltaPrev := deltaNext s.pos.p s, ret := .done }
        else blockStored { s with
          stg := s.stg.storeList (128 * s.blkCount.toNat + s.pos.p) [deltaByte s.pos.p s]
          deltaPrev := deltaNext s.pos.p s, ret := .done }) := by
  have h1 : 128 * s.blkCount.toNat + s.pos.p + 1 ≤ 65536 := by omega
  simp [runStep, want, hp, Prim.run, stgStore, Config.stgBytes, h, h1, afterPrim, resume, Config.xmBlock,
    deltaNext, deltaByte]

theorem runStep_inPad (h : s.halted = false) (hp : s.pos.label = .inPad) (hpp : s.pos.p < 65536) :
    runStep s =
      .next (goto (if s.pos.p + 1 < 65536 then .inPad else .inTrailer) 0 (if s.pos.p + 1 < 65536 then s.pos.p + 1 else 0)
        { s with stg := s.stg.storeList s.pos.p [Config.padByte], ret := .done }) := by
  have h1 : s.pos.p + 1 ≤ 65536 := by omega
  by_cases hc : s.pos.p + 1 < 65536 <;>
    simp [runStep, want, hp, Prim.run, stgStore, Config.stgBytes, h, h1, afterPrim, resume, hc]

theorem runStep_inTrailer (h : s.halted = false) (hp : s.pos.label = .inTrailer) :
    runStep s =
      .next (finish .complete { s with
        stg := s.stg.storeList Config.trailerOff (Config.trailer s.blkCount.toNat).toList, ret := .done }) := by
  simp [runStep, want, hp, Prim.run, stgStore, Config.stgBytes, Config.trailerOff, h, afterPrim, resume]

end Sys2Proof.Machine
end

