-- ==== Sys2Proof/Laws/Run.lean ====
section
/-! SUPPORT. Runs put together from steps. -/

namespace Sys2Proof.Machine

variable {s t u : State}

theorem Runs.refl (s : State) : Runs s s := ⟨0, rfl⟩

theorem run_add {M : Host.Core} (m n : Nat) (s t : M.State) (h : M.run m s = .next t) :
    M.run (m + n) s = M.run n t := by
  induction m generalizing s with
  | zero => cases h; rw [Nat.zero_add]
  | succ m ih =>
    rw [Nat.succ_add]
    have hsucc : ∀ k, M.run (k + 1) s = match M.step s with
        | .next s' => M.run k s'
        | .fault r => .fault r
        | .refused r => .refused r := fun _ => rfl
    rw [hsucc] at h
    rw [hsucc]
    cases hs : M.step s with
    | next s' => rw [hs] at h; exact ih s' h
    | fault r => rw [hs] at h; cases h
    | refused r => rw [hs] at h; cases h

theorem run_one {M : Host.Core} (s t : M.State) (h : M.step s = .next t) : M.run 1 s = .next t := by
  simp [Host.Core.run, h]

theorem Runs.trans (h : Runs s t) (h' : Runs t u) : Runs s u := by
  obtain ⟨m, hm⟩ := h
  obtain ⟨n, hn⟩ := h'
  exact ⟨m + n, (run_add (M := Sys2Proof.core) m n s t hm).trans hn⟩

theorem Runs.one (h : step s = .next t) : Runs s t :=
  ⟨1, run_one (M := Sys2Proof.core) s t h⟩

/-- With no other agent's move scheduled, a running command takes the step. -/
theorem step_running (hq : Quiet s) (h : s.halted = false) (hp : s.pos.label ≠ .idle) : step s = runStep s := by
  unfold Quiet at hq
  simp [step, hq, seqTurn, h, State.running, hp]

theorem Runs.cons (hq : Quiet s) (h : s.halted = false) (hp : s.pos.label ≠ .idle) (hs : runStep s = .next t)
    (ht : Runs t u) : Runs s u :=
  (Runs.one ((step_running hq h hp).trans hs)).trans ht

end Sys2Proof.Machine
end

