-- ==== Sys2Proof/Laws/Relocation.lean ====
section
/-! SUPPORT. The loops of the relocation commands: from the point where a loop begins to the point after it, with all
it leaves behind. -/

namespace Sys2Proof.Machine

variable {s t u : State}

/-! ## Banks and addresses -/

theorem bankNumber_eq (legacy : Bool) (slot sub : Nat) :
    bankNumber legacy slot sub =
      if legacy = false ∧ 244 ≤ 128 + slot * 8 + sub then 128 + slot * 8 + sub + 2 else 128 + slot * 8 + sub := by
  cases legacy <;> by_cases h : 244 ≤ 128 + slot * 8 + sub <;>
    simp [bankNumber, naiveBank, Config.saveBase, Config.banksPerSlot, Config.carveLo, Config.carveSkip, h]

theorem bankNumber_lt {legacy : Bool} {slot sub : Nat} (hs : slot < 15) (hb : sub < 8) :
    bankNumber legacy slot sub < Config.bankLimit := by
  rw [bankNumber_eq, Config.bankLimit]
  split <;> omega

theorem bankNumber_strict {legacy : Bool} {slot sub slot' sub' : Nat} (h : slot * 8 + sub < slot' * 8 + sub') :
    bankNumber legacy slot sub < bankNumber legacy slot' sub' := by
  rw [bankNumber_eq, bankNumber_eq]
  cases legacy <;> simp only [true_and, reduceCtorEq, false_and, if_false] <;> (try split) <;> (try split) <;> omega

theorem bankNumber_even {legacy : Bool} {slot sub : Nat} (h : sub % 2 = 0) :
    bankNumber legacy slot sub % 2 = 0 ∧ bankNumber legacy slot (sub + 1) = bankNumber legacy slot sub + 1 := by
  rw [bankNumber_eq, bankNumber_eq]
  cases legacy <;> simp only [true_and, reduceCtorEq, false_and, if_false] <;> (try split) <;> (try split) <;> omega

theorem toNat_bank {b : Nat} (h : b < Config.bankLimit) : (BitVec.ofNat 8 b).toNat = b := by
  simp only [Config.bankLimit] at h
  simp only [BitVec.toNat_ofNat]
  omega

theorem flashAddr_zero (ps bank : Byte) (off : Nat) :
    flashAddr 0 ps bank off = ps.toNat * 16777216 + bank.toNat * 65536 + off := by
  have h0 : (0 : Byte).toNat = 0 := rfl
  simp only [flashAddr, Config.bankBytes, h0]
  omega

theorem flashAddr_add (d ps bank : Byte) (off k : Nat) :
    flashAddr d ps bank (off + k) = flashAddr d ps bank off + k := by
  simp only [flashAddr]; omega

/-! ## Erase -/

theorem pairBase (bank : Byte) : (bank &&& 0xFE).toNat = bank.toNat / 2 * 2 := by
  revert bank; decide

/-- Every byte of the granule is erased (R140). -/
theorem erase_in {g : Config.Granule} {d ps b bank : Byte} {m : Mem} {off : Nat} (h : SameGranule g b bank)
    (ho : off < 65536) : (eraseFlash g d ps bank m).get (flashAddr d ps b off) = Config.erased := by
  rw [get_eraseFlash, if_pos]
  cases g with
  | bank =>
    simp only [SameGranule] at h
    subst h
    simp only [eraseSpan, flashAddr, Config.bankBytes]
    omega
  | pair =>
    simp only [SameGranule] at h
    simp only [eraseSpan, flashAddr, Config.bankBytes, pairBase]
    omega

/-- Nothing else is (R140). -/
theorem erase_out {g : Config.Granule} {d ps bank : Byte} {m : Mem} {a : Nat}
    (h : ∀ b off, SameGranule g b bank → off < 65536 → a ≠ flashAddr d ps b off) :
    (eraseFlash g d ps bank m).get a = m.get a := by
  rw [get_eraseFlash, if_neg]
  rintro ⟨h1, h2⟩
  cases g with
  | bank =>
    simp only [eraseSpan, flashAddr, Config.bankBytes] at h1 h2
    refine h bank (a - ((d.toNat * 256 + ps.toNat) * 256 + bank.toNat) * 65536) rfl (by omega) ?_
    simp only [flashAddr, Config.bankBytes]
    omega
  | pair =>
    simp only [eraseSpan, flashAddr, Config.bankBytes, pairBase] at h1 h2
    have hb := bank.isLt
    by_cases hlow : a < ((d.toNat * 256 + ps.toNat) * 256 + bank.toNat / 2 * 2) * 65536 + 65536
    · refine h (BitVec.ofNat 8 (bank.toNat / 2 * 2))
        (a - ((d.toNat * 256 + ps.toNat) * 256 + bank.toNat / 2 * 2) * 65536) ?_ (by omega) ?_
      · simp only [SameGranule, BitVec.toNat_ofNat]; omega
      · simp only [flashAddr, Config.bankBytes, BitVec.toNat_ofNat]; omega
    · refine h (BitVec.ofNat 8 (bank.toNat / 2 * 2 + 1))
        (a - ((d.toNat * 256 + ps.toNat) * 256 + (bank.toNat / 2 * 2 + 1)) * 65536) ?_ (by omega) ?_
      · simp only [SameGranule, BitVec.toNat_ofNat]; omega
      · simp only [flashAddr, Config.bankBytes, BitVec.toNat_ofNat]; omega

/-! ## Pages -/

theorem pageOf_toList_getD {m : Mem} {base k : Nat} (h : k < 256) :
    (pageOf m base).toList.getD k 0 = m.get (base + k) := by
  have h1 : k < (m.bytes base 256).length := by simpa using h
  rw [pageOf, tabulate_toList, List.getD_eq_getElem _ _ (by simpa using h)]
  simp only [List.getElem_map, List.getElem_range]
  exact Mem.getD_bytes m base 256 k h 0

theorem pageOf_length (m : Mem) (base : Nat) : (pageOf m base).toList.length = 256 := by simp [pageOf]

/-- Two pages are equal exactly when their bytes are (R176). -/
theorem pageOf_eq_iff {m m' : Mem} {base base' : Nat} :
    pageOf m base = pageOf m' base' ↔ ∀ k < 256, m.get (base + k) = m'.get (base' + k) := by
  constructor
  · intro h k hk
    rw [← pageOf_toList_getD hk, h, pageOf_toList_getD hk]
  · intro h
    apply Vector.toList_inj.1
    apply List.ext_getElem (by simp)
    intro k h1 h2
    rw [pageOf_length] at h1
    have := h k h1
    rw [← pageOf_toList_getD h1, ← pageOf_toList_getD h1, List.getD_eq_getElem, List.getD_eq_getElem] at this
    exact this

/-- One page of an evict, from the load of the page to its tick, on a page that is erased (R175, R176): the page of
flash is then the page of `SRAM`, with and without partial writes. -/
theorem page_runs (hq : Quiet s) (h : s.halted = false) (hp : s.pos.label = .pgLoad) (hi : s.pos.i < 8)
    (hpp : s.pos.p < 256) (hb : regionNumber s s.pos.i < Config.bankLimit) (hk : s.lockDepth ≠ 0)
    (hd : s.defects = [])
    (he : ∀ k < 256, s.flash.get (flashAddr 0 s.vars.launch (BitVec.ofNat 8 (regionNumber s s.pos.i))
      (256 * s.pos.p) + k) = 0xFF) :
    ∃ f pb cb x, Runs s { s with
        pos := { s.pos with label := .pgTick }, flash := f, pagebuf := pb, cmpbuf := cb
        progCur := stepNumber (256 * s.pos.i + s.pos.p + 1), ret := .done, xfer := x } ∧
      ∀ a, f.get a =
        if flashAddr 0 s.vars.launch (BitVec.ofNat 8 (regionNumber s s.pos.i)) (256 * s.pos.p) ≤ a ∧
            a < flashAddr 0 s.vars.launch (BitVec.ofNat 8 (regionNumber s s.pos.i)) (256 * s.pos.p) + 256 then
          s.sram.get (sramAddr s.pos.i (256 * s.pos.p) +
            (a - flashAddr 0 s.vars.launch (BitVec.ofNat 8 (regionNumber s s.pos.i)) (256 * s.pos.p)))
        else s.flash.get a := by
  have hdraw : ∀ v : State, Quiet v → v.halted = false → v.pos.label = .pgDraw →
      Runs v (goto .pgTick v.pos.i v.pos.p
        { v with progCur := stepNumber (256 * v.pos.i + v.pos.p + 1), ret := .done }) := fun v hv1 hv2 hv3 =>
    Runs.cons hv1 hv2 (by simp [hv3]) (runStep_pgDraw hv2 hv3) (Runs.refl _)
  have hwrite : ∀ v : State, Quiet v → v.halted = false → v.pos.label = .pgWrite → v.pos.p < 256 →
      regionNumber v v.pos.i < Config.bankLimit → v.lockDepth ≠ 0 →
      Runs v (goto .pgTick v.pos.i v.pos.p
        { v with
          flash := programFlash v.defects
            (flashAddr 0 v.vars.launch (BitVec.ofNat 8 (regionNumber v v.pos.i)) (256 * v.pos.p))
            v.pagebuf.toList v.flash
          progCur := stepNumber (256 * v.pos.i + v.pos.p + 1), ret := .done }) :=
    fun v hv1 hv2 hv3 hv4 hv5 hv6 =>
      Runs.cons hv1 hv2 (by simp [hv3]) (runStep_pgWrite hv2 hv3 hv4 hv5 hv6) (hdraw _ hv1 hv2 rfl)
  have hcmp : ∀ v : State, Quiet v → v.halted = false → v.pos.label = .pgCompare → v.pos.p < 256 →
      regionNumber v v.pos.i < Config.bankLimit →
      Runs v (goto (if pageOf v.flash (flashAddr 0 v.vars.launch (BitVec.ofNat 8 (regionNumber v v.pos.i))
            (256 * v.pos.p)) = v.pagebuf then .pgDraw else .pgWrite) v.pos.i v.pos.p { v with
        cmpbuf := pageOf v.flash (flashAddr 0 v.vars.launch (BitVec.ofNat 8 (regionNumber v v.pos.i))
            (256 * v.pos.p)), ret := .done }) :=
    fun v hv1 hv2 hv3 hv4 hv5 =>
      Runs.cons hv1 hv2 (by simp [hv3]) (runStep_pgCompare hv2 hv3 hv4 hv5) (Runs.refl _)
  generalize hF : flashAddr 0 s.vars.launch (BitVec.ofNat 8 (regionNumber s s.pos.i)) (256 * s.pos.p) = F at *
  have hprog : ∀ a, (programFlash [] F (pageOf s.sram (sramAddr s.pos.i (256 * s.pos.p))).toList s.flash).get a =
      if F ≤ a ∧ a < F + 256 then s.sram.get (sramAddr s.pos.i (256 * s.pos.p) + (a - F)) else s.flash.get a := by
    intro a
    rw [get_programFlash, pageOf_length]
    split
    · rename_i ha
      have := he (a - F) (by omega)
      rw [show F + (a - F) = a by omega] at this
      rw [programmed, findCell, Option.getD_none, this, pageOf_toList_getD (by omega)]
      exact BitVec.allOnes_and
    · rfl
  have h1 := Runs.cons hq h (by simp [hp]) (runStep_pgLoad h hp hi hpp) (Runs.refl _)
  by_cases hw : s.w.partialWrites = true
  · rw [if_pos hw] at h1
    have h12 := h1.trans (hcmp _ hq h rfl hpp hb)
    by_cases hc : pageOf s.flash F = pageOf s.sram (sramAddr s.pos.i (256 * s.pos.p))
    · rw [if_pos (by rw [← hF] at hc; exact hc)] at h12
      refine ⟨_, _, _, _, h12.trans (hdraw _ hq h rfl), ?_⟩
      intro a
      split
      · rename_i ha
        have := pageOf_eq_iff.1 hc (a - F) (by omega)
        rw [show F + (a - F) = a by omega] at this
        exact this
      · rfl
    · rw [if_neg (by rw [← hF] at hc; exact hc)] at h12
      refine ⟨_, _, _, _, h12.trans (hwrite _ hq h rfl hpp hb hk), ?_⟩
      intro a
      rw [← hprog a, ← hd, ← hF]
      rfl
  · rw [if_neg hw] at h1
    refine ⟨_, _, _, _, h1.trans (hwrite _ hq h rfl hpp hb hk), ?_⟩
    intro a
    rw [← hprog a, ← hd, ← hF]
    rfl

/-- The address of offset `off` of bank number `k` of the running command's region, in flash (R124). -/
abbrev regionAddr (s : State) (k off : Nat) : Nat :=
  flashAddr 0 s.vars.launch (BitVec.ofNat 8 (regionNumber s k)) off

/-- The region of the running command is one of a save slot: its banks are below the limit, and they rise. -/
def RegionOk (s : State) : Prop :=
  s.vars.size ≤ 8 ∧ (∀ k < s.vars.size, regionNumber s k < Config.bankLimit) ∧
    ∀ k k', k < k' → k' < s.vars.size → regionNumber s k < regionNumber s k'

theorem regionOk_of (h : s.vars.slot.toNat < 15) (h' : s.vars.offset + s.vars.size ≤ 8) : RegionOk s :=
  ⟨by omega, fun k hk => bankNumber_lt h (by omega), fun k k' hk hk' => bankNumber_strict (by omega)⟩

theorem regionAddr_eq (hr : RegionOk s) {k off : Nat} (hk : k < s.vars.size) :
    regionAddr s k off = s.vars.launch.toNat * 16777216 + regionNumber s k * 65536 + off := by
  rw [regionAddr, flashAddr_zero, toNat_bank (hr.2.1 k hk)]

theorem regionNumber_ne (hr : RegionOk s) {k k' : Nat} (hk : k < s.vars.size) (hk' : k' < s.vars.size)
    (h : k ≠ k') : regionNumber s k ≠ regionNumber s k' := by
  rcases Nat.lt_or_gt_of_ne h with h | h
  · have := hr.2.2 k k' h hk'; omega
  · have := hr.2.2 k' k h hk; omega

/-- All pages of an evict, from any page on (R173 P5): what was erased is then the RAM window. -/
theorem pages_run (n : Nat) : ∀ s : State, n = (s.vars.size - s.pos.i) * 256 - s.pos.p → Quiet s →
    s.halted = false → s.pos.label = .pgLoad → s.pos.i < s.vars.size → s.pos.p < 256 → RegionOk s →
    s.lockDepth ≠ 0 → s.defects = [] →
    (∀ k < s.vars.size, ∀ off < 65536, 65536 * s.pos.i + 256 * s.pos.p ≤ 65536 * k + off →
      s.flash.get (regionAddr s k off) = 0xFF) →
    ∃ f pb cb x, Runs s { s with
        pos := { cmd := s.pos.cmd, label := .pgLock, i := 0, p := 0 }, flash := f, pagebuf := pb, cmpbuf := cb
        progCur := stepNumber (256 * s.vars.size), ret := .done, xfer := x } ∧
      (∀ k < s.vars.size, ∀ off < 65536, f.get (regionAddr s k off) =
        if 65536 * s.pos.i + 256 * s.pos.p ≤ 65536 * k + off then s.sram.get (sramAddr k off)
        else s.flash.get (regionAddr s k off)) ∧
      ∀ a, (∀ k < s.vars.size, ∀ off < 65536, a ≠ regionAddr s k off) → f.get a = s.flash.get a := by
  induction n with
  | zero => intro s hn hq h hp hi hpp; omega
  | succ n ih =>
    intro s hn hq h hp hi hpp hr hk hd he
    have hA := @regionAddr_eq s hr
    obtain ⟨f, pb, cb, x, hrun, hf⟩ := page_runs hq h hp (by have := hr.1; omega) hpp (hr.2.1 _ hi) hk hd
      (fun k hk' => by
        have := he s.pos.i hi (256 * s.pos.p + k) (by omega) (by omega)
        rwa [regionAddr, flashAddr_add] at this)
    have hpage : ∀ k < s.vars.size, ∀ off < 65536, f.get (regionAddr s k off) =
        if k = s.pos.i ∧ 256 * s.pos.p ≤ off ∧ off < 256 * s.pos.p + 256 then s.sram.get (sramAddr k off)
        else s.flash.get (regionAddr s k off) := by
      intro k hk' off ho
      rw [hf]
      have hb : flashAddr 0 s.vars.launch (BitVec.ofNat 8 (regionNumber s s.pos.i)) (256 * s.pos.p) =
        regionAddr s s.pos.i (256 * s.pos.p) := rfl
      rw [hb, hA hi, hA hk']
      by_cases hki : k = s.pos.i
      · subst hki
        by_cases hin : 256 * s.pos.p ≤ off ∧ off < 256 * s.pos.p + 256
        · rw [if_pos (by omega), if_pos ⟨rfl, hin⟩]
          refine congrArg s.sram.get ?_
          simp only [sramAddr, Config.bankBytes]
          omega
        · rw [if_neg (by omega), if_neg (by tauto)]
      · have := regionNumber_ne hr hk' hi hki
        rw [if_neg (by omega), if_neg (by tauto)]
    have hout : ∀ a, (∀ k < s.vars.size, ∀ off < 65536, a ≠ regionAddr s k off) → f.get a = s.flash.get a := by
      intro a ha
      rw [hf, if_neg]
      rintro ⟨h1, h2⟩
      have hb : flashAddr 0 s.vars.launch (BitVec.ofNat 8 (regionNumber s s.pos.i)) (256 * s.pos.p) =
        regionAddr s s.pos.i (256 * s.pos.p) := rfl
      rw [hb, hA hi] at h1 h2
      refine ha s.pos.i hi (a - (s.vars.launch.toNat * 16777216 + regionNumber s s.pos.i * 65536)) (by omega) ?_
      rw [hA hi]; omega
    generalize hv : ({ s with
        pos := { s.pos with label := .pgTick }, flash := f, pagebuf := pb, cmpbuf := cb
        progCur := stepNumber (256 * s.pos.i + s.pos.p + 1), ret := .done, xfer := x } : State) = v at hrun
    have hvp : v.pos = { s.pos with label := .pgTick } := by rw [← hv]
    have hvs : v.vars = s.vars := by rw [← hv]
    have htick := Runs.cons (s := v) (by rw [← hv]; exact hq) (by rw [← hv]; exact h) (by rw [hvp]; simp)
      (runStep_pgTick (by rw [← hv]; exact h) (by rw [hvp])) (Runs.refl _)
    rw [hvp, hvs] at htick
    simp only at htick
    by_cases hlast : s.pos.p + 1 < 256
    · rw [if_pos hlast] at htick
      obtain ⟨f', pb', cb', x', hrun', hin', hout'⟩ := ih (goto .pgLoad s.pos.i (s.pos.p + 1) { v with ret := .done })
        (by simp [hvs]; omega) (by rw [← hv]; exact hq) (by rw [← hv]; exact h) rfl (by rw [← hv]; exact hi) hlast
        (by rw [← hv]; exact hr) (by rw [← hv]; exact hk) (by rw [← hv]; exact hd)
        (by
          rw [← hv]
          intro k hk' off ho hle
          simp only [goto_pos] at hle
          refine (hpage k hk' off ho).trans ?_
          rw [if_neg (by omega)]
          exact he k hk' off ho (by omega))
      subst hv
      refine ⟨f', pb', cb', x', hrun.trans (htick.trans hrun'), ?_, fun a ha => (hout' a ha).trans (hout a ha)⟩
      intro k hk' off ho
      have h3 : f'.get (regionAddr s k off) =
          if 65536 * s.pos.i + 256 * (s.pos.p + 1) ≤ 65536 * k + off then s.sram.get (sramAddr k off)
          else f.get (regionAddr s k off) := hin' k hk' off ho
      rw [h3, hpage k hk' off ho]
      split_ifs <;> first | rfl | omega
    · rw [if_neg hlast] at htick
      by_cases hnext : s.pos.i + 1 < s.vars.size
      · rw [if_pos hnext] at htick
        obtain ⟨f', pb', cb', x', hrun', hin', hout'⟩ := ih (goto .pgLoad (s.pos.i + 1) 0 { v with ret := .done })
          (by simp [hvs]; omega) (by rw [← hv]; exact hq) (by rw [← hv]; exact h) rfl
          (by rw [← hv]; exact hnext) (by simp)
          (by rw [← hv]; exact hr) (by rw [← hv]; exact hk) (by rw [← hv]; exact hd)
          (by
            rw [← hv]
            intro k hk' off ho hle
            simp only [goto_pos] at hle
            refine (hpage k hk' off ho).trans ?_
            rw [if_neg (by omega)]
            exact he k hk' off ho (by omega))
        subst hv
        refine ⟨f', pb', cb', x', hrun.trans (htick.trans hrun'), ?_, fun a ha => (hout' a ha).trans (hout a ha)⟩
        intro k hk' off ho
        have h3 : f'.get (regionAddr s k off) =
            if 65536 * (s.pos.i + 1) + 256 * 0 ≤ 65536 * k + off then s.sram.get (sramAddr k off)
            else f.get (regionAddr s k off) := hin' k hk' off ho
        rw [h3, hpage k hk' off ho]
        split_ifs <;> first | rfl | omega
      · rw [if_neg hnext] at htick
        subst hv
        refine ⟨f, pb, cb, x, ?_, ?_, hout⟩
        · have hc : 256 * s.pos.i + s.pos.p + 1 = 256 * s.vars.size := by omega
          rw [← hc]
          exact hrun.trans htick
        · intro k hk' off ho
          refine (hpage k hk' off ho).trans ?_
          split
          · rw [if_pos (by omega)]
          · rw [if_neg (by omega)]

/-! ## PROGRAM_TO_FLASH -/

/-- A region that PROGRAM_TO_FLASH erases without touching a bank outside it: any region when one bank is erased at a
time, an even one when a pair is (R69, R123). -/
def WholeGranules (s : State) : Prop :=
  s.par.granule = .bank ∨ s.vars.offset % 2 = 0 ∧ s.vars.size % 2 = 0

theorem sameGranule_region (hr : RegionOk s) (hw : WholeGranules s) {k : Nat} (hk : k < s.vars.size) {b : Byte}
    (h : SameGranule s.par.granule b (BitVec.ofNat 8 (regionNumber s k))) :
    ∃ k' < s.vars.size, b = BitVec.ofNat 8 (regionNumber s k') := by
  rcases hw with hw | hw
  · rw [hw] at h
    exact ⟨k, hk, h⟩
  · cases hg : s.par.granule with
    | bank => rw [hg] at h; exact ⟨k, hk, h⟩
    | pair =>
      rw [hg] at h
      simp only [SameGranule] at h
      have hk1 := hr.2.1 k hk
      rw [toNat_bank hk1] at h
      simp only [Config.bankLimit] at hk1
      have he : ∀ j, j % 2 = 0 → j + 1 < s.vars.size → regionNumber s j % 2 = 0 ∧
          regionNumber s (j + 1) = regionNumber s j + 1 := fun j hj _ =>
        bankNumber_even (sub := s.vars.offset + j) (by omega)
      have hb : ∀ m, b.toNat = m → b = BitVec.ofNat 8 m := by
        intro m hm
        rw [← hm, BitVec.ofNat_toNat, BitVec.setWidth_eq]
      by_cases hpar : k % 2 = 0
      · have := he k hpar (by omega)
        by_cases hb0 : b.toNat = regionNumber s k
        · exact ⟨k, hk, hb _ hb0⟩
        · exact ⟨k + 1, by omega, hb _ (by omega)⟩
      · have := he (k - 1) (by omega) (by omega)
        rw [show k - 1 + 1 = k by omega] at this
        by_cases hb0 : b.toNat = regionNumber s k
        · exact ⟨k, hk, hb _ hb0⟩
        · exact ⟨k - 1, by omega, hb _ (by omega)⟩

/-- The erases of an evict (R173 P4). -/
theorem erases_run (n : Nat) : ∀ s : State, n = s.vars.size - s.pos.i → Quiet s → s.halted = false →
    s.pos.label = .pgErase → s.pos.i < s.vars.size → RegionOk s → WholeGranules s → s.lockDepth ≠ 0 →
    ∃ f, Runs s { s with
        pos := { cmd := s.pos.cmd, label := .pgLoad, i := 0, p := 0 }, flash := f, ret := .done } ∧
      (∀ a, s.flash.get a = Config.erased → f.get a = Config.erased) ∧
      (∀ k < s.vars.size, s.pos.i ≤ k → ∀ off < 65536, f.get (regionAddr s k off) = Config.erased) ∧
      ∀ a, (∀ k < s.vars.size, ∀ off < 65536, a ≠ regionAddr s k off) → f.get a = s.flash.get a := by
  induction n with
  | zero => intro s hn hq h hp hi; omega
  | succ n ih =>
    intro s hn hq h hp hi hr hw hk
    have hrun := Runs.cons hq h (by rw [hp]; simp) (runStep_pgErase h hp (hr.2.1 _ hi) hk) (Runs.refl _)
    have h1 : ∀ a, s.flash.get a = Config.erased →
        (eraseFlash s.par.granule 0 s.vars.launch (BitVec.ofNat 8 (regionNumber s s.pos.i)) s.flash).get a
          = Config.erased := by
      intro a ha
      rw [get_eraseFlash]
      split
      · rfl
      · exact ha
    have h2 : ∀ off < 65536,
        (eraseFlash s.par.granule 0 s.vars.launch (BitVec.ofNat 8 (regionNumber s s.pos.i)) s.flash).get
          (regionAddr s s.pos.i off) = Config.erased :=
      fun off ho => erase_in (by unfold SameGranule; split <;> rfl) ho
    have h3 : ∀ a, (∀ k < s.vars.size, ∀ off < 65536, a ≠ regionAddr s k off) →
        (eraseFlash s.par.granule 0 s.vars.launch (BitVec.ofNat 8 (regionNumber s s.pos.i)) s.flash).get a
          = s.flash.get a := by
      intro a ha
      refine erase_out fun b off hb ho => ?_
      obtain ⟨k', hk', rfl⟩ := sameGranule_region hr hw hi hb
      exact ha k' hk' off ho
    by_cases hnext : s.pos.i + 1 < s.vars.size
    · rw [if_pos hnext] at hrun
      obtain ⟨f, hrun', hf1, hf2, hf3⟩ := ih (goto .pgErase (s.pos.i + 1) 0 { s with
          flash := eraseFlash s.par.granule 0 s.vars.launch (BitVec.ofNat 8 (regionNumber s s.pos.i)) s.flash
          ret := .done })
        (by simp; omega) hq h rfl hnext hr hw hk
      refine ⟨f, hrun.trans hrun', fun a ha => hf1 a (h1 a ha), ?_, fun a ha => (hf3 a ha).trans (h3 a ha)⟩
      intro k hk' hle off ho
      by_cases hki : k = s.pos.i
      · subst hki
        exact hf1 _ (h2 off ho)
      · exact hf2 k hk' (by simp; omega) off ho
    · rw [if_neg hnext] at hrun
      refine ⟨_, hrun, h1, ?_, h3⟩
      intro k hk' hle off ho
      have : k = s.pos.i := by omega
      subst this
      exact h2 off ho

/-- The erase loop and the page loop of PROGRAM_TO_FLASH, up to `lock()` (R173, R175, R176). -/
theorem batch_run (hq : Quiet s) (h : s.halted = false) (hp : s.pos = { cmd := s.pos.cmd, label := .pgErase, i := 0, p := 0 })
    (hsize : 0 < s.vars.size) (hr : RegionOk s) (hw : WholeGranules s) (hk : s.lockDepth ≠ 0) (hd : s.defects = []) :
    ∃ f pb cb x, Runs s { s with
        pos := { cmd := s.pos.cmd, label := .pgLock, i := 0, p := 0 }, flash := f, pagebuf := pb, cmpbuf := cb
        progCur := stepNumber (256 * s.vars.size), ret := .done, xfer := x } ∧
      (∀ k < s.vars.size, ∀ off < 65536, f.get (regionAddr s k off) = s.sram.get (sramAddr k off)) ∧
      ∀ a, (∀ k < s.vars.size, ∀ off < 65536, a ≠ regionAddr s k off) → f.get a = s.flash.get a := by
  have hl : s.pos.label = .pgErase := by rw [hp]
  have hi : s.pos.i = 0 := by rw [hp]
  obtain ⟨f1, r1, -, hf1, hf1'⟩ := erases_run _ s rfl hq h hl (by rw [hi]; exact hsize) hr hw hk
  obtain ⟨f2, pb, cb, x, r2, hf2, hf2'⟩ := pages_run _ { s with
      pos := { cmd := s.pos.cmd, label := .pgLoad, i := 0, p := 0 }, flash := f1, ret := .done } rfl hq h rfl hsize
    (Nat.zero_lt_succ _) hr hk hd (fun k hk' off ho _ => hf1 k hk' (by rw [hi]; exact Nat.zero_le _) off ho)
  exact ⟨f2, pb, cb, x, r1.trans r2, fun k hk' off ho => (hf2 k hk' off ho).trans (if_pos (Nat.zero_le _)),
    fun a ha => (hf2' a ha).trans (hf1' a ha)⟩

/-- PROGRAM_TO_FLASH from P3 to the end (R173, R175, R176): the region's flash is then the RAM window, and no other
byte of flash has changed. -/
theorem program_run (hq : Quiet s) (h : s.halted = false) (hp : s.pos.label = .pgLaunch)
    (hslot : s.vars.slot.toNat < 15) (hsize : 0 < s.vars.size) (hreg : s.vars.offset + s.vars.size ≤ 8)
    (hw : WholeGranules s) (hk : s.lockDepth < 255) (hd : s.defects = []) :
    ∃ f pb cb x, Runs s (programDone { s with
        pos := { cmd := s.pos.cmd, label := .pgLock, i := 0, p := 0 }, vars := { s.vars with launch := s.launchSlot }
        flash := f, pagebuf := pb, cmpbuf := cb, progCur := stepNumber (256 * s.vars.size)
        progMax := stepNumber (256 * s.vars.size), ret := .done, xfer := x }) ∧
      (∀ k < s.vars.size, ∀ off < 65536,
        f.get (s.saveAddr s.vars.slot (s.vars.offset + k) off) = s.sram.get (sramAddr k off)) ∧
      ∀ a, (∀ k < s.vars.size, ∀ off < 65536, a ≠ s.saveAddr s.vars.slot (s.vars.offset + k) off) →
        f.get a = s.flash.get a := by
  have hlm : s.lockDepth ≠ Config.lockMax := by simp only [Config.lockMax]; omega
  have r1 := Runs.cons hq h (by rw [hp]; simp) (runStep_pgLaunch h hp) (Runs.refl _)
  have r2 := Runs.cons (s := goto .pgUnlock 0 0 (takeLaunch { s with ret := .byte s.launchSlot })) hq h (by simp)
    (runStep_pgUnlock h rfl) (Runs.refl _)
  rw [if_neg (show ¬ (goto .pgUnlock 0 0 (takeLaunch { s with ret := .byte s.launchSlot })).lockDepth
    = Config.lockMax from hlm)] at r2
  have r3 := Runs.cons (s := { s with
      pos := { cmd := s.pos.cmd, label := .pgInit, i := 0, p := 0 }, vars := { s.vars with launch := s.launchSlot }
      lockDepth := s.lockDepth + 1, ret := .done }) hq h (by simp) (runStep_pgInit h rfl) (Runs.refl _)
  obtain ⟨f, pb, cb, x, r4, hf, hf'⟩ := batch_run (s := { s with
      pos := { cmd := s.pos.cmd, label := .pgErase, i := 0, p := 0 }, vars := { s.vars with launch := s.launchSlot }
      lockDepth := s.lockDepth + 1, progMax := stepNumber (256 * s.vars.size), progCur := 0, ret := .done }) hq h rfl
    hsize (regionOk_of hslot hreg) hw (Nat.succ_ne_zero _) hd
  have r5 := Runs.cons (s := { s with
        pos := { cmd := s.pos.cmd, label := .pgLock, i := 0, p := 0 }, vars := { s.vars with launch := s.launchSlot }
        lockDepth := s.lockDepth + 1
        flash := f, pagebuf := pb, cmpbuf := cb, progCur := stepNumber (256 * s.vars.size)
        progMax := stepNumber (256 * s.vars.size), ret := .done, xfer := x }) hq h (by simp)
    (runStep_pgLock h rfl) (Runs.refl _)
  rw [if_neg (by simp)] at r5
  exact ⟨f, pb, cb, x, r1.trans (r2.trans (r3.trans (r4.trans r5))), hf, hf'⟩

/-! ## RESTORE_FROM_FLASH -/

/-- One chunk of a load (R178). -/
theorem chunk_run (hq : Quiet s) (h : s.halted = false) (hp : s.pos.label = .rsRead) (hi : s.pos.i < 8)
    (hpp : s.pos.p < 32) (hb : regionNumber s s.pos.i < Config.bankLimit) :
    ∃ m x, Runs s { s with
        pos := { s.pos with label := .rsTick }, sram := m, xfer := x
        progCur := stepNumber (32 * s.pos.i + s.pos.p + 1), ret := .done } ∧
      ∀ a, m.get a =
        if 65536 * s.pos.i + 2048 * s.pos.p ≤ a ∧ a < 65536 * s.pos.i + 2048 * s.pos.p + 2048 then
          s.flash.get (regionAddr s (a / 65536) (a % 65536))
        else s.sram.get a := by
  have r1 := Runs.cons hq h (by rw [hp]; simp) (runStep_rsRead h hp hpp hb) (Runs.refl _)
  generalize hx : s.flash.bytes (flashAddr 0 s.vars.launch (BitVec.ofNat 8 (regionNumber s s.pos.i))
      (2048 * s.pos.p)) 2048 = x at r1
  have hlen : x.length = 2048 := by rw [← hx, Mem.length_bytes]
  have r2 := Runs.cons (s := goto .rsStore s.pos.i s.pos.p { s with xfer := x, ret := .done }) hq h (by simp)
    (runStep_rsStore h rfl hi hpp hlen) (Runs.refl _)
  have r3 := Runs.cons (s := goto .rsDraw s.pos.i s.pos.p { goto .rsStore s.pos.i s.pos.p { s with
      xfer := x, ret := .done } with
      sram := s.sram.storeList (sramAddr s.pos.i (2048 * s.pos.p)) x, ret := .done }) hq h (by simp)
    (runStep_rsDraw h rfl) (Runs.refl _)
  refine ⟨s.sram.storeList (sramAddr s.pos.i (2048 * s.pos.p)) x, x, r1.trans (r2.trans r3), fun a => ?_⟩
  rw [Mem.get_storeList, hlen]
  have hs : sramAddr s.pos.i (2048 * s.pos.p) = 65536 * s.pos.i + 2048 * s.pos.p := by
    simp only [sramAddr, Config.bankBytes]; omega
  rw [hs]
  split
  · rename_i ha
    have hai : a / 65536 = s.pos.i := by omega
    have hoff : a % 65536 = 2048 * s.pos.p + (a - (65536 * s.pos.i + 2048 * s.pos.p)) := by omega
    rw [hai, hoff, ← hx, Mem.getD_bytes _ _ _ _ (by omega)]
    exact congrArg s.flash.get (flashAddr_add ..).symm
  · rfl

/-- The loop of a load (R178). -/
theorem chunks_run (n : Nat) : ∀ s : State, n = (s.vars.size - s.pos.i) * 32 - s.pos.p → Quiet s →
    s.halted = false → s.pos.label = .rsRead → s.pos.i < s.vars.size → s.pos.p < 32 → RegionOk s →
    ∃ m x, Runs s (restoreDone { s with
        pos := { cmd := s.pos.cmd, label := .rsTick, i := s.vars.size - 1, p := 31 }, sram := m, xfer := x
        progCur := stepNumber (32 * s.vars.size), ret := .done }) ∧
      ∀ a, m.get a =
        if 65536 * s.pos.i + 2048 * s.pos.p ≤ a ∧ a < 65536 * s.vars.size then
          s.flash.get (regionAddr s (a / 65536) (a % 65536))
        else s.sram.get a := by
  induction n with
  | zero => intro s hn hq h hp hi hpp; omega
  | succ n ih =>
    intro s hn hq h hp hi hpp hr
    obtain ⟨m, x, r1, hm⟩ := chunk_run hq h hp (by have := hr.1; omega) hpp (hr.2.1 _ hi)
    generalize hv : ({ s with
        pos := { s.pos with label := .rsTick }, sram := m, xfer := x
        progCur := stepNumber (32 * s.pos.i + s.pos.p + 1), ret := .done } : State) = v at r1
    have hvp : v.pos = { s.pos with label := .rsTick } := by rw [← hv]
    have hvs : v.vars = s.vars := by rw [← hv]
    have r2 := Runs.cons (s := v) (by rw [← hv]; exact hq) (by rw [← hv]; exact h) (by rw [hvp]; simp)
      (runStep_rsTick (by rw [← hv]; exact h) (by rw [hvp])) (Runs.refl _)
    rw [hvp, hvs] at r2
    simp only at r2
    by_cases hlast : s.pos.p + 1 < 32
    · rw [if_pos hlast] at r2
      obtain ⟨m', x', r3, hm'⟩ := ih (goto .rsRead s.pos.i (s.pos.p + 1) { v with ret := .done })
        (by simp [hvs]; omega) (by rw [← hv]; exact hq) (by rw [← hv]; exact h) rfl (by rw [← hv]; exact hi) hlast
        (by rw [← hv]; exact hr)
      subst hv
      refine ⟨m', x', r1.trans (r2.trans r3), fun a => ?_⟩
      have h3 : m'.get a = if 65536 * s.pos.i + 2048 * (s.pos.p + 1) ≤ a ∧ a < 65536 * s.vars.size then
          s.flash.get (regionAddr s (a / 65536) (a % 65536)) else m.get a := hm' a
      rw [h3, hm a]
      split_ifs <;> first | rfl | omega
    · rw [if_neg hlast] at r2
      by_cases hnext : s.pos.i + 1 < s.vars.size
      · rw [if_pos hnext] at r2
        obtain ⟨m', x', r3, hm'⟩ := ih (goto .rsRead (s.pos.i + 1) 0 { v with ret := .done })
          (by simp [hvs]; omega) (by rw [← hv]; exact hq) (by rw [← hv]; exact h) rfl (by rw [← hv]; exact hnext)
          (by simp) (by rw [← hv]; exact hr)
        subst hv
        refine ⟨m', x', r1.trans (r2.trans r3), fun a => ?_⟩
        have h3 : m'.get a = if 65536 * (s.pos.i + 1) + 2048 * 0 ≤ a ∧ a < 65536 * s.vars.size then
            s.flash.get (regionAddr s (a / 65536) (a % 65536)) else m.get a := hm' a
        rw [h3, hm a]
        split_ifs <;> first | rfl | omega
      · rw [if_neg hnext] at r2
        subst hv
        have hc : 32 * s.pos.i + s.pos.p + 1 = 32 * s.vars.size := by omega
        have hpos : s.pos = { cmd := s.pos.cmd, label := .rsRead, i := s.vars.size - 1, p := 31 } := by
          have h1 : s.pos.i = s.vars.size - 1 := by omega
          have h2 : s.pos.p = 31 := by omega
          rw [← h1, ← h2, ← hp]
        refine ⟨m, x, ?_, fun a => ?_⟩
        · rw [← hc]
          have := r1.trans r2
          rw [hpos] at this ⊢
          exact this
        · rw [hm a]
          split_ifs <;> first | rfl | omega

/-- RESTORE_FROM_FLASH after its guards (R178): RAM bank `k` is then bank `k` of the region, and the RAM banks above the
region have not changed. -/
theorem restore_run (hq : Quiet s) (h : s.halted = false) (hp : s.pos.label = .rsLaunch)
    (hslot : s.vars.slot.toNat < 15) (hsize : 0 < s.vars.size) (hreg : s.vars.offset + s.vars.size ≤ 8) :
    ∃ m x, Runs s (restoreDone { s with
        pos := { cmd := s.pos.cmd, label := .rsTick, i := s.vars.size - 1, p := 31 }
        vars := { s.vars with launch := s.launchSlot }, sram := m, xfer := x
        progCur := stepNumber (32 * s.vars.size), progMax := stepNumber (32 * s.vars.size), ret := .done }) ∧
      (∀ k < s.vars.size, ∀ off < 65536,
        m.get (sramAddr k off) = s.flash.get (s.saveAddr s.vars.slot (s.vars.offset + k) off)) ∧
      ∀ a, 65536 * s.vars.size ≤ a → m.get a = s.sram.get a := by
  have r1 := Runs.cons hq h (by rw [hp]; simp) (runStep_rsLaunch h hp) (Runs.refl _)
  have r2 := Runs.cons (s := goto .rsInit 0 0 (takeLaunch { s with ret := .byte s.launchSlot })) hq h (by simp)
    (runStep_rsInit h rfl) (Runs.refl _)
  obtain ⟨m, x, r3, hm⟩ := chunks_run _ (goto .rsRead 0 0
      { goto .rsInit 0 0 (takeLaunch { s with ret := .byte s.launchSlot }) with
        progMax := stepNumber (32 * s.vars.size), progCur := 0, ret := .done }) rfl hq h rfl hsize (by simp)
    (regionOk_of hslot hreg)
  refine ⟨m, x, r1.trans (r2.trans r3), ?_, ?_⟩
  · intro k hk off ho
    have h3 : m.get (sramAddr k off) = if 65536 * 0 + 2048 * 0 ≤ sramAddr k off ∧
        sramAddr k off < 65536 * s.vars.size then
        s.flash.get (s.saveAddr s.vars.slot (s.vars.offset + sramAddr k off / 65536) (sramAddr k off % 65536))
        else s.sram.get (sramAddr k off) := hm _
    have ha : sramAddr k off = 65536 * k + off := by simp only [sramAddr, Config.bankBytes]; omega
    rw [h3, ha, if_pos (by omega), show (65536 * k + off) / 65536 = k by omega,
      show (65536 * k + off) % 65536 = off by omega]
  · intro a ha
    exact (hm a).trans (if_neg (by simp only [goto_vars]; show ¬ (_ ∧ a < 65536 * s.vars.size); omega))

/-! ## ERASE -/

/-- ERASE_RAM's loop (R180). -/
theorem fills_run (n : Nat) : ∀ s : State, n = (s.vars.size - s.pos.i) * 32 - s.pos.p → Quiet s →
    s.halted = false → s.pos.label = .erFill → s.pos.i < s.vars.size → s.pos.p < 32 → s.vars.size ≤ 8 →
    ∃ m, Runs s (finish .ok { s with
        sram := m, progCur := stepNumber s.vars.size, ret := .done }) ∧
      ∀ a, m.get a =
        if 65536 * s.pos.i + 2048 * s.pos.p ≤ a ∧ a < 65536 * s.vars.size then Config.padByte
        else s.sram.get a := by
  induction n with
  | zero => intro s hn hq h hp hi hpp; omega
  | succ n ih =>
    intro s hn hq h hp hi hpp h8
    have r1 := Runs.cons hq h (by rw [hp]; simp) (runStep_erFill h hp (by omega) hpp) (Runs.refl _)
    have hm : ∀ a, (s.sram.storeList (sramAddr s.pos.i (2048 * s.pos.p))
        (List.replicate 2048 Config.padByte)).get a =
        if 65536 * s.pos.i + 2048 * s.pos.p ≤ a ∧ a < 65536 * s.pos.i + 2048 * s.pos.p + 2048 then Config.padByte
        else s.sram.get a := by
      intro a
      have hs : sramAddr s.pos.i (2048 * s.pos.p) = 65536 * s.pos.i + 2048 * s.pos.p := by
        simp only [sramAddr, Config.bankBytes]; omega
      rw [Mem.get_storeList, hs, List.length_replicate]
      split
      · rw [List.getD_eq_getElem _ _ (by rw [List.length_replicate]; omega), List.getElem_replicate]
      · rfl
    generalize s.sram.storeList (sramAddr s.pos.i (2048 * s.pos.p)) (List.replicate 2048 Config.padByte) = m at *
    by_cases hlast : s.pos.p + 1 < 32
    · rw [if_pos hlast] at r1
      obtain ⟨m', r2, hm'⟩ := ih (goto .erFill s.pos.i (s.pos.p + 1) { s with sram := m, ret := .done })
        (by simp; omega) hq h rfl hi hlast h8
      refine ⟨m', r1.trans r2, fun a => ?_⟩
      have h3 : m'.get a = if 65536 * s.pos.i + 2048 * (s.pos.p + 1) ≤ a ∧ a < 65536 * s.vars.size then
          Config.padByte else m.get a := hm' a
      rw [h3, hm a]
      split_ifs <;> first | rfl | omega
    · rw [if_neg hlast] at r1
      have r2 := Runs.cons (s := goto .erDraw s.pos.i 0 { s with sram := m, ret := .done }) hq h (by simp)
        (runStep_erDraw h rfl) (Runs.refl _)
      have r3 := Runs.cons (s := goto .erTick s.pos.i 0 { goto .erDraw s.pos.i 0 { s with sram := m, ret := .done } with
          progCur := stepNumber (s.pos.i + 1), ret := .done }) hq h (by simp)
        (runStep_erTick h rfl) (Runs.refl _)
      by_cases hnext : s.pos.i + 1 < s.vars.size
      · have r3' := r3
        rw [if_pos (by exact hnext)] at r3'
        obtain ⟨m', r4, hm'⟩ := ih (goto .erFill (s.pos.i + 1) 0 { s with
            sram := m, progCur := stepNumber (s.pos.i + 1), ret := .done })
          (by simp; omega) hq h rfl hnext (by simp) h8
        refine ⟨m', r1.trans (r2.trans (r3'.trans r4)), fun a => ?_⟩
        have h3 : m'.get a = if 65536 * (s.pos.i + 1) + 2048 * 0 ≤ a ∧ a < 65536 * s.vars.size then
            Config.padByte else m.get a := hm' a
        rw [h3, hm a]
        split_ifs <;> first | rfl | omega
      · have r3' := r3
        rw [if_neg (by exact hnext)] at r3'
        have hc : s.pos.i + 1 = s.vars.size := by omega
        refine ⟨m, ?_, fun a => ?_⟩
        · rw [← hc]
          exact r1.trans (r2.trans r3')
        · rw [hm a]
          split_ifs <;> first | rfl | omega

/-- ERASE_RAM (R180). -/
theorem eraseRam_run (hq : Quiet s) (h : s.halted = false) (hp : s.pos.label = .erInit) (hsize : 0 < s.vars.size)
    (h8 : s.vars.size ≤ 8) :
    ∃ m, Runs s (finish .ok { s with
        sram := m, progCur := stepNumber s.vars.size, progMax := stepNumber s.vars.size, ret := .done }) ∧
      ∀ a, m.get a = if a < 65536 * s.vars.size then Config.padByte else s.sram.get a := by
  have r1 := Runs.cons hq h (by rw [hp]; simp) (runStep_erInit h hp) (Runs.refl _)
  obtain ⟨m, r2, hm⟩ := fills_run _ (goto .erFill 0 0
      { s with progMax := stepNumber s.vars.size, progCur := 0, ret := .done }) rfl hq h rfl hsize (by simp) h8
  refine ⟨m, r1.trans r2, fun a => ?_⟩
  have h3 : m.get a = if 65536 * 0 + 2048 * 0 ≤ a ∧ a < 65536 * s.vars.size then Config.padByte
    else s.sram.get a := hm a
  rw [h3]
  split_ifs <;> first | rfl | omega

/-- The bank that ERASE_SLOTS erases for slot number `i` and sub-bank number `p` (R181). -/
abbrev eraseBankOf (s : State) (i p : Nat) : Byte :=
  BitVec.ofNat 8 (bankNumber s.w.legacyLayout (s.vars.slot.toNat + i) (s.vars.offset + p))

/-- ERASE_SLOTS' loop (R181). -/
theorem eraseBanks_run (n : Nat) : ∀ s : State, n = (s.vars.slots - s.pos.i) * s.vars.size - s.pos.p → Quiet s →
    s.halted = false → s.pos.label = .esErase → s.pos.i < s.vars.slots → s.pos.p < s.vars.size →
    s.vars.slot.toNat + s.vars.slots ≤ 15 → s.vars.offset + s.vars.size ≤ 8 → s.lockDepth ≠ 0 →
    ∃ f, Runs s { s with
        pos := { cmd := s.pos.cmd, label := .esLock, i := 0, p := 0 }, flash := f
        progCur := stepNumber (s.vars.slots * s.vars.size), ret := .done } ∧
      (∀ a, s.flash.get a = Config.erased → f.get a = Config.erased) ∧
      (∀ i p, i < s.vars.slots → p < s.vars.size → (s.pos.i < i ∨ s.pos.i = i ∧ s.pos.p ≤ p) →
        ∀ b off, SameGranule s.par.granule b (eraseBankOf s i p) → off < 65536 →
          f.get (flashAddr 0 s.vars.launch b off) = Config.erased) ∧
      ∀ a, (∀ i p b off, i < s.vars.slots → p < s.vars.size → SameGranule s.par.granule b (eraseBankOf s i p) →
        off < 65536 → a ≠ flashAddr 0 s.vars.launch b off) → f.get a = s.flash.get a := by
  induction n with
  | zero =>
    intro s hn hq h hp hi hpp
    have : s.vars.size ≤ (s.vars.slots - s.pos.i) * s.vars.size :=
      Nat.le_mul_of_pos_left _ (by omega)
    omega
  | succ n ih =>
    intro s hn hq h hp hi hpp hs ho hk
    have r1 := Runs.cons hq h (by rw [hp]; simp)
      (runStep_esErase h hp (bankNumber_lt (by omega) (by omega)) hk) (Runs.refl _)
    have h1 : ∀ a, s.flash.get a = Config.erased →
        (eraseFlash s.par.granule 0 s.vars.launch (eraseBankOf s s.pos.i s.pos.p) s.flash).get a
          = Config.erased := by
      intro a ha
      rw [get_eraseFlash]
      split
      · rfl
      · exact ha
    have h2 : ∀ b off, SameGranule s.par.granule b (eraseBankOf s s.pos.i s.pos.p) → off < 65536 →
        (eraseFlash s.par.granule 0 s.vars.launch (eraseBankOf s s.pos.i s.pos.p) s.flash).get
          (flashAddr 0 s.vars.launch b off) = Config.erased := fun b off hb ho => erase_in hb ho
    have h3 : ∀ a, (∀ i p b off, i < s.vars.slots → p < s.vars.size →
          SameGranule s.par.granule b (eraseBankOf s i p) → off < 65536 → a ≠ flashAddr 0 s.vars.launch b off) →
        (eraseFlash s.par.granule 0 s.vars.launch (eraseBankOf s s.pos.i s.pos.p) s.flash).get a
          = s.flash.get a := fun a ha => erase_out fun b off hb ho => ha _ _ b off hi hpp hb ho
    change Runs s (goto .esDraw s.pos.i s.pos.p { s with
      flash := eraseFlash s.par.granule 0 s.vars.launch (eraseBankOf s s.pos.i s.pos.p) s.flash, ret := .done }) at r1
    generalize eraseFlash s.par.granule 0 s.vars.launch (eraseBankOf s s.pos.i s.pos.p) s.flash = f at *
    have r2 := Runs.cons (s := goto .esDraw s.pos.i s.pos.p { s with flash := f, ret := .done }) hq h (by simp)
      (runStep_esDraw h rfl) (Runs.refl _)
    have r3 := Runs.cons (s := goto .esTick s.pos.i s.pos.p
      { goto .esDraw s.pos.i s.pos.p { s with flash := f, ret := .done } with
        progCur := stepNumber (s.pos.i * s.vars.size + s.pos.p + 1), ret := .done }) hq h (by simp)
      (runStep_esTick h rfl) (Runs.refl _)
    have r123 := r1.trans (r2.trans r3)
    by_cases hlast : s.pos.p + 1 < s.vars.size
    · rw [if_pos (by exact hlast)] at r123
      obtain ⟨f', r4, hf1, hf2, hf3⟩ := ih (goto .esErase s.pos.i (s.pos.p + 1) { s with
          flash := f, progCur := stepNumber (s.pos.i * s.vars.size + s.pos.p + 1), ret := .done })
        (by simp; omega) hq h rfl hi hlast hs ho hk
      refine ⟨f', r123.trans r4, fun a ha => hf1 a (h1 a ha), ?_, fun a ha => (hf3 a ha).trans (h3 a ha)⟩
      intro i p hi' hp' hle b off hb hoff
      by_cases he : s.pos.i = i ∧ s.pos.p = p
      · obtain ⟨rfl, rfl⟩ := he
        exact hf1 _ (h2 b off hb hoff)
      · exact hf2 i p hi' hp' (by simp only [goto_pos]; omega) b off hb hoff
    · rw [if_neg (by exact hlast)] at r123
      by_cases hnext : s.pos.i + 1 < s.vars.slots
      · rw [if_pos (by exact hnext)] at r123
        have hcount : (s.vars.slots - (s.pos.i + 1)) * s.vars.size + s.vars.size =
            (s.vars.slots - s.pos.i) * s.vars.size := by
          rw [← Nat.succ_mul]; congr 1; omega
        obtain ⟨f', r4, hf1, hf2, hf3⟩ := ih (goto .esErase (s.pos.i + 1) 0 { s with
            flash := f, progCur := stepNumber (s.pos.i * s.vars.size + s.pos.p + 1), ret := .done })
          (by simp; omega) hq h rfl hnext (by show 0 < s.vars.size; omega) hs ho hk
        refine ⟨f', r123.trans r4, fun a ha => hf1 a (h1 a ha), ?_, fun a ha => (hf3 a ha).trans (h3 a ha)⟩
        intro i p hi' hp' hle b off hb hoff
        by_cases he : s.pos.i = i ∧ s.pos.p = p
        · obtain ⟨rfl, rfl⟩ := he
          exact hf1 _ (h2 b off hb hoff)
        · exact hf2 i p hi' hp' (by simp only [goto_pos]; omega) b off hb hoff
      · rw [if_neg (by exact hnext)] at r123
        have hc : s.pos.i * s.vars.size + s.pos.p + 1 = s.vars.slots * s.vars.size := by
          have h5 : s.vars.slots = s.pos.i + 1 := by omega
          rw [h5, Nat.succ_mul]; omega
        refine ⟨f, ?_, h1, ?_, h3⟩
        · rw [← hc]; exact r123
        · intro i p hi' hp' hle b off hb hoff
          have h5 : i = s.pos.i := by omega
          have h6 : p = s.pos.p := by omega
          subst h5; subst h6
          exact h2 b off hb hoff

/-- ERASE_SLOTS (R181, R182): every granule that holds a bank of one of the regions is erased, and nothing else of flash
has changed. -/
theorem eraseSlots_run (hq : Quiet s) (h : s.halted = false) (hp : s.pos.label = .esLaunch)
    (hslots : 0 < s.vars.slots) (hsize : 0 < s.vars.size)
    (hs : s.vars.slot.toNat + s.vars.slots ≤ 15) (ho : s.vars.offset + s.vars.size ≤ 8) (hk : s.lockDepth < 255) :
    ∃ f, Runs s (finish .ok { s with
        vars := { s.vars with launch := s.launchSlot }, flash := f
        progCur := stepNumber (s.vars.slots * s.vars.size)
        progMax := stepNumber (s.vars.slots * s.vars.size), ret := .done }) ∧
      (∀ i p b off, i < s.vars.slots → p < s.vars.size → SameGranule s.par.granule b (eraseBankOf s i p) →
        off < 65536 → f.get (flashAddr 0 s.launchSlot b off) = Config.erased) ∧
      ∀ a, (∀ i p b off, i < s.vars.slots → p < s.vars.size → SameGranule s.par.granule b (eraseBankOf s i p) →
        off < 65536 → a ≠ flashAddr 0 s.launchSlot b off) → f.get a = s.flash.get a := by
  have hlm : s.lockDepth ≠ Config.lockMax := by simp only [Config.lockMax]; omega
  have r1 := Runs.cons hq h (by rw [hp]; simp) (runStep_esLaunch h hp) (Runs.refl _)
  have r2 := Runs.cons (s := goto .esUnlock 0 0 (takeLaunch { s with ret := .byte s.launchSlot })) hq h (by simp)
    (runStep_esUnlock h rfl) (Runs.refl _)
  rw [if_neg (show ¬ (goto .esUnlock 0 0 (takeLaunch { s with ret := .byte s.launchSlot })).lockDepth
    = Config.lockMax from hlm)] at r2
  have r3 := Runs.cons (s := { s with
      pos := { cmd := s.pos.cmd, label := .esInit, i := 0, p := 0 }, vars := { s.vars with launch := s.launchSlot }
      lockDepth := s.lockDepth + 1, ret := .done }) hq h (by simp) (runStep_esInit h rfl) (Runs.refl _)
  rw [if_pos hslots] at r3
  obtain ⟨f, r4, -, hf1, hf2⟩ := eraseBanks_run _ { s with
      pos := { cmd := s.pos.cmd, label := .esErase, i := 0, p := 0 }, vars := { s.vars with launch := s.launchSlot }
      lockDepth := s.lockDepth + 1, progMax := stepNumber (s.vars.slots * s.vars.size), progCur := 0
      ret := .done } rfl hq h rfl hslots hsize hs ho (Nat.succ_ne_zero _)
  have r5 := Runs.cons (s := { s with
        pos := { cmd := s.pos.cmd, label := .esLock, i := 0, p := 0 }, vars := { s.vars with launch := s.launchSlot }
        lockDepth := s.lockDepth + 1
        flash := f, progCur := stepNumber (s.vars.slots * s.vars.size)
        progMax := stepNumber (s.vars.slots * s.vars.size), ret := .done }) hq h (by simp)
    (runStep_esLock h rfl) (Runs.refl _)
  rw [if_neg (by simp)] at r5
  exact ⟨f, r1.trans (r2.trans (r3.trans (r4.trans r5))), fun i p b off hi hp' hb hoff =>
    hf1 i p hi hp' (by simp only; omega) b off hb hoff, hf2⟩

/-! ## The size-1 upgrade (R174) -/

theorem sramAddr_eq (rb off : Nat) : sramAddr rb off = 65536 * rb + off := by
  simp only [sramAddr, Config.bankBytes]; omega

/-- One chunk of RAM bank 0 is read and stored in RAM bank 1. -/
theorem move_run (hq : Quiet s) (h : s.halted = false) (hp : s.pos.label = .upFetch) (hpp : s.pos.p < 32) {x : List Byte}
    {m : Mem} (hx : s.sram.bytes (sramAddr 0 (2048 * s.pos.p)) 2048 = x)
    (hm : s.sram.storeList (sramAddr 1 (2048 * s.pos.p)) x = m) :
    Runs s (if s.pos.p + 1 < 32 then goto .upFetch 0 (s.pos.p + 1) { s with sram := m, xfer := x, ret := .done }
      else goto .upRead 0 0 { s with sram := m, xfer := x, ret := .done }) := by
  have hl : x.length = 2048 := by rw [← hx, Mem.length_bytes]
  have r1 := Runs.cons hq h (by rw [hp]; simp) (runStep_upFetch h hp hpp) (Runs.refl _)
  rw [hx] at r1
  have r2 := Runs.cons (s := goto .upMove 0 s.pos.p { s with xfer := x, ret := .done }) hq h (by simp)
    (runStep_upMove h rfl hpp hl) (Runs.refl _)
  subst hm
  exact r1.trans r2

/-- RAM bank 0 moves to RAM bank 1. -/
theorem moves_run (n : Nat) : ∀ s : State, n = 32 - s.pos.p → Quiet s → s.halted = false →
    s.pos.label = .upFetch → s.pos.p < 32 →
    ∃ m x, Runs s { s with
        pos := { cmd := s.pos.cmd, label := .upRead, i := 0, p := 0 }, sram := m, xfer := x, ret := .done } ∧
      ∀ a, m.get a = if 65536 + 2048 * s.pos.p ≤ a ∧ a < 131072 then s.sram.get (a - 65536) else s.sram.get a := by
  induction n with
  | zero => intro s hn hq h hp hpp; omega
  | succ n ih =>
    intro s hn hq h hp hpp
    have r1 := move_run hq h hp hpp rfl rfl
    have hm : ∀ a, (s.sram.storeList (sramAddr 1 (2048 * s.pos.p))
        (s.sram.bytes (sramAddr 0 (2048 * s.pos.p)) 2048)).get a =
        if 65536 + 2048 * s.pos.p ≤ a ∧ a < 65536 + 2048 * s.pos.p + 2048 then s.sram.get (a - 65536)
        else s.sram.get a := by
      intro a
      rw [Mem.get_storeList, Mem.length_bytes, sramAddr_eq, sramAddr_eq, Nat.mul_one]
      split
      · rw [Mem.getD_bytes _ _ _ _ (by omega)]
        refine congrArg s.sram.get ?_
        omega
      · rfl
    generalize s.sram.storeList (sramAddr 1 (2048 * s.pos.p)) (s.sram.bytes (sramAddr 0 (2048 * s.pos.p)) 2048) = m
      at *
    by_cases hlast : s.pos.p + 1 < 32
    · rw [if_pos hlast] at r1
      obtain ⟨m', x', r2, hm'⟩ := ih (goto .upFetch 0 (s.pos.p + 1) { s with
        xfer := s.sram.bytes (sramAddr 0 (2048 * s.pos.p)) 2048, sram := m, ret := .done })
        (by simp; omega) hq h rfl hlast
      refine ⟨m', x', r1.trans r2, fun a => ?_⟩
      have h3 : m'.get a = if 65536 + 2048 * (s.pos.p + 1) ≤ a ∧ a < 131072 then m.get (a - 65536)
          else m.get a := hm' a
      rw [h3, hm a]
      split_ifs <;> first
        | omega
        | (rw [hm (a - 65536), if_neg (by omega)])
        | rfl
    · rw [if_neg hlast] at r1
      refine ⟨m, _, r1, fun a => ?_⟩
      rw [hm a]
      split_ifs <;> first | omega | rfl

/-- The sibling flash bank is read into one RAM bank. -/
theorem sibling_run (n : Nat) : ∀ s : State, n = 32 - s.pos.p → Quiet s → s.halted = false →
    s.pos.label = .upRead → s.pos.p < 32 →
    bankNumber s.w.legacyLayout s.vars.slot.toNat (siblingSubBank s) < Config.bankLimit →
    ∃ m x, Runs s (upgraded { s with
        pos := { cmd := s.pos.cmd, label := .upStore, i := 0, p := 31 }, sram := m, xfer := x, ret := .done }) ∧
      ∀ a, m.get a =
        if 65536 * (1 - s.vars.offset % 2) + 2048 * s.pos.p ≤ a ∧ a < 65536 * (1 - s.vars.offset % 2) + 65536 then
          s.flash.get (flashAddr 0 s.vars.launch (BitVec.ofNat 8
            (bankNumber s.w.legacyLayout s.vars.slot.toNat (siblingSubBank s))) (a % 65536))
        else s.sram.get a := by
  induction n with
  | zero => intro s hn hq h hp hpp; omega
  | succ n ih =>
    intro s hn hq h hp hpp hb
    have r1 := Runs.cons hq h (by rw [hp]; simp) (runStep_upRead h hp hpp hb) (Runs.refl _)
    generalize hx : s.flash.bytes (flashAddr 0 s.vars.launch
      (BitVec.ofNat 8 (bankNumber s.w.legacyLayout s.vars.slot.toNat (siblingSubBank s)))
      (2048 * s.pos.p)) 2048 = x at r1
    have hlen : x.length = 2048 := by rw [← hx, Mem.length_bytes]
    have r2 := Runs.cons (s := goto .upStore 0 s.pos.p { s with xfer := x, ret := .done }) hq h (by simp)
      (runStep_upStore h rfl hpp hlen) (Runs.refl _)
    have hup : (if upperHalf s = true then 0 else 1) = 1 - s.vars.offset % 2 := by
      unfold upperHalf
      by_cases ho : s.vars.offset % 2 = 1
      · rw [if_pos (by simp [ho])]; omega
      · rw [if_neg (by simpa using ho)]; omega
    have hm : ∀ a, (s.sram.storeList (sramAddr (if upperHalf s = true then 0 else 1) (2048 * s.pos.p)) x).get a =
        if 65536 * (1 - s.vars.offset % 2) + 2048 * s.pos.p ≤ a ∧
            a < 65536 * (1 - s.vars.offset % 2) + 2048 * s.pos.p + 2048 then
          s.flash.get (flashAddr 0 s.vars.launch (BitVec.ofNat 8
            (bankNumber s.w.legacyLayout s.vars.slot.toNat (siblingSubBank s))) (a % 65536))
        else s.sram.get a := by
      intro a
      rw [hup, Mem.get_storeList, hlen, sramAddr_eq]
      split
      · have hoff : a % 65536 = 2048 * s.pos.p + (a - (65536 * (1 - s.vars.offset % 2) + 2048 * s.pos.p)) := by
          omega
        rw [hoff, ← hx, Mem.getD_bytes _ _ _ _ (by omega), flashAddr_add]
      · rfl
    have hr12 := r1.trans r2
    change Runs s (if s.pos.p + 1 < 32 then goto .upRead 0 (s.pos.p + 1)
        { goto .upStore 0 s.pos.p { s with xfer := x, ret := .done } with
          sram := s.sram.storeList (sramAddr (if upperHalf s = true then 0 else 1) (2048 * s.pos.p)) x, ret := .done }
        else upgraded { goto .upStore 0 s.pos.p { s with xfer := x, ret := .done } with
          sram := s.sram.storeList (sramAddr (if upperHalf s = true then 0 else 1) (2048 * s.pos.p)) x
          ret := .done }) at hr12
    generalize s.sram.storeList (sramAddr (if upperHalf s = true then 0 else 1) (2048 * s.pos.p)) x = m at *
    by_cases hlast : s.pos.p + 1 < 32
    · rw [if_pos hlast] at hr12
      obtain ⟨m', x', r3, hm'⟩ := ih (goto .upRead 0 (s.pos.p + 1)
        { goto .upStore 0 s.pos.p { s with xfer := x, ret := .done } with sram := m, ret := .done })
        (by simp; omega) hq h rfl hlast hb
      refine ⟨m', x', hr12.trans r3, fun a => ?_⟩
      have h3 : m'.get a =
        if 65536 * (1 - s.vars.offset % 2) + 2048 * (s.pos.p + 1) ≤ a ∧
            a < 65536 * (1 - s.vars.offset % 2) + 65536 then
          s.flash.get (flashAddr 0 s.vars.launch (BitVec.ofNat 8
            (bankNumber s.w.legacyLayout s.vars.slot.toNat (siblingSubBank s))) (a % 65536))
        else m.get a := hm' a
      rw [h3, hm a]
      split_ifs <;> first | rfl | omega
    · rw [if_neg hlast] at hr12
      have hp31 : s.pos.p = 31 := by omega
      refine ⟨m, x, ?_, fun a => ?_⟩
      · rw [← hp31]; exact hr12
      · rw [hm a]
        split_ifs <;> first | rfl | omega

theorem upgraded_eq (s : State) :
    upgraded s = goto .pgLaunch 0 0
      { s with vars := { s.vars with offset := s.vars.offset - s.vars.offset % 2, size := 2 } } := by
  have ho : (if upperHalf s = true then s.vars.offset - 1 else s.vars.offset)
      = s.vars.offset - s.vars.offset % 2 := by
    unfold upperHalf
    by_cases h : s.vars.offset % 2 = 1
    · rw [if_pos (by simp [h]), h]
    · rw [if_neg (by simpa using h)]; omega
  unfold upgraded
  rw [ho]
  have he : oddGeometry (s.vars.offset - s.vars.offset % 2) 2 = false := by
    have : (s.vars.offset - s.vars.offset % 2) % 2 = 0 := by omega
    simp [oddGeometry, this]
  simp only [enterProgram, he, Bool.false_eq_true, if_false]

/-- The whole upgrade (R174): the live bank and its sibling are both in RAM, in sub-bank order, and the region is the
even pair. -/
theorem upgrade_run (hq : Quiet s) (h : s.halted = false) (hp : s.pos.label = .upLaunch)
    (hslot : s.vars.slot.toNat < 15) (ho : s.vars.offset < 8) :
    ∃ m x, Runs s (goto .pgLaunch 0 0 { s with
        vars := { s.vars with
          launch := s.launchSlot, offset := s.vars.offset - s.vars.offset % 2, size := 2 }
        sram := m, xfer := x, ret := .done }) ∧
      (∀ off < 65536, m.get (sramAddr (s.vars.offset % 2) off) = s.sram.get (sramAddr 0 off)) ∧
      (∀ off < 65536, m.get (sramAddr (1 - s.vars.offset % 2) off) =
        s.flash.get (s.saveAddr s.vars.slot (s.vars.offset - s.vars.offset % 2 + (1 - s.vars.offset % 2)) off)) ∧
      ∀ a, 131072 ≤ a → m.get a = s.sram.get a := by
  have r1 := Runs.cons hq h (by rw [hp]; simp) (runStep_upLaunch h hp) (Runs.refl _)
  have hcases : s.vars.offset % 2 = 0 ∨ s.vars.offset % 2 = 1 := by omega
  rcases hcases with hpar | hpar
  · have hu : upperHalf s = false := by simp [upperHalf, hpar]
    rw [if_neg (by rw [hu]; simp)] at r1
    have hsib : siblingSubBank s = s.vars.offset + 1 := by simp [siblingSubBank, hu]
    obtain ⟨m, x, r2, hm⟩ := sibling_run _ (goto .upRead 0 0 (takeLaunch { s with ret := .byte s.launchSlot })) rfl hq
      h rfl (by simp) (by show bankNumber _ _ (siblingSubBank s) < _; rw [hsib]; exact bankNumber_lt hslot (by omega))
    refine ⟨m, x, r1.trans ?_, ?_, ?_, ?_⟩
    · rw [upgraded_eq] at r2
      exact r2
    · intro off hoff
      refine (hm _).trans ?_
      rw [if_neg]
      · rw [hpar]; rfl
      · simp only [goto_vars, takeLaunch_vars, goto_pos, hpar, sramAddr_eq]; omega
    · intro off hoff
      refine (hm _).trans ?_
      rw [if_pos]
      · rw [hpar, sramAddr_eq, show (65536 * (1 - 0) + off) % 65536 = off by omega]
        show s.flash.get (flashAddr 0 s.launchSlot (BitVec.ofNat 8
          (bankNumber s.w.legacyLayout s.vars.slot.toNat (siblingSubBank s))) off) = _
        rw [hsib]; rfl
      · simp only [goto_vars, takeLaunch_vars, goto_pos, hpar, sramAddr_eq]; omega
    · intro a ha
      refine (hm a).trans ?_
      rw [if_neg]
      · rfl
      · simp only [goto_vars, takeLaunch_vars, goto_pos, hpar]; omega
  · have hu : upperHalf s = true := by simp [upperHalf, hpar]
    rw [if_pos hu] at r1
    have hsib : siblingSubBank s = s.vars.offset - 1 := by simp [siblingSubBank, hu]
    obtain ⟨m1, x1, r2, hm1⟩ := moves_run _ (goto .upFetch 0 0 (takeLaunch { s with ret := .byte s.launchSlot })) rfl hq
      h rfl (by simp)
    obtain ⟨m, x, r3, hm⟩ := sibling_run _ { (goto .upFetch 0 0 (takeLaunch { s with ret := .byte s.launchSlot })) with
        pos := { cmd := (goto .upFetch 0 0 (takeLaunch { s with ret := .byte s.launchSlot })).pos.cmd
                 label := .upRead, i := 0, p := 0 }
        sram := m1, xfer := x1, ret := .done } rfl hq
      h rfl (by simp) (by show bankNumber _ _ (siblingSubBank s) < _; rw [hsib]; exact bankNumber_lt hslot (by omega))
    refine ⟨m, x, r1.trans (r2.trans ?_), ?_, ?_, ?_⟩
    · rw [upgraded_eq] at r3
      exact r3
    · intro off hoff
      refine (hm _).trans ?_
      rw [if_neg]
      · refine (hm1 _).trans ?_
        rw [hpar, if_pos, sramAddr_eq, show 65536 * 1 + off - 65536 = off by omega, sramAddr_eq,
          show 65536 * 0 + off = off by omega]
        · rfl
        · simp only [goto_pos, sramAddr_eq]; omega
      · simp only [goto_vars, takeLaunch_vars, hpar, sramAddr_eq]; omega
    · intro off hoff
      refine (hm _).trans ?_
      rw [if_pos]
      · rw [hpar, sramAddr_eq, show (65536 * (1 - 1) + off) % 65536 = off by omega]
        show s.flash.get (flashAddr 0 s.launchSlot (BitVec.ofNat 8
          (bankNumber s.w.legacyLayout s.vars.slot.toNat (siblingSubBank s))) off) = _
        rw [hsib]; rfl
      · simp only [goto_vars, takeLaunch_vars, hpar, sramAddr_eq]; omega
    · intro a ha
      refine (hm a).trans ?_
      rw [if_neg]
      · refine (hm1 a).trans ?_
        rw [if_neg]
        · rfl
        · omega
      · simp only [goto_vars, takeLaunch_vars, hpar]; omega

end Sys2Proof.Machine
end

