-- ==== Sys2Proof/Laws/Transfer.lean ====
section
/-! SUPPORT. The runs of the transfer commands: one unit of the receive side from the priming byte on, one transmission
of the send side. -/

namespace Sys2Proof.Machine

variable {s t u : State}

theorem checksum8_append (xs : List Byte) (b : Byte) : checksum8 (xs ++ [b]) = checksum8 xs + b := by
  simp [checksum8]

theorem checksum8_eq (data : List Byte) : checksum8 data = sum8 data := by
  induction data using List.reverseRecOn with
  | nil => rfl
  | append_singleton xs b ih =>
    rw [checksum8_append, ih, sum8, sum8]
    apply BitVec.eq_of_toNat_eq
    simp

theorem complement8_eq (v : Byte) : complement8 v = 255 - v := by revert v; decide

theorem wireFrame_eq (seq : Byte) (data : Vector Byte 128) : wireFrame seq data = goodFrame seq data.toList := by
  simp [wireFrame, goodFrame, frameTail, checksum8_eq, complement8_eq, Config.SOH]

theorem primingByte_zero : primingByte 0 = Config.ACK := rfl

/-! ## Receive -/

/-- From the priming byte to the test of the leading byte, with the cancel key up (R203). -/
theorem prime_run (hq : Quiet s) (h : s.halted = false) (hp : s.pos.label = .rcPrime) (hc : s.cancelKey = false)
    {c : Byte} {rest : List Byte} (hr : s.rxq = c :: rest) :
    Runs s (recvLeading c { s with
      txlog := s.txlog ++ [primingByte s.xmRetry], irqMask := true, rxq := rest, ret := .byte c
      pos := { cmd := s.pos.cmd, label := .rcGet, i := 0, p := 0 } }) := by
  refine Runs.cons hq h (by rw [hp]; simp) (runStep_rcPrime h hp) ?_
  refine Runs.cons hq h (by simp) (runStep_rcMask h rfl) ?_
  refine Runs.cons hq h (by simp) (runStep_rcPoll h rfl) ?_
  rw [if_neg (by simp [hc])]
  exact Runs.cons hq h (by simp) (runStep_rcGet (by exact h) rfl (c := c) (rest := rest) (by exact hr)) (Runs.refl _)

/-- With the cancel key down when the loop polls, the session ends (R203, R209). -/
theorem self_run (hq : Quiet s) (h : s.halted = false) (hp : s.pos.label = .rcPrime) (hc : s.cancelKey = true) :
    Runs s (recvEnd .selfCancel { s with
      txlog := s.txlog ++ [primingByte s.xmRetry], irqMask := false, ret := .done
      pos := { cmd := s.pos.cmd, label := .rcSelf, i := 0, p := 0 } }) := by
  refine Runs.cons hq h (by rw [hp]; simp) (runStep_rcPrime h hp) ?_
  refine Runs.cons hq h (by simp) (runStep_rcMask h rfl) ?_
  refine Runs.cons hq h (by simp) (runStep_rcPoll h rfl) ?_
  rw [if_pos (by simp [hc])]
  exact Runs.cons hq h (by simp) (runStep_rcSelf h rfl) (Runs.refl _)

/-- `CAN` as leading byte (R203). -/
theorem can_run (hq : Quiet s) (h : s.halted = false) (hp : s.pos.label = .rcPrime) (hc : s.cancelKey = false)
    {rest : List Byte} (hr : s.rxq = Config.CAN :: rest) :
    Runs s (recvEnd .cancel { s with
      txlog := s.txlog ++ [primingByte s.xmRetry], irqMask := false, rxq := rest, ret := .done
      pos := { cmd := s.pos.cmd, label := .rcCancel, i := 0, p := 0 } }) := by
  refine (prime_run hq h hp hc hr).trans ?_
  rw [recvLeading, if_pos rfl]
  exact Runs.cons hq h (by simp) (runStep_rcCancel h rfl) (Runs.refl _)

/-- `EOT` as leading byte (R203, R212). -/
theorem eot_run (hq : Quiet s) (h : s.halted = false) (hp : s.pos.label = .rcPrime) (hc : s.cancelKey = false)
    {rest : List Byte} (hr : s.rxq = Config.EOT :: rest) :
    Runs s (recvEnd .complete { s with
      txlog := s.txlog ++ [primingByte s.xmRetry] ++ [Config.ACK], irqMask := false, rxq := rest, ret := .done
      pos := { cmd := s.pos.cmd, label := .rcEotAck, i := 0, p := 0 } }) := by
  refine (prime_run hq h hp hc hr).trans ?_
  rw [recvLeading, if_neg (by decide), if_pos rfl]
  refine Runs.cons hq h (by simp) (runStep_rcEot h rfl) ?_
  exact Runs.cons hq h (by simp) (runStep_rcEotAck h rfl) (Runs.refl _)

/-- From the priming byte to the header test (R203, R204). -/
theorem header_run (hq : Quiet s) (h : s.halted = false) (hp : s.pos.label = .rcPrime) (hc : s.cancelKey = false)
    {seq nseq : Byte} {rest : List Byte} (hr : s.rxq = Config.SOH :: seq :: nseq :: rest) :
    Runs s (headerRead nseq { s with
      txlog := s.txlog ++ [primingByte s.xmRetry], irqMask := true, rxq := rest, ret := .byte nseq
      vars := { s.vars with seqByte := seq }
      pos := { cmd := s.pos.cmd, label := .rcNseq, i := 0, p := 0 } }) := by
  refine (prime_run hq h hp hc hr).trans ?_
  rw [recvLeading, if_neg (by decide), if_neg (by decide), if_pos rfl]
  refine Runs.cons hq h (by simp) (runStep_rcSeq (by exact h) rfl (c := seq) (rest := nseq :: rest) rfl) ?_
  exact Runs.cons hq h (by simp) (runStep_rcNseq (by exact h) rfl (c := nseq) (rest := rest) rfl) (Runs.refl _)

/-- A header that does not match (R204). -/
theorem badHeader_run (hq : Quiet s) (h : s.halted = false) (hp : s.pos.label = .rcPrime)
    (hc : s.cancelKey = false) {seq nseq : Byte} {rest : List Byte}
    (hr : s.rxq = Config.SOH :: seq :: nseq :: rest) (hbad : headerOk s.xmSeq seq nseq = false) :
    Runs s (recvEnd .cancel { s with
      txlog := s.txlog ++ [primingByte s.xmRetry], irqMask := false, rxq := rest, ret := .done
      vars := { s.vars with seqByte := seq }
      pos := { cmd := s.pos.cmd, label := .rcCancel, i := 0, p := 0 } }) := by
  refine (header_run hq h hp hc hr).trans ?_
  rw [headerRead, if_neg (by simpa using hbad)]
  exact Runs.cons hq h (by simp) (runStep_rcCancel h rfl) (Runs.refl _)

theorem dataRead_more {b : Byte} (h : s.pos.p + 1 < 128) :
    dataRead b s = goto .rcData 0 (s.pos.p + 1) { s with
      blockbuf := s.blockbuf.setIfInBounds s.pos.p b, vars := { s.vars with sum := s.vars.sum + b } } := if_pos h

theorem dataRead_last {b : Byte} (h : ¬ s.pos.p + 1 < 128) :
    dataRead b s = goto .rcCheck 0 0 { s with
      blockbuf := s.blockbuf.setIfInBounds s.pos.p b, vars := { s.vars with sum := s.vars.sum + b } } := if_neg h

/-- The data bytes of a frame (R203, R205). -/
theorem data_run (data : Vector Byte 128) (rest : List Byte) (n : Nat) : ∀ s : State, n + s.pos.p = 128 →
    Quiet s → s.halted = false → s.pos.label = .rcData → s.pos.p < 128 →
    (∀ k (hk : k < 128), k < s.pos.p → s.blockbuf[k] = data[k]) →
    s.vars.sum = checksum8 (data.toList.take s.pos.p) → s.rxq = data.toList.drop s.pos.p ++ rest →
    ∃ r, Runs s { s with
      pos := { cmd := s.pos.cmd, label := .rcCheck, i := 0, p := 0 }, rxq := rest, blockbuf := data
      vars := { s.vars with sum := checksum8 data.toList }, ret := r } := by
  induction n with
  | zero => intro s hn hq h hp hpp; omega
  | succ n ih =>
    intro s hn hq h hp hpp hb hs hr
    have hlen : data.toList.length = 128 := by simp
    have hget : data.toList.drop s.pos.p = data[s.pos.p] :: data.toList.drop (s.pos.p + 1) := by
      rw [List.drop_eq_getElem_cons (by omega)]
      simp
    have htake : data.toList.take (s.pos.p + 1) = data.toList.take s.pos.p ++ [data[s.pos.p]] := by
      rw [List.take_succ_eq_append_getElem (by omega)]
      simp
    rw [hget, List.cons_append] at hr
    have r1 := Runs.cons hq h (by rw [hp]; simp) (runStep_rcData h hp hr) (Runs.refl _)
    have hb' : ∀ k (hk : k < 128), k < s.pos.p + 1 → (s.blockbuf.setIfInBounds s.pos.p data[s.pos.p])[k] = data[k] := by
      intro k hk hlt
      rw [Vector.getElem_setIfInBounds]
      split
      · rename_i he; simp [he]
      · exact hb k hk (by omega)
    have hsum : s.vars.sum + data[s.pos.p] = checksum8 (data.toList.take (s.pos.p + 1)) := by
      rw [htake, checksum8_append, hs]
    by_cases hlast : s.pos.p + 1 < 128
    · rw [dataRead_more (by exact hlast)] at r1
      obtain ⟨r, r2⟩ := ih (goto .rcData 0 (s.pos.p + 1) { s with
        rxq := data.toList.drop (s.pos.p + 1) ++ rest, ret := .byte data[s.pos.p]
        blockbuf := s.blockbuf.setIfInBounds s.pos.p data[s.pos.p]
        vars := { s.vars with sum := s.vars.sum + data[s.pos.p] } })
        (by simp; omega) hq h rfl hlast hb' hsum rfl
      exact ⟨r, r1.trans r2⟩
    · rw [dataRead_last (by exact hlast)] at r1
      have hp1 : s.pos.p + 1 = 128 := by omega
      have hall : s.blockbuf.setIfInBounds s.pos.p data[s.pos.p] = data := by
        apply Vector.ext
        intro k hk
        exact hb' k hk (by omega)
      rw [hp1, List.take_of_length_le (by omega)] at hsum
      have hdrop : data.toList.drop (s.pos.p + 1) = [] := by rw [hp1]; simp
      rw [hall, hsum, hdrop, List.nil_append] at r1
      exact ⟨_, r1⟩

/-- From the priming byte to the checksum test of a frame whose header matches (R203, R205). -/
theorem frame_run (hq : Quiet s) (h : s.halted = false) (hp : s.pos.label = .rcPrime) (hc : s.cancelKey = false)
    (data : Vector Byte 128) (ck : Byte) {rest : List Byte}
    (hr : s.rxq = Config.SOH :: frameTail s.xmSeq (complement8 s.xmSeq) data.toList ck ++ rest) :
    Runs s (checksumRead ck { s with
      txlog := s.txlog ++ [primingByte s.xmRetry], irqMask := true, rxq := rest, blockbuf := data, ret := .byte ck
      vars := { s.vars with seqByte := s.xmSeq, sum := checksum8 data.toList }
      pos := { cmd := s.pos.cmd, label := .rcCheck, i := 0, p := 0 } }) := by
  have hr' : s.rxq = Config.SOH :: s.xmSeq :: complement8 s.xmSeq :: (data.toList ++ (ck :: rest)) := by
    rw [hr]; simp [frameTail]
  refine (header_run hq h hp hc hr').trans ?_
  rw [headerRead, if_pos (by simp [headerOk])]
  obtain ⟨r, r1⟩ := data_run data (ck :: rest) 128 (goto .rcData 0 0 { s with
      txlog := s.txlog ++ [primingByte s.xmRetry], irqMask := true, rxq := data.toList ++ (ck :: rest)
      ret := .byte (complement8 s.xmSeq), vars := { s.vars with seqByte := s.xmSeq, sum := 0 } })
    (by simp) hq h rfl (by simp) (by intro k hk hlt; simp at hlt) (by simp [checksum8]) (by simp)
  refine r1.trans ?_
  exact Runs.cons hq h (by simp) (runStep_rcCheck (by exact h) rfl (c := ck) (rest := rest) rfl) (Runs.refl _)

/-- A good frame is accepted (R203, R205). -/
theorem good_run (hq : Quiet s) (h : s.halted = false) (hp : s.pos.label = .rcPrime) (hc : s.cancelKey = false)
    (data : Vector Byte 128) {rest : List Byte} (hr : s.rxq = goodFrame s.xmSeq data.toList ++ rest) :
    Runs s { s with
      txlog := s.txlog ++ [primingByte s.xmRetry], irqMask := true, rxq := rest, blockbuf := data
      ret := .byte (checksum8 data.toList), xmSeq := s.xmSeq + 1, xmRetry := 0
      vars := { s.vars with seqByte := s.xmSeq, sum := checksum8 data.toList }
      pos := { cmd := s.pos.cmd, label := .rcGood, i := 0, p := 0 } } := by
  refine (frame_run hq h hp hc data (checksum8 data.toList) hr).trans ?_
  rw [checksumRead, if_pos rfl]
  exact Runs.refl _

/-- A bad unit costs one retry (R207, R212). -/
theorem bad_run (hq : Quiet s) (h : s.halted = false) (hp : s.pos.label = .rcPrime) (hc : s.cancelKey = false)
    {unit rest : List Byte} (hu : BadUnit s.xmSeq unit) (hr : s.rxq = unit ++ rest) :
    ∃ bb v, Runs s (badUnit { s with
      txlog := s.txlog ++ [primingByte s.xmRetry], irqMask := false, rxq := rest, blockbuf := bb, ret := .done
      vars := v, pos := { cmd := s.pos.cmd, label := .rcBad, i := 0, p := 0 } }) := by
  rcases hu with ⟨c, h1, h2, h3, rfl⟩ | ⟨data, ck, hck, rfl⟩
  · refine ⟨s.blockbuf, s.vars, (prime_run hq h hp hc hr).trans ?_⟩
    rw [recvLeading, if_neg (by exact h3), if_neg (by exact h2), if_neg (by exact h1)]
    exact Runs.cons hq h (by simp) (runStep_rcBad h rfl) (Runs.refl _)
  · refine ⟨data, { s.vars with seqByte := s.xmSeq, sum := checksum8 data.toList },
      (frame_run hq h hp hc data ck (rest := rest) (by rw [hr, ← complement8_eq]; simp [frameTail, Config.SOH])).trans ?_⟩
    rw [checksumRead, if_neg (fun he => hck ((checksum8_eq _).symm.trans he).symm)]
    exact Runs.cons hq h (by simp) (runStep_rcBad h rfl) (Runs.refl _)

/-- Bad units one after the other, as long as the session lasts: each costs one retry and, after the first, one `NAK`
(R207). -/
theorem badUnits_run (units : List (List Byte)) : ∀ (s : State) (unit rest : List Byte), Quiet s →
    s.halted = false → s.pos.label = .rcPrime → s.cancelKey = false → (∀ x ∈ unit :: units, BadUnit s.xmSeq x) →
    s.rxq = (unit :: units).flatten ++ rest → s.xmRetry.toNat + units.length < 10 →
    ∃ bb v, Runs s { s with
      pos := { cmd := s.pos.cmd, label := .rcPrime, i := 0, p := 0 }
      txlog := s.txlog ++ primingByte s.xmRetry :: List.replicate units.length Config.NAK
      rxq := rest, blockbuf := bb, vars := v, ret := .done, irqMask := false
      xmRetry := BitVec.ofNat 8 (s.xmRetry.toNat + units.length + 1) } := by
  induction units with
  | nil =>
    intro s unit rest hq h hp hc hu hr hn
    obtain ⟨bb, v, r⟩ := bad_run hq h hp hc (hu unit (by simp)) (rest := rest) (by simpa using hr)
    rw [badUnit, if_neg (by simp [Config.xmMaxRetry] at hn ⊢; omega)] at r
    exact ⟨bb, v, r⟩
  | cons u us ih =>
    intro s unit rest hq h hp hc hu hr hn
    obtain ⟨bb, v, r⟩ := bad_run hq h hp hc (hu unit (by simp)) (rest := (u :: us).flatten ++ rest)
      (by simpa using hr)
    simp only [List.length_cons] at hn
    rw [badUnit, if_neg (by simp [Config.xmMaxRetry] at hn ⊢; omega)] at r
    obtain ⟨bb', v', r'⟩ := ih (goto .rcPrime 0 0 { s with
      txlog := s.txlog ++ [primingByte s.xmRetry], irqMask := false, rxq := (u :: us).flatten ++ rest, blockbuf := bb
      ret := .done, vars := v, xmRetry := BitVec.ofNat 8 (s.xmRetry.toNat + 1) }) u rest hq h rfl hc
      (fun x hx => hu x (by simp at hx ⊢; right; exact hx)) rfl
      (by show (BitVec.ofNat 8 (s.xmRetry.toNat + 1)).toNat + us.length < 10; rw [BitVec.toNat_ofNat]; omega)
    refine ⟨bb', v', r.trans ?_⟩
    have e1 : (BitVec.ofNat 8 (s.xmRetry.toNat + 1)).toNat = s.xmRetry.toNat + 1 := by rw [BitVec.toNat_ofNat]; omega
    have e2 : primingByte (BitVec.ofNat 8 (s.xmRetry.toNat + 1)) = Config.NAK := by
      rw [primingByte, if_neg]; intro he; rw [he] at e1; simp at e1
    simp only [goto_xmRetry, goto_txlog, goto_pos, e1, e2, List.append_assoc, List.singleton_append] at r'
    rw [List.length_cons, List.replicate_succ,
      show s.xmRetry.toNat + (us.length + 1) + 1 = s.xmRetry.toNat + 1 + us.length + 1 by omega]
    exact r'
/-! ## Send -/

/-- The data bytes of a transmission and its checksum (R231). -/
theorem sendData_run (n : Nat) : ∀ s : State, n + s.pos.p = 128 → Quiet s → s.halted = false →
    s.pos.label = .sdData → s.pos.p < 128 → s.vars.sum = checksum8 (s.blockbuf.toList.take s.pos.p) →
    Runs s (sendWait { s with
      pos := { cmd := s.pos.cmd, label := .sdSum, i := 0, p := 0 }
      txlog := s.txlog ++ (s.blockbuf.toList.drop s.pos.p ++ [checksum8 s.blockbuf.toList])
      vars := { s.vars with sum := checksum8 s.blockbuf.toList }, ret := .done }) := by
  induction n with
  | zero => intro s hn hq h hp hpp; omega
  | succ n ih =>
    intro s hn hq h hp hpp hs
    have hlen : s.blockbuf.toList.length = 128 := by simp
    have hg : s.blockbuf.toList.getD s.pos.p 0 = s.blockbuf.toList[s.pos.p] :=
      List.getD_eq_getElem _ _ (by omega)
    have hget : s.blockbuf.toList.drop s.pos.p =
        s.blockbuf.toList[s.pos.p] :: s.blockbuf.toList.drop (s.pos.p + 1) := List.drop_eq_getElem_cons (by omega)
    have hsum : s.vars.sum + s.blockbuf.toList[s.pos.p] = checksum8 (s.blockbuf.toList.take (s.pos.p + 1)) := by
      rw [List.take_succ_eq_append_getElem (by omega), checksum8_append, hs]
    have r1 := Runs.cons hq h (by rw [hp]; simp) (runStep_sdData h hp) (Runs.refl _)
    rw [hg, hsum] at r1
    rw [hget]
    by_cases hlast : s.pos.p + 1 < 128
    · rw [if_pos hlast, if_pos hlast] at r1
      have r2 := ih (goto .sdData 0 (s.pos.p + 1) { s with
        txlog := s.txlog ++ [s.blockbuf.toList[s.pos.p]], ret := .done
        vars := { s.vars with sum := checksum8 (s.blockbuf.toList.take (s.pos.p + 1)) } })
        (by simp; omega) hq h rfl hlast rfl
      refine r1.trans ?_
      simp only [goto_txlog, goto_blockbuf, goto_pos, List.append_assoc, List.singleton_append] at r2
      exact r2
    · rw [if_neg hlast, if_neg hlast] at r1
      have hp1 : s.pos.p + 1 = 128 := by omega
      rw [hp1, List.take_of_length_le (by omega)] at r1
      have r2 := Runs.cons (s := goto .sdSum 0 0 { s with
        txlog := s.txlog ++ [s.blockbuf.toList[s.pos.p]], ret := .done
        vars := { s.vars with sum := checksum8 s.blockbuf.toList } }) hq h (by simp) (runStep_sdSum h rfl)
        (Runs.refl _)
      refine r1.trans ?_
      have hdrop : s.blockbuf.toList.drop (s.pos.p + 1) = [] := by rw [hp1]; simp
      rw [hdrop]
      simp only [goto_txlog, goto_vars, List.append_assoc, List.singleton_append] at r2
      exact r2

/-- One transmission of a block: the good frame of `XM_SEQ` and `BLOCKBUF` goes out, whole (R231, R108). -/
theorem transmit_run (hq : Quiet s) (h : s.halted = false) (hp : s.pos.label = .sdSoh) :
    Runs s (sendWait { s with
      pos := { cmd := s.pos.cmd, label := .sdSum, i := 0, p := 0 }
      txlog := s.txlog ++ goodFrame s.xmSeq s.blockbuf.toList
      vars := { s.vars with sum := checksum8 s.blockbuf.toList }, ret := .done }) := by
  refine Runs.cons hq h (by rw [hp]; simp) (runStep_sdSoh h hp) ?_
  refine Runs.cons hq h (by simp) (runStep_sdSeq h rfl) ?_
  refine Runs.cons hq h (by simp) (runStep_sdNseq h rfl) ?_
  have r1 := sendData_run 128 (goto .sdData 0 0 { s with
      txlog := s.txlog ++ [Config.SOH] ++ [s.xmSeq] ++ [complement8 s.xmSeq], ret := .done
      vars := { s.vars with sum := 0 } }) (by simp) hq h rfl (by simp) (by simp [checksum8])
  simp only [goto_txlog, goto_blockbuf, goto_pos, List.append_assoc, List.drop_zero] at r1
  have hf : goodFrame s.xmSeq s.blockbuf.toList = [Config.SOH] ++ ([s.xmSeq] ++ ([complement8 s.xmSeq] ++
      (s.blockbuf.toList ++ [checksum8 s.blockbuf.toList]))) := by simp [goodFrame, frameTail]
  rw [hf]
  simp only [goto_txlog, List.append_assoc]
  exact r1

/-- One transmission of `EOT` (R232). -/
theorem transmitEot_run (hq : Quiet s) (h : s.halted = false) (hp : s.pos.label = .sdEot) :
    Runs s (sendWait { s with txlog := s.txlog ++ [Config.EOT], ret := .done }) :=
  Runs.cons hq h (by rw [hp]; simp) (runStep_sdEot h hp) (Runs.refl _)

/-- A byte ends the wait of the send side (R234): with the cancel key up, or in SEND_FINISH whatever the key. -/
theorem reply_run (hq : Quiet s) (h : s.halted = false) (hc : s.pos.cmd = some .sendFinish ∨ s.cancelKey = false)
    {c : Byte} {rest : List Byte} (hr : s.rxq = c :: rest) :
    Runs (sendWait s) (sendReply c { s with
      rxq := rest, ret := .byte c, pos := { cmd := s.pos.cmd, label := .sdGet, i := 0, p := 0 } }) := by
  by_cases hf : s.pos.cmd = some .sendFinish
  · rw [sendWait, if_pos hf]
    exact Runs.cons hq h (by simp) (runStep_sdGet (by exact h) rfl (c := c) (rest := rest) (by exact hr)) (Runs.refl _)
  · rw [sendWait, if_neg hf]
    have hk : s.cancelKey = false := hc.resolve_left hf
    refine Runs.cons hq h (by simp) (runStep_sdPoll h rfl) ?_
    rw [if_neg (by simp [hk])]
    exact Runs.cons hq h (by simp) (runStep_sdGet (by exact h) rfl (c := c) (rest := rest) (by exact hr)) (Runs.refl _)

/-- With the cancel key down, SEND_START and SEND_BLOCK give up where they wait (R230, R231, R234). -/
theorem sendSelf_run (hq : Quiet s) (h : s.halted = false) (hf : s.pos.cmd ≠ some .sendFinish)
    (hc : s.cancelKey = true) :
    Runs (sendWait s) (sendEnd .selfCancel { s with
      ret := .flag true, pos := { cmd := s.pos.cmd, label := .sdPoll, i := 0, p := 0 } }) := by
  rw [sendWait, if_neg hf]
  refine Runs.cons hq h (by simp) (runStep_sdPoll h rfl) ?_
  rw [if_pos (by simp [hc])]
  exact Runs.refl _

/-- What SEND_BLOCK and SEND_FINISH transmit (R231, R232). -/
def sendUnit (s : State) : List Byte :=
  if s.pos.cmd = some .sendFinish then [Config.EOT] else goodFrame s.xmSeq s.blockbuf.toList

/-- One transmission, whichever command makes it (R231, R232). -/
theorem sendTransmit_run (hq : Quiet s) (h : s.halted = false) :
    ∃ v l, Runs (sendTransmit s) (sendWait { s with
      pos := { cmd := s.pos.cmd, label := l, i := 0, p := 0 }, txlog := s.txlog ++ sendUnit s, vars := v
      ret := .done }) := by
  by_cases hf : s.pos.cmd = some .sendFinish
  · refine ⟨s.vars, .sdEot, ?_⟩
    rw [sendTransmit, if_pos hf, sendUnit, if_pos hf]
    exact transmitEot_run (s := goto .sdEot 0 0 s) hq h rfl
  · refine ⟨{ s.vars with sum := checksum8 s.blockbuf.toList }, .sdSum, ?_⟩
    rw [sendTransmit, if_neg hf, sendUnit, if_neg hf]
    exact transmit_run (s := goto .sdSoh 0 0 s) hq h rfl

/-- Each `NAK` of the first nine costs one retry and one more transmission (R231, R232, D25). -/
theorem naks_run (n : Nat) : ∀ (s : State) (rest : List Byte), Quiet s → s.halted = false →
    s.pos.cmd = some .sendFinish ∨ s.pos.cmd = some .sendBlock ∧ s.cancelKey = false →
    s.rxq = List.replicate n Config.NAK ++ rest → s.xmRetry.toNat + n ≤ 9 →
    ∃ v l r, Runs (sendWait s) (sendWait { s with
      pos := { cmd := s.pos.cmd, label := l, i := 0, p := 0 }
      txlog := s.txlog ++ (List.replicate n (sendUnit s)).flatten, rxq := rest
      xmRetry := BitVec.ofNat 8 (s.xmRetry.toNat + n), vars := v, ret := r }) := by
  induction n with
  | zero =>
    intro s rest hq h hc hr hn
    refine ⟨s.vars, s.pos.label, s.ret, ?_⟩
    have hr' : rest = s.rxq := by simpa using hr.symm
    subst hr'
    have he : sendWait { s with pos := { cmd := s.pos.cmd, label := s.pos.label, i := 0, p := 0 } } = sendWait s := by
      simp only [sendWait, goto]
    simp only [List.replicate_zero, List.flatten_nil, List.append_nil, Nat.add_zero, BitVec.ofNat_toNat,
      BitVec.setWidth_eq, he]
    exact Runs.refl _
  | succ n ih =>
    intro s rest hq h hc hr hn
    have hcmd : s.pos.cmd ≠ some .sendStart := by rcases hc with hc | hc <;> simp [hc]
    have r1 := reply_run (s := s) hq h (by rcases hc with hc | hc <;> simp [hc]) (c := Config.NAK)
      (rest := List.replicate n Config.NAK ++ rest) (by rw [hr, List.replicate_succ]; rfl)
    rw [sendReply, if_neg (by decide), if_neg (by exact hcmd), if_pos rfl] at r1
    simp only [sendNak] at r1
    rw [if_neg (by omega)] at r1
    obtain ⟨v, l, r2⟩ := sendTransmit_run (s := { s with
      rxq := List.replicate n Config.NAK ++ rest, ret := .byte Config.NAK
      pos := { cmd := s.pos.cmd, label := .sdGet, i := 0, p := 0 }
      xmRetry := BitVec.ofNat 8 (s.xmRetry.toNat + 1) }) hq h
    have e1 : (BitVec.ofNat 8 (s.xmRetry.toNat + 1)).toNat = s.xmRetry.toNat + 1 := by rw [BitVec.toNat_ofNat]; omega
    obtain ⟨v', l', r', r3⟩ := ih { s with
      rxq := List.replicate n Config.NAK ++ rest, ret := .done, txlog := s.txlog ++ sendUnit s, vars := v
      pos := { cmd := s.pos.cmd, label := l, i := 0, p := 0 }
      xmRetry := BitVec.ofNat 8 (s.xmRetry.toNat + 1) } rest hq h hc rfl (by simp only [e1]; omega)
    refine ⟨v', l', r', (r1.trans (r2.trans r3)).trans ?_⟩
    simp only [e1, List.append_assoc]
    rw [List.replicate_succ, List.flatten_cons, show s.xmRetry.toNat + (n + 1) = s.xmRetry.toNat + 1 + n by omega]
    exact Runs.refl _

end Sys2Proof.Machine
end

