-- ==== Sys2Proof/Laws/Install.lean ====
section
/-! SUPPORT. The loops of the firmware commands. -/

namespace Sys2Proof.Machine

variable {s t u : State}

/-! ## FLASH_IMAGE -/

/-- The address in flash of an offset of the image's bank (R256). -/
abbrev imageAddr (s : State) (off : Nat) : Nat := flashAddr 0 s.vars.launch s.par.biosBank off

/-- Page `p` of the image programs as asked: no cell of the page has a defect that shows (R257, U10). -/
def PageTakes (s : State) (p : Nat) : Prop :=
  ∀ k < 256, ∀ v, findCell s.defects (imageAddr s (256 * p + k)) = some v → v = s.stg.get (256 * p + k)

/-- A page of FLASH_IMAGE up to its read-back, on an erased page (R256). -/
theorem imageWrite_run (hq : Quiet s) (h : s.halted = false) (hp : s.pos.label = .fiLoad) (_hi : s.pos.i = 0)
    (hpp : s.pos.p < 256) (hk : s.lockDepth ≠ 0) (hst : ∀ a < 65536, s.stg.known a = true)
    (he : ∀ k < 256, s.flash.get (imageAddr s (256 * s.pos.p + k)) = Config.erased) :
    ∃ f x, Runs s { s with
        pos := { cmd := s.pos.cmd, label := .fiRead, i := 0, p := s.pos.p }, flash := f
        pagebuf := pageOf s.stg (256 * s.pos.p), ret := .done, xfer := x } ∧
      (∀ k < 256, f.get (imageAddr s (256 * s.pos.p + k)) =
        (findCell s.defects (imageAddr s (256 * s.pos.p + k))).getD (s.stg.get (256 * s.pos.p + k))) ∧
      ∀ a, (∀ k < 256, a ≠ imageAddr s (256 * s.pos.p + k)) → f.get a = s.flash.get a := by
  have r1 := Runs.cons hq h (by rw [hp]; simp) (runStep_fiLoad h hp hpp hst) (Runs.refl _)
  have r2 := Runs.cons (s := goto .fiWrite 0 s.pos.p { s with
      xfer := s.stg.bytes (256 * s.pos.p) 256, pagebuf := pageOf s.stg (256 * s.pos.p), ret := .done }) hq h (by simp)
    (runStep_fiWrite h rfl hpp hk) (Runs.refl _)
  refine ⟨programFlash s.defects (imageAddr s (256 * s.pos.p)) (pageOf s.stg (256 * s.pos.p)).toList s.flash, _,
    r1.trans r2, ?_, ?_⟩
  · intro k hk'
    have ha := flashAddr_add 0 s.vars.launch s.par.biosBank (256 * s.pos.p) k
    rw [get_programFlash, pageOf_length]
    have he' := he k hk'
    simp only [imageAddr] at he' ⊢
    rw [if_pos (by omega), programmed, he', ha, Nat.add_sub_cancel_left, pageOf_toList_getD hk']
    exact congrArg _ BitVec.allOnes_and
  · intro a ha
    rw [get_programFlash, pageOf_length, if_neg]
    rintro ⟨h1, h2⟩
    refine ha (a - imageAddr s (256 * s.pos.p)) (by omega) ?_
    have := flashAddr_add 0 s.vars.launch s.par.biosBank (256 * s.pos.p) (a - imageAddr s (256 * s.pos.p))
    simp only [imageAddr] at this h1 h2 ⊢
    omega

theorem imagePage_eq {f : Mem} {p : Nat} (hf : ∀ k < 256, f.get (imageAddr s (256 * p + k)) =
    (findCell s.defects (imageAddr s (256 * p + k))).getD (s.stg.get (256 * p + k))) :
    pageOf f (imageAddr s (256 * p)) = pageOf s.stg (256 * p) ↔ PageTakes s p := by
  rw [pageOf_eq_iff]
  constructor
  · intro h k hk v hv
    have h1 := hf k hk
    rw [hv, Option.getD_some] at h1
    rw [← h1, ← h k hk]
    exact congrArg f.get (flashAddr_add ..)
  · intro h k hk
    have h1 := hf k hk
    have ha : imageAddr s (256 * p) + k = imageAddr s (256 * p + k) := (flashAddr_add ..).symm
    rw [ha, h1]
    cases hv : findCell s.defects (imageAddr s (256 * p + k)) with
    | none => rfl
    | some v => exact h k hk v hv

/-- The pages of FLASH_IMAGE from one page to another, when each of them programs as asked (R256). -/
theorem imagePages_run (q : Nat) (hq256 : q ≤ 256) (n : Nat) : ∀ s : State, s.pos.p + n = q → 0 < n → Quiet s →
    s.halted = false → s.pos.label = .fiLoad → s.pos.i = 0 → s.lockDepth ≠ 0 →
    (∀ a < 65536, s.stg.known a = true) → (∀ p, s.pos.p ≤ p → p < q → PageTakes s p) →
    (∀ off, 256 * s.pos.p ≤ off → off < 65536 → s.flash.get (imageAddr s off) = Config.erased) →
    ∃ f pb cb x, Runs s { s with
        pos := { cmd := s.pos.cmd, label := if q < 256 then .fiLoad else .fiLock, i := 0
                 p := if q < 256 then q else 0 }
        flash := f, pagebuf := pb, cmpbuf := cb, progCur := stepNumber q, ret := .done, xfer := x } ∧
      (∀ off < 65536, f.get (imageAddr s off) =
        if 256 * s.pos.p ≤ off ∧ off < 256 * q then s.stg.get off else s.flash.get (imageAddr s off)) ∧
      ∀ a, (∀ off < 65536, a ≠ imageAddr s off) → f.get a = s.flash.get a := by
  induction n with
  | zero => intro s hn h0; omega
  | succ n ih =>
    intro s hn _ hq h hp hi hk hst hg he
    have hpp : s.pos.p < 256 := by omega
    obtain ⟨f, x, r1, hf1, hf2⟩ := imageWrite_run hq h hp hi hpp hk hst
      (fun k hk' => he _ (by omega) (by omega))
    have hpage := (imagePage_eq hf1).2 (hg _ (Nat.le_refl _) (by omega))
    have r2 := Runs.cons (s := { s with
        pos := { cmd := s.pos.cmd, label := .fiRead, i := 0, p := s.pos.p }, flash := f
        pagebuf := pageOf s.stg (256 * s.pos.p), ret := .done, xfer := x }) hq h (by simp)
      (runStep_fiRead h rfl hpp) (Runs.refl _)
    rw [if_pos (by exact hpage)] at r2
    have hinj : ∀ off off', imageAddr s off = imageAddr s off' → off = off' := by
      intro off off' ho
      simp only [imageAddr, flashAddr] at ho
      omega
    have hin : ∀ off < 65536, f.get (imageAddr s off) =
        if 256 * s.pos.p ≤ off ∧ off < 256 * (s.pos.p + 1) then s.stg.get off else s.flash.get (imageAddr s off) := by
      intro off ho
      split
      · have h1 := hf1 (off - 256 * s.pos.p) (by omega)
        rw [show 256 * s.pos.p + (off - 256 * s.pos.p) = off by omega] at h1
        rw [h1]
        cases hv : findCell s.defects (imageAddr s off) with
        | none => rfl
        | some v =>
          have h2 := hg s.pos.p (Nat.le_refl _) (by omega) (off - 256 * s.pos.p) (by omega) v
          rw [show 256 * s.pos.p + (off - 256 * s.pos.p) = off by omega] at h2
          exact h2 hv
      · refine hf2 _ fun k hk' hc => ?_
        have := hinj _ _ hc
        omega
    have hout : ∀ a, (∀ off < 65536, a ≠ imageAddr s off) → f.get a = s.flash.get a :=
      fun a ha => hf2 a fun k hk' => ha _ (by omega)
    generalize hcb : pageOf f (flashAddr 0 s.vars.launch s.par.biosBank (256 * s.pos.p)) = cb at r2
    have r3 := Runs.cons (s := goto .fiDraw 0 s.pos.p { s with
        pos := { cmd := s.pos.cmd, label := .fiRead, i := 0, p := s.pos.p }, flash := f, cmpbuf := cb
        pagebuf := pageOf s.stg (256 * s.pos.p), ret := .done, xfer := x }) hq h (by simp)
      (runStep_fiDraw h rfl) (Runs.refl _)
    have r4 := Runs.cons (s := goto .fiTick 0 s.pos.p { s with
        flash := f, cmpbuf := cb, progCur := stepNumber (s.pos.p + 1)
        pagebuf := pageOf s.stg (256 * s.pos.p), ret := .done, xfer := x }) hq h (by simp)
      (runStep_fiTick h rfl) (Runs.refl _)
    have r := r1.trans (r2.trans (r3.trans r4))
    by_cases hlast : s.pos.p + 1 < 256
    · rw [if_pos (by exact hlast)] at r
      by_cases hn0 : n = 0
      · have hqp : s.pos.p + 1 = q := by omega
        refine ⟨f, pageOf s.stg (256 * s.pos.p), cb, x, ?_, ?_, hout⟩
        · rw [if_pos (by omega), if_pos (by omega), ← hqp]; exact r
        · intro off ho; rw [← hqp]; exact hin off ho
      · obtain ⟨f', pb', cb', x', r5, hf1', hf2'⟩ := ih (goto .fiLoad 0 (s.pos.p + 1) { s with
            flash := f, cmpbuf := cb, progCur := stepNumber (s.pos.p + 1)
            pagebuf := pageOf s.stg (256 * s.pos.p), ret := .done, xfer := x })
          (by simp; omega) (by omega) hq h rfl rfl hk hst
          (fun p hp1 hp2 => hg p (by simp only [goto_pos] at hp1; omega) hp2)
          (fun off ho1 ho2 => by
            simp only [goto_pos] at ho1
            refine (hin off ho2).trans ?_
            rw [if_neg (by omega)]
            exact he off (by omega) ho2)
        refine ⟨f', pb', cb', x', r.trans r5, ?_, fun a ha => (hf2' a ha).trans (hout a ha)⟩
        intro off ho
        have h3 : f'.get (imageAddr s off) = if 256 * (s.pos.p + 1) ≤ off ∧ off < 256 * q then s.stg.get off
          else f.get (imageAddr s off) := hf1' off ho
        rw [h3, hin off ho]
        split_ifs <;> first | omega | rfl
    · rw [if_neg (by exact hlast)] at r
      have hqp : s.pos.p + 1 = q := by omega
      refine ⟨f, pageOf s.stg (256 * s.pos.p), cb, x, ?_, ?_, hout⟩
      · rw [if_neg (by omega), if_neg (by omega), ← hqp]; exact r
      · intro off ho; rw [← hqp]; exact hin off ho

/-- FLASH_IMAGE from F0 to the pages (R256). -/
theorem imageStart_run (hq : Quiet s) (h : s.halted = false) (hp : s.pos.label = .fiLaunch) (hk : s.lockDepth < 255) :
    Runs s { s with
      pos := { cmd := s.pos.cmd, label := .fiLoad, i := 0, p := 0 }, vars := { s.vars with launch := s.launchSlot }
      lockDepth := s.lockDepth + 1
      flash := eraseFlash s.par.granule 0 s.launchSlot s.par.biosBank s.flash
      progCur := 0, progMax := stepNumber 256, ret := .done } := by
  have hlm : s.lockDepth ≠ Config.lockMax := by simp only [Config.lockMax]; omega
  refine Runs.cons hq h (by rw [hp]; simp) (runStep_fiLaunch h hp) ?_
  refine Runs.cons hq h (by simp) (runStep_fiUnlock h rfl) ?_
  rw [if_neg (by exact hlm)]
  refine Runs.cons hq h (by simp) (runStep_fiInit h rfl) ?_
  exact Runs.cons hq h (by simp) (runStep_fiErase h rfl (by simp)) (Runs.refl _)

/-! ## INSTALL_RECEIVE -/

/-- The padding (R253). -/
theorem pad_run (n : Nat) : ∀ s : State, n + s.pos.p = 65536 → Quiet s → s.halted = false →
    s.pos.label = .inPad → s.pos.p < 65536 →
    ∃ m, Runs s { s with
        pos := { cmd := s.pos.cmd, label := .inTrailer, i := 0, p := 0 }, stg := m, ret := .done } ∧
      ∀ a, m.get a = if s.pos.p ≤ a ∧ a < 65536 then Config.padByte else s.stg.get a := by
  induction n with
  | zero => intro s hn hq h hp hpp; omega
  | succ n ih =>
    intro s hn hq h hp hpp
    have r1 := Runs.cons hq h (by rw [hp]; simp) (runStep_inPad h hp hpp) (Runs.refl _)
    have hm : ∀ a, (s.stg.storeList s.pos.p [Config.padByte]).get a =
        if s.pos.p ≤ a ∧ a < s.pos.p + 1 then Config.padByte else s.stg.get a := by
      intro a
      rw [Mem.get_storeList, List.length_singleton]
      split
      · rw [show a - s.pos.p = 0 by omega]; rfl
      · rfl
    generalize s.stg.storeList s.pos.p [Config.padByte] = m at *
    by_cases hlast : s.pos.p + 1 < 65536
    · rw [if_pos hlast, if_pos hlast] at r1
      obtain ⟨m', r2, hm'⟩ := ih (goto .inPad 0 (s.pos.p + 1) { s with stg := m, ret := .done })
        (by simp only [goto_pos]; omega) hq h rfl hlast
      refine ⟨m', r1.trans r2, fun a => ?_⟩
      have h3 : m'.get a = if s.pos.p + 1 ≤ a ∧ a < 65536 then Config.padByte else m.get a := hm' a
      rw [h3, hm a]
      split_ifs <;> first | omega | rfl
    · rw [if_neg hlast, if_neg hlast] at r1
      refine ⟨m, r1, fun a => ?_⟩
      rw [hm a]
      split_ifs <;> first | omega | rfl

/-- STORE_BLOCK's loop (R251, R252). -/
theorem store_run (n : Nat) : ∀ s : State, n + s.pos.p = 128 → Quiet s → s.halted = false →
    s.pos.label = .inStore → s.pos.p < 128 → s.blkCount.toNat < 512 → s.par.delta = .stated →
    ∃ m, Runs s (blockStored { s with
        pos := { cmd := s.pos.cmd, label := .inStore, i := s.pos.i, p := 127 }
        stg := m, deltaPrev := xorFrom s.deltaPrev (s.blockbuf.toList.drop s.pos.p), ret := .done }) ∧
      (∀ k, s.pos.p ≤ k → k < 128 → m.get (128 * s.blkCount.toNat + k) =
        xorFrom s.deltaPrev ((s.blockbuf.toList.take (k + 1)).drop s.pos.p)) ∧
      (∀ a, a < 128 * s.blkCount.toNat + s.pos.p ∨ 128 * s.blkCount.toNat + 128 ≤ a → m.get a = s.stg.get a) := by
  induction n with
  | zero => intro s hn hq h hp hpp; omega
  | succ n ih =>
    intro s hn hq h hp hpp hb hd
    have hlen : s.blockbuf.toList.length = 128 := by simp
    have hget : s.blockbuf.toList.drop s.pos.p =
        s.blockbuf.toList[s.pos.p] :: s.blockbuf.toList.drop (s.pos.p + 1) := List.drop_eq_getElem_cons (by omega)
    have hbyte : deltaByte s.pos.p s = s.deltaPrev ^^^ s.blockbuf.toList[s.pos.p] := by
      rw [deltaByte, List.getD_eq_getElem _ _ (by omega)]
      exact BitVec.xor_comm _ _
    have hnext : deltaNext s.pos.p s = s.deltaPrev ^^^ s.blockbuf.toList[s.pos.p] := by
      rw [deltaNext, hd]
      exact hbyte
    have r1 := Runs.cons hq h (by rw [hp]; simp) (runStep_inStore h hp hb hpp) (Runs.refl _)
    rw [hbyte, hnext] at r1
    have hm : ∀ a, (s.stg.storeList (128 * s.blkCount.toNat + s.pos.p)
        [s.deltaPrev ^^^ s.blockbuf.toList[s.pos.p]]).get a =
        if a = 128 * s.blkCount.toNat + s.pos.p then s.deltaPrev ^^^ s.blockbuf.toList[s.pos.p]
        else s.stg.get a := by
      intro a
      rw [Mem.get_storeList, List.length_singleton]
      split
      · rw [if_pos (by omega), show a - (128 * s.blkCount.toNat + s.pos.p) = 0 by omega]; rfl
      · rw [if_neg (by omega)]
    generalize s.stg.storeList (128 * s.blkCount.toNat + s.pos.p)
      [s.deltaPrev ^^^ s.blockbuf.toList[s.pos.p]] = m at *
    have hfirst : (s.blockbuf.toList.take (s.pos.p + 1)).drop s.pos.p = [s.blockbuf.toList[s.pos.p]] := by
      rw [List.take_succ_eq_append_getElem (by omega), List.drop_append_of_le_length (by simp; omega)]
      simp
    by_cases hlast : s.pos.p + 1 < 128
    · rw [if_pos hlast] at r1
      obtain ⟨m', r2, h1, h2⟩ := ih (goto .inStore 0 (s.pos.p + 1) { s with
          stg := m, deltaPrev := s.deltaPrev ^^^ s.blockbuf.toList[s.pos.p], ret := .done })
        (by simp only [goto_pos]; omega) hq h rfl hlast hb hd
      refine ⟨m', ?_, ?_, ?_⟩
      · rw [hget]; exact r1.trans r2
      · intro k hk1 hk2
        by_cases hk : k = s.pos.p
        · rw [hk, h2 _ (Or.inl (by simp only [goto_blkCount, goto_pos]; omega)), hfirst]
          exact (hm _).trans (if_pos rfl)
        · have h3 := h1 k (by simp only [goto_pos]; omega) hk2
          refine h3.trans ?_
          simp only [goto_pos, goto_deltaPrev, goto_blockbuf]
          have hcons : (s.blockbuf.toList.take (k + 1)).drop s.pos.p =
              s.blockbuf.toList[s.pos.p] :: (s.blockbuf.toList.take (k + 1)).drop (s.pos.p + 1) := by
            rw [List.drop_eq_getElem_cons (by simp; omega)]
            simp
          rw [hcons]
          rfl
      · intro a ha
        refine (h2 a (by simp only [goto_blkCount, goto_pos]; omega)).trans ?_
        exact (hm a).trans (if_neg (by omega))
    · rw [if_neg hlast] at r1
      have hp1 : s.pos.p = 127 := by omega
      have hdrop : s.blockbuf.toList.drop (s.pos.p + 1) = [] := by rw [hp1]; simp
      refine ⟨m, ?_, ?_, ?_⟩
      · rw [hget, hdrop, ← hp1]
        have hpos : s.pos = { cmd := s.pos.cmd, label := .inStore, i := s.pos.i, p := s.pos.p } := by rw [← hp]
        rw [← hpos]
        exact r1
      · intro k hk1 hk2
        have hk : k = s.pos.p := by omega
        rw [hk, hfirst, hm, if_pos rfl]
        rfl
      · intro a ha
        exact (hm a).trans (if_neg (by omega))

theorem length_streamOf (bs : List (Vector Byte 128)) : (streamOf bs).length = 128 * bs.length := by
  induction bs with
  | nil => rfl
  | cons b bs ih => simp only [streamOf, List.map_cons, List.flatten_cons, List.length_append, List.length_cons] at ih ⊢
                    rw [ih]; simp; omega

/-- Good blocks arriving in INSTALL_RECEIVE's loop (R250, R251, R252): each is acknowledged by the priming byte of the
next, decoded and stored. -/
theorem blocks_run (bs : List (Vector Byte 128)) : ∀ (s : State) (rest : List Byte), bs ≠ [] → Quiet s →
    s.halted = false → s.pos.label = .rcPrime → s.pos.cmd = some .installReceive → s.cancelKey = false →
    s.par.delta = .stated → s.rxq = framesFrom s.xmSeq bs ++ rest → s.blkCount.toNat + bs.length ≤ 512 →
    ∃ bb m v r, Runs s { s with
        pos := { cmd := s.pos.cmd, i := 0, p := 0
                 label := if s.blkCount.toNat + bs.length < 512 then .rcPrime else .inClose }
        txlog := s.txlog ++ primingByte s.xmRetry :: List.replicate (bs.length - 1) Config.ACK
        rxq := rest, blockbuf := bb, xmSeq := s.xmSeq + BitVec.ofNat 8 bs.length, xmRetry := 0, irqMask := false
        blkCount := BitVec.ofNat 16 (s.blkCount.toNat + bs.length)
        deltaPrev := xorFrom s.deltaPrev (streamOf bs), stg := m, vars := v, ret := r } ∧
      (s.blkCount.toNat + bs.length = 512 → v.status = .ok) ∧
      (∀ k < 128 * bs.length, m.get (128 * s.blkCount.toNat + k) =
        xorFrom s.deltaPrev ((streamOf bs).take (k + 1))) ∧
      ∀ a, a < 128 * s.blkCount.toNat ∨ 128 * (s.blkCount.toNat + bs.length) ≤ a → m.get a = s.stg.get a := by
  induction bs with
  | nil => intro s rest h0; exact absurd rfl h0
  | cons b bs ih =>
    intro s rest _ hq h hp hcmd hc hd hr hcount
    rw [List.length_cons] at hcount
    have hr' : s.rxq = goodFrame s.xmSeq b.toList ++ (framesFrom (s.xmSeq + 1) bs ++ rest) := by
      rw [hr, framesFrom, wireFrame_eq, List.append_assoc]
    have r1 := good_run hq h hp hc b hr'
    generalize hv1 : ({ s with
      txlog := s.txlog ++ [primingByte s.xmRetry], irqMask := true, rxq := framesFrom (s.xmSeq + 1) bs ++ rest
      blockbuf := b, ret := .byte (checksum8 b.toList), xmSeq := s.xmSeq + 1, xmRetry := 0
      vars := { s.vars with seqByte := s.xmSeq, sum := checksum8 b.toList }
      pos := { cmd := s.pos.cmd, label := .rcGood, i := 0, p := 0 } } : State) = v1 at r1
    have r2 := Runs.cons (s := v1) (by rw [← hv1]; exact hq) (by rw [← hv1]; exact h) (by rw [← hv1]; simp)
      (runStep_rcGood (by rw [← hv1]; exact h) (by rw [← hv1])) (Runs.refl _)
    rw [if_pos (by rw [← hv1]; exact hcmd)] at r2
    obtain ⟨m1, r3, hm1, hm1'⟩ := store_run 128 (goto .inStore 0 0 { v1 with irqMask := false, ret := .done })
      (by simp) (by rw [← hv1]; exact hq) (by rw [← hv1]; exact h) rfl (by simp)
      (by rw [← hv1]; show s.blkCount.toNat < 512; omega) (by rw [← hv1]; exact hd)
    have hstream : streamOf (b :: bs) = b.toList ++ streamOf bs := by simp [streamOf]
    have hblen : b.toList.length = 128 := by simp
    have hcount16 : (BitVec.ofNat 16 (s.blkCount.toNat + 1)).toNat = s.blkCount.toNat + 1 := by
      rw [BitVec.toNat_ofNat]; omega
    subst hv1
    simp only [goto_blkCount, goto_pos, goto_deltaPrev, goto_blockbuf, List.drop_zero, Nat.zero_le, forall_const,
      Nat.add_zero] at hm1 hm1' r3
    have r123 := r1.trans (r2.trans r3)
    by_cases hmore : s.blkCount.toNat + 1 < 512
    · -- another block is asked for
      have hbs : ∀ X : State, X.blkCount = s.blkCount → X.par = s.par → blockStored X = goto .rcPrime 0 0 { X with
          blkCount := BitVec.ofNat 16 (s.blkCount.toNat + 1) } := by
        intro X hX hXp
        simp only [blockStored, hX, hXp, hd, DeltaVariant.stated, Config.imageBlocks, if_pos hmore,
          Bool.false_eq_true, if_false]
      rw [hbs _ (by exact rfl) (by exact rfl)] at r123
      by_cases hnil : bs = []
      · subst hnil
        refine ⟨b, m1, { s.vars with seqByte := s.xmSeq, sum := checksum8 b.toList }, .done,
          ?_, ?_, ?_, ?_⟩
        · have : streamOf [b] = b.toList := by simp [streamOf]
          rw [this]
          simp only [List.length_singleton, Nat.sub_self, List.replicate_zero, if_pos hmore]
          exact r123
        · intro hfull; simp only [List.length_singleton] at hfull; omega
        · intro k hk
          simp only [List.length_singleton] at hk
          have : streamOf [b] = b.toList := by simp [streamOf]
          rw [this]
          exact hm1 k (by omega)
        · intro a ha; rw [List.length_singleton] at ha; exact hm1' a (by omega)
      · obtain ⟨bb, m, v, r, r4, hst, hm, hm'⟩ := ih (goto .rcPrime 0 0 { s with
            txlog := s.txlog ++ [primingByte s.xmRetry], irqMask := false, rxq := framesFrom (s.xmSeq + 1) bs ++ rest
            blockbuf := b, ret := .done, xmSeq := s.xmSeq + 1, xmRetry := 0
            vars := { s.vars with seqByte := s.xmSeq, sum := checksum8 b.toList }
            blkCount := BitVec.ofNat 16 (s.blkCount.toNat + 1), stg := m1
            deltaPrev := xorFrom s.deltaPrev b.toList })
          rest hnil (by exact hq) (by exact h) rfl (by exact hcmd)
          (by exact hc) (by exact hd) (by exact rfl)
          (by simp only [goto_blkCount, hcount16]; omega)
        simp only [goto_blkCount, goto_pos, goto_deltaPrev, goto_txlog, goto_xmSeq, goto_xmRetry, goto_stg,
          hcount16] at r4 hst hm hm'
        refine ⟨bb, m, v, r, ?_, ?_, ?_, ?_⟩
        · have e1 : s.blkCount.toNat + 1 + bs.length = s.blkCount.toNat + (b :: bs).length := by
            rw [List.length_cons]; omega
          have e2 : s.xmSeq + 1 + BitVec.ofNat 8 bs.length = s.xmSeq + BitVec.ofNat 8 (b :: bs).length := by
            rw [List.length_cons]
            apply BitVec.eq_of_toNat_eq
            have h1 : (1 : Byte).toNat = 1 := rfl
            simp only [BitVec.toNat_add, BitVec.toNat_ofNat, h1]
            omega
          have e3 : s.txlog ++ [primingByte s.xmRetry] ++ primingByte 0 :: List.replicate (bs.length - 1) Config.ACK =
              s.txlog ++ primingByte s.xmRetry :: List.replicate ((b :: bs).length - 1) Config.ACK := by
            have : 0 < bs.length := List.length_pos_iff.2 hnil
            rw [List.append_assoc, List.singleton_append, List.length_cons, Nat.add_sub_cancel, primingByte_zero]
            conv_rhs => rw [show bs.length = (bs.length - 1) + 1 by omega, List.replicate_succ]
          have e4 : xorFrom (xorFrom s.deltaPrev b.toList) (streamOf bs) = xorFrom s.deltaPrev (streamOf (b :: bs)) := by
            rw [hstream]; exact (List.foldl_append ..).symm
          rw [e1, e2, e3, e4] at r4
          exact r123.trans r4
        · intro hfull; rw [List.length_cons] at hfull; exact hst (by omega)
        · intro k hk
          rw [List.length_cons] at hk
          by_cases hk1 : k < 128
          · rw [hm' _ (by omega), hm1 k hk1, hstream, List.take_append_of_le_length (by omega)]
          · have h4 := hm (k - 128) (by omega)
            rw [show 128 * (s.blkCount.toNat + 1) + (k - 128) = 128 * s.blkCount.toNat + k by omega] at h4
            rw [h4, hstream, List.take_append, List.take_of_length_le (l := b.toList) (by omega), hblen,
              show k + 1 - 128 = k - 128 + 1 by omega]
            exact (List.foldl_append ..).symm
        · intro a ha
          rw [List.length_cons] at ha
          rw [hm' a (by omega)]
          exact hm1' a (by omega)
    · -- the 512th block
      have hbs : ∀ X : State, X.blkCount = s.blkCount → X.par = s.par → blockStored X = goto .inClose 0 0 { X with
          blkCount := BitVec.ofNat 16 (s.blkCount.toNat + 1), vars := { X.vars with status := .ok } } := by
        intro X hX hXp
        simp only [blockStored, hX, hXp, hd, DeltaVariant.stated, Config.imageBlocks, if_neg hmore,
          Bool.false_eq_true, if_false]
      rw [hbs _ (by exact rfl) (by exact rfl)] at r123
      have hnil : bs = [] := List.eq_nil_of_length_eq_zero (by omega)
      subst hnil
      refine ⟨b, m1, { s.vars with seqByte := s.xmSeq, sum := checksum8 b.toList, status := .ok }, .done,
        ?_, ?_, ?_, ?_⟩
      · have : streamOf [b] = b.toList := by simp [streamOf]
        rw [this]
        simp only [List.length_singleton, Nat.sub_self, List.replicate_zero, if_neg hmore]
        exact r123
      · intro _; rfl
      · intro k hk
        simp only [List.length_singleton] at hk
        have : streamOf [b] = b.toList := by simp [streamOf]
        rw [this]
        exact hm1 k (by omega)
      · intro a ha; rw [List.length_singleton] at ha; exact hm1' a (by omega)

/-- CLEANUP after a success, padding and trailer (R250 I3, I4, R253, R254). -/
theorem finishInstall_run (hq : Quiet s) (h : s.halted = false) (hp : s.pos.label = .inClose)
    (hs : s.vars.status.failed = false) (hb : s.blkCount.toNat ≤ 512) :
    ∃ m, Runs s (finish .complete { s with
        portOpen := false, rxie := false, xmPhase := .awaitStart, stg := m, ret := .done }) ∧
      ∀ a < 65536, m.get a =
        if 0xFFF0 ≤ a then (Config.trailer s.blkCount.toNat).toList.getD (a - 0xFFF0) 0
        else if 128 * s.blkCount.toNat ≤ a then Config.padByte else s.stg.get a := by
  have r1 := Runs.cons hq h (by rw [hp]; simp) (runStep_inClose h hp) (Runs.refl _)
  have htrail : ∀ v : State, Quiet v → v.halted = false → v.pos.label = .inTrailer →
      Runs v (finish .complete { v with
        stg := v.stg.storeList Config.trailerOff (Config.trailer v.blkCount.toNat).toList, ret := .done }) :=
    fun v hv1 hv2 hv3 => Runs.cons hv1 hv2 (by rw [hv3]; simp) (runStep_inTrailer hv2 hv3) (Runs.refl _)
  have hget : ∀ (m : Mem) (a : Nat), a < 65536 →
      (m.storeList Config.trailerOff (Config.trailer s.blkCount.toNat).toList).get a =
        if 0xFFF0 ≤ a then (Config.trailer s.blkCount.toNat).toList.getD (a - 0xFFF0) 0 else m.get a := by
    intro m a ha
    have hl : (Config.trailer s.blkCount.toNat).toList.length = 16 := by simp
    rw [Mem.get_storeList, hl]
    have ht : Config.trailerOff = 0xFFF0 := rfl
    by_cases hc : 0xFFF0 ≤ a
    · rw [if_pos hc]; exact if_pos (by omega)
    · rw [if_neg hc]; exact if_neg (by omega)
  simp only [installCleanup, hs, Bool.false_eq_true, if_false] at r1
  by_cases hlt : 128 * s.blkCount.toNat < 65536
  · rw [if_pos (by exact hlt)] at r1
    obtain ⟨m, r2, hm⟩ := pad_run (65536 - 128 * s.blkCount.toNat) (goto .inPad 0 (128 * s.blkCount.toNat) { s with
        portOpen := false, rxie := false, xmPhase := .awaitStart, ret := .done })
      (by simp only [goto_pos]; omega) hq h rfl hlt
    have r3 := htrail { s with
        pos := { cmd := s.pos.cmd, label := .inTrailer, i := 0, p := 0 }
        portOpen := false, rxie := false, xmPhase := .awaitStart, stg := m, ret := .done } hq h rfl
    refine ⟨_, r1.trans (r2.trans r3), fun a ha => ?_⟩
    refine (hget m a ha).trans ?_
    have h3 : m.get a = if 128 * s.blkCount.toNat ≤ a ∧ a < 65536 then Config.padByte else s.stg.get a := hm a
    rw [h3]
    split_ifs <;> first | omega | rfl
  · rw [if_neg (by exact hlt)] at r1
    refine ⟨_, r1.trans (htrail _ hq h rfl), fun a ha => ?_⟩
    refine (hget s.stg a ha).trans ?_
    split_ifs <;> first | omega | rfl

end Sys2Proof.Machine
end

