-- ==== Sys2Proof/Laws/PerInstr.lean ====
section
/-! SUPPORT. The per-instruction family `RoundTrip`: the bytes the encoder writes for an instruction decode to that
instruction, in its format, whatever bytes follow. One lemma per constructor. -/

namespace Sys2Proof

theorem ofLE_toLE (n v : Nat) : ofLE (toLE n v) = v % 256 ^ n := by
  induction n generalizing v with
  | zero => simp [toLE, ofLE, Nat.mod_one]
  | succ n ih =>
    rw [toLE, ofLE, ih, BitVec.toNat_ofNat, show 256 ^ (n + 1) = 256 * 256 ^ n by rw [Nat.pow_succ, Nat.mul_comm],
      Nat.mod_mul]

theorem toLE_three (v : Nat) : ∃ a b c, toLE 3 v = [a, b, c] := ⟨_, _, _, rfl⟩

theorem toLE_two (v : Nat) : ∃ a b, toLE 2 v = [a, b] := ⟨_, _, rfl⟩

theorem bufOf_code (b : Buf) : bufOf b.code = b := by cases b <;> rfl

theorem half_bytes (v : Half) : v.extractLsb' 8 8 ++ v.extractLsb' 0 8 = v := by
  apply BitVec.eq_of_getLsbD_eq
  intro i hi
  simp only [BitVec.getLsbD_append, BitVec.getLsbD_extractLsb']
  by_cases h : i < 8
  · simp [h]
  · simp only [h, if_false]
    rw [decide_eq_true (show i - 8 < 8 by omega), Bool.true_and, show 8 + (i - 8) = i by omega]

theorem blockOf_append (data : Vector Byte 128) (rest : List Byte) (h : 128 ≤ (data.toList ++ rest).length) :
    blockOf (data.toList ++ rest) h = data := by
  apply Vector.toList_inj.1
  simp [blockOf, Vector.toList]

namespace Laws.RoundTrip

/-- The encoder's bytes of `i` decode to `i`. -/
def Statement (i : Instr) : Prop :=
  i.fits = true → i.format ≠ .internal → ∀ rest, decode i.format (encode i ++ rest) = .instr i rest

theorem resolveBank (slot subBank : Byte) : Statement (.resolveBank slot subBank) := by
  intro _ _ rest
  rfl

theorem switchToSlot (newSlot newOs : Byte) : Statement (.switchToSlot newSlot newOs) := by
  intro _ _ rest
  rfl

theorem programToFlash (slot os : Byte) : Statement (.programToFlash slot os) := by
  intro _ _ rest
  rfl

theorem restoreFromFlash (slot os : Byte) : Statement (.restoreFromFlash slot os) := by
  intro _ _ rest
  rfl

theorem erase (target os : Byte) : Statement (.erase target os) := by
  intro _ _ rest
  rfl

theorem flashImage (arg0 arg1 : Byte) : Statement (.flashImage arg0 arg1) := by
  intro _ _ rest
  rfl

theorem xmOpen (baud arg1 : Byte) : Statement (.xmOpen baud arg1) := by
  intro _ _ rest
  rfl

theorem xmClose (arg0 arg1 : Byte) : Statement (.xmClose arg0 arg1) := by
  intro _ _ rest
  rfl

theorem recvStart (arg0 arg1 : Byte) : Statement (.recvStart arg0 arg1) := by
  intro _ _ rest
  rfl

theorem recvBlock (arg0 arg1 : Byte) : Statement (.recvBlock arg0 arg1) := by
  intro _ _ rest
  rfl

theorem sendStart (arg0 arg1 : Byte) : Statement (.sendStart arg0 arg1) := by
  intro _ _ rest
  rfl

theorem sendBlock (arg0 arg1 : Byte) : Statement (.sendBlock arg0 arg1) := by
  intro _ _ rest
  rfl

theorem sendFinish (arg0 arg1 : Byte) : Statement (.sendFinish arg0 arg1) := by
  intro _ _ rest
  rfl

theorem installReceive (baud arg1 : Byte) : Statement (.installReceive baud arg1) := by
  intro _ _ rest
  rfl

theorem eraseBank (device physicalSlot bank : Byte) : Statement (.eraseBank device physicalSlot bank) := by
  intro _ _ rest
  rfl

theorem writeSlot (buffer : List Byte) (physicalSlot bank : Byte) (offset length : Nat) : Statement (.writeSlot buffer physicalSlot bank offset length) := by
  intro hf _ rest
  simp only [Instr.fits, Bool.and_eq_true, decide_eq_true_eq] at hf
  obtain ⟨a, b, c, ho⟩ := toLE_three offset
  obtain ⟨d, e, f, hl⟩ := toLE_three length
  have ho' := ofLE_toLE 3 offset
  have hl' := ofLE_toLE 3 length
  rw [ho, Nat.mod_eq_of_lt (by exact hf.1.2)] at ho'
  rw [hl, Nat.mod_eq_of_lt (by exact hf.2)] at hl'
  simp [encode, decode, Instr.format, decodePort, decodeWriteSlot, ho, hl, ho', hl', hf.1.1]

theorem readSlot (buffer : Buf) (physicalSlot bank : Byte) (offset length : Nat) : Statement (.readSlot buffer physicalSlot bank offset length) := by
  intro hf _ rest
  simp only [Instr.fits, Bool.and_eq_true, decide_eq_true_eq] at hf
  obtain ⟨a, b, c, ho⟩ := toLE_three offset
  obtain ⟨d, e, f, hl⟩ := toLE_three length
  have ho' := ofLE_toLE 3 offset
  have hl' := ofLE_toLE 3 length
  rw [ho, Nat.mod_eq_of_lt (by exact hf.1)] at ho'
  rw [hl, Nat.mod_eq_of_lt (by exact hf.2)] at hl'
  simp [encode, decode, Instr.format, decodePort, decodeReadSlot, ho, hl, ho', hl', bufOf_code]

theorem unlock : Statement (.unlock) := by
  intro _ _ rest
  rfl

theorem lock : Statement (.lock) := by
  intro _ _ rest
  rfl

theorem getLaunchSlot : Statement (.getLaunchSlot) := by
  intro _ _ rest
  rfl

theorem persist : Statement (.persist) := by
  intro _ _ rest
  rfl

theorem getc : Statement (.getc) := by
  intro _ _ rest
  rfl

theorem getcNb : Statement (.getcNb) := by
  intro _ _ rest
  rfl

theorem putc (b : Byte) : Statement (.putc b) := by
  intro _ _ rest
  rfl

theorem serialOpen (baud : Byte) : Statement (.serialOpen baud) := by
  intro _ _ rest
  rfl

theorem serialClose : Statement (.serialClose) := by
  intro _ _ rest
  rfl

theorem rxIrqEnable : Statement (.rxIrqEnable) := by
  intro _ _ rest
  rfl

theorem haltWait : Statement (.haltWait) := by
  intro _ _ rest
  rfl

theorem irqMask : Statement (.irqMask) := by
  intro _ _ rest
  rfl

theorem irqUnmask : Statement (.irqUnmask) := by
  intro _ _ rest
  rfl

theorem pollCancel : Statement (.pollCancel) := by
  intro _ _ rest
  rfl

theorem progressInit (max : Half) : Statement (.progressInit max) := by
  intro _ _ rest
  simp [encode, decode, Instr.format, decodePort, shortPort, half_bytes]

theorem progressDraw (cur : Half) : Statement (.progressDraw cur) := by
  intro _ _ rest
  simp [encode, decode, Instr.format, decodePort, shortPort, half_bytes]

theorem workTick : Statement (.workTick) := by
  intro _ _ rest
  rfl

theorem textOut (message : List Byte) : Statement (.textOut message) := by
  intro hf _ rest
  simp only [Instr.fits, decide_eq_true_eq] at hf
  obtain ⟨a, b, hl⟩ := toLE_two message.length
  have hl' := ofLE_toLE 2 message.length
  rw [hl, Nat.mod_eq_of_lt (by exact hf)] at hl'
  simp [encode, decode, Instr.format, decodePort, decodeTextOut, hl, hl']

theorem soh : Statement (.soh) := by
  intro _ _ rest
  rfl

theorem eot : Statement (.eot) := by
  intro _ _ rest
  rfl

theorem ack : Statement (.ack) := by
  intro _ _ rest
  rfl

theorem nak : Statement (.nak) := by
  intro _ _ rest
  rfl

theorem can : Statement (.can) := by
  intro _ _ rest
  rfl

theorem frame (seq nseq : Byte) (data : Vector Byte 128) (checksum : Byte) : Statement (.frame seq nseq data checksum) := by
  intro _ _ rest
  have hlen : data.toList.length = 128 := by simp
  have hb := blockOf_append data (checksum :: rest) (by simp)
  have hd : (data.toList ++ checksum :: rest).drop 129 = rest := by
    rw [List.drop_append, List.drop_eq_nil_of_le (by omega), hlen]; rfl
  simp [encode, decode, Instr.format, decodeFrame, hb, hd]

theorem os (size offset : BitVec 4) : Statement (.os size offset) := by
  intro _ _ rest
  have h1 : (osByte size offset).extractLsb' 4 4 = size := by revert size offset; decide
  have h2 : (osByte size offset).extractLsb' 0 4 = offset := by revert size offset; decide
  simp [encode, decode, Instr.format, decodeOsFormat, h1, h2]

theorem slotv (v : Byte) : Statement (.slotv v) := by
  intro _ _ rest
  rfl

theorem decodeOs (os : Byte) : Statement (.decodeOs os) := by
  intro _ h
  exact absurd rfl h

theorem checkGeometry (offset size : Nat) (os : Byte) : Statement (.checkGeometry offset size os) := by
  intro _ h
  exact absurd rfl h

end Laws.RoundTrip

end Sys2Proof
end

