-- ==== Sys2Proof/Laws/Start.lean ====
section
/-! SUPPORT. The starts of the commands: what `exec` answers for a command when SEQ can take one, and when it cannot. -/

namespace Sys2Proof.Machine

variable {s : State}

/-- The state in which a command's pseudocode begins (R21, R25). -/
abbrev State.started (s : State) (c : Cmd) (a0 a1 : Byte) : State :=
  { s with pos := { cmd := some c, label := .idle, i := 0, p := 0 }, vars := { s.vars with a0 := a0, a1 := a1 } }

theorem startCommand_idle (hi : Idle s) (c : Cmd) (a0 a1 : Byte) (body : State → Outcome) :
    startCommand c a0 a1 s body = body (s.started c a0 a1) :=
  if_neg (by simp [State.running, hi.1, hi.2])

theorem startCommand_busy (h : s.halted = true ∨ s.pos.label ≠ .idle) (c : Cmd) (a0 a1 : Byte)
    (body : State → Outcome) : startCommand c a0 a1 s body = .next s :=
  if_pos (by simpa [State.running] using h)

theorem osFields_some {os : Byte} {o n : Nat} (ho : o = os.toNat % 16) (hn : n = os.toNat / 16) (h1 : 1 ≤ n)
    (h8 : o + n ≤ 8) : osFields os = some (o, n) := by
  subst ho hn
  exact if_neg (by simp only [osSize, osOffset]; omega)

theorem osFields_none {os : Byte} (h : osOk os = false) : osFields os = none := by
  simp only [osOk, osFieldsOk, Bool.and_eq_false_iff, decide_eq_false_iff_not] at h
  exact if_pos (by simp only [osSize, osOffset]; omega)

theorem isSlot_true {par : Params} {v : Byte} (h : v.toNat < par.sramSlots) : isSlot par v = true := decide_eq_true h

theorem isSlot_false {par : Params} {v : Byte} (h : par.sramSlots ≤ v.toNat) : isSlot par v = false :=
  decide_eq_false (by omega)

theorem not_firstBoot_of_slot (hp : LegalParams s.par) {v : Byte} (h : v.toNat < s.par.sramSlots) :
    v ≠ Config.slotFirstBoot ∧ v ≠ Config.slotNone ∧ v ≠ Config.slotAll := by
  have h15 := hp.2
  refine ⟨?_, ?_, ?_⟩ <;>
    (rintro rfl; simp [Config.slotFirstBoot, Config.slotNone, Config.slotAll] at h; omega)

theorem exec_recvBlock (hi : Idle s) (hx : s.xmPhase = .awaitBlock) (a0 a1 : Byte) :
    exec (.recvBlock a0 a1) s = .next (goto .rcPrime 0 0 (s.started .recvBlock a0 a1)) := by
  rw [exec, execRecvBlock, startCommand_idle hi]
  exact if_pos hx

theorem exec_sendStart (hi : Idle s) (ho : s.portOpen = true) (a0 a1 : Byte) :
    exec (.sendStart a0 a1) s = .next (goto .sdIrq 0 0
      { s.started .sendStart a0 a1 with xmSeq := 1, xmRetry := 0, xmPhase := .sending }) := by
  rw [exec, execSendStart, startCommand_idle hi]
  exact if_pos ho

theorem exec_sendBlock (hi : Idle s) (hx : s.xmPhase = .sending) (a0 a1 : Byte) :
    exec (.sendBlock a0 a1) s = .next (goto .sdSoh 0 0 { s.started .sendBlock a0 a1 with xmRetry := 0 }) := by
  rw [exec, execSendBlock, startCommand_idle hi]
  exact if_pos hx

theorem exec_sendFinish (hi : Idle s) (hx : s.xmPhase = .sending) (a0 a1 : Byte) :
    exec (.sendFinish a0 a1) s = .next (goto .sdEot 0 0 { s.started .sendFinish a0 a1 with xmRetry := 0 }) := by
  rw [exec, execSendFinish, startCommand_idle hi]
  exact if_pos hx

theorem exec_installReceive (hi : Idle s) (hs : s.par.sramSlots ≤ s.w.activeSlot.toNat) (a0 a1 : Byte) :
    exec (.installReceive a0 a1) s = .next (goto .inOpen 0 0 (loseSram (s.started .installReceive a0 a1))) := by
  rw [exec, execInstallReceive, startCommand_idle hi]
  exact if_neg (by simp [isSlot_false hs])

theorem exec_flashImage (hi : Idle s) (a0 a1 : Byte) :
    exec (.flashImage a0 a1) s = .next (goto .fiLaunch 0 0 (s.started .flashImage a0 a1)) := by
  rw [exec, execFlashImage, startCommand_idle hi]

theorem exec_xmOpen (hi : Idle s) (a0 a1 : Byte) :
    exec (.xmOpen a0 a1) s = .next (goto .xoOpen 0 0 (s.started .xmOpen a0 a1)) := by
  rw [exec, execXmOpen, startCommand_idle hi]

theorem exec_xmClose (hi : Idle s) (a0 a1 : Byte) :
    exec (.xmClose a0 a1) s = .next (goto .xcClose 0 0 (s.started .xmClose a0 a1)) := by
  rw [exec, execXmClose, startCommand_idle hi]

theorem exec_programToFlash (hi : Idle s) {slot os : Byte} {o n : Nat} (hs : slot.toNat < s.par.sramSlots)
    (hf : osFields os = some (o, n)) :
    exec (.programToFlash slot os) s = .next (beginProgram slot os o n (s.started .programToFlash slot os)) := by
  rw [exec, execProgramToFlash, startCommand_idle hi]
  simp [isSlot_true hs, hf]

theorem exec_restoreFromFlash (hi : Idle s) {slot os : Byte} {o n : Nat} (hs : slot.toNat < s.par.sramSlots)
    (hf : osFields os = some (o, n)) :
    exec (.restoreFromFlash slot os) s = .next (beginRestore slot os o n (s.started .restoreFromFlash slot os)) := by
  rw [exec, execRestoreFromFlash, startCommand_idle hi]
  simp [isSlot_true hs, hf]

/-- The start of ERASE in its three modes (R179). -/
theorem exec_erase (hi : Idle s) {target os : Byte} {o n : Nat} (hf : osFields os = some (o, n)) :
    exec (.erase target os) s =
      if target = Config.slotNone then .next (goto .erInit 0 0 { s.started .erase target os with
        vars := { s.vars with a0 := target, a1 := os, os := os, offset := o, size := n } })
      else if isSlot s.par target then .next (beginEraseSlots target 1 { s.started .erase target os with
        vars := { s.vars with a0 := target, a1 := os, os := os, offset := o, size := n } })
      else if target = Config.slotAll then .next (beginEraseSlots 0 s.par.sramSlots { s.started .erase target os with
        vars := { s.vars with a0 := target, a1 := os, os := os, offset := o, size := n } })
      else .refused .badEraseTarget := by
  rw [exec, execErase, startCommand_idle hi]
  simp only [hf]

/-- The start of SWITCH_TO_SLOT, test by test (R170). -/
theorem exec_switchToSlot (hi : Idle s) (slot os : Byte) :
    exec (.switchToSlot slot os) s =
      if slot = s.w.activeSlot ∧ os = s.w.activeOs then .next (finish .ok (s.started .switchToSlot slot os))
      else if s.w.activeSlot = Config.slotFirstBoot then
        if slot = Config.slotNone then .next (finish .ok (s.started .switchToSlot slot os))
        else .next (goto .swAdopt 0 0 { s.started .switchToSlot slot os with
          w := { s.w with activeSlot := slot, activeOs := os } })
      else if !(isSlot s.par slot || slot == Config.slotNone) then
        .next (raiseFatal .badSlot slot.toNat (s.started .switchToSlot slot os))
      else if !(isSlot s.par s.w.activeSlot || s.w.activeSlot == Config.slotNone) then
        .next (raiseFatal .badSlot s.w.activeSlot.toNat (s.started .switchToSlot slot os))
      else switchBody slot os (s.started .switchToSlot slot os) := by
  rw [exec, execSwitchToSlot, startCommand_idle hi]

end Sys2Proof.Machine
end

