-- ==== Sys2Proof/Tests/Slice0.lean ====
section
/-! SUPPORT. Tests: ill-formed terms, a written-out word for every constructor, one small step per instruction (expected
values from spec/95_test_vectors.md or from the rule cited), and for every obligation with hypotheses a state and
operands that meet them. -/

namespace Sys2Proof.Tests

open Sys2Proof Sys2Proof.Machine

/-! ## WellFormed refuses an ill-formed term for each of its checks -/

theorem test_wf_resolveBank : (Instr.resolveBank 14 7).wellFormed = true ∧
    (Instr.resolveBank 15 0).wellFormed = false ∧ (Instr.resolveBank 0 8).wellFormed = false := by decide
theorem test_wf_relocation : (Instr.programToFlash 14 0x17).wellFormed = true ∧
    (Instr.programToFlash 15 0x80).wellFormed = false ∧ (Instr.programToFlash 0 0x07).wellFormed = false ∧
    (Instr.restoreFromFlash 15 0x80).wellFormed = false ∧ (Instr.restoreFromFlash 0 0x27).wellFormed = false := by
  decide
theorem test_wf_erase : (Instr.erase 0xFE 0x80).wellFormed = true ∧ (Instr.erase 0xFD 0x80).wellFormed = false ∧
    (Instr.erase 0x0F 0x80).wellFormed = false ∧ (Instr.erase 0xFF 0x90).wellFormed = false := by decide
theorem test_wf_writeSlot : (Instr.writeSlot [0x3C] 5 0x80 65535 1).wellFormed = true ∧
    (Instr.writeSlot [0x3C] 5 0x80 0 2).wellFormed = false ∧
    (Instr.writeSlot [0x3C] 5 0x80 65536 1).wellFormed = false ∧
    (Instr.writeSlot [] 5 0x80 (2 ^ 24) 0).wellFormed = false := by decide
theorem test_wf_readSlot : (Instr.readSlot .pageBuf 5 0x80 0 256).wellFormed = true ∧
    (Instr.readSlot .pageBuf 5 0x80 0 257).wellFormed = false ∧
    (Instr.readSlot .xferBuf 5 0x80 65535 2).wellFormed = false ∧
    (Instr.readSlot .xferBuf 5 0x80 0 (2 ^ 24)).wellFormed = false := by decide
theorem test_wf_textOut : (Instr.textOut (List.replicate 65536 0x41)).wellFormed = false := by
  simp only [Instr.wellFormed, Instr.fits, List.length_replicate]; rfl
set_option maxRecDepth 8000 in
theorem test_wf_frame : (Instr.frame 1 0xFE (Vector.replicate 128 0x02) 0x00).wellFormed = true ∧
    (Instr.frame 1 0xFF (Vector.replicate 128 0x02) 0x00).wellFormed = false ∧
    (Instr.frame 1 0xFE (Vector.replicate 128 0x02) 0x01).wellFormed = false := by decide
theorem test_wf_operands : (Instr.os 8 0).wellFormed = true ∧ (Instr.os 0 7).wellFormed = false ∧
    (Instr.os 9 0).wellFormed = false ∧ (Instr.os 1 8).wellFormed = false ∧ (Instr.os 4 5).wellFormed = false ∧
    (Instr.slotv 0xFD).wellFormed = true ∧ (Instr.slotv 0x0F).wellFormed = false ∧
    (Instr.slotv 0xFC).wellFormed = false := by decide
theorem test_wf_internal : (Instr.decodeOs 0x17).wellFormed = true ∧ (Instr.decodeOs 0x18).wellFormed = false ∧
    (Instr.checkGeometry 0 8 0x80).wellFormed = true ∧ (Instr.checkGeometry 0 9 0x90).wellFormed = false := by decide

/-! ## A written-out word for every constructor (R98, R100, R96, R95, R93, R92) -/

theorem test_decode_cmd :
    decode .cmd [0x01, 0x0E, 0x07] = .instr (.resolveBank 0x0E 0x07) [] ∧
    decode .cmd [0x10, 0x01, 0x80] = .instr (.switchToSlot 0x01 0x80) [] ∧
    decode .cmd [0x11, 0x02, 0x13] = .instr (.programToFlash 0x02 0x13) [] ∧
    decode .cmd [0x12, 0x01, 0x80] = .instr (.restoreFromFlash 0x01 0x80) [] ∧
    decode .cmd [0x13, 0xFF, 0x20] = .instr (.erase 0xFF 0x20) [] ∧
    decode .cmd [0x14, 0x00, 0x00] = .instr (.flashImage 0x00 0x00) [] ∧
    decode .cmd [0x20, 0x03, 0x00] = .instr (.xmOpen 0x03 0x00) [] ∧
    decode .cmd [0x21, 0x00, 0x00] = .instr (.xmClose 0x00 0x00) [] ∧
    decode .cmd [0x22, 0x00, 0x00] = .instr (.recvStart 0x00 0x00) [] ∧
    decode .cmd [0x23, 0x00, 0x00] = .instr (.recvBlock 0x00 0x00) [] ∧
    decode .cmd [0x30, 0x00, 0x00] = .instr (.sendStart 0x00 0x00) [] ∧
    decode .cmd [0x31, 0x00, 0x00] = .instr (.sendBlock 0x00 0x00) [] ∧
    decode .cmd [0x32, 0x00, 0x00] = .instr (.sendFinish 0x00 0x00) [] ∧
    decode .cmd [0x40, 0x05, 0x00] = .instr (.installReceive 0x05 0x00) [] := by decide
theorem test_decode_cmd_reserved :
    decode .cmd [0x00, 0x00, 0x00] = .reject (.reservedCommand 0x00) ∧
    decode .cmd [0x15, 0x00, 0x00] = .reject (.reservedCommand 0x15) ∧
    decode .cmd [0x01, 0x0E] = .reject .truncated := by decide
theorem test_decode_port_driver :
    decode .port [0x80, 0x00, 0x05, 0x86] = .instr (.eraseBank 0x00 0x05 0x86) [] ∧
    decode .port [0x81, 0x05, 0x86, 0x00, 0x01, 0x00, 0x02, 0x00, 0x00, 0x12, 0x34] =
      .instr (.writeSlot [0x12, 0x34] 0x05 0x86 256 2) [] ∧
    decode .port [0x82, 0x01, 0x05, 0x86, 0x00, 0xFF, 0x00, 0x00, 0x01, 0x00] =
      .instr (.readSlot .cmpBuf 0x05 0x86 0xFF00 256) [] ∧
    decode .port [0x83] = .instr .unlock [] ∧ decode .port [0x84] = .instr .lock [] ∧
    decode .port [0x85] = .instr .getLaunchSlot [] ∧ decode .port [0x86] = .instr .persist [] := by decide
theorem test_decode_port_serial :
    decode .port [0x90] = .instr .getc [] ∧ decode .port [0x91] = .instr .getcNb [] ∧
    decode .port [0x92, 0x15] = .instr (.putc 0x15) [] ∧ decode .port [0x93, 0x05] = .instr (.serialOpen 0x05) [] ∧
    decode .port [0x94] = .instr .serialClose [] ∧ decode .port [0x95] = .instr .rxIrqEnable [] ∧
    decode .port [0x96] = .instr .haltWait [] ∧ decode .port [0x97] = .instr .irqMask [] ∧
    decode .port [0x98] = .instr .irqUnmask [] := by decide
theorem test_decode_port_ui :
    decode .port [0xA0] = .instr .pollCancel [] ∧
    decode .port [0xA1, 0x00, 0x08] = .instr (.progressInit 2048) [] ∧
    decode .port [0xA2, 0x01, 0x00] = .instr (.progressDraw 1) [] ∧ decode .port [0xA3] = .instr .workTick [] ∧
    decode .port [0xA4, 0x02, 0x00, 0x48, 0x69] = .instr (.textOut [0x48, 0x69]) [] ∧
    decode .port [0x87] = .reject (.reservedLabel 0x87) := by decide
theorem test_decode_wire :
    decode .wire1 [0x01] = .instr .soh [] ∧ decode .wire1 [0x04] = .instr .eot [] ∧
    decode .wire1 [0x06] = .instr .ack [] ∧ decode .wire1 [0x15] = .instr .nak [] ∧
    decode .wire1 [0x18] = .instr .can [] ∧ decode .wire1 [0x55] = .reject (.notControl 0x55) := by decide
set_option maxRecDepth 8000 in
theorem test_decode_frame :
    decode .frame (0x01 :: 0x01 :: 0xFE :: (List.replicate 128 0x02 ++ [0x00])) =
      .instr (.frame 0x01 0xFE (Vector.replicate 128 0x02) 0x00) [] := rfl
theorem test_decode_operands :
    decode .os [0x13] = .instr (.os 1 3) [] ∧ decode .os [0x80] = .instr (.os 8 0) [] ∧
    decode .slotv [0xFD] = .instr (.slotv 0xFD) [] ∧ decode .internal [0x13] = .reject .noEncoding := by decide
theorem test_decode_table :
    decodeTableWord 8 0x10 = some (.switchToSlot 0 0) ∧ decodeTableWord 8 0x83 = some .unlock ∧
    decodeTableWord 8 0x18 = some .can ∧ decodeTableWord 8 0x24 = some (.os 2 4) := by decide
-- R101: the bytes between the labels of R100 are no labels (log 22)
theorem test_decode_table_no_label :
    decodeTableWord 8 0x86 = some .persist ∧ decodeTableWord 8 0x87 = some (.os 8 7) ∧
    decodeTableWord 8 0x8F = some (.os 8 15) ∧ decodeTableWord 8 0x90 = some .getc ∧
    decodeTableWord 8 0x98 = some .irqUnmask ∧ decodeTableWord 8 0x9F = some (.os 9 15) ∧
    decodeTableWord 8 0xA0 = some .pollCancel := by decide

/-! ## One small step per instruction -/

/-- A unit with the parameters of the test vectors: 15 slots, launch slot 5, an erase granule of two banks. -/
def base : State := { State.reset with
  launchSlot := 5
  par := { sramSlots := 15, granule := .pair, biosBank := 0xF5, rxDepth := none, delta := .stated } }

/-- `base` with settings `W = P`. -/
def withSettings (slot os : Byte) : State := { base with
  w := { activeSlot := slot, activeOs := os, legacyLayout := false, partialWrites := false }
  p := { activeSlot := slot, activeOs := os, legacyLayout := false, partialWrites := false } }

/-- `base` where RECV_BLOCK waits for the leading byte of a unit. -/
def polling (rxq : List Byte) : State := { base with
  portOpen := true, xmPhase := .awaitBlock, xmSeq := 1, xmRetry := 1, irqMask := true, rxq := rxq
  pos := { cmd := some .recvBlock, label := .rcGet, i := 0, p := 0 } }

/-- `base` at a point of a command. -/
def running (c : Cmd) (l : Label) : State := { base with pos := { cmd := some c, label := l, i := 0, p := 0 } }

/-- What a projection of the next state is. -/
def field {α : Type} (f : State → α) : Outcome → Option α
  | .next s => some (f s)
  | _ => none

/-- The three fault registers. -/
def diag (s : State) : Bool × Byte × Half := (s.halted, s.diagCode, s.diagAux)

/-- The name of a refusal. -/
def refusal : Outcome → Option Refusal
  | .refused r => some r
  | _ => none

-- V-RB9, V-RB10
theorem test_resolveBank : field (fun s => (s.result, s.resultAux)) (exec (.resolveBank 0x0E 7) base) = some (0, 0xF9) ∧
    refusal (exec (.resolveBank 0x0F 0) base) = some .notASlot ∧
    refusal (exec (.resolveBank 0x00 8) base) = some .badSubBank := by decide
-- V-SW2, V-SW6
theorem test_switchToSlot :
    field (fun s => (s.result, s.pos)) (exec (.switchToSlot 1 0x80) (withSettings 1 0x80)) = some (0, SeqPos.idle) ∧
    field diag (exec (.switchToSlot 0x0F 0x80) (withSettings 0xFF 0x80)) = some (true, 0x03, 0x0F) := by decide
-- V-SW14, V-SW15
theorem test_switchToSlot_old :
    refusal (exec (.switchToSlot 3 0x80) (withSettings 2 0x00)) = some .illFormedDescriptor ∧
    field diag (exec (.switchToSlot 3 0x80) (withSettings 2 0x30)) = some (true, 0x02, 0x30) := by decide
-- V-GEO1, V-PF6
theorem test_programToFlash : field diag (exec (.programToFlash 0 0x30) base) = some (true, 0x02, 0x30) ∧
    refusal (exec (.programToFlash 0x0F 0x80) base) = some .notASlot := by decide
-- R174 with R10: the read of RAM bank 0 and the write of RAM bank 1 are two primitives
theorem test_upgrade_moves : want (running .programToFlash .upFetch) = .prim (.sramLoad 0 0 2048) ∧
    field (fun s => (s.pos.label, s.pos.p, s.sram.get (sramAddr 1 1)))
      (runStep { running .programToFlash .upMove with xfer := [0x11, 0x22] }) = some (.upFetch, 1, 0x22) := by
  decide
-- V-RF3: no geometry check on load
theorem test_restoreFromFlash :
    field (fun s => (s.pos.label, s.vars.offset, s.vars.size)) (exec (.restoreFromFlash 0 0x30) base) =
      some (.rsLaunch, 0, 3) := by decide
-- V-ER6
theorem test_erase : refusal (exec (.erase 0xFD 0x80) base) = some .badEraseTarget ∧
    refusal (exec (.erase 0x0F 0x80) base) = some .badEraseTarget := by decide
-- R256 F0: the first primitive is get_launch_slot, and its value is kept
theorem test_flashImage : field (fun s => (s.pos.label, s.vars.launch)) (runStep (running .flashImage .fiLaunch)) =
    some (.fiUnlock, 5) := by decide
-- R200, R201
theorem test_xmOpen : field (fun s => (s.portOpen, s.result, s.pos)) (runStep (running .xmOpen .xoOpen)) =
    some (true, 0, SeqPos.idle) := by decide
theorem test_xmClose : field (fun s => (s.portOpen, s.xmPhase, s.pos))
    (runStep { polling [] with pos := { cmd := some .xmClose, label := .xcClose, i := 0, p := 0 } }) =
    some (false, .awaitStart, SeqPos.idle) := by decide
-- V-RX0
theorem test_recvStart : field (fun s => (s.result, s.xmSeq, s.xmRetry, s.xmPhase))
    (exec (.recvStart 0 0) { base with portOpen := true }) = some (0, 1, 1, .awaitBlock) := by decide
-- V-RX16; the first byte of TXLOG in every receive vector is 15
theorem test_recvBlock : refusal (exec (.recvBlock 0 0) base) = some .outsideSession ∧
    field (fun s => s.txlog) (runStep { running .recvBlock .rcPrime with xmRetry := 1 }) = some [0x15] := by decide
-- R230, R231, R232
theorem test_sendStart : field (fun s => (s.xmSeq, s.xmRetry, s.xmPhase))
    (exec (.sendStart 0 0) { base with portOpen := true }) = some (1, 0, .sending) := by decide
theorem test_sendBlock : refusal (exec (.sendBlock 0 0) base) = some .outsideSession ∧
    field (fun s => s.txlog) (runStep { running .sendBlock .sdSeq with xmSeq := 0x7F }) = some [0x7F] := by decide
theorem test_sendFinish : refusal (exec (.sendFinish 0 0) base) = some .outsideSession ∧
    field (fun s => s.txlog) (runStep (running .sendFinish .sdEot)) = some [0x04] := by decide
-- R250 I0
theorem test_installReceive : refusal (exec (.installReceive 5 0) (withSettings 0 0x80)) = some .slotOwnsWindow ∧
    field (fun s => s.pos.label) (exec (.installReceive 5 0) (withSettings 0xFF 0x80)) = some .inOpen := by decide
-- R64, U18: SRAM is unspecified from the start of the command on, so that a power loss before serial_open finds it so
theorem test_installReceive_sram : ∃ t, exec (.installReceive 5 0) { withSettings 0xFF 0x80 with
      sram := { fill := .byte 0xFF, cells := [(7, 0x11)] } } = .next t ∧ SramUnspecified t ∧
    t.pos.label = .inOpen ∧ SramUnspecified (powerLoss .between 5 t) :=
  ⟨_, rfl, fun _ => rfl, rfl, fun _ => rfl⟩
-- V-PR6, with a granule of two banks
theorem test_eraseBank : field (fun s => (s.flash.get (flashAddr 0 5 0x86 7), s.flash.get (flashAddr 0 5 0x88 7)))
    (exec (.eraseBank 0 5 0x87) { base with
      lockDepth := 1
      flash := { fill := .byte 0xFF, cells := [(flashAddr 0 5 0x86 7, 0x11), (flashAddr 0 5 0x88 7, 0x22)] } }) =
    some (0xFF, 0x22) := by decide
-- V-PR8
theorem test_writeSlot : field (fun s => s.flash.get (flashAddr 0 5 0x80 9)) (exec (.writeSlot [0x3C] 5 0x80 9 1) { base with
      lockDepth := 1, flash := { fill := .byte 0xFF, cells := [(flashAddr 0 5 0x80 9, 0xF0)] } }) = some 0x30 := by
  decide
-- R142
theorem test_readSlot : field (fun s => s.xfer) (exec (.readSlot .xferBuf 5 0x80 8 2) { base with
      flash := { fill := .byte 0xFF, cells := [(flashAddr 0 5 0x80 9, 0xF0)] } }) = some [0xFF, 0xF0] := by decide
-- V-PR1, V-PR4
theorem test_unlock : field (fun s => s.lockDepth) (exec .unlock base) = some 1 ∧
    field diag (exec .unlock { base with lockDepth := 255 }) = some (true, 0x05, 255) := by decide
-- V-PR2, V-PR3
theorem test_lock : field (fun s => s.lockDepth) (exec .lock { base with lockDepth := 1 }) = some 0 ∧
    field diag (exec .lock base) = some (true, 0x04, 0) := by decide
-- R145
theorem test_getLaunchSlot : field (fun s => s.ret) (exec .getLaunchSlot base) = some (.byte 5) := by decide
-- V-PR10
theorem test_persist : field (fun s => s.p.activeSlot) (exec .persist { withSettings 0 0x80 with
    w := (withSettings 0xFF 0x80).w }) = some 0xFF := by decide
-- V-PR12, V-PR11
theorem test_getc : field (fun s => (s.ret, s.rxq)) (exec .getc { base with rxq := [0x41, 0x42] }) =
    some (.byte 0x41, [0x42]) := by decide
theorem test_getcNb : field (fun s => s.ret) (exec .getcNb base) = some .noByte := by decide
-- R152 to R157
theorem test_putc : field (fun s => s.txlog) (exec (.putc 0x06) { base with txlog := [0x15] }) = some [0x15, 0x06] := by
  decide
theorem test_serialOpen : field (fun s => (s.portOpen, s.rxq)) (exec (.serialOpen 3) { base with rxq := [0x41] }) =
    some (true, [0x41]) := by decide
theorem test_serialClose : field (fun s => (s.portOpen, s.rxie))
    (exec .serialClose { base with portOpen := true, rxie := true }) = some (false, false) := by decide
theorem test_rxIrqEnable : field (fun s => s.rxie) (exec .rxIrqEnable base) = some true := by decide
theorem test_haltWait : field (fun s => s.ret) (exec .haltWait base) = some .waiting ∧
    field (fun s => s.ret) (exec .haltWait { base with rxie := true, rxq := [0x15] }) = some .done := by decide
theorem test_irqMask : field (fun s => s.irqMask) (exec .irqMask base) = some true := by decide
theorem test_irqUnmask : field (fun s => s.irqMask) (exec .irqUnmask { base with irqMask := true }) = some false := by
  decide
-- R158 to R161
theorem test_pollCancel : field (fun s => (s.ret, s.cancelKey)) (exec .pollCancel { base with cancelKey := true }) =
    some (.flag true, true) := by decide
theorem test_progressInit : field (fun s => (s.progMax, s.progCur))
    (exec (.progressInit 2048) { base with progCur := 9 }) = some (2048, 0) := by decide
theorem test_progressDraw : field (fun s => (s.progMax, s.progCur))
    (exec (.progressDraw 7) { base with progMax := 9 }) = some (9, 7) := by decide
theorem test_workTick : field (fun s => s.progCur) (exec .workTick { base with progCur := 9 }) = some 9 := by decide
theorem test_textOut : field (fun s => s.txlog) (exec (.textOut [0x41]) base) = some [] := by decide
-- R203, R206, R212, R281
theorem test_soh : field (fun s => s.pos.label) (exec .soh (polling [])) = some .rcSeq := by decide
theorem test_eot : field (fun s => s.pos.label) (exec .eot (polling [])) = some .rcEot := by decide
theorem test_ack : field (fun s => s.pos.label) (exec .ack (polling [])) = some .rcBad ∧
    field (fun s => (s.result, s.xmSeq))
      (exec .ack { running .sendBlock .sdGet with xmSeq := 0xFF }) = some (0, 0) := by decide
theorem test_nak : field (fun s => s.pos.label) (exec .nak (polling [])) = some .rcBad ∧
    field (fun s => (s.xmRetry, s.pos.label)) (exec .nak (running .sendBlock .sdGet)) = some (1, .sdSoh) := by decide
theorem test_can : field (fun s => s.pos.label) (exec .can (polling [])) = some .rcCancel := by decide
set_option maxRecDepth 8000 in
theorem test_frame : field (fun s => (s.pos.label, s.rxq.take 2, s.rxq.length))
    (exec (.frame 1 0xFE (Vector.replicate 128 0x02) 0x00) (polling [])) = some (.rcSeq, [0x01, 0xFE], 131) := by decide
-- R20, R91, R93, R94 (S10)
theorem test_os : field (fun s => s.arg1) (exec (.os 8 0) base) = some 0x80 := by decide
theorem test_slotv : field (fun s => s.arg0) (exec (.slotv 0xFE) base) = some 0xFE := by decide
-- V-OS2, V-OS6
theorem test_decodeOs : field (fun s => (s.vars.offset, s.vars.size)) (exec (.decodeOs 0x13) base) = some (3, 1) ∧
    refusal (exec (.decodeOs 0x90) base) = some .illFormedDescriptor := by decide
-- V-GEO2 and V-GEO6, as the rule alone
theorem test_checkGeometry : field diag (exec (.checkGeometry 1 2 0x21) base) = some (true, 0x02, 0x21) ∧
    field diag (exec (.checkGeometry 6 2 0x26) base) = some (false, 0, 0) := by decide
-- R22, R91: a step of an idle SEQ takes the command word of the host
theorem test_step_command :
    field (fun s => (s.cmd, s.arg0, s.arg1)) (step { base with
      hostq := [{ format := .cmd, bytes := [0x01, 0x0E, 0x07] }] }) = some (0x01, 0x0E, 0x07) ∧
    field (fun s => (s.result, s.resultAux, s.hostq.length)) (step { base with
      hostq := [{ format := .cmd, bytes := [0x01, 0x0E, 0x07] }] }) = some (0, 0xF9, 0) := by decide
-- U17: a command word that arrives while a command runs starts nothing
theorem test_step_busy : field (fun s => (s.cmd, s.pos.label))
    (step { running .flashImage .fiLaunch with
      sched := [.env (.host { format := .cmd, bytes := [0x01, 0x0E, 0x07] })] }) = some (0x01, .fiLaunch) := by decide
theorem test_step_fetched : field (fun s => s.lockDepth) (step (State.reset.withFetchWord 8 0x83)) = some 1 := by decide

/-! ## Witnesses: for each obligation with hypotheses, a state and operands that meet them, clause by clause

An obligation whose only hypothesis is `s.halted = false` has the witness `witness_live`; one without hypotheses has
none. -/

theorem idle_base : Idle base := ⟨rfl, rfl⟩
theorem legal_base : LegalParams base.par := ⟨by decide, by decide⟩
/-- No byte of the settings is a slot index from 15 on. -/
theorem slots_le {v : Byte} (h : 15 ≤ v.toNat) : base.par.sramSlots ≤ v.toNat := h

/-- OperandUnitsWriteTheirRegister, LockLaunchAndPersistPrimitives (at depths 254, 255, 1, 0), SerialAndMaskPrimitives,
RxIrqEnableSetsRxie, UserInterfacePrimitives, WorkTickAndTextOutChangeNothing. -/
theorem witness_live : base.halted = false ∧
    (254 < 255 ∧ { base with lockDepth := 254 }.halted = false) ∧ { base with lockDepth := 255 }.lockDepth = 255 ∧
    0 < { base with lockDepth := 1 }.lockDepth ∧ base.lockDepth = 0 ∧
    { base with rxq := [0x41] }.rxq = 0x41 :: [] ∧ base.rxq = [] := by decide

theorem witness_EncodedInstructionsDecodeBack :
    ((Instr.writeSlot [] 5 0x80 (2 ^ 24 - 1) 0).fits = true ∧ (Instr.writeSlot [] 5 0x80 (2 ^ 24 - 1) 0).format ≠ .internal) ∧
    (Instr.erase 0xFF 0xFF).fits = true ∧ (Instr.erase 0xFF 0xFF).format ≠ .internal := by decide

theorem witness_DecodedBytesAreTheEncoding : decode .port [0x83, 0x07] = .instr .unlock [0x07] ∧
    ∀ buffer ps bank offset length, Instr.unlock ≠ .readSlot buffer ps bank offset length := by
  exact ⟨rfl, fun _ _ _ _ _ h => Instr.noConfusion h⟩

theorem witness_ReservedCodesAreRefused :
    (0x40 : Byte) ∈ ([0x01, 0x10, 0x11, 0x12, 0x13, 0x14, 0x20, 0x21, 0x22, 0x23, 0x30, 0x31, 0x32, 0x40] : List Byte) ∧
    (0x41 : Byte) ∉ ([0x01, 0x10, 0x11, 0x12, 0x13, 0x14, 0x20, 0x21, 0x22, 0x23, 0x30, 0x31, 0x32, 0x40] : List Byte) ∧
    ∃ s : State, Quiet s ∧ Idle s ∧ s.hostq = { format := .cmd, bytes := [0x41, 0, 0] } :: [] := by
  refine ⟨by decide, by decide, { base with hostq := [{ format := .cmd, bytes := [0x41, 0, 0] }] }, rfl, ⟨rfl, rfl⟩, rfl⟩

/-- The first clause at 0x80, 0x17 and 0x71; each disjunct of the second, at the first value outside. -/
theorem witness_DecodeOsGivesOffsetAndSize : base.halted = false ∧
    (∀ os ∈ ([0x80, 0x17, 0x71] : List Byte),
      1 ≤ os.toNat / 16 ∧ os.toNat / 16 ≤ 8 ∧ os.toNat % 16 ≤ 7 ∧ os.toNat % 16 + os.toNat / 16 ≤ 8) ∧
    ∀ os ∈ ([0x07, 0x90, 0x18, 0x81, 0x72] : List Byte),
      os.toNat / 16 = 0 ∨ 8 < os.toNat / 16 ∨ 7 < os.toNat % 16 ∨ 8 < os.toNat % 16 + os.toNat / 16 := by decide

theorem witness_CheckGeometryHaltsOnOddOnly : base.halted = false ∧
    (1 % 2 = 1 ∨ 0 % 2 = 1) ∧ (8 % 2 = 1 ∨ 7 % 2 = 1) ∧ (8 % 2 = 0 ∧ 0 % 2 = 0) := by decide

/-- Both sides of the limit: bank 0xF9 (slot 14), bank 0xFA (slot 15). -/
theorem witness_ResolvedBanksAreDistinctAndBelowLimit :
    (7 < 8 ∧ bankNumber false 14 7 = bankNumber false 14 7) ∧ (7 < 8 ∧ 0 < 8 ∧ 14 * 8 + 7 < 15 * 8 + 0) ∧
    bankNumber false 14 7 = 0xF9 ∧ bankNumber false 15 0 = 0xFA := by decide

theorem witness_PairsAreAlignedAndTheCarveOutIsSpared :
    (14 < 15 ∧ 3 < 8 ∧ SameGranule .pair 0xF3 (BitVec.ofNat 8 (bankNumber false 14 3))) ∧
    (14 < 15 ∧ 4 < 8 ∧ SameGranule .bank 0xF6 (BitVec.ofNat 8 (bankNumber false 14 4))) := by
  refine ⟨⟨by decide, by decide, ?_⟩, by decide, by decide, ?_⟩ <;> rfl

/-- Slot 14, sub-bank 7 is bank 0xF9; with 16 slots, slot 15, sub-bank 0 is bank 0xFA. -/
theorem witness_ResolveBankCommand :
    (Idle base ∧ (14 : Byte).toNat < base.par.sramSlots ∧ (7 : Byte).toNat ≤ 7 ∧
      0xF9 = 0x80 + (14 : Byte).toNat * 8 + (7 : Byte).toNat +
        (if base.w.legacyLayout = false ∧ 0xF4 ≤ 0x80 + (14 : Byte).toNat * 8 + (7 : Byte).toNat then 2 else 0) ∧
      0xF9 < 0xFA) ∧
    ∃ s : State, Idle s ∧ (15 : Byte).toNat < s.par.sramSlots ∧ (0 : Byte).toNat ≤ 7 ∧
      0xFA = 0x80 + (15 : Byte).toNat * 8 + (0 : Byte).toNat +
        (if s.w.legacyLayout = false ∧ 0xF4 ≤ 0x80 + (15 : Byte).toNat * 8 + (0 : Byte).toNat then 2 else 0) ∧
      0xFA ≤ 0xFA :=
  ⟨⟨⟨rfl, rfl⟩, by decide, by decide, by decide, by decide⟩,
    { base with par := { base.par with sramSlots := 16 } }, ⟨rfl, rfl⟩, by decide, by decide, by decide, by decide⟩

theorem witness_CommandsStartOnlyWhenIdle :
    ((Instr.recvStart 0 0).format = .cmd ∧ { base with halted := true }.halted = true) ∧
    (Instr.flashImage 0 0).format = .cmd ∧ (polling []).pos.label ≠ .idle := by decide

/-- Each clause at the first value it covers. -/
theorem witness_RefusedWhereTheSpecRefuses : Idle base ∧
    7 < (8 : Byte).toNat ∧ ((7 : Byte).toNat ≤ 7 ∧ base.par.sramSlots ≤ (15 : Byte).toNat) ∧
    ((14 : Byte).toNat < base.par.sramSlots ∧ osOk 0x81 = false) ∧
    -- away from a slot: an ill-formed stored descriptor, to NONE; a good one, to slot 14 with an ill-formed one
    (Idle (withSettings 2 0x00) ∧ LegalParams (withSettings 2 0x00).par ∧
      (withSettings 2 0x00).w.activeSlot.toNat < (withSettings 2 0x00).par.sramSlots ∧
      ¬ (0xFF = (withSettings 2 0x00).w.activeSlot ∧ 0x80 = (withSettings 2 0x00).w.activeOs) ∧
      (0xFF : Byte) = 0xFF ∧ osOk (withSettings 2 0x00).w.activeOs = false) ∧
    (Idle (withSettings 2 0x80) ∧ LegalParams (withSettings 2 0x80).par ∧
      (withSettings 2 0x80).w.activeSlot.toNat < (withSettings 2 0x80).par.sramSlots ∧
      ¬ (14 = (withSettings 2 0x80).w.activeSlot ∧ 0x81 = (withSettings 2 0x80).w.activeOs) ∧
      (14 : Byte).toNat < (withSettings 2 0x80).par.sramSlots ∧ osOk 0x81 = false) ∧
    -- from NONE
    (Idle (withSettings 0xFF 0x00) ∧ LegalParams (withSettings 0xFF 0x00).par ∧
      (withSettings 0xFF 0x00).w.activeSlot = 0xFF ∧
      (14 : Byte).toNat < (withSettings 0xFF 0x00).par.sramSlots ∧ osOk 0x81 = false) ∧
    (osOk 0x80 = true ∧ base.par.sramSlots ≤ (0xFD : Byte).toNat ∧ (0xFD : Byte) ≠ 0xFF ∧ (0xFD : Byte) ≠ 0xFE) ∧
    base.portOpen = false ∧ base.xmPhase ≠ .awaitBlock ∧ base.xmPhase ≠ .sending ∧
    (withSettings 14 0x80).w.activeSlot.toNat < (withSettings 14 0x80).par.sramSlots ∧
    base.lockDepth = 0 ∧ { base with lockDepth := 1 }.lockDepth ≠ 0 ∧ 65536 < 65535 + 2 ∧
    (65535 + 1 ≤ 65536 ∧ ([] : List Byte).length ≠ 1) ∧
    65279 + 257 ≤ 65536 ∧ Buf.pageBuf ≠ .xferBuf ∧ Buf.cmpBuf ≠ .xferBuf ∧ 256 < 257 :=
  ⟨idle_base, by decide, by decide, by decide, ⟨⟨rfl, rfl⟩, legal_base, by decide⟩, ⟨⟨rfl, rfl⟩, legal_base, by decide⟩,
    ⟨⟨rfl, rfl⟩, legal_base, by decide⟩, by decide⟩

theorem witness_HaltIsLeftOnlyByReset : ∃ s t : State, s.halted = true ∧ ¬ PowerNext s ∧ step s = .next t ∧
    t.rxq = [0x41] := by
  refine ⟨{ base with halted := true, sched := [.env (.peer 0x41)] }, _, rfl, ?_, rfl, rfl⟩
  rintro ⟨_, _, _, h⟩
  simp at h

theorem witness_EraseBankErasesTheWholeGranule : ∃ s : State, s.halted = false ∧ s.lockDepth ≠ 0 ∧
    SameGranule s.par.granule 0x87 0x86 ∧ 65535 < 65536 :=
  ⟨{ base with lockDepth := 1 }, rfl, by decide, rfl, by decide⟩

theorem witness_WriteSlotStoresOldAndNew : ∃ s : State, s.halted = false ∧ s.lockDepth ≠ 0 ∧
    65535 + 1 ≤ 65536 ∧ ([0x3C] : List Byte).length = 1 ∧ 0 < 1 :=
  ⟨{ base with lockDepth := 1 }, rfl, by decide⟩

theorem witness_ReadSlotFillsOnlyItsBuffer : base.halted = false ∧ 65280 + 256 ≤ 65536 ∧ 256 ≤ 256 ∧ 255 < 256 := by
  decide

theorem witness_HaltWaitReturnsAtAnInterrupt : ∃ s t u : State, (s.halted = false ∧ t.halted = false ∧ u.halted = false) ∧
    (s.rxie = true ∧ s.rxq ≠ []) ∧ t.tickPending = true ∧ (u.rxie = false ∨ u.rxq = []) ∧ u.tickPending = false :=
  ⟨{ base with rxie := true, rxq := [0x15] }, { base with tickPending := true }, base, by decide⟩

theorem witness_WireUnitsAreTakenOrKept :
    ((polling []).halted = false ∧ (polling []).pos.label = .rcGet) ∧
    ∃ s : State, s.halted = false ∧ s.pos.label ≠ .rcGet ∧ s.pos.label ≠ .sdGet ∧
      ∀ d, s.par.rxDepth = some d → s.rxq.length + 132 ≤ d ∧ s.overrun = false := by
  refine ⟨⟨rfl, rfl⟩, { base with par := { base.par with rxDepth := some 133 }, rxq := [0x41] }, rfl, by decide,
    by decide, ?_⟩
  intro d h
  cases h
  decide

theorem witness_EveryLeadingByteTakesItsPath : Quiet (polling [0x18]) ∧ (polling [0x18]).halted = false ∧
    (polling [0x18]).pos.label = .rcGet ∧ (polling [0x18]).rxq = 0x18 :: [] := ⟨rfl, rfl, rfl, rfl⟩

/-- The three commands, with the retry counter at 8, at 9. -/
theorem witness_EveryReplyByteTakesItsPath : ∀ c ∈ [Cmd.sendStart, .sendBlock, .sendFinish], ∀ b : Byte,
    ∀ retry ∈ ([8, 9] : List Byte), ∃ s : State, Quiet s ∧ s.halted = false ∧ s.pos.label = .sdGet ∧ s.rxq = b :: [] ∧
      s.pos.cmd = some c ∧ s.xmRetry = retry :=
  fun c _ b retry _ => ⟨{ running c .sdGet with rxq := [b], xmRetry := retry }, rfl, rfl, rfl, rfl, rfl, rfl⟩

/-- A command word at an idle SEQ, while a command runs, after a halt. -/
theorem witness_IdleStepRunsTheDecodedInstruction : (∃ s : State, Quiet s ∧ Idle s ∧
    s.hostq = { format := .cmd, bytes := [0x22, 0, 0] } :: [] ∧ decode .cmd [0x22, 0, 0] = .instr (.recvStart 0 0) []) ∧
    ∀ down : Bool, ∃ s : State, s.sched = .env (.host { format := .cmd, bytes := 0x22 :: 1 :: 2 :: [] }) :: [] ∧
      s.halted = down ∧ s.pos.label ≠ .idle :=
  ⟨⟨{ base with hostq := [{ format := .cmd, bytes := [0x22, 0, 0] }] }, rfl, ⟨rfl, rfl⟩, rfl, rfl⟩,
    fun down => ⟨{ running .flashImage .fiLaunch with
      halted := down, sched := [.env (.host { format := .cmd, bytes := [0x22, 1, 2] })] }, rfl, rfl, nofun⟩⟩

theorem witness_RunningStepIssuesOnePrimitive : Quiet (polling []) ∧ (polling []).halted = false ∧
    (polling []).pos.label ≠ .idle ∧ want (polling []) = .prim (.port .getcNb) := ⟨rfl, rfl, by decide, rfl⟩

theorem witness_OpenAndCloseThePort : Quiet base ∧ Idle base := ⟨rfl, rfl, rfl⟩

theorem witness_RecvStartOpensASession : (Idle base ∧ base.portOpen = false) ∧
    Idle { base with portOpen := true } ∧ { base with portOpen := true }.portOpen = true :=
  ⟨⟨⟨rfl, rfl⟩, rfl⟩, ⟨rfl, rfl⟩, rfl⟩

/-- A base state between commands, in a receive session, with a line. -/
def session (retry : Byte) (rxq : List Byte) : State := { base with
  portOpen := true, xmPhase := .awaitBlock, xmSeq := 1, xmRetry := retry, rxq := rxq }

/-- A block of 128 bytes `0x02`: its sum is 256, so its checksum is 0. -/
def twos : Vector Byte 128 := Vector.replicate 128 0x02

set_option maxRecDepth 8000 in
/-- Checksum 0 is right and checksum 1 is wrong; the retry counter at 9 is the last the second clause covers. -/
theorem witness_RecvBlockChecksTheSum : ∀ ck : Byte, ∃ s : State, Quiet s ∧ Idle s ∧ s.xmPhase = .awaitBlock ∧
    s.cancelKey = false ∧ s.rxq = 0x01 :: s.xmSeq :: (255 - s.xmSeq) :: (twos.toList ++ ck :: []) ∧
    s.xmRetry.toNat < 10 ∧ (0 : Byte).toNat = (twos.toList.map BitVec.toNat).sum % 256 ∧
    (1 : Byte).toNat ≠ (twos.toList.map BitVec.toNat).sum % 256 :=
  fun ck => ⟨session 9 (0x01 :: 0x01 :: (255 - 1) :: (twos.toList ++ [ck])), rfl, ⟨rfl, rfl⟩, rfl, rfl, rfl,
    (by decide : (9 : Byte).toNat < 10), by decide, by decide⟩

/-- The key; `CAN`; `EOT`; a wrong number; a wrong complement. -/
theorem witness_RecvBlockOtherEnds : (∀ q, Quiet (session 1 q) ∧ Idle (session 1 q) ∧
      (session 1 q).xmPhase = .awaitBlock ∧ (session 1 q).cancelKey = false ∧ (session 1 q).rxq = q) ∧
    (∃ s : State, Quiet s ∧ Idle s ∧ s.xmPhase = .awaitBlock ∧ s.cancelKey = true) ∧
    (2 : Byte) ≠ (session 1 []).xmSeq ∧ (0xFF : Byte) ≠ 255 - 1 :=
  ⟨fun _ => ⟨rfl, ⟨rfl, rfl⟩, rfl, rfl, rfl⟩, ⟨{ session 1 [] with cancelKey := true }, rfl, ⟨rfl, rfl⟩, rfl, rfl⟩,
    by decide, by decide⟩

set_option maxRecDepth 8000 in
theorem badUnit_stray : BadUnit 1 [0x55] := .inl ⟨0x55, by decide, by decide, by decide, rfl⟩

set_option maxRecDepth 8000 in
theorem badUnit_checksum : BadUnit 1 (0x01 :: 0x01 :: 0xFE :: (twos.toList ++ [0x01])) :=
  .inr ⟨twos, 0x01, by decide, rfl⟩

/-- Ten failures on the first block, eleven after a good one, and ten followed by a good frame. -/
theorem witness_BadUnitsAreRetriedUntilTheEleventh :
    (∀ retry : Byte, ∀ q, Quiet (session retry q) ∧ Idle (session retry q) ∧ (session retry q).xmPhase = .awaitBlock ∧
      (session retry q).cancelKey = false ∧ (session retry q).xmSeq = 1 ∧ (session retry q).xmRetry = retry ∧
      (session retry q).rxq = q) ∧
    (∀ unit ∈ List.replicate 10 ([0x55] : List Byte), BadUnit 1 unit) ∧
    (1 : Byte).toNat + (List.replicate 10 ([0x55] : List Byte)).length = 11 ∧
    (∀ unit ∈ List.replicate 11 ([0x55] : List Byte), BadUnit 1 unit) ∧
    (0 : Byte).toNat + (List.replicate 11 ([0x55] : List Byte)).length = 11 ∧
    (0 : Byte).toNat + (List.replicate 10 ([0x55] : List Byte)).length ≤ 10 :=
  ⟨fun _ _ => ⟨rfl, ⟨rfl, rfl⟩, rfl, rfl, rfl, rfl, rfl⟩, fun _ h => (List.eq_of_mem_replicate h) ▸ badUnit_stray,
    by decide, fun _ h => (List.eq_of_mem_replicate h) ▸ badUnit_stray, by decide, by decide⟩

/-- Each wait of the receive side and of the send side; SEND_FINISH's with the key down. -/
theorem witness_SilentPeerKeepsTheCommandRunning :
    (∀ c ∈ [Cmd.recvBlock, .sendStart, .sendBlock, .sendFinish],
      ∀ l ∈ [Label.rcSeq, .rcNseq, .rcData, .rcCheck, .rcPoll, .rcGet, .sdPoll, .sdGet, .sdHalt],
      ∃ s : State, Quiet s ∧ s.halted = false ∧ s.rxq = [] ∧ s.pos.cmd = some c ∧ s.pos.label = l ∧ s.cancelKey = false) ∧
    ∀ l ∈ [Label.sdGet, .sdHalt], ∃ s : State, Quiet s ∧ s.halted = false ∧ s.rxq = [] ∧
      s.pos.cmd = some .sendFinish ∧ s.pos.label = l ∧ s.cancelKey = true :=
  ⟨fun c _ l _ => ⟨running c l, rfl, rfl, rfl, rfl, rfl, rfl⟩,
    fun l _ => ⟨{ running .sendFinish l with cancelKey := true }, rfl, rfl, rfl, rfl, rfl, rfl⟩⟩

theorem witness_SendStartWaitsForNak : (∀ c ∈ ([0x06, 0x14, 0x16, 0x00, 0xFF] : List Byte), c ≠ 0x15 ∧ c ≠ 0x18) ∧
    ∀ (key : Bool) (q : List Byte), ∃ s : State, Quiet s ∧ Idle s ∧ s.portOpen = true ∧ s.cancelKey = key ∧ s.rxq = q :=
  ⟨by decide, fun key q => ⟨{ base with portOpen := true, cancelKey := key, rxq := q }, rfl, ⟨rfl, rfl⟩, rfl, rfl, rfl⟩⟩

/-- SendBlockTransmitsUntilAcked and SendFinishTransmitsEotUntilAcked, with nine `NAK`s, with ten. -/
theorem witness_SendBlockTransmitsUntilAcked : ∀ (key : Bool) (q : List Byte), ∃ s : State, Quiet s ∧ Idle s ∧
    s.xmPhase = .sending ∧ s.cancelKey = key ∧ s.rxq = q ∧ 9 ≤ 9 :=
  fun key q => ⟨{ base with portOpen := true, xmPhase := .sending, cancelKey := key, rxq := q }, rfl, ⟨rfl, rfl⟩, rfl,
    rfl, rfl, by decide⟩

theorem witness_SendFinishTransmitsEotUntilAcked (key : Bool) (q : List Byte) : ∃ s : State, Quiet s ∧ Idle s ∧
    s.xmPhase = .sending ∧ s.rxq = q ∧ 9 ≤ 9 :=
  let ⟨s, h⟩ := witness_SendBlockTransmitsUntilAcked key q
  ⟨s, h.1, h.2.1, h.2.2.1, h.2.2.2.2⟩

theorem quiet_withSettings (slot os : Byte) : Quiet (withSettings slot os) ∧ Idle (withSettings slot os) ∧
    LegalParams (withSettings slot os).par ∧ (withSettings slot os).defects = [] ∧ (withSettings slot os).lockDepth < 255 :=
  ⟨rfl, ⟨rfl, rfl⟩, legal_base, rfl, (by decide : 0 < 255)⟩

/-- The active save again; NONE on a first boot; NONE to NONE; the adoption of slot 0, of a byte that is no slot, and of
FIRST_BOOT with another descriptor. -/
theorem witness_SwitchesThatMoveNothing :
    (1 = (withSettings 1 0x80).w.activeSlot ∧ 0x80 = (withSettings 1 0x80).w.activeOs) ∧
    (withSettings 0xFD 0).w.activeSlot = 0xFD ∧ (withSettings 0xFF 0).w.activeSlot = 0xFF ∧
    (∀ slot ∈ ([0, 0xFE] : List Byte), ¬ (slot = 0xFD ∧ 0x80 = (withSettings 0xFD 0).w.activeOs) ∧ slot ≠ 0xFF) ∧
    ¬ ((0xFD : Byte) = 0xFD ∧ 0x80 = (withSettings 0xFD 0).w.activeOs) ∧ (0xFD : Byte) ≠ 0xFF := by decide

theorem witness_SwitchHaltsOnABadSlot :
    (Idle (withSettings 0xFF 0x80) ∧ ¬ (15 = (withSettings 0xFF 0x80).w.activeSlot ∧ 0x80 = (withSettings 0xFF 0x80).w.activeOs) ∧
      (withSettings 0xFF 0x80).w.activeSlot ≠ 0xFD ∧ (withSettings 0xFF 0x80).par.sramSlots ≤ (15 : Byte).toNat ∧
      (15 : Byte) ≠ 0xFF) ∧
    Idle (withSettings 15 0x80) ∧ ¬ (14 = (withSettings 15 0x80).w.activeSlot ∧ 0x80 = (withSettings 15 0x80).w.activeOs) ∧
      (withSettings 15 0x80).w.activeSlot ≠ 0xFD ∧ (14 : Byte).toNat < (withSettings 15 0x80).par.sramSlots ∧
      (withSettings 15 0x80).par.sramSlots ≤ (withSettings 15 0x80).w.activeSlot.toNat ∧
      (withSettings 15 0x80).w.activeSlot ≠ 0xFF :=
  ⟨⟨⟨rfl, rfl⟩, by decide⟩, ⟨rfl, rfl⟩, by decide⟩

/-- The old region is offset 6, size 2, or offset 7, size 1; the new one the whole slot 14. -/
theorem witness_SwitchEvictsThenLoads : (∀ slot os : Byte, Quiet (withSettings slot os) ∧ Idle (withSettings slot os) ∧
      LegalParams (withSettings slot os).par ∧ (withSettings slot os).defects = [] ∧
      (withSettings slot os).lockDepth < 255) ∧
    (withSettings 0 0x26).w.activeSlot.toNat < (withSettings 0 0x26).par.sramSlots ∧
    (14 : Byte).toNat < (withSettings 0 0x26).par.sramSlots ∧
    ¬ (14 = (withSettings 0 0x26).w.activeSlot ∧ 0x80 = (withSettings 0 0x26).w.activeOs) ∧
    6 = (withSettings 0 0x26).w.activeOs.toNat % 16 ∧ 2 = (withSettings 0 0x26).w.activeOs.toNat / 16 ∧
    1 ≤ 2 ∧ 6 + 2 ≤ 8 ∧ 6 % 2 = 0 ∧ 2 % 2 = 0 ∧
    (withSettings 0 0x17).w.activeSlot.toNat < (withSettings 0 0x17).par.sramSlots ∧
    ¬ (14 = (withSettings 0 0x17).w.activeSlot ∧ 0x80 = (withSettings 0 0x17).w.activeOs) ∧
    7 = (withSettings 0 0x17).w.activeOs.toNat % 16 ∧ (withSettings 0 0x17).w.activeOs.toNat / 16 = 1 ∧ 7 ≤ 7 ∧
    0 = (0x80 : Byte).toNat % 16 ∧ 8 = (0x80 : Byte).toNat / 16 ∧ 1 ≤ 8 ∧ 0 + 8 ≤ 8 :=
  ⟨quiet_withSettings, by decide⟩

theorem witness_SwitchToAndFromNone : (∀ slot os : Byte, Quiet (withSettings slot os) ∧ Idle (withSettings slot os) ∧
      LegalParams (withSettings slot os).par ∧ (withSettings slot os).defects = [] ∧
      (withSettings slot os).lockDepth < 255) ∧
    ((withSettings 14 0x80).w.activeSlot.toNat < (withSettings 14 0x80).par.sramSlots ∧
      0 = (withSettings 14 0x80).w.activeOs.toNat % 16 ∧ 8 = (withSettings 14 0x80).w.activeOs.toNat / 16 ∧
      1 ≤ 8 ∧ 0 + 8 ≤ 8 ∧ 0 % 2 = 0 ∧ 8 % 2 = 0) ∧
    ((withSettings 14 0x17).w.activeSlot.toNat < (withSettings 14 0x17).par.sramSlots ∧
      7 = (withSettings 14 0x17).w.activeOs.toNat % 16 ∧ (withSettings 14 0x17).w.activeOs.toNat / 16 = 1 ∧ 7 ≤ 7) ∧
    (withSettings 0xFF 0).w.activeSlot = 0xFF ∧ (14 : Byte).toNat < (withSettings 0xFF 0).par.sramSlots ∧
      7 = (0x17 : Byte).toNat % 16 ∧ 1 = (0x17 : Byte).toNat / 16 ∧ 1 ≤ 1 ∧ 7 + 1 ≤ 8 :=
  ⟨quiet_withSettings, by decide⟩

theorem witness_ProgramMakesTheRegionEqualToRam : Quiet base ∧ Idle base ∧ LegalParams base.par ∧
    base.defects = [] ∧ base.lockDepth < 255 ∧ (14 : Byte).toNat < base.par.sramSlots ∧
    6 = (0x26 : Byte).toNat % 16 ∧ 2 = (0x26 : Byte).toNat / 16 ∧
    1 ≤ 2 ∧ 6 + 2 ≤ 8 ∧ 6 % 2 = 0 ∧ 2 % 2 = 0 :=
  ⟨rfl, idle_base, legal_base, rfl, by decide⟩

theorem witness_OddGeometryHaltsBeforeFlashIsTouched : Idle (withSettings 14 0x53) ∧
    LegalParams (withSettings 14 0x53).par ∧ (14 : Byte).toNat < (withSettings 14 0x53).par.sramSlots ∧
    (3 = (0x53 : Byte).toNat % 16 ∧ 5 = (0x53 : Byte).toNat / 16 ∧ 2 ≤ 5 ∧ 3 + 5 ≤ 8 ∧ (3 % 2 = 1 ∨ 5 % 2 = 1)) ∧
    (1 = (0x21 : Byte).toNat % 16 ∧ 2 = (0x21 : Byte).toNat / 16 ∧ 2 ≤ 2 ∧ 1 + 2 ≤ 8 ∧ (1 % 2 = 1 ∨ 2 % 2 = 1)) ∧
    (withSettings 14 0x53).w.activeSlot = 14 ∧ (withSettings 14 0x53).w.activeOs = 0x53 ∧
    ¬ ((14 : Byte) = 14 ∧ (0x80 : Byte) = 0x53) ∧
    ((14 : Byte) = 0xFF ∨ (14 : Byte).toNat < (withSettings 14 0x53).par.sramSlots ∧ osOk 0x80 = true) ∧
    ¬ ((0xFF : Byte) = 14 ∧ (0x00 : Byte) = 0x53) ∧
    ((0xFF : Byte) = 0xFF ∨ (0xFF : Byte).toNat < (withSettings 14 0x53).par.sramSlots ∧ osOk 0x00 = true) :=
  ⟨⟨rfl, rfl⟩, legal_base, by decide⟩

/-- Both halves of a pair. -/
theorem witness_ProgramOfSizeOneRewritesThePair : Quiet base ∧ Idle base ∧ LegalParams base.par ∧
    base.defects = [] ∧ base.lockDepth < 255 ∧ (14 : Byte).toNat < base.par.sramSlots ∧
    ((0x17 : Byte).toNat / 16 = 1 ∧ 7 = (0x17 : Byte).toNat % 16 ∧ 7 ≤ 7) ∧
    (0x10 : Byte).toNat / 16 = 1 ∧ 0 = (0x10 : Byte).toNat % 16 ∧ 0 ≤ 7 :=
  ⟨rfl, idle_base, legal_base, rfl, by decide⟩

theorem witness_RestoreMakesRamEqualToTheRegion : Quiet base ∧ Idle base ∧ LegalParams base.par ∧
    base.defects = [] ∧ base.lockDepth < 255 ∧ (14 : Byte).toNat < base.par.sramSlots ∧
    7 = (0x17 : Byte).toNat % 16 ∧ 1 = (0x17 : Byte).toNat / 16 ∧
    1 ≤ 1 ∧ 7 + 1 ≤ 8 :=
  ⟨rfl, idle_base, legal_base, rfl, by decide⟩

theorem witness_ProgramThenRestoreGivesBackRam : Quiet base ∧ Idle base ∧ LegalParams base.par ∧
    base.defects = [] ∧ base.lockDepth < 255 ∧ (14 : Byte).toNat < base.par.sramSlots ∧
    (5 = (0x15 : Byte).toNat % 16 ∧ 1 = (0x15 : Byte).toNat / 16 ∧ 1 ≤ 1 ∧ 5 + 1 ≤ 8 ∧ (1 = 1 ∨ 5 % 2 = 0 ∧ 1 % 2 = 0)) ∧
    0 = (0x80 : Byte).toNat % 16 ∧ 8 = (0x80 : Byte).toNat / 16 ∧ 1 ≤ 8 ∧ 0 + 8 ≤ 8 ∧ (8 = 1 ∨ 0 % 2 = 0 ∧ 8 % 2 = 0) :=
  ⟨rfl, idle_base, legal_base, rfl, by decide⟩

/-- ALL with 15 slots, and one slot; the region is the odd one of V-ER. -/
theorem witness_EraseModes : Quiet base ∧ Idle base ∧ LegalParams base.par ∧
    base.defects = [] ∧ base.lockDepth < 255 ∧ (14 : Byte).toNat < base.par.sramSlots ∧
    3 = (0x13 : Byte).toNat % 16 ∧ 1 = (0x13 : Byte).toNat / 16 ∧ 1 ≤ 1 ∧ 3 + 1 ≤ 8 ∧
    (((0xFE : Byte).toNat < base.par.sramSlots ∧ 0 = (0xFE : Byte).toNat ∧ 15 = 1) ∨
      ((0xFE : Byte) = 0xFE ∧ 0 = 0 ∧ 15 = base.par.sramSlots)) ∧
    (((14 : Byte).toNat < base.par.sramSlots ∧ 14 = (14 : Byte).toNat ∧ 1 = 1) ∨
      ((14 : Byte) = 0xFE ∧ 14 = 0 ∧ 1 = base.par.sramSlots)) :=
  ⟨rfl, idle_base, legal_base, rfl, by decide⟩

/-- A staging buffer of which every byte is written, and a cell of the last page that shows a defect. -/
def staged (defect : Byte) : State := { base with
  stg := { fill := .byte 0x5A, cells := [] }, defects := [(flashAddr 0 5 0xF5 65535, defect)] }

theorem staged_known (defect : Byte) : ∀ off < 65536, (staged defect).stg.known off = true := fun _ _ => rfl

theorem staged_defect (defect : Byte) (off : Nat) (v : Byte)
    (h : findCell (staged defect).defects (flashAddr 0 (staged defect).launchSlot (staged defect).par.biosBank off) = some v) :
    off = 65535 ∧ v = defect := by
  have h' : (if flashAddr 0 5 0xF5 65535 = flashAddr 0 5 0xF5 off then some defect else none) = some v := h
  split at h'
  · simp only [flashAddr] at *
    exact ⟨by omega, by simpa using h'.symm⟩
  · simp at h'

theorem witness_FlashImageCommitsTheStagingBuffer : ∃ s : State, Quiet s ∧ Idle s ∧ s.lockDepth < 255 ∧
    (∀ off < 65536, s.stg.known off = true) ∧
    (∀ off < 65536, ∀ v, findCell s.defects (flashAddr 0 s.launchSlot s.par.biosBank off) = some v → v = s.stg.get off) ∧
    s.defects ≠ [] :=
  ⟨staged 0x5A, rfl, ⟨rfl, rfl⟩, by decide, staged_known _, fun off _ v h => (staged_defect _ off v h).2, by decide⟩

/-- The defect stands in the last byte of page 255. -/
theorem witness_VerifyMismatchHaltsAtTheFirstBadPage : ∃ s : State, Quiet s ∧ Idle s ∧ s.lockDepth < 255 ∧
    (∀ off < 65536, s.stg.known off = true) ∧ 255 < 256 ∧
    findCell s.defects (flashAddr 0 s.launchSlot s.par.biosBank (256 * 255 + 255)) = some 0x00 ∧
    0x00 ≠ s.stg.get (256 * 255 + 255) ∧
    ∀ off < 256 * 255, ∀ w, findCell s.defects (flashAddr 0 s.launchSlot s.par.biosBank off) = some w →
      w = s.stg.get off :=
  ⟨staged 0x00, rfl, ⟨rfl, rfl⟩, by decide, staged_known _, by decide, if_pos rfl, by decide, fun off hb v h =>
    absurd (staged_defect _ off v h).1 (by omega)⟩

/-- No block, and 512 of them. -/
theorem witness_InstallReceiveDecodesAndPads : ∀ n ∈ [0, 1, 512], ∃ (s : State) (blocks : List (Vector Byte 128)),
    blocks.length = n ∧ Quiet s ∧ Idle s ∧ s.par.sramSlots ≤ s.w.activeSlot.toNat ∧ s.cancelKey = false ∧
    s.par.delta = .stated ∧ blocks.length ≤ 512 ∧
    s.rxq = framesFrom 1 blocks ++ (if blocks.length < 512 then 0x04 :: [] else []) := by
  intro n hn
  refine ⟨{ withSettings 15 0x80 with
      rxq := framesFrom 1 (List.replicate n twos) ++ (if (List.replicate n twos).length < 512 then 0x04 :: [] else []) },
    List.replicate n twos, List.length_replicate, rfl, ⟨rfl, rfl⟩, slots_le (v := 15) (by decide), rfl, rfl, ?_, rfl⟩
  rw [List.length_replicate]
  simp only [List.mem_cons, List.not_mem_nil, or_false] at hn
  omega

set_option maxRecDepth 8000 in
theorem badUnit_late : BadUnit (1 + BitVec.ofNat 8 511) [0x55] := .inl ⟨0x55, by decide, by decide, by decide, rfl⟩

/-- 511 good blocks; a wrong number and a wrong complement; ten bad units, and eleven after 511 blocks; the key at a
poll. -/
theorem witness_FailedInstallTouchesNoFlash :
    (∀ (key : Bool) (q : List Byte), ∃ s : State, Quiet s ∧ Idle s ∧ s.par.sramSlots ≤ s.w.activeSlot.toNat ∧
      s.par.delta = .stated ∧ s.cancelKey = key ∧ s.rxq = q) ∧
    (List.replicate 511 twos).length < 512 ∧ List.replicate 511 twos ≠ [] ∧
    ((0x01 : Byte) ≠ 1 + BitVec.ofNat 8 511 ∧ (0x00 : Byte) = 1 + BitVec.ofNat 8 511 ∧ (0xFE : Byte) ≠ 255 - 0) ∧
    (List.replicate 10 ([0x55] : List Byte)).length = 10 ∧
    (∀ unit ∈ List.replicate 10 ([0x55] : List Byte), BadUnit 1 unit) ∧
    (List.replicate 11 ([0x55] : List Byte)).length = 11 ∧
    (∀ unit ∈ List.replicate 11 ([0x55] : List Byte), BadUnit (1 + BitVec.ofNat 8 (List.replicate 511 twos).length) unit) ∧
    ∃ s : State, Quiet s ∧ s.halted = false ∧ s.pos.cmd = some .installReceive ∧ s.pos.label = .rcPoll ∧
      s.cancelKey = true := by
  refine ⟨fun key q => ⟨{ withSettings 0xFF 0x80 with cancelKey := key, rxq := q }, rfl, ⟨rfl, rfl⟩,
      slots_le (v := 0xFF) (by decide), rfl, rfl, rfl⟩, by rw [List.length_replicate]; decide, List.cons_ne_nil _ _,
    by decide, by decide, fun _ h => (List.eq_of_mem_replicate h) ▸ badUnit_stray, by decide, fun _ h => ?_,
    { running .installReceive .rcPoll with cancelKey := true }, rfl, rfl, rfl, rfl, rfl⟩
  rw [List.length_replicate, List.eq_of_mem_replicate h]
  exact badUnit_late

/-- The clean-up after `ERROR` returns; after the 512th block it goes on to the trailer; the trailer returns; `CAN` enters
the clean-up. -/
theorem witness_InstallEndsOnlyThroughCleanup :
    (∃ s t : State, Quiet s ∧ s.halted = false ∧ s.pos.cmd = some .installReceive ∧ s.pos.label.receiving = true ∧
      step s = .next t ∧ t.pos.label = .idle ∧ s.pos.label = .inClose) ∧
    (∃ s t : State, Quiet s ∧ s.halted = false ∧ s.pos.cmd = some .installReceive ∧ s.pos.label.receiving = true ∧
      step s = .next t ∧ t.pos.label = .inTrailer) ∧
    (∃ s t : State, Quiet s ∧ s.halted = false ∧ s.pos.cmd = some .installReceive ∧ s.pos.label.receiving = true ∧
      step s = .next t ∧ t.pos.label = .inClose) := by
  refine ⟨⟨{ running .installReceive .inClose with vars := { base.vars with status := .error } }, _, rfl, rfl, rfl, rfl,
    rfl, rfl, rfl⟩, ⟨{ running .installReceive .inClose with blkCount := 512 }, _, rfl, rfl, rfl, rfl, rfl, rfl⟩,
    ⟨running .installReceive .rcCancel, _, rfl, rfl, rfl, rfl, rfl, rfl⟩⟩

theorem base_memInv : MemInv base := ⟨⟨.nil, nofun⟩, ⟨.nil, nofun⟩, ⟨.nil, nofun⟩⟩

/-- The step runs `write_slot` and leaves a listed byte of flash. -/
theorem witness_EveryStepKeepsMemoryCanonical : ∃ s t : State, MemInv s ∧ step s = .next t ∧ t.flash ≠ s.flash :=
  ⟨{ base with lockDepth := 1, hostq := [{ format := .port, bytes := [0x81, 5, 0x80, 9, 0, 0, 1, 0, 0, 0x3C] }] }, _,
    base_memInv, rfl, by decide⟩

/-- A command word waits, or one runs: the flash batch is open and interrupts are unmasked. -/
theorem seqInv_withSettings (slot os : Byte) (q : List HostUnit) : SeqInv { withSettings slot os with hostq := q } where
  params := legal_base
  lock := rfl
  mask := rfl
  saved := fun _ => rfl
  region := nofun
  upgrade := nofun
  slots := nofun
  target := fun h => by simp [withSettings, base, State.reset, Label.evicting] at h

/-- `s` is the state in which FLASH_IMAGE reads page 0 back, and it differs from `PAGEBUF`. -/
theorem seqInv_fiRead : SeqInv { running .flashImage .fiRead with lockDepth := 1 } where
  params := legal_base
  lock := rfl
  mask := rfl
  saved := fun _ => rfl
  region := nofun
  upgrade := nofun
  slots := nofun
  target := fun h => by simp [running, base, State.reset, Label.evicting] at h

theorem witness_EveryStepKeepsTheSequencerInvariant : ∃ s t : State, SeqInv s ∧ CommandsOnly s ∧ step s = .next t ∧
    t.pos.label = .pgLaunch :=
  ⟨{ withSettings 0 0x80 with hostq := [{ format := .cmd, bytes := [0x11, 0x0E, 0x80] }] }, _,
    seqInv_withSettings _ _ _, ⟨by simp, by simp [withSettings, base, State.reset]⟩, rfl, rfl⟩

set_option maxRecDepth 20000 in
/-- The three causes: an odd geometry, a bad slot, a mismatch. -/
theorem witness_CommandsAloneReachThreeFatalCauses : ∀ code ∈ ([0x02, 0x03, 0x06] : List Byte), ∃ s t : State,
    SeqInv s ∧ CommandsOnly s ∧ s.halted = false ∧ step s = .next t ∧ t.halted = true ∧ t.diagCode = code := by
  intro code h
  simp only [List.mem_cons, List.not_mem_nil, or_false] at h
  rcases h with rfl | rfl | rfl
  · exact ⟨{ withSettings 0 0x80 with hostq := [{ format := .cmd, bytes := [0x11, 0x0E, 0x30] }] }, _,
      seqInv_withSettings _ _ _, ⟨by simp, by simp [withSettings, base, State.reset]⟩, rfl, rfl, rfl, rfl⟩
  · exact ⟨{ withSettings 0xFF 0x80 with hostq := [{ format := .cmd, bytes := [0x10, 0x0F, 0x30] }] }, _,
      seqInv_withSettings _ _ _, ⟨by simp, by simp [withSettings, base, State.reset]⟩, rfl, rfl, rfl, rfl⟩
  · exact ⟨{ running .flashImage .fiRead with lockDepth := 1 }, _, seqInv_fiRead,
      ⟨by simp [running, base, State.reset], by simp [running, base, State.reset]⟩, rfl, rfl, rfl, rfl⟩

theorem witness_LockedFlashNeverChanges : ∃ s t : State, s.lockDepth = 0 ∧ step s = .next t ∧ t.lockDepth = 1 :=
  ⟨{ base with hostq := [{ format := .port, bytes := [0x83] }] }, _, rfl, rfl, rfl⟩

/-- The record changes at SEQ's `persist()` and at the host's direct call. -/
theorem witness_PersistedSettingsChangeOnlyByPersist :
    (∃ s t : State, step s = .next t ∧ t.p ≠ s.p ∧ s.pos.label.saving = true) ∧
    ∃ s t : State, step s = .next t ∧ t.p ≠ s.p ∧ s.pos.label = .idle :=
  ⟨⟨{ running .switchToSlot .swAdopt with w := (withSettings 1 0x80).w }, _, rfl, by decide, rfl⟩,
    ⟨{ base with w := (withSettings 1 0x80).w, hostq := [{ format := .port, bytes := [0x86] }] }, _, rfl, by decide, rfl⟩⟩

/-- SEQ running, and SEQ idle with a command first in the host's queue. -/
theorem witness_CancelKeyIsReadOnlyWherePolled :
    ((polling [0x01]).pos.label ≠ .rcPoll ∧ (polling [0x01]).pos.label ≠ .sdPoll ∧
      (polling [0x01]).pos.label ≠ .idle) ∧
    ∃ s : State, s.pos.label = .idle ∧ s.pos.label ≠ .rcPoll ∧ s.pos.label ≠ .sdPoll ∧
      s.hostq = { format := .cmd, bytes := [0x22, 0, 0] } :: [] ∧
      ∀ (u : HostUnit) (q : List HostUnit) (rest : List Byte), s.pos.label = .idle → s.hostq = u :: q →
        decode u.format u.bytes ≠ .instr .pollCancel rest := by
  refine ⟨by decide, { base with hostq := [{ format := .cmd, bytes := [0x22, 0, 0] }] }, rfl, by decide, by decide, rfl,
    fun u q rest _ h hd => ?_⟩
  have hu : u = { format := .cmd, bytes := [0x22, 0, 0] } := (List.cons.inj h).1.symm
  rw [hu] at hd
  exact Instr.noConfusion (Decoded.instr.inj (hd : Decoded.instr (.recvStart 0 0) [] = _)).1

end Sys2Proof.Tests
end

section
/-! PROOF. R66: the persisted settings are written by `persist()` alone. Rules for what an outcome ensures; what each
update of the state, each instruction, each primitive and each turn does to `P`; then the statement. -/

namespace Sys2Proof.Machine

/-! ## What an outcome ensures -/

/-- If the outcome is a next state, the state has the property. -/
def Ensures (post : State → Prop) : Outcome → Prop
  | .next t => post t
  | .fault _ => True
  | .refused _ => True

section Rules

variable {post post' : State → Prop} {o : Outcome} {s t : State}

@[simp] theorem ensures_next : Ensures post (.next t) ↔ post t := Iff.rfl

@[simp] theorem ensures_fault (r : Fault) : Ensures post (.fault r) := trivial

@[simp] theorem ensures_refused (r : Refusal) : Ensures post (.refused r) := trivial

theorem Ensures.of_eq_next (h : Ensures post o) (ho : o = .next t) : post t := ensures_next.1 (ho ▸ h)

theorem Ensures.mono (h : Ensures post o) (hp : ∀ t, post t → post' t) : Ensures post' o := by
  cases o with
  | next t => exact hp t h
  | fault r => exact ensures_fault r
  | refused r => exact ensures_refused r

/-- A halted machine stays as it is; otherwise the operation decides. -/
theorem ensures_whenLive (hs : post s) (ho : Ensures post o) : Ensures post (whenLive s o) := by
  unfold whenLive
  split
  · exact ensures_next.2 hs
  · exact ho

/-- A command that does not start leaves the state as it is; otherwise its body decides. -/
theorem ensures_startCommand {c : Cmd} {a0 a1 : Byte} {body : State → Outcome} (hs : post s)
    (hb : Ensures post (body { s with
      pos := { cmd := some c, label := .idle, i := 0, p := 0 }, vars := { s.vars with a0 := a0, a1 := a1 } })) :
    Ensures post (startCommand c a0 a1 s body) := by
  unfold startCommand
  split
  · exact ensures_next.2 hs
  · exact hb

/-- After a primitive SEQ stays where it is or goes on. -/
theorem ensures_afterPrim (ho : Ensures post o) (hr : ∀ t, post t → Ensures post (resume t)) :
    Ensures post (afterPrim o) := by
  cases o with
  | next t =>
    simp only [afterPrim]
    split
    · exact ensures_next.2 ho
    · exact hr t ho
  | fault r => exact ensures_fault r
  | refused r => exact ensures_refused r

end Rules

/-! ## Updates of the state that leave `P` -/

section Updates

@[simp] theorem ite_p (c : Prop) [Decidable c] (s t : State) :
    (if c then s else t).p = if c then s.p else t.p := apply_ite State.p c s t

variable (s : State)

@[simp] theorem fillBuf_p (b : Buf) (data : List Byte) : (fillBuf b data s).p = s.p := by cases b <;> rfl

@[simp] theorem pushRx_p (b : Byte) : (pushRx b s).p = s.p := by
  unfold pushRx
  split <;> simp

@[simp] theorem pushRxAll_p (bs : List Byte) : (pushRxAll bs s).p = s.p := by
  induction bs generalizing s with
  | nil => rfl
  | cons b bs ih => rw [pushRxAll, ih, pushRx_p]

@[simp] theorem powerUp_p (launch : Byte) : (powerUp launch s).p = s.p := rfl

@[simp] theorem recvEnd_p (r : Status) : (recvEnd r s).p = s.p := by simp [recvEnd]

@[simp] theorem sendEnd_p (r : Status) : (sendEnd r s).p = s.p := rfl

@[simp] theorem sendWait_p : (sendWait s).p = s.p := by simp [sendWait]

@[simp] theorem sendTransmit_p : (sendTransmit s).p = s.p := by simp [sendTransmit]

@[simp] theorem sendNak_p : (sendNak s).p = s.p := by simp [sendNak]

@[simp] theorem sendReply_p (c : Byte) : (sendReply c s).p = s.p := by simp [sendReply]

@[simp] theorem recvLeading_p (c : Byte) : (recvLeading c s).p = s.p := by simp [recvLeading]

@[simp] theorem takeLeading_p (c : Byte) : (takeLeading c s).p = s.p := by
  unfold takeLeading
  split <;> simp

@[simp] theorem beginInstall_p : (beginInstall s).p = s.p := rfl

@[simp] theorem blockStored_p : (blockStored s).p = s.p := by simp [blockStored]

@[simp] theorem installCleanup_p : (installCleanup s).p = s.p := by simp [installCleanup]

@[simp] theorem enterProgram_p : (enterProgram s).p = s.p := by simp [enterProgram]

@[simp] theorem beginProgram_p (slot os : Byte) (offset size : Nat) :
    (beginProgram slot os offset size s).p = s.p := by simp [beginProgram]

@[simp] theorem beginRestore_p (slot os : Byte) (offset size : Nat) :
    (beginRestore slot os offset size s).p = s.p := rfl

@[simp] theorem beginEraseSlots_p (first : Byte) (count : Nat) : (beginEraseSlots first count s).p = s.p := rfl

@[simp] theorem upgraded_p : (upgraded s).p = s.p := enterProgram_p _

@[simp] theorem programDone_p : (programDone s).p = s.p := by simp [programDone]

@[simp] theorem restoreDone_p : (restoreDone s).p = s.p := by simp [restoreDone]

@[simp] theorem headerRead_p (b : Byte) : (headerRead b s).p = s.p := by simp [headerRead]

@[simp] theorem dataRead_p (b : Byte) : (dataRead b s).p = s.p := by simp [dataRead]

@[simp] theorem checksumRead_p (b : Byte) : (checksumRead b s).p = s.p := by simp [checksumRead]

@[simp] theorem badUnit_p : (badUnit s).p = s.p := by simp [badUnit]

@[simp] theorem writeCommandRegisters_p (u : HostUnit) : (writeCommandRegisters u s).p = s.p := by
  simp [writeCommandRegisters]

@[simp] theorem writeCommandRegisters_w (u : HostUnit) : (writeCommandRegisters u s).w = s.w := by
  unfold writeCommandRegisters
  split <;> rfl

end Updates

/-! ## Instructions and primitives -/

section Instructions

variable {s : State}

theorem execResolveBank_p (slot subBank : Byte) : Ensures (·.p = s.p) (execResolveBank slot subBank s) := by
  refine ensures_startCommand rfl ?_
  split
  · simp
  split
  · simp
  · dsimp only
    split <;> simp

theorem switchBody_p (slot os : Byte) : Ensures (·.p = s.p) (switchBody slot os s) := by
  unfold switchBody
  dsimp only
  split
  · split
    · simp
    · split <;> simp
  · split
    · simp
    · split <;> simp

theorem execSwitchToSlot_p (slot os : Byte) : Ensures (·.p = s.p) (execSwitchToSlot slot os s) := by
  refine ensures_startCommand rfl ?_
  dsimp only
  split
  · simp
  split
  · split <;> simp
  split
  · simp
  split
  · simp
  · exact switchBody_p slot os

theorem execProgramToFlash_p (slot os : Byte) : Ensures (·.p = s.p) (execProgramToFlash slot os s) := by
  refine ensures_startCommand rfl ?_
  split
  · simp
  · split <;> simp

theorem execRestoreFromFlash_p (slot os : Byte) : Ensures (·.p = s.p) (execRestoreFromFlash slot os s) := by
  refine ensures_startCommand rfl ?_
  split
  · simp
  · split <;> simp

theorem execErase_p (target os : Byte) : Ensures (·.p = s.p) (execErase target os s) := by
  refine ensures_startCommand rfl ?_
  split
  · simp
  · dsimp only
    split
    · simp
    split
    · simp
    · split <;> simp

theorem execFlashImage_p (a0 a1 : Byte) : Ensures (·.p = s.p) (execFlashImage a0 a1 s) :=
  ensures_startCommand rfl rfl

theorem execXmOpen_p (a0 a1 : Byte) : Ensures (·.p = s.p) (execXmOpen a0 a1 s) := ensures_startCommand rfl rfl

theorem execXmClose_p (a0 a1 : Byte) : Ensures (·.p = s.p) (execXmClose a0 a1 s) := ensures_startCommand rfl rfl

theorem execRecvStart_p (a0 a1 : Byte) : Ensures (·.p = s.p) (execRecvStart a0 a1 s) :=
  ensures_startCommand rfl (by split <;> simp)

theorem execRecvBlock_p (a0 a1 : Byte) : Ensures (·.p = s.p) (execRecvBlock a0 a1 s) :=
  ensures_startCommand rfl (by split <;> simp)

theorem execSendStart_p (a0 a1 : Byte) : Ensures (·.p = s.p) (execSendStart a0 a1 s) :=
  ensures_startCommand rfl (by split <;> simp)

theorem execSendBlock_p (a0 a1 : Byte) : Ensures (·.p = s.p) (execSendBlock a0 a1 s) :=
  ensures_startCommand rfl (by split <;> simp)

theorem execSendFinish_p (a0 a1 : Byte) : Ensures (·.p = s.p) (execSendFinish a0 a1 s) :=
  ensures_startCommand rfl (by split <;> simp)

theorem execInstallReceive_p (a0 a1 : Byte) : Ensures (·.p = s.p) (execInstallReceive a0 a1 s) :=
  ensures_startCommand rfl (by split <;> simp)

/-- What an instruction does to `P`: only `persist()` writes it, with the working copy (R66, R146). -/
theorem exec_p (i : Instr) (s : State) :
    Ensures (fun t => t.p = s.p ∨ i = .persist ∧ t.p = s.w) (exec i s) := by
  have kept {o : Outcome} (ho : Ensures (·.p = s.p) o) :
      Ensures (fun t => t.p = s.p ∨ i = .persist ∧ t.p = s.w) o := ho.mono fun _ => .inl
  have live {o : Outcome} (ho : Ensures (·.p = s.p) o) :
      Ensures (fun t => t.p = s.p ∨ i = .persist ∧ t.p = s.w) (whenLive s o) := kept (ensures_whenLive rfl ho)
  cases i with
  | persist => exact ensures_whenLive (.inl rfl) (.inr ⟨rfl, rfl⟩)
  | resolveBank slot subBank => exact kept (execResolveBank_p slot subBank)
  | switchToSlot slot os => exact kept (execSwitchToSlot_p slot os)
  | programToFlash slot os => exact kept (execProgramToFlash_p slot os)
  | restoreFromFlash slot os => exact kept (execRestoreFromFlash_p slot os)
  | erase target os => exact kept (execErase_p target os)
  | flashImage a0 a1 => exact kept (execFlashImage_p a0 a1)
  | xmOpen a0 a1 => exact kept (execXmOpen_p a0 a1)
  | xmClose a0 a1 => exact kept (execXmClose_p a0 a1)
  | recvStart a0 a1 => exact kept (execRecvStart_p a0 a1)
  | recvBlock a0 a1 => exact kept (execRecvBlock_p a0 a1)
  | sendStart a0 a1 => exact kept (execSendStart_p a0 a1)
  | sendBlock a0 a1 => exact kept (execSendBlock_p a0 a1)
  | sendFinish a0 a1 => exact kept (execSendFinish_p a0 a1)
  | installReceive a0 a1 => exact kept (execInstallReceive_p a0 a1)
  | eraseBank | unlock | lock | getc | getcNb | haltWait | frame | decodeOs | checkGeometry =>
    refine live ?_
    split <;> simp
  | writeSlot =>
    refine live ?_
    split
    · simp
    split
    · simp
    · split <;> simp
  | readSlot =>
    refine live ?_
    split
    · simp
    · split <;> simp
  | soh | eot | ack | nak | can => exact live (takeLeading_p s _)
  | getLaunchSlot | putc | serialOpen | serialClose | rxIrqEnable | irqMask | irqUnmask | pollCancel
  | progressInit | progressDraw | workTick | textOut | os | slotv => exact live rfl

theorem exec_p_of_ne_persist {i : Instr} (hi : i ≠ .persist) : Ensures (·.p = s.p) (exec i s) :=
  (exec_p i s).mono fun _ ht => ht.resolve_right fun h => hi h.1

theorem sramLoad_p (rb off n : Nat) : Ensures (·.p = s.p) (sramLoad rb off n s) := by
  unfold sramLoad
  split <;> simp

theorem sramStore_p (rb off : Nat) (data : List Byte) : Ensures (·.p = s.p) (sramStore rb off data s) := by
  unfold sramStore
  split <;> simp

theorem stgLoad_p (off n : Nat) : Ensures (·.p = s.p) (stgLoad off n s) := by
  unfold stgLoad
  split
  · split <;> simp
  · simp

theorem stgStore_p (off : Nat) (data : List Byte) : Ensures (·.p = s.p) (stgStore off data s) := by
  unfold stgStore
  split <;> simp

theorem primRun_p (pr : Prim) (s : State) :
    Ensures (fun t => t.p = s.p ∨ pr = .port .persist ∧ t.p = s.w) (pr.run s) := by
  cases pr with
  | port i => exact (exec_p i s).mono fun t => Or.imp_right fun ⟨hi, ht⟩ => ⟨congrArg Prim.port hi, ht⟩
  | sramLoad rb off n => exact (sramLoad_p rb off n).mono fun _ => .inl
  | sramStore rb off data => exact (sramStore_p rb off data).mono fun _ => .inl
  | stgLoad off n => exact (stgLoad_p off n).mono fun _ => .inl
  | stgStore off data => exact (stgStore_p off data).mono fun _ => .inl

end Instructions

/-! ## Where `persist()` is issued -/

theorem commandOf_ne_persist (code a0 a1 : Byte) : commandOf code a0 a1 ≠ some .persist := by
  unfold commandOf
  split <;> simp

theorem shortPort_persist {label : Byte} {args rest : List Byte} (h : shortPort label args = .instr .persist rest) :
    label = 0x86 := by
  unfold shortPort at h
  split at h
  case h_4 hl => exact BitVec.eq_of_toNat_eq hl
  all_goals cases h

theorem decodeWriteSlot_ne_persist (bytes rest : List Byte) : decodeWriteSlot bytes ≠ .instr .persist rest := by
  unfold decodeWriteSlot
  split
  · dsimp only
    split <;> simp
  · simp

theorem decodeReadSlot_ne_persist (bytes rest : List Byte) : decodeReadSlot bytes ≠ .instr .persist rest := by
  unfold decodeReadSlot
  split <;> simp

theorem decodeTextOut_ne_persist (bytes rest : List Byte) : decodeTextOut bytes ≠ .instr .persist rest := by
  unfold decodeTextOut
  split
  · dsimp only
    split <;> simp
  · simp

theorem decodePort_persist {bytes rest : List Byte} (h : decodePort bytes = .instr .persist rest) :
    bytes.head? = some 0x86 := by
  cases bytes with
  | nil => cases h
  | cons label args =>
    simp only [decodePort] at h
    split at h
    · split at h <;> cases h
    split at h
    · exact absurd h (decodeWriteSlot_ne_persist args rest)
    split at h
    · exact absurd h (decodeReadSlot_ne_persist args rest)
    split at h
    · exact absurd h (decodeTextOut_ne_persist args rest)
    · exact congrArg some (shortPort_persist h)

/-- Only the PORT label `0x86` decodes to `persist()` (R100). -/
theorem decode_persist {f : Format} {bytes rest : List Byte} (h : decode f bytes = .instr .persist rest) :
    f = .port ∧ bytes.head? = some 0x86 := by
  cases f with
  | port => exact ⟨rfl, decodePort_persist h⟩
  | cmd =>
    simp only [decode, decodeCmd] at h
    split at h
    · split at h
      · rename_i hc
        cases h
        exact absurd hc (commandOf_ne_persist _ _ _)
      · cases h
    · cases h
  | slotv | os => cases bytes <;> cases h
  | wire1 =>
    cases bytes with
    | nil => cases h
    | cons b bs =>
      simp only [decode, decodeWire] at h
      repeat' split at h
      all_goals cases h
  | frame =>
    simp only [decode, decodeFrame] at h
    repeat' split at h
    all_goals cases h
  | internal => cases h

/-- The unit is a direct call of `persist()`. -/
def HostUnit.callsPersist (u : HostUnit) : Prop := u.format = .port ∧ u.bytes.head? = some 0x86

/-- A primitive on a bank is the one asked for, on some bank. -/
theorem onBank_prim {s : State} {slot subBank : Nat} {k : Byte → Prim} {pr : Prim}
    (h : onBank s slot subBank k = .prim pr) : ∃ b, k b = pr := by
  unfold onBank at h
  dsimp only at h
  split at h
  · cases h
  · exact ⟨_, Want.prim.inj h⟩

/-- SEQ issues `persist()` only at the points that follow a write of `W` (R171). -/
theorem want_persist {s : State} (h : want s = .prim (.port .persist)) : s.pos.label.saving = true := by
  cases hl : s.pos.label with
  | swAdopt | swPersistNone | swPersistNew => rfl
  | upRead | pgErase | pgCompare | pgWrite | rsRead | esErase =>
    simp only [want, hl] at h
    obtain ⟨b, hb⟩ := onBank_prim h
    cases hb
  | _ => simp [want, hl] at h

/-! ## The sequencer's and the host's steps -/

theorem takeUnitFromLine_p (c : Byte) (s : State) : Ensures (·.p = s.p) (takeUnitFromLine c s) := by
  unfold takeUnitFromLine
  split
  · rename_i hd
    refine exec_p_of_ne_persist ?_
    rintro rfl
    exact nomatch (decode_persist hd).1
  · split
    · rename_i hd
      refine exec_p_of_ne_persist ?_
      rintro rfl
      exact nomatch (decode_persist hd).1
    · simp

theorem switchLoad_p (s : State) : Ensures (·.p = s.p) (switchLoad s) := by
  unfold switchLoad
  split
  · simp
  · split <;> simp

theorem resume_p (s : State) : Ensures (·.p = s.p) (resume s) := by
  cases hl : s.pos.label with
  | swPersistNone =>
    simp only [resume, hl]
    exact switchLoad_p s
  | rcGet | sdGet =>
    simp only [resume, hl]
    split
    · simp
    · exact takeUnitFromLine_p _ s
  | _ => simp [resume, hl]

theorem runStep_p (s : State) :
    Ensures (fun t => t.p = s.p ∨ s.pos.label.saving = true ∧ t.p = s.w) (runStep s) := by
  unfold runStep
  split
  · exact .inl rfl
  · exact .inl rfl
  · rename_i pr hw
    refine ensures_afterPrim ((primRun_p pr s).mono fun t => Or.imp_right ?_) fun t ht => ?_
    · rintro ⟨rfl, ht⟩
      exact ⟨want_persist hw, ht⟩
    · exact (resume_p t).mono fun u hu => hu.symm ▸ ht

theorem takeUnit_p (u : HostUnit) (s : State) :
    Ensures (fun t => t.p = s.p ∨ u.callsPersist ∧ t.p = s.w) (takeUnit u s) := by
  unfold takeUnit
  split
  · simp
  · rename_i i rest hd
    have hx := exec_p i (writeCommandRegisters u { s with ret := .done })
    split
    · rename_i t ht
      have hp : t.p = s.p ∨ u.callsPersist ∧ t.p = s.w := by
        obtain hp | ⟨rfl, hp⟩ := hx.of_eq_next ht
        · exact .inl (by simpa using hp)
        · exact .inr ⟨decode_persist hd, by simpa using hp⟩
      split <;> exact hp
    · simp
    · simp

theorem hostMove_p (u : HostUnit) (s : State) :
    Ensures (fun t => t.p = s.p ∨ u.callsPersist ∧ t.p = s.w) (hostMove u s) := by
  unfold hostMove
  split
  · simp
  split
  · split
    · exact takeUnit_p u s
    · simp
  · exact takeUnit_p u s

/-- A call of `persist()` may be in progress: by SEQ, or by a unit of the host's queue. -/
def State.callsPersist (s : State) : Prop :=
  s.pos.label.saving = true ∨ ∃ u ∈ s.hostq, u.callsPersist

theorem seqTurn_p (s : State) : Ensures (fun t => t.p = s.p ∨ s.callsPersist ∧ t.p = s.w) (seqTurn s) := by
  unfold seqTurn
  split
  · simp
  split
  · exact (runStep_p s).mono fun t => Or.imp_right (And.imp_left .inl)
  · split
    · simp
    · rename_i u rest hq
      have hu : u ∈ s.hostq := hq ▸ List.mem_cons_self
      exact (takeUnit_p u { s with hostq := rest }).mono fun t =>
        Or.imp_right (And.imp_left fun h => .inr ⟨u, hu, h⟩)

theorem callsPersist_of_current {s : State} (h : current s = some (.port .persist)) : s.callsPersist := by
  unfold current at h
  split at h
  · cases h
  split at h
  · split at h
    · rename_i pr hw
      cases h
      exact .inl (want_persist hw)
    · cases h
  · split at h
    · rename_i u rest hq
      split at h
      · split at h
        · rename_i hf _ i _ hd
          cases h
          exact .inr ⟨u, hq ▸ List.mem_cons_self, hf, (decode_persist hd).2⟩
        · cases h
      · cases h
    · cases h

/-- A power loss damages `P` only inside `persist()`, and then `P` is the working copy (R302, R146). -/
theorem damage_p (persisted : Bool) (s : State) :
    (damage persisted s).p = s.p ∨ s.callsPersist ∧ (damage persisted s).p = s.w := by
  cases hc : current s with
  | none => exact .inl (by simp only [damage, hc])
  | some pr =>
    cases pr with
    | port i =>
      cases i with
      | persist =>
        simp only [damage, hc]
        split
        · exact .inr ⟨callsPersist_of_current hc, rfl⟩
        · exact .inl rfl
      | _ => exact .inl (by simp [damage, hc])
    | _ => exact .inl (by simp [damage, hc])

theorem powerLoss_p (cut : Cut) (launch : Byte) (s : State) :
    (powerLoss cut launch s).p = s.p ∨ s.callsPersist ∧ (powerLoss cut launch s).p = s.w := by
  cases cut with
  | between => exact .inl rfl
  | inside persisted => exact damage_p persisted s

theorem envMove_p (m : Move) (s : State) :
    Ensures (fun t => t.p = s.p ∨ (s.callsPersist ∨ ∃ u, m = .host u ∧ u.callsPersist) ∧ t.p = s.w)
      (envMove m s) := by
  cases m with
  | peer b => exact .inl (pushRx_p s b)
  | key | tick => exact .inl rfl
  | power cut launch => exact (powerLoss_p cut launch s).imp_right (And.imp_left .inl)
  | host u => exact (hostMove_p u s).mono fun t => Or.imp_right (And.imp_left fun h => .inr ⟨u, rfl, h⟩)
  | payload k b =>
    simp only [envMove]
    split <;> exact .inl rfl

/-- What a step does to `P` (R66): SEQ's turn, or the move of the agent that is scheduled. -/
theorem step_p (s : State) :
    Ensures (fun t => t.p = s.p ∨
      (s.callsPersist ∨ ∃ u, Turn.env (.host u) ∈ s.sched ∧ u.callsPersist) ∧ t.p = s.w) (step s) := by
  unfold step
  split
  · exact (seqTurn_p s).mono fun t => Or.imp_right (And.imp_left .inl)
  · rename_i rest _
    exact (seqTurn_p { s with sched := rest }).mono fun t => Or.imp_right (And.imp_left .inl)
  · rename_i m rest hs
    refine (envMove_p m { s with sched := rest }).mono fun t => Or.imp_right (And.imp_left (Or.imp_right ?_))
    rintro ⟨u, rfl, hu⟩
    exact ⟨u, hs ▸ List.mem_cons_self, hu⟩

/-- Settles O57: by what a step does to `P`. -/
theorem persistedSettingsChangeOnlyByPersist : Obligations.PersistedSettingsChangeOnlyByPersist := by
  intro s t h
  obtain hp | ⟨(hsave | ⟨u, hq, hf, hb⟩) | ⟨u, hs, hf, hb⟩, hp⟩ := (step_p s).of_eq_next h
  · exact .inl hp
  · exact .inr ⟨hp, .inl hsave⟩
  · exact .inr ⟨hp, .inr ⟨u, hf, hb, .inl hq⟩⟩
  · exact .inr ⟨hp, .inr ⟨u, hf, hb, .inr hs⟩⟩

end Sys2Proof.Machine
end

section
/-! PROOF. R123: CHECK_GEOMETRY halts on an odd geometry and does nothing on an even one. A rule for an operation on a
machine that has not halted, the meaning of the test, what `exec` answers for the instruction; then the statement. -/

namespace Sys2Proof.Machine

section Geometry

variable {s : State} {offset size : Nat}

/-- R42 does not stop an operation on a machine that has not halted. -/
theorem whenLive_of_not_halted (h : s.halted = false) (o : Outcome) : whenLive s o = o :=
  if_neg (by simp [h])

theorem oddGeometry_eq_true_iff : oddGeometry offset size = true ↔ size % 2 = 1 ∨ offset % 2 = 1 := by
  simp [oddGeometry, or_comm]

theorem not_oddGeometry_of_even (hs : size % 2 = 0) (ho : offset % 2 = 0) : ¬ oddGeometry offset size = true := by
  rw [oddGeometry_eq_true_iff]
  omega

/-- On a live machine the test alone decides (R123). -/
theorem exec_checkGeometry (h : s.halted = false) (offset size : Nat) (os : Byte) :
    exec (.checkGeometry offset size os) s =
      if oddGeometry offset size then .next (raiseFatal .oddGeometry os.toNat s) else .next s := by
  rw [exec, execCheckGeometry, whenLive_of_not_halted h]

/-- A fatal halt whose operand is a byte writes that byte, extended by zeros, to `DIAG_AUX` (R282). -/
theorem raiseFatal_toNat (code : FatalCode) (b : Byte) (s : State) :
    raiseFatal code b.toNat s = { s with halted := true, diagCode := code.code, diagAux := b.setWidth 16 } := by
  rw [raiseFatal, BitVec.ofNat_toNat]

end Geometry

/-- Settles O6: by the two outcomes of the test. -/
theorem checkGeometryHaltsOnOddOnly : Obligations.CheckGeometryHaltsOnOddOnly := by
  intro s offset size os h
  rw [exec_checkGeometry h]
  constructor
  · intro hodd
    rw [if_pos (oddGeometry_eq_true_iff.2 hodd), raiseFatal_toNat]
  · rintro ⟨hs, ho⟩
    exact if_neg (not_oddGeometry_of_even hs ho)

end Sys2Proof.Machine
end

section
/-! PROOF. R155, R160, R161: the port primitives that set `RXIE` or nothing at all. Each is an operation on a machine
that has not halted (R42), so its effect is what `exec` answers. -/

namespace Sys2Proof.Machine

section PortPrimitives

variable {s : State}

theorem exec_rxIrqEnable (h : s.halted = false) :
    exec .rxIrqEnable s = .next { s with rxie := true, ret := .done } := by
  rw [exec, execRxIrqEnable, whenLive_of_not_halted h]

theorem exec_workTick (h : s.halted = false) : exec .workTick s = .next { s with ret := .done } := by
  rw [exec, execWorkTick, whenLive_of_not_halted h]

theorem exec_textOut (h : s.halted = false) (message : List Byte) :
    exec (.textOut message) s = .next { s with ret := .done } := by
  rw [exec, execTextOut, whenLive_of_not_halted h]

end PortPrimitives

/-- Settles O19: by what `rx_irq_enable` answers on a live machine. -/
theorem rxIrqEnableSetsRxie : Obligations.RxIrqEnableSetsRxie :=
  fun _ => exec_rxIrqEnable

/-- Settles O22: by what the two primitives answer on a live machine. -/
theorem workTickAndTextOutChangeNothing : Obligations.WorkTickAndTextOutChangeNothing :=
  fun _ message h => ⟨exec_workTick h, exec_textOut h message⟩

end Sys2Proof.Machine
end

section
/-! PROOF. R202, R205: the start of a receive session, and the checksum test that accepts a frame or costs a retry. What
`exec` answers for RECV_START; the two runs from the priming byte through the test; then the statements. -/

namespace Sys2Proof.Machine

section Receive

variable {s : State}

theorem exec_recvStart_of_open (hi : Idle s) (ho : s.portOpen = true) (a0 a1 : Byte) :
    exec (.recvStart a0 a1) s = .next (finish .ok
      { s.started .recvStart a0 a1 with xmSeq := 1, xmRetry := 1, xmPhase := .awaitBlock }) := by
  rw [exec, execRecvStart, startCommand_idle hi]
  exact if_pos ho

theorem exec_recvStart_of_closed (hi : Idle s) (ho : s.portOpen = false) (a0 a1 : Byte) :
    exec (.recvStart a0 a1) s = .refused .portClosed := by
  rw [exec, execRecvStart, startCommand_idle hi]
  exact if_neg (by simp [ho])

/-- The checksum that SEQ sums up in a byte is the sum of R205, mod 256. -/
theorem eq_checksum8_iff {ck : Byte} {data : List Byte} :
    ck = checksum8 data ↔ ck.toNat = (data.map BitVec.toNat).sum % 256 := by
  rw [checksum8_eq, sum8, ← BitVec.toNat_inj, BitVec.toNat_ofNat]

/-- The counter is compared before it is stored in its byte (R207, log 31). -/
theorem badUnit_of_lt (h : s.xmRetry.toNat < 10) :
    badUnit s = goto .rcPrime 0 0 { s with xmRetry := s.xmRetry + 1 } := by
  have hlimit : ¬ Config.xmMaxRetry < s.xmRetry.toNat + 1 := by
    rw [Config.xmMaxRetry]
    omega
  have hbyte : BitVec.ofNat 8 (s.xmRetry.toNat + 1) = s.xmRetry + 1 := BitVec.eq_of_toNat_eq (by simp)
  rw [badUnit, if_neg hlimit, hbyte]

/-- A frame whose checksum is right ends RECV_BLOCK with `OK` (R205). -/
theorem acceptFrame_run (hq : Quiet s) (h : s.halted = false) (hp : s.pos.label = .rcPrime)
    (hcmd : s.pos.cmd ≠ some .installReceive) (hc : s.cancelKey = false) (data : Vector Byte 128) {rest : List Byte}
    (hr : s.rxq = goodFrame s.xmSeq data.toList ++ rest) :
    Runs s (finish .ok { s with
      txlog := s.txlog ++ [primingByte s.xmRetry], irqMask := false, rxq := rest, blockbuf := data, ret := .done
      xmSeq := s.xmSeq + 1, xmRetry := 0
      vars := { s.vars with seqByte := s.xmSeq, sum := checksum8 data.toList } }) := by
  refine (good_run hq h hp hc data hr).trans ?_
  refine Runs.cons hq h (by simp) (runStep_rcGood h rfl) ?_
  rw [if_neg (by exact hcmd)]
  exact Runs.refl _

/-- A frame whose checksum is wrong leads back to PRIME with one more retry, as long as fewer than 10 are counted; its
data bytes are in `BLOCKBUF` (R205, R207). -/
theorem rejectFrame_run (hq : Quiet s) (h : s.halted = false) (hp : s.pos.label = .rcPrime) (hc : s.cancelKey = false)
    (hretry : s.xmRetry.toNat < 10) (data : Vector Byte 128) {ck : Byte} (hck : ck ≠ checksum8 data.toList)
    {rest : List Byte}
    (hr : s.rxq = Config.SOH :: frameTail s.xmSeq (complement8 s.xmSeq) data.toList ck ++ rest) :
    Runs s (goto .rcPrime 0 0 { s with
      txlog := s.txlog ++ [primingByte s.xmRetry], irqMask := false, rxq := rest, blockbuf := data, ret := .done
      xmRetry := s.xmRetry + 1, vars := { s.vars with seqByte := s.xmSeq, sum := checksum8 data.toList } }) := by
  refine (frame_run hq h hp hc data ck hr).trans ?_
  rw [checksumRead, if_neg hck.symm]
  refine Runs.cons hq h (by simp) (runStep_rcBad h rfl) ?_
  rw [badUnit_of_lt (by exact hretry)]
  exact Runs.refl _

end Receive

/-- Settles O29: by what RECV_START answers with the port open and with it closed. -/
theorem recvStartOpensASession : Obligations.RecvStartOpensASession :=
  fun _ a0 a1 hi =>
    ⟨fun ho => ⟨_, exec_recvStart_of_open hi ho a0 a1, rfl⟩, fun ho => exec_recvStart_of_closed hi ho a0 a1⟩

/-- Settles O30: by the two runs from the start of RECV_BLOCK, told apart by the checksum byte. -/
theorem recvBlockChecksTheSum : Obligations.RecvBlockChecksTheSum := by
  intro s a0 a1 data ck rest hq hi hx hc hr
  have hframe : s.rxq = Config.SOH :: frameTail s.xmSeq (complement8 s.xmSeq) data.toList ck ++ rest := by
    simp [hr, frameTail, complement8_eq]
  constructor
  · intro hck
    obtain rfl := eq_checksum8_iff.2 hck
    exact ⟨_, _, exec_recvBlock hi hx a0 a1, acceptFrame_run (s := goto .rcPrime 0 0 (s.started .recvBlock a0 a1))
      hq hi.1 rfl (by simp) hc data hframe, rfl⟩
  · intro hck hretry
    exact ⟨_, _, exec_recvBlock hi hx a0 a1, rejectFrame_run (s := goto .rcPrime 0 0 (s.started .recvBlock a0 a1))
      hq hi.1 rfl hc hretry data (mt eq_checksum8_iff.1 hck) hframe, rfl⟩

end Sys2Proof.Machine
end

section
/-! PROOF. R255: INSTALL_RECEIVE ends only through its clean-up. Where one step of the command can lead (`InstallMove`),
that every point's step leads there; then the statement. -/

namespace Sys2Proof.Machine

/-- The points of INSTALL_RECEIVE up to the clean-up: opening, receiving a block, storing it (R250 I1, I2). -/
def Label.beforeCleanup : Label → Bool
  | .inClose | .inPad | .inTrailer => false
  | l => l.receiving

theorem Label.receiving_of_beforeCleanup {l : Label} (h : l.beforeCleanup = true) : l.receiving = true := by
  unfold Label.beforeCleanup at h
  split at h
  · cases h
  · cases h
  · cases h
  · exact h

theorem Label.ne_of_beforeCleanup {l l' : Label} (h : l.beforeCleanup = true) (h' : l'.beforeCleanup = false) :
    l ≠ l' := by
  rintro rfl
  exact absurd h (by simp [h'])

theorem Label.ne_idle_of_receiving {l : Label} (h : l.receiving = true) : l ≠ .idle := by
  rintro rfl
  cases h

/-- The five ways into the clean-up (R250). -/
def EntersCleanup (s t : State) : Prop :=
  (s.pos.label = .inStore ∧ 511 ≤ s.blkCount.toNat ∧ t.vars.status = .ok) ∨
    (s.pos.label = .rcEotAck ∧ t.vars.status = .complete) ∨
    (s.pos.label = .rcCancel ∧ t.vars.status = .cancel) ∨
    (s.pos.label = .rcSelf ∧ t.vars.status = .selfCancel) ∨
    (s.pos.label = .rcBad ∧ t.vars.status = .error)

/-- Where one step of a running INSTALL_RECEIVE can lead. -/
inductive InstallMove (s t : State) : Prop
  | goesOn (hcmd : t.pos.cmd = some .installReceive) (hl : t.pos.label.beforeCleanup = true)
  | cleansUp (hcmd : t.pos.cmd = some .installReceive) (hl : t.pos.label = .inClose) (hs : EntersCleanup s t)
  | fails (hl : t.pos.label = .idle) (hs : s.pos.label = .inClose) (hf : s.vars.status.failed = true)
      (hres : t.result = s.vars.status.code) (hport : t.portOpen = false) (hphase : t.xmPhase = .awaitStart)
  | finalises (hcmd : t.pos.cmd = some .installReceive) (hl : t.pos.label = .inPad ∨ t.pos.label = .inTrailer)
      (hs : s.pos.label = .inClose ∧ t.portOpen = false ∨ s.pos.label = .inPad)
  | completes (hl : t.pos.label = .idle) (hs : s.pos.label = .inTrailer) (hres : t.result = Status.complete.code)

/-- The failing results are the three that CLEANUP returns (R250). -/
theorem Status.failed_iff {r : Status} : r.failed = true ↔ r = .error ∨ r = .cancel ∨ r = .selfCancel := by
  cases r <;> decide

section Points

variable {s t : State}

theorem recvEnd_of_install (hcmd : s.pos.cmd = some .installReceive) (r : Status) :
    recvEnd r s = goto .inClose 0 0 { s with xmPhase := .awaitStart, vars := { s.vars with status := r } } :=
  if_pos hcmd

/-! ### The branches between two primitives -/

theorem recvLeading_installMove (c : Byte) (hcmd : t.pos.cmd = some .installReceive) :
    InstallMove s (recvLeading c t) := by
  unfold recvLeading
  split
  · exact .goesOn hcmd rfl
  split
  · exact .goesOn hcmd rfl
  split
  · exact .goesOn hcmd rfl
  · exact .goesOn hcmd rfl

theorem headerRead_installMove (nseq : Byte) (hcmd : t.pos.cmd = some .installReceive) :
    InstallMove s (headerRead nseq t) := by
  unfold headerRead
  split
  · exact .goesOn hcmd rfl
  · exact .goesOn hcmd rfl

theorem dataRead_installMove (b : Byte) (hcmd : t.pos.cmd = some .installReceive) :
    InstallMove s (dataRead b t) := by
  by_cases hmore : t.pos.p + 1 < 128
  · rw [dataRead_more hmore]
    exact .goesOn hcmd rfl
  · rw [dataRead_last hmore]
    exact .goesOn hcmd rfl

theorem checksumRead_installMove (ck : Byte) (hcmd : t.pos.cmd = some .installReceive) :
    InstallMove s (checksumRead ck t) := by
  unfold checksumRead
  split
  · exact .goesOn hcmd rfl
  · exact .goesOn hcmd rfl

/-- A bad unit is asked for again, or it was one too many and the clean-up follows with `ERROR` (R207). -/
theorem badUnit_installMove (hl : s.pos.label = .rcBad) (hcmd : t.pos.cmd = some .installReceive) :
    InstallMove s (badUnit t) := by
  unfold badUnit
  dsimp only
  split
  · rw [recvEnd_of_install (by exact hcmd)]
    exact .cleansUp hcmd rfl (.inr (.inr (.inr (.inr ⟨hl, rfl⟩))))
  · exact .goesOn hcmd rfl

/-- A stored block is followed by the next one, or it was the 512th and the clean-up follows with `OK` (R250 I2). -/
theorem blockStored_installMove (hl : s.pos.label = .inStore) (hcount : t.blkCount = s.blkCount)
    (hcmd : t.pos.cmd = some .installReceive) : InstallMove s (blockStored t) := by
  unfold blockStored
  dsimp only
  split
  · exact .goesOn hcmd rfl
  · rename_i hfull
    have hlast : 511 ≤ s.blkCount.toNat := by
      rw [hcount, Config.imageBlocks] at hfull
      omega
    exact .cleansUp hcmd rfl (.inl ⟨hl, hlast, rfl⟩)

/-- The clean-up returns a failing result, or finalises the image (R250 I3, I4). -/
theorem installCleanup_installMove (hl : s.pos.label = .inClose) (hstatus : t.vars.status = s.vars.status)
    (hport : t.portOpen = false) (hcmd : t.pos.cmd = some .installReceive) : InstallMove s (installCleanup t) := by
  unfold installCleanup
  dsimp only
  split
  · rename_i hfailed
    exact .fails rfl hl (hstatus ▸ hfailed) (congrArg Status.code hstatus) hport rfl
  split
  · exact .finalises hcmd (.inl rfl) (.inl ⟨hl, hport⟩)
  · exact .finalises hcmd (.inr rfl) (.inl ⟨hl, hport⟩)

/-! ### The step at each point -/

/-- A store to `STG` inside its bounds lets SEQ go on; outside it faults (R149, log 36). -/
theorem ensures_runStep_stgStore {post : State → Prop} {off : Nat} {data : List Byte} (h : s.halted = false)
    (hw : want s = .prim (.stgStore off data))
    (hr : Ensures post (resume { s with stg := s.stg.storeList off data, ret := .done })) :
    Ensures post (runStep s) := by
  simp only [runStep, hw, Prim.run, stgStore]
  split
  · simpa [afterPrim, h] using hr
  · exact ensures_fault _

/-- `getc()` leaves SEQ where it is while the line is empty (R150); so only a byte on the line has to be looked at. -/
theorem ensures_runStep_getc (h : s.halted = false) (hcmd : s.pos.cmd = some .installReceive)
    (hl : s.pos.label = .rcSeq ∨ s.pos.label = .rcNseq ∨ s.pos.label = .rcData ∨ s.pos.label = .rcCheck)
    (hbyte : ∀ c rest, s.rxq = c :: rest → Ensures (InstallMove s) (runStep s)) :
    Ensures (InstallMove s) (runStep s) := by
  cases hq : s.rxq with
  | nil =>
    rw [runStep_wait h hl hq]
    refine InstallMove.goesOn hcmd ?_
    rcases hl with hl | hl | hl | hl <;> exact hl ▸ rfl
  | cons c rest => exact hbyte c rest hq

/-- Every step of a running INSTALL_RECEIVE leads where `InstallMove` says. -/
theorem runStep_installMove (h : s.halted = false) (hcmd : s.pos.cmd = some .installReceive)
    (hrecv : s.pos.label.receiving = true) : Ensures (InstallMove s) (runStep s) := by
  cases hl : s.pos.label with
  | inOpen =>
    rw [runStep_inOpen h hl]
    exact .goesOn hcmd rfl
  | rcPrime =>
    rw [runStep_rcPrime h hl]
    exact .goesOn hcmd rfl
  | rcMask =>
    rw [runStep_rcMask h hl]
    exact .goesOn hcmd rfl
  | rcPoll =>
    rw [runStep_rcPoll h hl]
    split
    · exact .goesOn hcmd rfl
    · exact .goesOn hcmd rfl
  | rcGet =>
    cases hq : s.rxq with
    | nil =>
      rw [runStep_rcGet_empty h hl hq]
      exact .goesOn hcmd rfl
    | cons c rest =>
      rw [runStep_rcGet h hl hq]
      exact recvLeading_installMove c hcmd
  | rcSelf =>
    rw [runStep_rcSelf h hl, recvEnd_of_install (by exact hcmd)]
    exact .cleansUp hcmd rfl (.inr (.inr (.inr (.inl ⟨hl, rfl⟩))))
  | rcCancel =>
    rw [runStep_rcCancel h hl, recvEnd_of_install (by exact hcmd)]
    exact .cleansUp hcmd rfl (.inr (.inr (.inl ⟨hl, rfl⟩)))
  | rcEot =>
    rw [runStep_rcEot h hl]
    exact .goesOn hcmd rfl
  | rcEotAck =>
    rw [runStep_rcEotAck h hl, recvEnd_of_install (by exact hcmd)]
    exact .cleansUp hcmd rfl (.inr (.inl ⟨hl, rfl⟩))
  | rcSeq =>
    refine ensures_runStep_getc h hcmd (by simp [hl]) fun c rest hq => ?_
    rw [runStep_rcSeq h hl hq]
    exact .goesOn hcmd rfl
  | rcNseq =>
    refine ensures_runStep_getc h hcmd (by simp [hl]) fun c rest hq => ?_
    rw [runStep_rcNseq h hl hq]
    exact headerRead_installMove c hcmd
  | rcData =>
    refine ensures_runStep_getc h hcmd (by simp [hl]) fun c rest hq => ?_
    rw [runStep_rcData h hl hq]
    exact dataRead_installMove c hcmd
  | rcCheck =>
    refine ensures_runStep_getc h hcmd (by simp [hl]) fun c rest hq => ?_
    rw [runStep_rcCheck h hl hq]
    exact checksumRead_installMove c hcmd
  | rcGood =>
    rw [runStep_rcGood h hl, if_pos hcmd]
    exact .goesOn hcmd rfl
  | rcBad =>
    rw [runStep_rcBad h hl]
    exact badUnit_installMove hl hcmd
  | inStore =>
    refine ensures_runStep_stgStore h (by simp only [want, hl]; rfl) ?_
    simp only [resume, hl]
    split
    · exact .goesOn hcmd rfl
    · exact blockStored_installMove hl rfl hcmd
  | inClose =>
    rw [runStep_inClose h hl]
    exact installCleanup_installMove hl rfl rfl hcmd
  | inPad =>
    refine ensures_runStep_stgStore h (by simp only [want, hl]; rfl) ?_
    simp only [resume, hl]
    split
    · exact .finalises hcmd (.inl rfl) (.inr hl)
    · exact .finalises hcmd (.inr rfl) (.inr hl)
  | inTrailer =>
    rw [runStep_inTrailer h hl]
    exact .completes rfl hl rfl
  | _ => simp [hl, Label.receiving] at hrecv

/-- A failing result in `RESULT`, case by case. -/
theorem failing_result (hf : s.vars.status.failed = true) (hres : t.result = s.vars.status.code) :
    (s.vars.status = .error ∧ t.result = Status.error.code) ∨
      (s.vars.status = .cancel ∧ t.result = Status.cancel.code) ∨
      (s.vars.status = .selfCancel ∧ t.result = Status.selfCancel.code) := by
  obtain hr | hr | hr := Status.failed_iff.1 hf
  · exact .inl ⟨hr, hr ▸ hres⟩
  · exact .inr (.inl ⟨hr, hr ▸ hres⟩)
  · exact .inr (.inr ⟨hr, hr ▸ hres⟩)

end Points

/-- Settles O51: by where a step of the command can lead. -/
theorem installEndsOnlyThroughCleanup : Obligations.InstallEndsOnlyThroughCleanup := by
  intro s t hq h hcmd hrecv hstep
  rw [step_running hq h (Label.ne_idle_of_receiving hrecv)] at hstep
  cases (runStep_installMove h hcmd hrecv).of_eq_next hstep with
  | goesOn hc hl =>
    have hne {l : Label} (hf : l.beforeCleanup = false) : t.pos.label ≠ l := Label.ne_of_beforeCleanup hl hf
    exact ⟨fun ht => absurd ht (hne rfl), fun _ => ⟨hc, Label.receiving_of_beforeCleanup hl⟩,
      fun ht => absurd ht (not_or.2 ⟨hne rfl, hne rfl⟩), fun ht => absurd ht (hne rfl)⟩
  | cleansUp hc hl hs => simpa [hl, hc, Label.receiving, EntersCleanup] using hs
  | fails hl hs hf hres hport hphase =>
    simpa [hl, hs, hport, hphase] using failing_result hf hres
  | finalises hc hl hs =>
    rcases hl with hl | hl
    · simpa [hl, hc, Label.receiving] using hs
    · simpa [hl, hc, Label.receiving] using hs
  | completes hl hs hres => simp [hl, hs, hres]

end Sys2Proof.Machine
end

section
/-! PROOF. R272: an odd geometry that the upgrade does not cover halts before `unlock` and before any erase. The
relocation's entry on an odd geometry; the way from SWITCH_TO_SLOT to that entry when a slot is active; then the
statement. -/

namespace Sys2Proof.Machine

section OddGeometry

variable {s : State}

/-- The geometry is tested on entry, and an odd one goes no further than the halt (R123, R173 P2). A size of 1 is not
tested here: it is upgraded first (R174). -/
theorem beginProgram_of_odd {offset size : Nat} (h1 : size ≠ 1) (hodd : size % 2 = 1 ∨ offset % 2 = 1)
    (slot os : Byte) :
    beginProgram slot os offset size s = { s with
      vars := { s.vars with slot := slot, os := os, offset := offset, size := size }
      halted := true, diagCode := FatalCode.oddGeometry.code, diagAux := os.setWidth 16 } := by
  rw [beginProgram, if_neg h1, enterProgram, if_pos (oddGeometry_eq_true_iff.2 hodd), raiseFatal_toNat]

theorem osFields_isNone_eq_false {os : Byte} (h : osOk os = true) : (osFields os).isNone = false := by
  simp only [osOk, osFieldsOk, Bool.and_eq_true, decide_eq_true_eq] at h
  obtain ⟨⟨⟨h1, -⟩, -⟩, h8⟩ := h
  rw [osFields_some rfl rfl h1 h8, Option.isNone_some]

/-- A switch away from a slot enters the relocation of that slot (R170): the target passes every test before it, being
NONE, which needs no descriptor, or a slot with a well-formed one. -/
theorem exec_switchToSlot_of_slot (hi : Idle s) (hp : LegalParams s.par) {newSlot newOs : Byte} {o n : Nat}
    (hcur : s.w.activeSlot.toNat < s.par.sramSlots) (hf : osFields s.w.activeOs = some (o, n))
    (hmoves : ¬ (newSlot = s.w.activeSlot ∧ newOs = s.w.activeOs))
    (hnew : newSlot = Config.slotNone ∨ newSlot.toNat < s.par.sramSlots ∧ osOk newOs = true) :
    exec (.switchToSlot newSlot newOs) s =
      .next (beginProgram s.w.activeSlot s.w.activeOs o n (s.started .switchToSlot newSlot newOs)) := by
  obtain ⟨hfirst, -, -⟩ := not_firstBoot_of_slot hp hcur
  have htarget : (isSlot s.par newSlot || newSlot == Config.slotNone) = true := by
    obtain rfl | ⟨hslot, -⟩ := hnew
    · simp
    · simp [isSlot_true hslot]
  have hdesc : (isSlot s.par newSlot && (osFields newOs).isNone) = false := by
    obtain rfl | ⟨-, hos⟩ := hnew
    · have hnone : isSlot s.par Config.slotNone = false := isSlot_false (hp.2.trans (by decide))
      rw [hnone, Bool.false_and]
    · rw [osFields_isNone_eq_false hos, Bool.and_false]
  rw [exec_switchToSlot hi, if_neg hmoves, if_neg hfirst]
  simp [switchBody, isSlot_true hcur, htarget, hf, hdesc]

end OddGeometry

/-- Settles O42: both commands enter the relocation of the region, whose first test is the geometry. -/
theorem oddGeometryHaltsBeforeFlashIsTouched : Obligations.OddGeometryHaltsBeforeFlashIsTouched := by
  intro s slot os o n hi hslot ho hn h2 h8 hodd
  have hf : osFields os = some (o, n) := osFields_some ho hn (by omega) h8
  have henter (t : State) := beginProgram_of_odd (s := t) (by omega) hodd.symm slot os
  refine ⟨⟨_, exec_programToFlash hi hslot hf, ?_⟩, ?_⟩
  · rw [henter]
    rfl
  · rintro newSlot newOs hp rfl rfl hmoves hnew
    refine ⟨_, exec_switchToSlot_of_slot hi hp hslot hf hmoves hnew, ?_⟩
    rw [henter]
    rfl

end Sys2Proof.Machine
end

section
/-! PROOF. R317: the cancel key is read by `poll_cancel` alone. Setting the key commutes with every update of the state,
every instruction but `poll_cancel`, every primitive and every turn; SEQ issues `poll_cancel` at its two polls only;
then the statement. -/

namespace Sys2Proof.Machine

/-! ## Setting the key -/

/-- The state with the cancel key set to a level (R44). -/
@[simps] def State.withKey (key : Bool) (s : State) : State := { s with cancelKey := key }

/-- The outcome with the cancel key set to a level in its next state. -/
def outcomeWithKey (key : Bool) : Outcome → Outcome
  | .next t => .next (t.withKey key)
  | .fault r => .fault r
  | .refused r => .refused r

section Rules

variable {key : Bool} {s : State} {o o' : Outcome}

@[simp] theorem outcomeWithKey_next (t : State) : outcomeWithKey key (.next t) = .next (t.withKey key) := rfl

theorem outcomeWithKey_next_eq {t t' : State} (h : t.withKey key = t') :
    outcomeWithKey key (.next t) = .next t' :=
  congrArg _ h

@[simp] theorem withKey_ite (c : Prop) [Decidable c] (s t : State) :
    (if c then s else t).withKey key = if c then s.withKey key else t.withKey key := apply_ite _ c s t

/-- A test commutes with `f` where each branch does. The test itself may be written of the state with the key set, as
long as it unfolds to the same one. -/
theorem map_ite_eq {α β : Type} {c : Prop} [Decidable c] {f : α → β} {a b : α} {a' b' : β} (ha : f a = a')
    (hb : f b = b') : f (if c then a else b) = if c then a' else b' := by
  rw [apply_ite f, ha, hb]

theorem withKey_whenLive (ho : outcomeWithKey key o = o') :
    outcomeWithKey key (whenLive s o) = whenLive (s.withKey key) o' :=
  map_ite_eq rfl ho

theorem withKey_startCommand {c : Cmd} {a0 a1 : Byte} {body body' : State → Outcome}
    (hb : ∀ t, outcomeWithKey key (body t) = body' (t.withKey key)) :
    outcomeWithKey key (startCommand c a0 a1 s body) = startCommand c a0 a1 (s.withKey key) body' :=
  map_ite_eq rfl (hb _)

theorem withKey_afterPrim (hr : ∀ t, outcomeWithKey key (resume t) = resume (t.withKey key)) :
    outcomeWithKey key (afterPrim o) = afterPrim (outcomeWithKey key o) := by
  cases o with
  | next t => exact map_ite_eq rfl (hr t)
  | fault r => rfl
  | refused r => rfl

end Rules

/-! ## Updates of the state -/

section Updates

variable (key : Bool) (s : State)

@[simp] theorem withKey_goto (l : Label) (i p : Nat) :
    (goto l i p s).withKey key = goto l i p (s.withKey key) := rfl

@[simp] theorem withKey_finish (r : Status) : (finish r s).withKey key = finish r (s.withKey key) := rfl

@[simp] theorem withKey_raiseFatal (c : FatalCode) (aux : Nat) :
    (raiseFatal c aux s).withKey key = raiseFatal c aux (s.withKey key) := rfl

@[simp] theorem withKey_takeLaunch : (takeLaunch s).withKey key = takeLaunch (s.withKey key) := rfl

@[simp] theorem retByte_withKey : (s.withKey key).retByte = s.retByte := rfl

/-- What SEQ issues does not depend on the key. -/
theorem want_withKey : want (s.withKey key) = want s := rfl

theorem withKey_fillBuf (b : Buf) (data : List Byte) :
    (fillBuf b data s).withKey key = fillBuf b data (s.withKey key) := by cases b <;> rfl

theorem withKey_pushRx (b : Byte) : (pushRx b s).withKey key = pushRx b (s.withKey key) := by
  unfold pushRx
  rw [State.withKey_par]
  split
  · rfl
  · exact map_ite_eq (map_ite_eq rfl rfl) (map_ite_eq rfl rfl)

theorem withKey_pushRxAll (bs : List Byte) : (pushRxAll bs s).withKey key = pushRxAll bs (s.withKey key) := by
  induction bs generalizing s with
  | nil => rfl
  | cons b bs ih => rw [pushRxAll, ih, withKey_pushRx, pushRxAll]

@[simp] theorem withKey_recvEnd (r : Status) : (recvEnd r s).withKey key = recvEnd r (s.withKey key) :=
  map_ite_eq rfl rfl

@[simp] theorem withKey_sendEnd (r : Status) : (sendEnd r s).withKey key = sendEnd r (s.withKey key) := rfl

@[simp] theorem withKey_sendWait : (sendWait s).withKey key = sendWait (s.withKey key) := map_ite_eq rfl rfl

theorem withKey_sendTransmit : (sendTransmit s).withKey key = sendTransmit (s.withKey key) := map_ite_eq rfl rfl

theorem withKey_sendNak : (sendNak s).withKey key = sendNak (s.withKey key) :=
  map_ite_eq rfl (withKey_sendTransmit key _)

theorem withKey_sendReply (c : Byte) : (sendReply c s).withKey key = sendReply c (s.withKey key) := by
  have hwait := withKey_sendWait key s
  refine map_ite_eq rfl (map_ite_eq (map_ite_eq rfl hwait) ?_)
  exact map_ite_eq (withKey_sendNak key s) (map_ite_eq (map_ite_eq rfl rfl) hwait)

theorem withKey_recvLeading (c : Byte) : (recvLeading c s).withKey key = recvLeading c (s.withKey key) :=
  map_ite_eq rfl (map_ite_eq rfl (map_ite_eq rfl rfl))

theorem withKey_takeLeading (c : Byte) : (takeLeading c s).withKey key = takeLeading c (s.withKey key) := by
  unfold takeLeading
  rw [State.withKey_pos]
  split
  · exact withKey_recvLeading key s c
  · exact withKey_sendReply key s c
  · exact withKey_pushRx key s c

@[simp] theorem withKey_beginInstall : (beginInstall s).withKey key = beginInstall (s.withKey key) := rfl

theorem withKey_blockStored : (blockStored s).withKey key = blockStored (s.withKey key) := map_ite_eq rfl rfl

@[simp] theorem withKey_installCleanup : (installCleanup s).withKey key = installCleanup (s.withKey key) :=
  map_ite_eq rfl (map_ite_eq rfl rfl)

theorem withKey_enterProgram : (enterProgram s).withKey key = enterProgram (s.withKey key) := map_ite_eq rfl rfl

theorem withKey_beginProgram (slot os : Byte) (offset size : Nat) :
    (beginProgram slot os offset size s).withKey key = beginProgram slot os offset size (s.withKey key) :=
  map_ite_eq rfl (withKey_enterProgram key _)

@[simp] theorem withKey_upgraded : (upgraded s).withKey key = upgraded (s.withKey key) := by
  unfold upgraded
  exact withKey_enterProgram key _

@[simp] theorem withKey_programDone : (programDone s).withKey key = programDone (s.withKey key) :=
  map_ite_eq rfl rfl

@[simp] theorem withKey_restoreDone : (restoreDone s).withKey key = restoreDone (s.withKey key) :=
  map_ite_eq rfl rfl

@[simp] theorem withKey_headerRead (b : Byte) : (headerRead b s).withKey key = headerRead b (s.withKey key) :=
  map_ite_eq rfl rfl

@[simp] theorem withKey_dataRead (b : Byte) : (dataRead b s).withKey key = dataRead b (s.withKey key) :=
  map_ite_eq rfl rfl

@[simp] theorem withKey_checksumRead (b : Byte) : (checksumRead b s).withKey key = checksumRead b (s.withKey key) :=
  map_ite_eq rfl rfl

@[simp] theorem withKey_badUnit : (badUnit s).withKey key = badUnit (s.withKey key) :=
  map_ite_eq (withKey_recvEnd key _ _) rfl

theorem withKey_writeCommandRegisters (u : HostUnit) :
    (writeCommandRegisters u s).withKey key = writeCommandRegisters u (s.withKey key) := map_ite_eq rfl rfl

end Updates

/-! ## Instructions and primitives -/

section Instructions

variable (key : Bool) (s : State)

theorem withKey_execResolveBank (slot subBank : Byte) :
    outcomeWithKey key (execResolveBank slot subBank s) = execResolveBank slot subBank (s.withKey key) :=
  withKey_startCommand fun _ => map_ite_eq rfl (map_ite_eq rfl (map_ite_eq rfl rfl))

theorem withKey_execProgramToFlash (slot os : Byte) :
    outcomeWithKey key (execProgramToFlash slot os s) = execProgramToFlash slot os (s.withKey key) := by
  refine withKey_startCommand fun t => map_ite_eq rfl ?_
  cases osFields os with
  | none => rfl
  | some f => exact outcomeWithKey_next_eq (withKey_beginProgram key t slot os f.1 f.2)

theorem withKey_execRestoreFromFlash (slot os : Byte) :
    outcomeWithKey key (execRestoreFromFlash slot os s) = execRestoreFromFlash slot os (s.withKey key) := by
  refine withKey_startCommand fun t => map_ite_eq rfl ?_
  cases osFields os <;> rfl

theorem withKey_execErase (target os : Byte) :
    outcomeWithKey key (execErase target os s) = execErase target os (s.withKey key) := by
  refine withKey_startCommand fun t => ?_
  cases osFields os with
  | none => rfl
  | some f => exact map_ite_eq rfl (map_ite_eq rfl (map_ite_eq rfl rfl))

theorem withKey_switchBody (slot os : Byte) :
    outcomeWithKey key (switchBody slot os s) = switchBody slot os (s.withKey key) := by
  unfold switchBody
  rw [State.withKey_w]
  refine map_ite_eq ?_ (map_ite_eq rfl ?_)
  · cases osFields s.w.activeOs with
    | none => rfl
    | some f => exact map_ite_eq rfl (outcomeWithKey_next_eq (withKey_beginProgram key s _ _ f.1 f.2))
  · cases osFields os <;> rfl

theorem withKey_execSwitchToSlot (slot os : Byte) :
    outcomeWithKey key (execSwitchToSlot slot os s) = execSwitchToSlot slot os (s.withKey key) :=
  withKey_startCommand fun t => map_ite_eq rfl <| map_ite_eq (map_ite_eq rfl rfl) <| map_ite_eq rfl <|
    map_ite_eq rfl (withKey_switchBody key t slot os)

theorem withKey_switchLoad : outcomeWithKey key (switchLoad s) = switchLoad (s.withKey key) := by
  unfold switchLoad
  rw [State.withKey_vars]
  refine map_ite_eq rfl ?_
  cases osFields s.vars.a1 <;> rfl

theorem withKey_sramLoad (rb off n : Nat) :
    outcomeWithKey key (sramLoad rb off n s) = sramLoad rb off n (s.withKey key) := map_ite_eq rfl rfl

theorem withKey_sramStore (rb off : Nat) (data : List Byte) :
    outcomeWithKey key (sramStore rb off data s) = sramStore rb off data (s.withKey key) := map_ite_eq rfl rfl

theorem withKey_stgLoad (off n : Nat) :
    outcomeWithKey key (stgLoad off n s) = stgLoad off n (s.withKey key) := map_ite_eq (map_ite_eq rfl rfl) rfl

theorem withKey_stgStore (off : Nat) (data : List Byte) :
    outcomeWithKey key (stgStore off data s) = stgStore off data (s.withKey key) := map_ite_eq rfl rfl

/-- No instruction but `poll_cancel` looks at the key (R158). -/
theorem withKey_exec {i : Instr} (hi : i ≠ .pollCancel) :
    outcomeWithKey key (exec i s) = exec i (s.withKey key) := by
  cases i with
  | pollCancel => exact absurd rfl hi
  | resolveBank slot subBank => exact withKey_execResolveBank key s slot subBank
  | switchToSlot slot os => exact withKey_execSwitchToSlot key s slot os
  | programToFlash slot os => exact withKey_execProgramToFlash key s slot os
  | restoreFromFlash slot os => exact withKey_execRestoreFromFlash key s slot os
  | erase target os => exact withKey_execErase key s target os
  | flashImage | xmOpen | xmClose =>
    simp only [exec]
    exact withKey_startCommand fun _ => rfl
  | recvStart | recvBlock | sendStart | installReceive =>
    simp only [exec]
    exact withKey_startCommand fun _ => map_ite_eq rfl rfl
  | sendBlock | sendFinish =>
    simp only [exec]
    exact withKey_startCommand fun _ => map_ite_eq (outcomeWithKey_next_eq (withKey_sendTransmit key _)) rfl
  | eraseBank | unlock | lock | haltWait | checkGeometry => exact withKey_whenLive (map_ite_eq rfl rfl)
  | writeSlot => exact withKey_whenLive (map_ite_eq rfl (map_ite_eq rfl (map_ite_eq rfl rfl)))
  | readSlot =>
    exact withKey_whenLive (map_ite_eq rfl (map_ite_eq rfl (outcomeWithKey_next_eq (withKey_fillBuf key _ _ _))))
  | getc | getcNb =>
    refine withKey_whenLive ?_
    rw [State.withKey_rxq]
    cases s.rxq <;> rfl
  | decodeOs os =>
    refine withKey_whenLive ?_
    cases osFields os <;> rfl
  | soh | eot | ack | nak | can => exact withKey_whenLive (outcomeWithKey_next_eq (withKey_takeLeading key s _))
  | frame =>
    exact withKey_whenLive (map_ite_eq (outcomeWithKey_next_eq (withKey_takeLeading key _ _))
      (outcomeWithKey_next_eq (withKey_pushRxAll key s _)))
  | getLaunchSlot | persist | putc | serialOpen | serialClose | rxIrqEnable | irqMask | irqUnmask | progressInit
  | progressDraw | workTick | textOut | os | slotv => exact withKey_whenLive rfl

theorem withKey_primRun {pr : Prim} (hpr : pr ≠ .port .pollCancel) :
    outcomeWithKey key (pr.run s) = pr.run (s.withKey key) := by
  cases pr with
  | port i => exact withKey_exec key s fun hi => hpr (congrArg Prim.port hi)
  | sramLoad rb off n => exact withKey_sramLoad key s rb off n
  | sramStore rb off data => exact withKey_sramStore key s rb off data
  | stgLoad off n => exact withKey_stgLoad key s off n
  | stgStore off data => exact withKey_stgStore key s off data

end Instructions

/-! ## Where `poll_cancel` is issued -/

theorem decode_frame_ne_pollCancel (bytes rest : List Byte) : decode .frame bytes ≠ .instr .pollCancel rest := by
  simp only [decode, decodeFrame]
  repeat' split
  all_goals simp

theorem decode_wire1_ne_pollCancel (bytes rest : List Byte) : decode .wire1 bytes ≠ .instr .pollCancel rest := by
  simp only [decode]
  cases bytes with
  | nil => simp [decodeWire]
  | cons b bs =>
    simp only [decodeWire]
    repeat' split
    all_goals simp

/-- SEQ issues `poll_cancel` at its two polls only (R203, R230 to R232). -/
theorem want_pollCancel {s : State} (h : want s = .prim (.port .pollCancel)) :
    s.pos.label = .rcPoll ∨ s.pos.label = .sdPoll := by
  cases hl : s.pos.label with
  | rcPoll => exact .inl rfl
  | sdPoll => exact .inr rfl
  | upRead | pgErase | pgCompare | pgWrite | rsRead | esErase =>
    simp only [want, hl] at h
    obtain ⟨b, hb⟩ := onBank_prim h
    cases hb
  | _ => simp [want, hl] at h

/-! ## The sequencer's turn -/

section Turns

variable (key : Bool) (s : State)

theorem withKey_takeUnitFromLine (c : Byte) :
    outcomeWithKey key (takeUnitFromLine c s) = takeUnitFromLine c (s.withKey key) := by
  unfold takeUnitFromLine
  rw [State.withKey_rxq]
  split
  · rename_i hd
    refine withKey_exec key _ ?_
    rintro rfl
    exact decode_frame_ne_pollCancel _ _ hd
  · split
    · rename_i hd
      refine withKey_exec key s ?_
      rintro rfl
      exact decode_wire1_ne_pollCancel _ _ hd
    · exact outcomeWithKey_next_eq (withKey_takeLeading key s c)

/-- What SEQ does after a primitive looks at the primitive's answer, not at the key. -/
theorem withKey_resume : outcomeWithKey key (resume s) = resume (s.withKey key) := by
  cases hl : s.pos.label with
  | swPersistNone =>
    simp only [resume, State.withKey_pos, hl]
    exact withKey_switchLoad key s
  | rcGet | sdGet =>
    simp only [resume, State.withKey_pos, hl]
    exact map_ite_eq rfl (withKey_takeUnitFromLine key s _)
  | fiLoad | xcClose | rcSeq | sdNseq =>
    simp only [resume, State.withKey_pos, hl]
    rfl
  | upLaunch | pgLoad | sdData =>
    simp only [resume, State.withKey_pos, hl]
    exact outcomeWithKey_next_eq (map_ite_eq rfl rfl)
  | inStore =>
    simp only [resume, State.withKey_pos, hl]
    exact outcomeWithKey_next_eq (map_ite_eq rfl (withKey_blockStored key _))
  | _ => simp [resume, hl]

theorem withKey_runStep (hrc : s.pos.label ≠ .rcPoll) (hsd : s.pos.label ≠ .sdPoll) :
    outcomeWithKey key (runStep s) = runStep (s.withKey key) := by
  unfold runStep
  rw [want_withKey]
  cases hw : want s with
  | nothing => rfl
  | fatal code aux => rfl
  | prim pr =>
    have hpr : pr ≠ .port .pollCancel := by
      rintro rfl
      exact (want_pollCancel hw).elim hrc hsd
    dsimp only
    rw [← withKey_primRun key s hpr]
    exact withKey_afterPrim (withKey_resume key)

theorem withKey_takeUnit (u : HostUnit) (hu : ∀ rest, decode u.format u.bytes ≠ .instr .pollCancel rest) :
    outcomeWithKey key (takeUnit u s) = takeUnit u (s.withKey key) := by
  unfold takeUnit
  cases hd : decode u.format u.bytes with
  | reject r => rfl
  | instr i rest =>
    have hi : i ≠ .pollCancel := by
      rintro rfl
      exact hu rest hd
    have hexec : exec i (writeCommandRegisters u { s.withKey key with ret := .done }) =
        outcomeWithKey key (exec i (writeCommandRegisters u { s with ret := .done })) := by
      rw [withKey_exec key _ hi, withKey_writeCommandRegisters]
      rfl
    dsimp only
    rw [hexec]
    cases exec i (writeCommandRegisters u { s with ret := .done }) with
    | next t => exact map_ite_eq rfl rfl
    | fault r => rfl
    | refused r => rfl

theorem withKey_seqTurn (hrc : s.pos.label ≠ .rcPoll) (hsd : s.pos.label ≠ .sdPoll)
    (hidle : ∀ (u : HostUnit) (q : List HostUnit) (rest : List Byte), s.pos.label = .idle → s.hostq = u :: q →
      decode u.format u.bytes ≠ .instr .pollCancel rest) :
    outcomeWithKey key (seqTurn s) = seqTurn (s.withKey key) := by
  unfold seqTurn
  refine map_ite_eq rfl ?_
  by_cases hrun : s.running = true
  · rw [if_pos hrun]
    exact (withKey_runStep key s hrc hsd).trans (if_pos hrun).symm
  · rw [if_neg hrun]
    refine Eq.trans ?_ (if_neg hrun).symm
    rw [State.withKey_hostq]
    have hl : s.pos.label = .idle := by simpa [State.running] using hrun
    cases hq : s.hostq with
    | nil => rfl
    | cons u q => exact withKey_takeUnit key { s with hostq := q } u fun rest => hidle u q rest hl hq

end Turns

/-- Settles O58: by what setting the key does to SEQ's turn. -/
theorem cancelKeyIsReadOnlyWherePolled : Obligations.CancelKeyIsReadOnlyWherePolled := by
  intro s key hrc hsd hidle
  refine (withKey_seqTurn key s hrc hsd hidle).symm.trans ?_
  cases seqTurn s <;> rfl

end Sys2Proof.Machine
end

section
/-! PROOF. R90 to R108: encoder and decoder agree. Every instruction that has an encoding decodes back from it; what
decodes was written as the encoder writes it, format by format; the words and the reserved codes of the tables. -/

namespace Sys2Proof

/-- Settles O1: one round trip for each constructor. -/
theorem encodedInstructionsDecodeBack : Obligations.EncodedInstructionsDecodeBack := by
  intro i rest hfits hformat
  cases i with
  | resolveBank => exact Laws.RoundTrip.resolveBank _ _ hfits hformat rest
  | switchToSlot => exact Laws.RoundTrip.switchToSlot _ _ hfits hformat rest
  | programToFlash => exact Laws.RoundTrip.programToFlash _ _ hfits hformat rest
  | restoreFromFlash => exact Laws.RoundTrip.restoreFromFlash _ _ hfits hformat rest
  | erase => exact Laws.RoundTrip.erase _ _ hfits hformat rest
  | flashImage => exact Laws.RoundTrip.flashImage _ _ hfits hformat rest
  | xmOpen => exact Laws.RoundTrip.xmOpen _ _ hfits hformat rest
  | xmClose => exact Laws.RoundTrip.xmClose _ _ hfits hformat rest
  | recvStart => exact Laws.RoundTrip.recvStart _ _ hfits hformat rest
  | recvBlock => exact Laws.RoundTrip.recvBlock _ _ hfits hformat rest
  | sendStart => exact Laws.RoundTrip.sendStart _ _ hfits hformat rest
  | sendBlock => exact Laws.RoundTrip.sendBlock _ _ hfits hformat rest
  | sendFinish => exact Laws.RoundTrip.sendFinish _ _ hfits hformat rest
  | installReceive => exact Laws.RoundTrip.installReceive _ _ hfits hformat rest
  | eraseBank => exact Laws.RoundTrip.eraseBank _ _ _ hfits hformat rest
  | writeSlot => exact Laws.RoundTrip.writeSlot _ _ _ _ _ hfits hformat rest
  | readSlot => exact Laws.RoundTrip.readSlot _ _ _ _ _ hfits hformat rest
  | unlock => exact Laws.RoundTrip.unlock hfits hformat rest
  | lock => exact Laws.RoundTrip.lock hfits hformat rest
  | getLaunchSlot => exact Laws.RoundTrip.getLaunchSlot hfits hformat rest
  | persist => exact Laws.RoundTrip.persist hfits hformat rest
  | getc => exact Laws.RoundTrip.getc hfits hformat rest
  | getcNb => exact Laws.RoundTrip.getcNb hfits hformat rest
  | putc => exact Laws.RoundTrip.putc _ hfits hformat rest
  | serialOpen => exact Laws.RoundTrip.serialOpen _ hfits hformat rest
  | serialClose => exact Laws.RoundTrip.serialClose hfits hformat rest
  | rxIrqEnable => exact Laws.RoundTrip.rxIrqEnable hfits hformat rest
  | haltWait => exact Laws.RoundTrip.haltWait hfits hformat rest
  | irqMask => exact Laws.RoundTrip.irqMask hfits hformat rest
  | irqUnmask => exact Laws.RoundTrip.irqUnmask hfits hformat rest
  | pollCancel => exact Laws.RoundTrip.pollCancel hfits hformat rest
  | progressInit => exact Laws.RoundTrip.progressInit _ hfits hformat rest
  | progressDraw => exact Laws.RoundTrip.progressDraw _ hfits hformat rest
  | workTick => exact Laws.RoundTrip.workTick hfits hformat rest
  | textOut => exact Laws.RoundTrip.textOut _ hfits hformat rest
  | soh => exact Laws.RoundTrip.soh hfits hformat rest
  | eot => exact Laws.RoundTrip.eot hfits hformat rest
  | ack => exact Laws.RoundTrip.ack hfits hformat rest
  | nak => exact Laws.RoundTrip.nak hfits hformat rest
  | can => exact Laws.RoundTrip.can hfits hformat rest
  | frame => exact Laws.RoundTrip.frame _ _ _ _ hfits hformat rest
  | os => exact Laws.RoundTrip.os _ _ hfits hformat rest
  | slotv => exact Laws.RoundTrip.slotv _ hfits hformat rest
  | decodeOs => exact Laws.RoundTrip.decodeOs _ hfits hformat rest
  | checkGeometry => exact Laws.RoundTrip.checkGeometry _ _ _ hfits hformat rest

/-! ## What decodes was encoded -/

section Spelled

variable {i : Instr} {f : Format} {bytes rest args : List Byte}

/-- The number that bytes spell is spelled by these bytes alone (log 21). -/
theorem toLE_ofLE {n : Nat} (bs : List Byte) (h : bs.length = n) : toLE n (ofLE bs) = bs := by
  subst h
  induction bs with
  | nil => rfl
  | cons b bs ih =>
    have hb := b.isLt
    have hlow : BitVec.ofNat 8 (b.toNat + 256 * ofLE bs) = b := BitVec.eq_of_toNat_eq (by simp; omega)
    have hhigh : (b.toNat + 256 * ofLE bs) / 256 = ofLE bs := by omega
    rw [List.length_cons, ofLE, toLE, hlow, hhigh, ih]

theorem ofLE_lt {n : Nat} (bs : List Byte) (h : bs.length = n) : ofLE bs < 256 ^ n := by
  subst h
  induction bs with
  | nil => simp [ofLE]
  | cons b bs ih =>
    have hb := b.isLt
    rw [ofLE, List.length_cons, Nat.pow_succ]
    omega

theorem byte_eq_of_toNat {b : Byte} {n : Nat} (h : b.toNat = n) : b = BitVec.ofNat 8 n := by
  rw [← h, BitVec.ofNat_toNat, BitVec.setWidth_eq]

/-- The bytes of a step number are the two it was put together from (log 21). -/
theorem progress_low (hi lo : Byte) : (hi ++ lo : Half).extractLsb' 0 8 = lo := BitVec.extractLsb'_append_eq_right

theorem progress_high (hi lo : Byte) : (hi ++ lo : Half).extractLsb' 8 8 = hi := BitVec.extractLsb'_append_eq_left

/-- `i` and `rest` are what bytes of the format `f` say: `i` is of that format, fits, and was written as the encoder
writes it, `read_slot` left out (log 21). -/
def SpelledBy (f : Format) (bytes : List Byte) (i : Instr) (rest : List Byte) : Prop :=
  i.format = f ∧ i.fits = true ∧
    ((∀ buffer ps bank offset length, i ≠ .readSlot buffer ps bank offset length) → encode i ++ rest = bytes)

theorem SpelledBy.of_encode (hf : i.format = f) (hfits : i.fits = true) (he : encode i ++ rest = bytes) :
    SpelledBy f bytes i rest :=
  ⟨hf, hfits, fun _ => he⟩

/-- A listed code gives a command that the encoder writes with that code (R98). -/
theorem commandOf_spelled {code a0 a1 : Byte} (h : commandOf code a0 a1 = some i) :
    i.format = .cmd ∧ i.fits = true ∧ encode i = [code, a0, a1] := by
  unfold commandOf at h
  split at h
  case h_15 => cases h
  all_goals
    rename_i hcode
    obtain rfl := Option.some.inj h
    rw [byte_eq_of_toNat hcode]
    exact ⟨rfl, rfl, rfl⟩

theorem decodeCmd_spelled (h : decodeCmd bytes = .instr i rest) : SpelledBy .cmd bytes i rest := by
  unfold decodeCmd at h
  split at h
  · split at h
    · rename_i hc
      obtain ⟨rfl, rfl⟩ := Decoded.instr.inj h
      obtain ⟨hf, hfits, he⟩ := commandOf_spelled hc
      exact .of_encode hf hfits (by rw [he]; rfl)
    · cases h
  · cases h

/-- A label without a length field gives a primitive that the encoder writes with that label (R100). -/
theorem shortPort_spelled {label : Byte} (h : shortPort label args = .instr i rest) :
    SpelledBy .port (label :: args) i rest := by
  unfold shortPort at h
  split at h
  case h_18 | h_19 | h_20 | h_21 | h_22 => cases h
  all_goals
    rename_i hl
    obtain ⟨rfl, rfl⟩ := Decoded.instr.inj h
    rw [byte_eq_of_toNat hl]
    refine .of_encode rfl rfl ?_
    simp [encode, progress_low, progress_high]

theorem decodeWriteSlot_spelled (h : decodeWriteSlot args = .instr i rest) :
    SpelledBy .port (0x81 :: args) i rest := by
  unfold decodeWriteSlot at h
  split at h
  · rename_i ps bank o0 o1 o2 n0 n1 n2 tail
    dsimp only at h
    split at h
    · cases h
    · rename_i hlen
      obtain ⟨rfl, rfl⟩ := Decoded.instr.inj h
      refine .of_encode rfl ?_ ?_
      · have ho : ofLE [o0, o1, o2] < 256 ^ 3 := ofLE_lt _ rfl
        have hn : ofLE [n0, n1, n2] < 256 ^ 3 := ofLE_lt _ rfl
        simp only [Instr.fits, List.length_take, Bool.and_eq_true, decide_eq_true_eq]
        exact ⟨⟨by omega, ho⟩, hn⟩
      · have ho : toLE 3 (ofLE [o0, o1, o2]) = [o0, o1, o2] := toLE_ofLE _ rfl
        have hn : toLE 3 (ofLE [n0, n1, n2]) = [n0, n1, n2] := toLE_ofLE _ rfl
        simp [encode, ho, hn]
  · cases h

theorem decodeReadSlot_spelled (h : decodeReadSlot args = .instr i rest) :
    SpelledBy .port (0x82 :: args) i rest := by
  unfold decodeReadSlot at h
  split at h
  · rename_i b ps bank o0 o1 o2 n0 n1 n2 tail
    obtain ⟨rfl, rfl⟩ := Decoded.instr.inj h
    refine ⟨rfl, ?_, fun hread => absurd rfl (hread _ _ _ _ _)⟩
    have ho : ofLE [o0, o1, o2] < 256 ^ 3 := ofLE_lt _ rfl
    have hn : ofLE [n0, n1, n2] < 256 ^ 3 := ofLE_lt _ rfl
    simp only [Instr.fits, Bool.and_eq_true, decide_eq_true_eq]
    exact ⟨ho, hn⟩
  · cases h

theorem decodeTextOut_spelled (h : decodeTextOut args = .instr i rest) :
    SpelledBy .port (0xA4 :: args) i rest := by
  unfold decodeTextOut at h
  split at h
  · rename_i n0 n1 tail
    dsimp only at h
    split at h
    · cases h
    · rename_i hlen
      obtain ⟨rfl, rfl⟩ := Decoded.instr.inj h
      have hn : ofLE [n0, n1] < 256 ^ 2 := ofLE_lt _ rfl
      have htake : (tail.take (ofLE [n0, n1])).length = ofLE [n0, n1] := by
        rw [List.length_take]
        omega
      refine .of_encode rfl ?_ ?_
      · simp only [Instr.fits, htake, decide_eq_true_eq]
        exact hn
      · have hle : toLE 2 (ofLE [n0, n1]) = [n0, n1] := toLE_ofLE _ rfl
        simp [encode, -List.length_take, htake, hle]
  · cases h

theorem decodePort_spelled (h : decodePort bytes = .instr i rest) : SpelledBy .port bytes i rest := by
  cases bytes with
  | nil => cases h
  | cons label args =>
    simp only [decodePort] at h
    split at h
    · rename_i hl
      split at h
      · obtain ⟨rfl, rfl⟩ := Decoded.instr.inj h
        exact .of_encode rfl rfl (by simp [encode, hl])
      · cases h
    split at h
    · rename_i hl
      exact hl ▸ decodeWriteSlot_spelled h
    split at h
    · rename_i hl
      exact hl ▸ decodeReadSlot_spelled h
    split at h
    · rename_i hl
      exact hl ▸ decodeTextOut_spelled h
    · exact shortPort_spelled h

theorem decodeWire_spelled (h : decodeWire bytes = .instr i rest) : SpelledBy .wire1 bytes i rest := by
  cases bytes with
  | nil => cases h
  | cons b bs =>
    simp only [decodeWire] at h
    repeat' split at h
    case isFalse.isFalse.isFalse.isFalse.isFalse => cases h
    all_goals
      rename_i hb
      obtain ⟨rfl, rfl⟩ := Decoded.instr.inj h
      exact .of_encode rfl rfl (by rw [hb]; rfl)

theorem decodeFrame_spelled (h : decodeFrame bytes = .instr i rest) : SpelledBy .frame bytes i rest := by
  unfold decodeFrame at h
  split at h
  · rename_i b seq nseq tail
    split at h
    · rename_i hb
      split at h
      · rename_i hlen
        obtain ⟨rfl, rfl⟩ := Decoded.instr.inj h
        have hblock : (blockOf tail (Nat.le_of_lt hlen)).toList = tail.take 128 := by simp [blockOf, Vector.toList]
        have htail := Machine.take_getD_drop tail hlen
        refine .of_encode rfl rfl ?_
        simp only [encode, hblock, hb, List.cons_append, List.nil_append]
        rw [htail]
      · cases h
    · cases h
  · cases h

theorem osByte_nibbles (b : Byte) : osByte (b.extractLsb' 4 4) (b.extractLsb' 0 4) = b := by
  revert b
  decide

theorem decodeOsFormat_spelled (h : decodeOsFormat bytes = .instr i rest) : SpelledBy .os bytes i rest := by
  cases bytes with
  | nil => cases h
  | cons b bs =>
    obtain ⟨rfl, rfl⟩ := Decoded.instr.inj h
    exact .of_encode rfl rfl (by rw [encode, osByte_nibbles]; rfl)

theorem decodeSlotv_spelled (h : decodeSlotv bytes = .instr i rest) : SpelledBy .slotv bytes i rest := by
  cases bytes with
  | nil => cases h
  | cons v bs =>
    obtain ⟨rfl, rfl⟩ := Decoded.instr.inj h
    exact .of_encode rfl rfl rfl

end Spelled

/-- Settles O2: format by format. -/
theorem decodedBytesAreTheEncoding : Obligations.DecodedBytesAreTheEncoding := by
  intro f bytes rest i h
  cases f with
  | cmd => exact decodeCmd_spelled h
  | port => exact decodePort_spelled h
  | slotv => exact decodeSlotv_spelled h
  | os => exact decodeOsFormat_spelled h
  | wire1 => exact decodeWire_spelled h
  | frame => exact decodeFrame_spelled h
  | internal => cases h

/-- Settles O3: the decoder runs on each word. -/
theorem specWordsDecode : Obligations.SpecWordsDecode := by
  refine ⟨?_, ?_, ?_, ?_, ?_, ?_, ?_, ?_, ?_, ?_, ?_, ?_, Tests.test_decode_frame⟩
  all_goals rfl

/-! ## The codes that are no command -/

/-- The command codes of R98, as the table lists them. -/
def commandCodes : List Byte :=
  [0x01, 0x10, 0x11, 0x12, 0x13, 0x14, 0x20, 0x21, 0x22, 0x23, 0x30, 0x31, 0x32, 0x40]

theorem commandOf_of_mem {code : Byte} (h : code ∈ commandCodes) (a0 a1 : Byte) :
    ∃ i, commandOf code a0 a1 = some i := by
  simp only [commandCodes, List.mem_cons, List.not_mem_nil, or_false] at h
  rcases h with rfl | rfl | rfl | rfl | rfl | rfl | rfl | rfl | rfl | rfl | rfl | rfl | rfl | rfl
  all_goals exact ⟨_, rfl⟩

theorem commandOf_of_not_mem {code : Byte} (h : code ∉ commandCodes) (a0 a1 : Byte) :
    commandOf code a0 a1 = none := by
  unfold commandOf
  split
  case h_15 => rfl
  all_goals
    rename_i hcode
    rw [byte_eq_of_toNat hcode] at h
    exact absurd (by decide) h

theorem decode_cmd_of_mem {code : Byte} (h : code ∈ commandCodes) (a0 a1 : Byte) (rest : List Byte) :
    ∃ i, decode .cmd (code :: a0 :: a1 :: rest) = .instr i rest ∧ encode i = [code, a0, a1] := by
  obtain ⟨i, hi⟩ := commandOf_of_mem h a0 a1
  obtain ⟨-, -, he⟩ := commandOf_spelled hi
  exact ⟨i, by simp only [decode, decodeCmd, hi], he⟩

theorem decode_cmd_of_not_mem {code : Byte} (h : code ∉ commandCodes) (a0 a1 : Byte) (rest : List Byte) :
    decode .cmd (code :: a0 :: a1 :: rest) = .reject (.reservedCommand code) := by
  simp only [decode, decodeCmd, commandOf_of_not_mem h]

namespace Machine

section IdleStep

variable {s : State}

/-- With no other agent's move scheduled, an idle machine takes the first unit of the host's queue. -/
theorem step_idle (hq : Quiet s) (hi : Idle s) {u : HostUnit} {q : List HostUnit} (hu : s.hostq = u :: q) :
    step s = takeUnit u { s with hostq := q } := by
  unfold Quiet at hq
  obtain ⟨hlive, hidle⟩ := hi
  simp [step, hq, seqTurn, hlive, State.running, hidle, hu]

theorem takeUnit_of_reject {u : HostUnit} {r : Reject} (h : decode u.format u.bytes = .reject r) (s : State) :
    takeUnit u s = .refused (.notAnInstruction r) := by
  rw [takeUnit, h]

end IdleStep

/-- Settles O4: by whether the code is listed. -/
theorem reservedCodesAreRefused : Obligations.ReservedCodesAreRefused := by
  intro code a0 a1 rest
  split
  · rename_i hmem
    exact decode_cmd_of_mem hmem a0 a1 rest
  · rename_i hmem
    have hreject := decode_cmd_of_not_mem hmem a0 a1 rest
    refine ⟨hreject, fun s q hq hi hu => ?_⟩
    rw [step_idle hq hi hu]
    exact takeUnit_of_reject hreject _

end Machine

end Sys2Proof
end

section
/-! PROOF. What a step does to the memories (R66, R70, R284). SEQ's own moves between two primitives touch neither a
memory nor the lock nor the queues (`Kept`); so a step ensures of the memories what its primitive and a power loss do
(`MemRule`). Then the canonical form of the memories, and the locked flash. -/

namespace Sys2Proof.Machine

/-! ## What stays -/

/-- `t` has the memories and the lock of `s`; only `SRAM` may have been lost altogether (R64). -/
structure MemKept (s t : State) : Prop where
  flash : t.flash = s.flash := by rfl
  sram : t.sram = s.sram ∨ t.sram.cells = [] := by exact .inl rfl
  stg : t.stg = s.stg := by rfl
  lock : t.lockDepth = s.lockDepth := by rfl

/-- `t` has the memories and the lock of `s`, and the same turns and units to come. -/
structure Kept (s t : State) : Prop extends MemKept s t where
  sched : t.sched = s.sched := by rfl
  hostq : t.hostq = s.hostq := by rfl

section Rules

variable {s t u : State} {c : Prop} [Decidable c] {post : State → Prop} {o o' : Outcome}

theorem Kept.trans (h : Kept s t) (h' : Kept t u) : Kept s u where
  flash := h'.flash.trans h.flash
  sram := h'.sram.elim (fun he => he ▸ h.sram) .inr
  stg := h'.stg.trans h.stg
  lock := h'.lock.trans h.lock
  sched := h'.sched.trans h.sched
  hostq := h'.hostq.trans h.hostq

theorem Kept.ite (ht : Kept s t) (hu : Kept s u) : Kept s (if c then t else u) := by
  split
  · exact ht
  · exact hu

/-- A state that differs from `s` in none of the fields of `Kept` is kept by `rfl`. -/
theorem kept_next (h : Kept s t := by exact {}) : Ensures (Kept s) (.next t) := h

theorem ensures_ite (h : Ensures post o) (h' : Ensures post o') : Ensures post (if c then o else o') := by
  split
  · exact h
  · exact h'

end Rules

/-! ## Updates of the state -/

section Updates

variable (s : State)

theorem fillBuf_kept (b : Buf) (data : List Byte) : Kept s (fillBuf b data s) := by cases b <;> exact {}

theorem pushRx_kept (b : Byte) : Kept s (pushRx b s) := by
  unfold pushRx
  split
  · exact {}
  · exact .ite (.ite {} {}) (.ite {} {})

theorem pushRxAll_kept (bs : List Byte) : Kept s (pushRxAll bs s) := by
  induction bs generalizing s with
  | nil => exact {}
  | cons b bs ih => exact (pushRx_kept s b).trans (ih _)

theorem recvEnd_kept (r : Status) : Kept s (recvEnd r s) := .ite {} {}

theorem sendWait_kept : Kept s (sendWait s) := .ite {} {}

theorem sendTransmit_kept : Kept s (sendTransmit s) := .ite {} {}

theorem sendNak_kept : Kept s (sendNak s) := .ite {} (.trans {} (sendTransmit_kept _))

theorem sendReply_kept (c : Byte) : Kept s (sendReply c s) :=
  .ite {} (.ite (.ite {} (sendWait_kept s)) (.ite (sendNak_kept s) (.ite (.ite {} {}) (sendWait_kept s))))

theorem recvLeading_kept (c : Byte) : Kept s (recvLeading c s) := .ite {} (.ite {} (.ite {} {}))

theorem takeLeading_kept (c : Byte) : Kept s (takeLeading c s) := by
  unfold takeLeading
  split
  · exact recvLeading_kept s c
  · exact sendReply_kept s c
  · exact pushRx_kept s c

theorem blockStored_kept : Kept s (blockStored s) := .ite {} {}

theorem installCleanup_kept : Kept s (installCleanup s) := .ite {} (.ite {} {})

theorem enterProgram_kept : Kept s (enterProgram s) := .ite {} {}

theorem beginProgram_kept (slot os : Byte) (offset size : Nat) : Kept s (beginProgram slot os offset size s) :=
  .ite {} (.trans {} (enterProgram_kept _))

theorem upgraded_kept : Kept s (upgraded s) := .trans {} (enterProgram_kept _)

theorem programDone_kept : Kept s (programDone s) := .ite {} {}

theorem restoreDone_kept : Kept s (restoreDone s) := .ite {} {}

theorem headerRead_kept (b : Byte) : Kept s (headerRead b s) := .ite {} {}

theorem dataRead_kept (b : Byte) : Kept s (dataRead b s) := .ite {} {}

theorem checksumRead_kept (b : Byte) : Kept s (checksumRead b s) := .ite {} {}

theorem badUnit_kept : Kept s (badUnit s) := .ite (.trans {} (recvEnd_kept _ _)) {}

theorem writeCommandRegisters_kept (u : HostUnit) : Kept s (writeCommandRegisters u s) := .ite {} {}

end Updates

/-! ## Instructions -/

section Instructions

variable {s : State}

theorem switchBody_kept (slot os : Byte) : Ensures (Kept s) (switchBody slot os s) := by
  refine ensures_ite ?_ (ensures_ite kept_next ?_)
  · cases osFields s.w.activeOs with
    | none => exact ensures_refused _
    | some f => exact ensures_ite (ensures_refused _) (kept_next (beginProgram_kept ..))
  · cases osFields os with
    | none => exact ensures_refused _
    | some f => exact kept_next

theorem switchLoad_kept (s : State) : Ensures (Kept s) (switchLoad s) := by
  refine ensures_ite kept_next ?_
  cases osFields s.vars.a1 with
  | none => exact ensures_refused _
  | some f => exact kept_next

/-- The primitives that write flash or the lock: `erase_bank`, `write_slot`, `unlock`, `lock` (R140, R141, R143,
R144). -/
def drivesFlash : Instr → Bool
  | .eraseBank .. | .writeSlot .. | .unlock | .lock => true
  | _ => false

/-- No other instruction writes a memory, but for the `SRAM` that INSTALL_RECEIVE loses (R64, R70). -/
theorem exec_kept {i : Instr} (hi : drivesFlash i = false) (s : State) : Ensures (Kept s) (exec i s) := by
  have start {c : Cmd} {a0 a1 : Byte} {body : State → Outcome}
      (hb : Ensures (Kept (s.started c a0 a1)) (body (s.started c a0 a1))) :
      Ensures (Kept s) (startCommand c a0 a1 s body) :=
    ensures_startCommand {} (hb.mono fun _ => Kept.trans {})
  have live {o : Outcome} (ho : Ensures (Kept s) o) : Ensures (Kept s) (whenLive s o) := ensures_whenLive {} ho
  cases i with
  | eraseBank | writeSlot | unlock | lock => cases hi
  | resolveBank =>
    simp only [exec]
    refine start ?_
    exact ensures_ite (ensures_refused _) (ensures_ite (ensures_refused _) (ensures_ite kept_next kept_next))
  | switchToSlot slot os =>
    simp only [exec]
    refine start ?_
    exact ensures_ite kept_next (ensures_ite (ensures_ite kept_next kept_next)
      (ensures_ite kept_next (ensures_ite kept_next (switchBody_kept slot os))))
  | programToFlash slot os =>
    simp only [exec]
    refine start ?_
    refine ensures_ite (ensures_refused _) ?_
    cases osFields os with
    | none => exact ensures_refused _
    | some f => exact kept_next (beginProgram_kept ..)
  | restoreFromFlash slot os =>
    simp only [exec]
    refine start ?_
    refine ensures_ite (ensures_refused _) ?_
    cases osFields os with
    | none => exact ensures_refused _
    | some f => exact kept_next
  | erase target os =>
    simp only [exec]
    refine start ?_
    cases osFields os with
    | none => exact ensures_refused _
    | some f => exact ensures_ite kept_next (ensures_ite kept_next (ensures_ite kept_next (ensures_refused _)))
  | flashImage | xmOpen | xmClose =>
    simp only [exec]
    refine start ?_
    exact kept_next
  | recvStart | recvBlock | sendStart =>
    simp only [exec]
    refine start ?_
    exact ensures_ite kept_next (ensures_refused _)
  | sendBlock | sendFinish =>
    simp only [exec]
    refine start ?_
    exact ensures_ite (kept_next (.trans {} (sendTransmit_kept _))) (ensures_refused _)
  | installReceive =>
    simp only [exec]
    refine start ?_
    exact ensures_ite (ensures_refused _) (kept_next { sram := .inr rfl })
  | readSlot =>
    refine live ?_
    exact ensures_ite (ensures_refused _) (ensures_ite (ensures_refused _)
      (kept_next (.trans {} (fillBuf_kept ..))))
  | getc | getcNb =>
    refine live ?_
    cases s.rxq with
    | nil => exact kept_next
    | cons b rest => exact kept_next
  | decodeOs os =>
    refine live ?_
    cases osFields os with
    | none => exact ensures_refused _
    | some f => exact kept_next
  | haltWait | checkGeometry =>
    refine live ?_
    exact ensures_ite kept_next kept_next
  | soh | eot | ack | nak | can =>
    refine live ?_
    exact kept_next (takeLeading_kept s _)
  | frame =>
    refine live ?_
    exact ensures_ite (kept_next (.trans {} (takeLeading_kept _ _))) (kept_next (pushRxAll_kept s _))
  | getLaunchSlot | persist | putc | serialOpen | serialClose | rxIrqEnable | irqMask | irqUnmask | pollCancel
  | progressInit | progressDraw | workTick | textOut | os | slotv =>
    refine live ?_
    exact kept_next

/-- No unit of the line is a driver call. -/
theorem takeUnitFromLine_kept (c : Byte) (s : State) : Ensures (Kept s) (takeUnitFromLine c s) := by
  have hline {f : Format} {bytes rest : List Byte} {i : Instr} (hd : decode f bytes = .instr i rest)
      (hf : f ≠ .port) : drivesFlash i = false := by
    obtain ⟨hfi, -, -⟩ := decodedBytesAreTheEncoding f bytes rest i hd
    subst hfi
    cases i with
    | eraseBank | writeSlot | unlock | lock => exact absurd rfl hf
    | _ => rfl
  unfold takeUnitFromLine
  split
  · rename_i hd
    exact (exec_kept (hline hd nofun) _).mono fun _ => Kept.trans {}
  · split
    · rename_i hd
      exact exec_kept (hline hd nofun) s
    · exact kept_next (takeLeading_kept s c)

/-- Between two primitives SEQ writes no memory (R25). -/
theorem resume_kept (s : State) : Ensures (Kept s) (resume s) := by
  cases hl : s.pos.label with
  | swPersistNone =>
    simp only [resume, hl]
    exact switchLoad_kept s
  | rcGet | sdGet =>
    simp only [resume, hl]
    exact ensures_ite kept_next (takeUnitFromLine_kept _ s)
  | upStore =>
    simp only [resume, hl]
    exact kept_next (.ite {} (upgraded_kept s))
  | pgLock =>
    simp only [resume, hl]
    exact kept_next (programDone_kept s)
  | rsTick =>
    simp only [resume, hl]
    exact kept_next (.ite {} (.ite {} (restoreDone_kept s)))
  | rcSelf | rcCancel | rcEotAck =>
    simp only [resume, hl]
    exact kept_next (recvEnd_kept s _)
  | rcNseq =>
    simp only [resume, hl]
    exact kept_next (headerRead_kept s _)
  | rcData =>
    simp only [resume, hl]
    exact kept_next (dataRead_kept s _)
  | rcCheck =>
    simp only [resume, hl]
    exact kept_next (checksumRead_kept s _)
  | rcBad =>
    simp only [resume, hl]
    exact kept_next (badUnit_kept s)
  | inOpen =>
    simp only [resume, hl]
    exact kept_next { sram := .inr rfl }
  | inStore =>
    simp only [resume, hl]
    exact kept_next (.ite {} (.trans {} (blockStored_kept _)))
  | inClose =>
    simp only [resume, hl]
    exact kept_next (installCleanup_kept s)
  | sdIrq | sdSum | sdEot | sdHalt =>
    simp only [resume, hl]
    exact kept_next (sendWait_kept s)
  | upLaunch | upMove | pgErase | pgLoad | pgCompare | erFill | erTick | esInit | fiRead | fiTick | rcPoll | rcGood
  | inPad | sdData | sdPoll =>
    simp only [resume, hl]
    exact kept_next (.ite {} {})
  | pgTick | esTick =>
    simp only [resume, hl]
    exact kept_next (.ite {} (.ite {} {}))
  | _ =>
    simp only [resume, hl]
    exact kept_next

end Instructions

/-! ## The damage of a power loss -/

/-- What a power loss inside a primitive leaves behind: nothing, the new record, or free values in the range of an open
`erase_bank` or `write_slot` or of a store to `SRAM` (R302). -/
inductive Damaged (s t : State) : Prop
  | nothing (he : t = s)
  | persist (he : t = { s with p := s.w }) (hc : current s = some (.port .persist))
  | erase {device ps bank : Byte} (he : t = { s with
        flash := scramble s.flash (flashAddr device ps (eraseSpan s.par.granule bank).1 0)
          ((eraseSpan s.par.granule bank).2 * Config.bankBytes) s.freeNext
        freeNext := s.freeNext + 1 })
      (hc : current s = some (.port (.eraseBank device ps bank))) (hopen : s.lockDepth ≠ 0)
  | program {buffer : List Byte} {ps bank : Byte} {offset length : Nat} (he : t = { s with
        flash := scramble s.flash (flashAddr 0 ps bank offset) length s.freeNext, freeNext := s.freeNext + 1 })
      (hc : current s = some (.port (.writeSlot buffer ps bank offset length))) (hopen : s.lockDepth ≠ 0)
  | store {rb off : Nat} {data : List Byte} (he : t = { s with
        sram := scramble s.sram (sramAddr rb off) data.length s.freeNext, freeNext := s.freeNext + 1 })
      (hc : current s = some (.sramStore rb off data))

theorem damage_cases (persisted : Bool) (s : State) : Damaged s (damage persisted s) := by
  cases hc : current s with
  | none => exact .nothing (by simp only [damage, hc])
  | some pr =>
    cases pr with
    | sramLoad | stgLoad | stgStore => exact .nothing (by simp only [damage, hc])
    | sramStore rb off data =>
      by_cases hin : rb < Config.ramBanks ∧ off + data.length ≤ Config.bankBytes
      · exact .store (by simp only [damage, hc, if_pos hin]) hc
      · exact .nothing (by simp only [damage, hc, if_neg hin])
    | port i =>
      cases i with
      | eraseBank device ps bank =>
        by_cases hlock : s.lockDepth = 0
        · exact .nothing (by simp only [damage, hc, if_pos hlock])
        · exact .erase (by simp only [damage, hc, if_neg hlock]) hc hlock
      | writeSlot buffer ps bank offset length =>
        by_cases hlock : s.lockDepth = 0 ∨ Config.bankBytes < offset + length
        · exact .nothing (by simp only [damage, hc, if_pos hlock])
        · exact .program (by simp only [damage, hc, if_neg hlock]) hc fun h => hlock (.inl h)
      | persist =>
        cases persisted with
        | true => exact .persist (by simp only [damage, hc, if_true]) hc
        | false => exact .nothing (by simp [damage, hc])
      | _ => exact .nothing (by simp only [damage, hc])

/-! ## A step, from its primitive -/

/-- What a primitive and a power loss ensure of the memories, from `pre` to `post`, where both look at the memories and
the lock alone. -/
structure MemRule (pre post : State → Prop) : Prop where
  pre_kept : ∀ {s t}, MemKept s t → pre s → pre t
  post_kept : ∀ {s t}, MemKept s t → post s → post t
  weaken : ∀ {s}, pre s → post s
  prim : ∀ (pr : Prim) {s}, pre s → Ensures post (pr.run s)
  power : ∀ (cut : Cut) (launch : Byte) {s}, pre s → post (powerLoss cut launch s)

namespace MemRule

variable {pre post : State → Prop} (h : MemRule pre post) {s : State}

include h

theorem runStep (hs : pre s) : Ensures post (runStep s) := by
  unfold Machine.runStep
  split
  · exact h.weaken hs
  · exact h.post_kept {} (h.weaken hs)
  · exact ensures_afterPrim (h.prim _ hs) fun t ht => (resume_kept t).mono fun _ hu => h.post_kept hu.toMemKept ht

theorem takeUnit (u : HostUnit) (hs : pre s) : Ensures post (takeUnit u s) := by
  unfold Machine.takeUnit
  split
  · exact ensures_refused _
  · rename_i i rest hd
    have hx : Ensures post (exec i (writeCommandRegisters u { s with ret := .done })) :=
      h.prim (.port i) (h.pre_kept (writeCommandRegisters_kept _ u).toMemKept (h.pre_kept {} hs))
    split
    · rename_i t ht
      have hp := hx.of_eq_next ht
      exact ensures_ite (ensures_next.2 (h.post_kept {} hp)) (ensures_next.2 hp)
    · exact ensures_fault _
    · exact ensures_refused _

theorem hostMove (u : HostUnit) (hs : pre s) : Ensures post (hostMove u s) := by
  refine ensures_ite (h.weaken hs) (ensures_ite (ensures_ite (h.takeUnit u hs) ?_) (h.takeUnit u hs))
  exact h.weaken (h.pre_kept (writeCommandRegisters_kept s u).toMemKept hs)

theorem seqTurn (hs : pre s) : Ensures post (seqTurn s) := by
  refine ensures_ite (h.weaken hs) (ensures_ite (h.runStep hs) ?_)
  cases s.hostq with
  | nil => exact h.weaken hs
  | cons u rest => exact h.takeUnit u (h.pre_kept {} hs)

theorem envMove (m : Move) (hs : pre s) : Ensures post (envMove m s) := by
  cases m with
  | peer b => exact h.weaken (h.pre_kept (pushRx_kept s b).toMemKept hs)
  | key | tick => exact h.weaken (h.pre_kept {} hs)
  | power cut launch => exact h.power cut launch hs
  | host u => exact h.hostMove u hs
  | payload k b => exact ensures_ite (h.weaken hs) (h.weaken (h.pre_kept {} hs))

theorem step (hs : pre s) : Ensures post (step s) := by
  unfold Machine.step
  split
  · exact h.seqTurn hs
  · exact h.seqTurn (h.pre_kept {} hs)
  · exact h.envMove _ (h.pre_kept {} hs)

end MemRule

/-! ## The canonical form of the memories -/

section Canonical

variable {s t : State}

theorem MemInv.of_kept (h : MemKept s t) (hs : MemInv s) : MemInv t := by
  obtain ⟨hflash, hsram, hstg⟩ := hs
  refine ⟨h.flash ▸ hflash, ?_, h.stg ▸ hstg⟩
  rcases h.sram with he | hnil
  · exact he ▸ hsram
  · simp [Mem.wf, hnil]

/-- Every primitive stores through an operation that keeps the canonical form. -/
theorem primRun_memInv (pr : Prim) (hs : MemInv s) : Ensures MemInv (pr.run s) := by
  have kept {o : Outcome} (ho : Ensures (Kept s) o) : Ensures MemInv o := ho.mono fun _ ht => hs.of_kept ht.toMemKept
  obtain ⟨hflash, hsram, hstg⟩ := hs
  cases pr with
  | sramLoad => exact ensures_ite ⟨hflash, hsram, hstg⟩ (ensures_fault _)
  | sramStore => exact ensures_ite ⟨hflash, Mem.wf_storeList hsram .., hstg⟩ (ensures_fault _)
  | stgLoad => exact ensures_ite (ensures_ite ⟨hflash, hsram, hstg⟩ (ensures_fault _)) (ensures_fault _)
  | stgStore => exact ensures_ite ⟨hflash, hsram, Mem.wf_storeList hstg ..⟩ (ensures_fault _)
  | port i =>
    by_cases hi : drivesFlash i = true
    · cases i with
      | eraseBank =>
        exact ensures_whenLive ⟨hflash, hsram, hstg⟩
          (ensures_ite (ensures_refused _) ⟨Mem.wf_eraseFlash hflash .., hsram, hstg⟩)
      | writeSlot =>
        exact ensures_whenLive ⟨hflash, hsram, hstg⟩ (ensures_ite (ensures_refused _) (ensures_ite (ensures_refused _)
          (ensures_ite (ensures_refused _) ⟨Mem.wf_programFlash hflash .., hsram, hstg⟩)))
      | unlock | lock =>
        exact ensures_whenLive ⟨hflash, hsram, hstg⟩ (ensures_ite ⟨hflash, hsram, hstg⟩ ⟨hflash, hsram, hstg⟩)
      | _ => cases hi
    · exact kept (exec_kept (by simpa using hi) s)

/-- Damaged bytes are stored too, so the canonical form stays (R302). -/
theorem damage_memInv (persisted : Bool) (hs : MemInv s) : MemInv (damage persisted s) := by
  obtain ⟨hflash, hsram, hstg⟩ := hs
  cases damage_cases persisted s with
  | nothing he => rw [he]; exact ⟨hflash, hsram, hstg⟩
  | persist he => rw [he]; exact ⟨hflash, hsram, hstg⟩
  | erase he => rw [he]; exact ⟨Mem.wf_store hflash .., hsram, hstg⟩
  | program he => rw [he]; exact ⟨Mem.wf_store hflash .., hsram, hstg⟩
  | store he => rw [he]; exact ⟨hflash, Mem.wf_store hsram .., hstg⟩

theorem powerUp_memInv (launch : Byte) (hs : MemInv s) : MemInv (powerUp launch s) := by
  obtain ⟨hflash, hsram, -⟩ := hs
  exact ⟨hflash, hsram, Mem.wf_empty _⟩

theorem powerLoss_memInv (cut : Cut) (launch : Byte) (hs : MemInv s) : MemInv (powerLoss cut launch s) := by
  cases cut with
  | between => exact powerUp_memInv launch hs
  | inside persisted => exact powerUp_memInv launch (damage_memInv persisted hs)

theorem memInv_rule : MemRule MemInv MemInv where
  pre_kept := MemInv.of_kept
  post_kept := MemInv.of_kept
  weaken hs := hs
  prim pr _ := primRun_memInv pr
  power cut launch _ := powerLoss_memInv cut launch

end Canonical

/-- Settles O52: every primitive, and a power loss, keeps the canonical form. -/
theorem everyStepKeepsMemoryCanonical : Obligations.EveryStepKeepsMemoryCanonical :=
  fun _ _ hs => (memInv_rule.step hs).of_eq_next

/-! ## The locked flash -/

section Locked

variable {s : State}

/-- While the lock is closed no primitive writes flash: the two that would are refused (R284, U8). -/
theorem primRun_flash_of_locked (pr : Prim) (hlock : s.lockDepth = 0) : Ensures (·.flash = s.flash) (pr.run s) := by
  cases pr with
  | sramLoad | sramStore | stgStore => exact ensures_ite rfl (ensures_fault _)
  | stgLoad => exact ensures_ite (ensures_ite rfl (ensures_fault _)) (ensures_fault _)
  | port i =>
    by_cases hi : drivesFlash i = true
    · cases i with
      | eraseBank | writeSlot =>
        refine ensures_whenLive rfl ?_
        rw [if_pos hlock]
        exact ensures_refused _
      | unlock | lock => exact ensures_whenLive rfl (ensures_ite rfl rfl)
      | _ => cases hi
    · exact (exec_kept (by simpa using hi) s).mono fun _ ht => ht.flash

/-- Nor does a power loss (R302). -/
theorem damage_flash_of_locked (persisted : Bool) (hlock : s.lockDepth = 0) :
    (damage persisted s).flash = s.flash := by
  cases damage_cases persisted s with
  | nothing he => rw [he]
  | persist he => rw [he]
  | erase _ _ hopen => exact absurd hlock hopen
  | program _ _ hopen => exact absurd hlock hopen
  | store he => rw [he]

theorem powerLoss_flash_of_locked (cut : Cut) (launch : Byte) (hlock : s.lockDepth = 0) :
    (powerLoss cut launch s).flash = s.flash := by
  cases cut with
  | between => rfl
  | inside persisted => exact damage_flash_of_locked persisted hlock

theorem locked_rule (flash : Mem) :
    MemRule (fun s => s.lockDepth = 0 ∧ s.flash = flash) (fun t => t.flash = flash) where
  pre_kept h hs := ⟨h.lock.trans hs.1, h.flash.trans hs.2⟩
  post_kept h hs := h.flash.trans hs
  weaken hs := hs.2
  prim pr _ hs := (primRun_flash_of_locked pr hs.1).mono fun _ ht => ht.trans hs.2
  power cut launch _ hs := (powerLoss_flash_of_locked cut launch hs.1).trans hs.2

end Locked

/-- Settles O56: with the lock closed neither a primitive nor a power loss writes flash. -/
theorem lockedFlashNeverChanges : Obligations.LockedFlashNeverChanges :=
  fun s _ hlock => ((locked_rule s.flash).step ⟨hlock, rfl⟩).of_eq_next

end Sys2Proof.Machine
end

section
/-! PROOF. R147, R171, R211, R271, R274: what holds of SEQ when the host issues commands only. A move between two points
of one zone (`Label.zone`) keeps the invariant by what it does not write (`Steady`); the points that write the lock, the
mask or a settings copy, and the starts of the commands, are taken one by one. In the same pass: which halts are left
(`Sound`). Then the host's queue, and the statements. -/

namespace Sys2Proof.Machine

/-! ## The invariant with the halts that commands reach -/

/-- The invariant of SEQ, and a halt carries one of the three codes that commands reach (R271), or `d`. -/
structure Sound (d : Byte) (s : State) : Prop where
  inv : SeqInv s
  halts : s.halted = true →
    s.diagCode = d ∨ s.diagCode = 0x02 ∨ s.diagCode = 0x03 ∨ s.diagCode = 0x06

/-- `t` runs the command of `s` on the same region, and has not halted since. -/
structure SameRegion (s t : State) : Prop where
  cmd : t.pos.cmd = s.pos.cmd := by rfl
  a0 : t.vars.a0 = s.vars.a0 := by rfl
  slot : t.vars.slot = s.vars.slot := by rfl
  slots : t.vars.slots = s.vars.slots := by rfl
  offset : t.vars.offset = s.vars.offset := by rfl
  size : t.vars.size = s.vars.size := by rfl
  par : t.par = s.par := by rfl
  halted : t.halted = s.halted := by rfl
  diag : t.diagCode = s.diagCode := by rfl

/-- `t` has the registers of `s` that the invariant speaks of, the point SEQ is at aside. -/
structure Steady (s t : State) : Prop extends SameRegion s t where
  lock : t.lockDepth = s.lockDepth := by rfl
  mask : t.irqMask = s.irqMask := by rfl
  w : t.w = s.w := by rfl
  p : t.p = s.p := by rfl

/-- SEQ is at the same point, too. -/
structure SamePoint (s t : State) : Prop extends Steady s t where
  pos : t.pos = s.pos := by rfl

/-- What the invariant asks of the running region at a point. -/
def Label.regionZone (l : Label) : List Bool := [l.relocating, l.upgrading, l.evicting, l.erasing]

/-- What the invariant asks at a point: the zone of the pseudocode that the point lies in. -/
def Label.zone (l : Label) : List Bool := [l.inBatch, l.masked, l.saving] ++ l.regionZone

/-- The invariant where no batch, block read or save is going on. -/
structure Calm (s : State) : Prop where
  params : LegalParams s.par
  lock : s.lockDepth = 0
  mask : s.irqMask = false
  saved : s.w = s.p

section Rules

variable {d : Byte} {s t u : State} {l l₀ : Label} {i p : Nat}

theorem SamePoint.trans (h : SamePoint s t) (h' : SamePoint t u) : SamePoint s u where
  cmd := h'.cmd.trans h.cmd
  a0 := h'.a0.trans h.a0
  slot := h'.slot.trans h.slot
  slots := h'.slots.trans h.slots
  offset := h'.offset.trans h.offset
  size := h'.size.trans h.size
  par := h'.par.trans h.par
  lock := h'.lock.trans h.lock
  mask := h'.mask.trans h.mask
  w := h'.w.trans h.w
  p := h'.p.trans h.p
  halted := h'.halted.trans h.halted
  diag := h'.diag.trans h.diag
  pos := h'.pos.trans h.pos

theorem SamePoint.ite {c : Prop} [Decidable c] (ht : SamePoint s t) (hu : SamePoint s u) :
    SamePoint s (if c then t else u) := by
  split
  · exact ht
  · exact hu

/-- After a primitive SEQ stays where it is, or it has not halted and goes on. -/
theorem ensures_afterPrim_live {mid post : State → Prop} {o : Outcome} (ho : Ensures mid o)
    (hstay : ∀ t, mid t → post t) (hr : ∀ t, mid t → t.halted = false → Ensures post (resume t)) :
    Ensures post (afterPrim o) := by
  cases o with
  | next t =>
    simp only [afterPrim]
    split
    · exact hstay t ho
    · rename_i hgo
      simp only [Bool.or_eq_true, not_or, Bool.not_eq_true] at hgo
      exact hr t ho hgo.1
  | fault r => exact ensures_fault r
  | refused r => exact ensures_refused r

theorem samePoint_next (h : SamePoint s t := by exact {}) : Ensures (SamePoint s) (.next t) := h

theorem Sound.ite {c : Prop} [Decidable c] (ht : Sound d t) (hu : Sound d u) : Sound d (if c then t else u) := by
  split
  · exact ht
  · exact hu

theorem Sound.dite {c : Prop} [Decidable c] (ht : c → Sound d t) (hu : ¬ c → Sound d u) :
    Sound d (if c then t else u) := by
  split
  · rename_i h
    exact ht h
  · rename_i h
    exact hu h

theorem Calm.of (hc : Calm s) (hpar : t.par = s.par := by rfl) (hlock : t.lockDepth = s.lockDepth := by rfl)
    (hmask : t.irqMask = s.irqMask := by rfl) (hw : t.w = s.w := by rfl) (hp : t.p = s.p := by rfl) : Calm t where
  params := hpar ▸ hc.params
  lock := hlock.trans hc.lock
  mask := hmask.trans hc.mask
  saved := (hw.trans hc.saved).trans hp.symm

theorem Sound.of_same (hs : Sound d s) (h : SamePoint s t) : Sound d t where
  inv := by
    obtain ⟨hparams, hlock, hmask, hsaved, hregion, hupgrade, hslots, htarget⟩ := hs.inv
    constructor <;> simp only [h.pos, h.par, h.lock, h.mask, h.w, h.p, h.a0, h.slot, h.slots, h.offset, h.size] <;>
      assumption
  halts := by
    rw [h.halted, h.diag]
    exact hs.halts

/-- A move to a point that asks the same of the region, with the lock and the mask as that point asks. -/
theorem Sound.moveTo (hs : Sound d s) (hl : s.pos.label = l₀) (h : SameRegion s t)
    (hlock : t.lockDepth = if l.inBatch then 1 else 0) (hmask : t.irqMask = l.masked) (hsaved : t.w = t.p)
    (hz : l.regionZone = l₀.regionZone := by rfl) (hsaving : l.saving = false := by rfl)
    (hi : l.relocating = true → i < s.vars.size := by nofun)
    (he : l.erasing = true → i < s.vars.slots ∧ p < s.vars.size := by nofun) : Sound d (goto l i p t) where
  inv := by
    obtain ⟨hparams, -, -, -, hregion, hupgrade, hslots, htarget⟩ := hs.inv
    rw [hl] at hregion hupgrade hslots htarget
    simp only [Label.regionZone, List.cons.injEq, and_true] at hz
    obtain ⟨hreloc, hup, hevict, herase⟩ := hz
    rw [← hreloc] at hregion
    rw [← hup] at hupgrade
    rw [← herase] at hslots
    rw [← hevict] at htarget
    have hne : l ≠ .swPersistNone := by
      rintro rfl
      cases hsaving
    constructor
    case params => simpa [h.par] using hparams
    case lock => exact hlock
    case mask => exact hmask
    case saved => exact fun _ => hsaved
    case region =>
      simp only [goto_pos, goto_vars, goto_par, h.par, h.slot, h.offset, h.size]
      exact fun hr => ⟨(hregion hr).1, (hregion hr).2.1, hi hr⟩
    case upgrade => simpa [h.size] using hupgrade
    case slots =>
      simp only [goto_pos, goto_vars, goto_par, h.par, h.slot, h.slots, h.offset, h.size]
      exact fun hr => ⟨(hslots hr).1, (hslots hr).2.1, he hr⟩
    case target =>
      simp only [goto_pos, goto_vars, goto_par, h.par, h.a0, h.cmd]
      exact fun ht => htarget (.inl (ht.resolve_right hne))
  halts := by
    simp only [goto_halted, goto_diagCode, h.halted, h.diag]
    exact hs.halts

/-- A move inside a zone (R25). -/
theorem Sound.goto (hs : Sound d s) (hl : s.pos.label = l₀) (h : Steady s t := by exact {})
    (hz : l.zone = l₀.zone := by rfl) (hsaving : l.saving = false := by rfl)
    (hi : l.relocating = true → i < s.vars.size := by nofun)
    (he : l.erasing = true → i < s.vars.slots ∧ p < s.vars.size := by nofun) : Sound d (goto l i p t) := by
  simp only [Label.zone, List.cons_append, List.nil_append, List.cons.injEq] at hz
  obtain ⟨hbatch, hmasked, hsave, hregion⟩ := hz
  refine hs.moveTo hl h.toSameRegion ?_ ?_ ?_ hregion hsaving hi he
  · rw [h.lock, hs.inv.lock, hl, hbatch]
  · rw [h.mask, hs.inv.mask, hl, hmasked]
  · rw [h.w, h.p, hs.inv.saved (by rw [hl, ← hsave, hsaving])]

/-- A point outside batches, block reads and saves, entered from such a state. -/
theorem Calm.goto (hc : Calm t) (hlive : t.halted = false) (hbatch : l.inBatch = false := by rfl)
    (hmasked : l.masked = false := by rfl) (hsaving : l.saving = false := by rfl)
    (hregion : l.relocating = true →
      isSlot t.par t.vars.slot = true ∧ t.vars.offset + t.vars.size ≤ 8 ∧ i < t.vars.size := by nofun)
    (hupgrade : l.upgrading = true → t.vars.size = 1 := by nofun)
    (hslots : l.erasing = true → t.vars.slot.toNat + t.vars.slots ≤ t.par.sramSlots ∧
      t.vars.offset + t.vars.size ≤ 8 ∧ i < t.vars.slots ∧ p < t.vars.size := by nofun)
    (htarget : l.evicting = true → t.pos.cmd = some .switchToSlot →
      isSlot t.par t.vars.a0 = true ∨ t.vars.a0 = Config.slotNone := by nofun) :
    Sound d (Machine.goto l i p t) where
  inv := {
    params := hc.params
    lock := by simp [hbatch, hc.lock]
    mask := by simp [hmasked, hc.mask]
    saved := fun _ => hc.saved
    region := hregion
    upgrade := hupgrade
    slots := hslots
    target := by
      rintro (⟨he, hcmd⟩ | hl)
      · exact htarget he hcmd
      · obtain rfl : l = .swPersistNone := hl
        cases hsaving }
  halts := by simp [hlive]

/-- Between commands nothing but `Calm` is asked. -/
theorem Calm.idle (hc : Calm t) (hl : t.pos.label = .idle) : SeqInv t where
  params := hc.params
  lock := by rw [hl]; exact hc.lock
  mask := by rw [hl]; exact hc.mask
  saved := fun _ => hc.saved
  region := by rw [hl]; nofun
  upgrade := by rw [hl]; nofun
  slots := by rw [hl]; nofun
  target := by rw [hl]; nofun

theorem Calm.finish (hc : Calm t) (hlive : t.halted = false) (r : Status) : Sound d (finish r t) where
  inv := Calm.idle hc.of rfl
  halts := by simp [hlive]

/-- A halt between commands with a code that commands reach (R282). -/
theorem Calm.raiseFatal (hc : Calm t) (hl : t.pos.label = .idle) (code : FatalCode) (aux : Nat)
    (hcode : code.code = 0x02 ∨ code.code = 0x03 ∨ code.code = 0x06) : Sound d (raiseFatal code aux t) where
  inv := Calm.idle hc.of hl
  halts := fun _ => .inr hcode

/-- Outside batches, block reads and saves the invariant is `Calm`. -/
theorem SeqInv.calm (h : SeqInv s) (hl : s.pos.label = l) (hbatch : l.inBatch = false := by rfl)
    (hmasked : l.masked = false := by rfl) (hsaving : l.saving = false := by rfl) : Calm s where
  params := h.params
  lock := by rw [h.lock, hl, hbatch]; rfl
  mask := by rw [h.mask, hl, hmasked]
  saved := h.saved (by rw [hl, hsaving])

theorem SeqInv.region_of (h : SeqInv s) (hl : s.pos.label = l) (hr : l.relocating = true := by rfl) :
    isSlot s.par s.vars.slot = true ∧ s.vars.offset + s.vars.size ≤ 8 ∧ s.pos.i < s.vars.size :=
  h.region (hl ▸ hr)

theorem SeqInv.slots_of (h : SeqInv s) (hl : s.pos.label = l) (hr : l.erasing = true := by rfl) :
    s.vars.slot.toNat + s.vars.slots ≤ s.par.sramSlots ∧ s.vars.offset + s.vars.size ≤ 8 ∧
      s.pos.i < s.vars.slots ∧ s.pos.p < s.vars.size :=
  h.slots (hl ▸ hr)

/-- A slot index of a legal unit is below 15 (R92). -/
theorem toNat_lt_of_isSlot (hp : LegalParams s.par) {v : Byte} (h : isSlot s.par v = true) : v.toNat < 15 :=
  Nat.lt_of_lt_of_le (of_decide_eq_true h) hp.2

/-- A decoded descriptor lies inside a slot (R94, R120). -/
theorem osFields_bounds {os : Byte} {o n : Nat} (h : osFields os = some (o, n)) : 1 ≤ n ∧ o + n ≤ 8 := by
  unfold osFields at h
  split at h
  · cases h
  · cases h
    omega

end Rules

/-! ## Primitives that leave SEQ's registers alone -/

section Primitives

variable {s : State}

/-- The primitives that write neither the lock nor the mask nor a settings copy. -/
def Prim.leavesControl : Prim → Bool
  | .port i =>
    match i with
    | .eraseBank .. | .writeSlot .. | .readSlot .. | .getLaunchSlot | .getc | .getcNb | .putc _ | .serialOpen _
    | .serialClose | .rxIrqEnable | .haltWait | .pollCancel | .progressInit _ | .progressDraw _ | .workTick => true
    | _ => false
  | _ => true

theorem fillBuf_samePoint (b : Buf) (data : List Byte) (s : State) : SamePoint s (fillBuf b data s) := by
  cases b <;> exact {}

theorem pushRx_samePoint (b : Byte) (s : State) : SamePoint s (pushRx b s) := by
  unfold pushRx
  split
  · exact {}
  · exact .ite (.ite {} {}) (.ite {} {})

theorem pushRxAll_samePoint (bs : List Byte) (s : State) : SamePoint s (pushRxAll bs s) := by
  induction bs generalizing s with
  | nil => exact {}
  | cons b bs ih => exact (pushRx_samePoint b s).trans (ih _)

theorem primRun_samePoint {pr : Prim} (hpr : pr.leavesControl = true) (s : State) :
    Ensures (SamePoint s) (pr.run s) := by
  have live {o : Outcome} (ho : Ensures (SamePoint s) o) : Ensures (SamePoint s) (whenLive s o) :=
    ensures_whenLive {} ho
  cases pr with
  | sramLoad | sramStore | stgStore => exact ensures_ite samePoint_next (ensures_fault _)
  | stgLoad => exact ensures_ite (ensures_ite samePoint_next (ensures_fault _)) (ensures_fault _)
  | port i =>
    cases i with
    | eraseBank =>
      refine live ?_
      exact ensures_ite (ensures_refused _) samePoint_next
    | writeSlot =>
      refine live ?_
      exact ensures_ite (ensures_refused _) (ensures_ite (ensures_refused _)
        (ensures_ite (ensures_refused _) samePoint_next))
    | readSlot =>
      refine live ?_
      exact ensures_ite (ensures_refused _) (ensures_ite (ensures_refused _)
        (samePoint_next (.trans {} (fillBuf_samePoint ..))))
    | getc | getcNb =>
      refine live ?_
      cases s.rxq with
      | nil => exact samePoint_next
      | cons b rest => exact samePoint_next
    | haltWait =>
      refine live ?_
      exact ensures_ite samePoint_next samePoint_next
    | getLaunchSlot | putc | serialOpen | serialClose | rxIrqEnable | pollCancel | progressInit | progressDraw
    | workTick =>
      refine live ?_
      exact samePoint_next
    | _ => cases hpr

end Primitives

/-! ## SEQ's way from one point to the next -/

section Points

variable {d : Byte} {s : State}

theorem recvLeading_sound (c : Byte) (hs : Sound d s) (hl : s.pos.label = .rcGet) : Sound d (recvLeading c s) :=
  .ite (hs.goto hl) (.ite (hs.goto hl) (.ite (hs.goto hl) (hs.goto hl)))

theorem headerRead_sound (b : Byte) (hs : Sound d s) (hl : s.pos.label = .rcNseq) : Sound d (headerRead b s) :=
  .ite (hs.goto hl) (hs.goto hl)

theorem dataRead_sound (b : Byte) (hs : Sound d s) (hl : s.pos.label = .rcData) : Sound d (dataRead b s) :=
  .ite (hs.goto hl) (hs.goto hl)

theorem checksumRead_sound (b : Byte) (hs : Sound d s) (hl : s.pos.label = .rcCheck) :
    Sound d (checksumRead b s) :=
  .ite (hs.goto hl) (hs.goto hl)

theorem recvEnd_sound (r : Status) (hc : Calm s) (hlive : s.halted = false) : Sound d (recvEnd r s) :=
  have hc' {v : Vars} : Calm { s with xmPhase := .awaitStart, vars := v } := hc.of
  .ite (hc'.goto hlive) (Calm.finish hc' hlive r)

theorem badUnit_sound (hc : Calm s) (hlive : s.halted = false) : Sound d (badUnit s) :=
  have hc' {b : Byte} : Calm { s with xmRetry := b } := hc.of
  .ite (recvEnd_sound .error hc' hlive) (hc'.goto hlive)

theorem blockStored_sound (hc : Calm s) (hlive : s.halted = false) : Sound d (blockStored s) :=
  have hc' {v : Vars} {n : Half} {b : Byte} : Calm { s with blkCount := n, deltaPrev := b, vars := v } :=
    hc.of
  .ite (hc'.goto hlive) (hc'.goto hlive)

theorem installCleanup_sound (hc : Calm s) (hlive : s.halted = false) : Sound d (installCleanup s) :=
  have hc' : Calm { s with xmPhase := .awaitStart } := hc.of
  .ite (hc'.finish hlive _) (.ite (hc'.goto hlive) (hc'.goto hlive))

theorem sendEnd_sound (r : Status) (hc : Calm s) (hlive : s.halted = false) : Sound d (sendEnd r s) :=
  Calm.finish (t := { s with xmPhase := .awaitStart }) hc.of hlive r

theorem sendWait_sound (hc : Calm s) (hlive : s.halted = false) : Sound d (sendWait s) :=
  .ite (hc.goto hlive) (hc.goto hlive)

theorem sendTransmit_sound (hc : Calm s) (hlive : s.halted = false) : Sound d (sendTransmit s) :=
  .ite (hc.goto hlive) (hc.goto hlive)

theorem sendNak_sound (hc : Calm s) (hlive : s.halted = false) : Sound d (sendNak s) :=
  have hc' {b : Byte} : Calm { s with xmRetry := b } := hc.of
  .ite (sendEnd_sound .error hc' hlive) (sendTransmit_sound hc' hlive)

theorem sendReply_sound (c : Byte) (hc : Calm s) (hlive : s.halted = false) : Sound d (sendReply c s) :=
  have hwait := sendWait_sound hc hlive
  .ite (sendEnd_sound _ hc hlive) (.ite (.ite (hc.finish hlive _) hwait)
    (.ite (sendNak_sound hc hlive) (.ite (.ite (sendEnd_sound _ hc hlive)
      (Calm.finish (t := { s with xmSeq := s.xmSeq + 1 }) hc.of hlive _)) hwait)))

/-- The entry of a relocation halts on an odd geometry or goes to P3 (R123, R173). -/
theorem enterProgram_sound (hc : Calm s) (hlive : s.halted = false) (hl : s.pos.label = .idle)
    (hregion : isSlot s.par s.vars.slot = true ∧ s.vars.offset + s.vars.size ≤ 8 ∧ 0 < s.vars.size)
    (htarget : s.pos.cmd = some .switchToSlot → isSlot s.par s.vars.a0 = true ∨ s.vars.a0 = Config.slotNone) :
    Sound d (enterProgram s) :=
  .ite (hc.raiseFatal hl _ _ (.inl rfl)) (hc.goto hlive (hregion := fun _ => hregion) (htarget := fun _ => htarget))

/-- The end of the upgrade enters the relocation of the even pair, which lies in the slot, too (R174). -/
theorem upgraded_sound (hs : Sound d s) (hlive : s.halted = false) (hl : s.pos.label = .upStore) :
    Sound d (upgraded s) := by
  obtain ⟨hslot, hbound, -⟩ := hs.inv.region_of hl
  have hone : s.vars.size = 1 := hs.inv.upgrade (by rw [hl]; rfl)
  have hc := hs.inv.calm hl
  have htarget := hs.inv.target
  rw [upgraded_eq]
  refine Calm.goto hc.of hlive (hregion := fun _ => ⟨hslot, ?_, ?_⟩)
    (htarget := fun _ hcmd => htarget (.inl ⟨by rw [hl]; rfl, hcmd⟩))
  · dsimp only
    omega
  · simp

theorem programDone_sound (hc : Calm s) (hlive : s.halted = false)
    (htarget : s.pos.cmd = some .switchToSlot → isSlot s.par s.vars.a0 = true ∨ s.vars.a0 = Config.slotNone) :
    Sound d (programDone s) := by
  unfold programDone
  split
  · rename_i hcmd
    exact {
      inv := {
        params := hc.params, lock := hc.lock, mask := hc.mask, saved := nofun, region := nofun, upgrade := nofun
        slots := nofun, target := fun _ => htarget hcmd }
      halts := by simp [hlive] }
  · exact hc.finish hlive _

theorem restoreDone_sound (hc : Calm s) (hlive : s.halted = false) : Sound d (restoreDone s) := by
  unfold restoreDone
  split
  · exact {
      inv := {
        params := hc.params, lock := hc.lock, mask := hc.mask, saved := nofun, region := nofun, upgrade := nofun
        slots := nofun, target := by rintro (⟨h, -⟩ | h) <;> cases h }
      halts := by simp [hlive] }
  · exact hc.finish hlive _

theorem beginRestore_sound {slot os : Byte} {offset size : Nat} (hc : Calm s) (hlive : s.halted = false)
    (hslot : isSlot s.par slot = true) (hf : osFields os = some (offset, size)) :
    Sound d (beginRestore slot os offset size s) := by
  obtain ⟨hpos, hbound⟩ := osFields_bounds hf
  exact Calm.goto hc.of hlive (hregion := fun _ => ⟨hslot, hbound, hpos⟩)

/-- The points at which SEQ goes on by the rules below: its primitive leaves its registers alone, and no unit of the
line is taken. -/
def Label.goesOn : Label → Bool
  | .swAdopt | .swPersistNone | .swPersistNew | .pgUnlock | .pgLock | .esUnlock | .esLock | .fiUnlock | .fiLock
  | .rcMask | .rcSelf | .rcCancel | .rcEot | .rcGood | .rcBad | .rcGet | .sdGet => false
  | _ => true

/-- From such a point SEQ goes on to one where the invariant holds (R25). -/
theorem resume_sound (hs : Sound d s) (hlive : s.halted = false) (hpoint : s.pos.label.goesOn = true) :
    Ensures (Sound d) (resume s) := by
  cases hl : s.pos.label with
  | idle =>
    simp only [resume, hl]
    exact hs
  | fiLaunch | fiInit | fiErase | fiLoad | fiWrite | fiDraw | rcPrime | rcSeq | sdSoh | sdSeq | sdNseq | erInit
  | erDraw =>
    simp only [resume, hl]
    exact hs.goto hl
  | fiTick | rcPoll | erFill | inPad | sdData =>
    simp only [resume, hl]
    exact Sound.ite (hs.goto hl) (hs.goto hl)
  | upFetch | upRead | pgLaunch | pgInit | pgWrite | pgDraw | rsLaunch | rsInit | rsRead | rsStore | rsDraw =>
    obtain ⟨-, -, hi⟩ := hs.inv.region_of hl
    simp only [resume, hl]
    exact hs.goto hl (hi := fun _ => by omega)
  | upLaunch | upMove | pgErase | pgLoad | pgCompare =>
    obtain ⟨-, -, hi⟩ := hs.inv.region_of hl
    simp only [resume, hl]
    exact Sound.dite (fun _ => hs.goto hl (hi := fun _ => by omega)) fun _ => hs.goto hl (hi := fun _ => by omega)
  | pgTick =>
    obtain ⟨-, -, hi⟩ := hs.inv.region_of hl
    simp only [resume, hl]
    exact Sound.ite (hs.goto hl (hi := fun _ => hi)) (Sound.dite (fun h => hs.goto hl (hi := fun _ => h))
      fun _ => hs.goto hl (hi := fun _ => by omega))
  | upStore =>
    obtain ⟨-, -, hi⟩ := hs.inv.region_of hl
    simp only [resume, hl]
    exact Sound.ite (hs.goto hl (hi := fun _ => by omega)) (upgraded_sound hs hlive hl)
  | rsTick =>
    obtain ⟨-, -, hi⟩ := hs.inv.region_of hl
    simp only [resume, hl]
    exact Sound.ite (hs.goto hl (hi := fun _ => hi)) (Sound.dite (fun h => hs.goto hl (hi := fun _ => h))
      fun _ => restoreDone_sound (hs.inv.calm hl) hlive)
  | esLaunch | esErase | esDraw =>
    obtain ⟨-, -, hi, hp⟩ := hs.inv.slots_of hl
    simp only [resume, hl]
    exact hs.goto hl (he := fun _ => ⟨by omega, by omega⟩)
  | esInit =>
    obtain ⟨-, -, hi, hp⟩ := hs.inv.slots_of hl
    simp only [resume, hl]
    exact Sound.dite (fun _ => hs.goto hl (he := fun _ => ⟨by omega, by omega⟩)) fun h => absurd (by omega) h
  | esTick =>
    obtain ⟨-, -, hi, hp⟩ := hs.inv.slots_of hl
    simp only [resume, hl]
    exact Sound.dite (fun h => hs.goto hl (he := fun _ => ⟨hi, h⟩)) fun _ =>
      Sound.dite (fun h => hs.goto hl (he := fun _ => ⟨h, by omega⟩)) fun _ =>
        hs.goto hl (he := fun _ => ⟨by omega, by omega⟩)
  | fiRead =>
    simp only [resume, hl]
    refine Sound.ite (hs.goto hl) ?_
    obtain ⟨hparams, hlock, hmask, hsaved, hregion, hupgrade, hslots, htarget⟩ := hs.inv
    exact ⟨⟨hparams, hlock, hmask, hsaved, hregion, hupgrade, hslots, htarget⟩, fun _ => .inr (.inr (.inr rfl))⟩
  | rcNseq =>
    simp only [resume, hl]
    exact headerRead_sound _ hs hl
  | rcData =>
    simp only [resume, hl]
    exact dataRead_sound _ hs hl
  | rcCheck =>
    simp only [resume, hl]
    exact checksumRead_sound _ hs hl
  | rcEotAck =>
    simp only [resume, hl]
    exact recvEnd_sound _ (hs.inv.calm hl) hlive
  | erTick =>
    simp only [resume, hl]
    exact Sound.ite (hs.goto hl) ((hs.inv.calm hl).finish hlive _)
  | xoOpen | inTrailer =>
    simp only [resume, hl]
    exact (hs.inv.calm hl).finish hlive _
  | xcClose =>
    have hc := hs.inv.calm hl
    simp only [resume, hl]
    exact Calm.finish (t := { s with xmPhase := .awaitStart }) hc.of hlive _
  | inOpen =>
    have hc := hs.inv.calm hl
    simp only [resume, hl]
    exact Calm.goto hc.of hlive
  | inStore =>
    have hc := hs.inv.calm hl
    simp only [resume, hl]
    exact Sound.ite (hs.goto hl) (blockStored_sound hc.of hlive)
  | inClose =>
    simp only [resume, hl]
    exact installCleanup_sound (hs.inv.calm hl) hlive
  | sdIrq | sdSum | sdEot | sdHalt =>
    simp only [resume, hl]
    exact sendWait_sound (hs.inv.calm hl) hlive
  | sdPoll =>
    simp only [resume, hl]
    exact Sound.ite (sendEnd_sound _ (hs.inv.calm hl) hlive) (hs.goto hl)
  | _ => simp [hl, Label.goesOn] at hpoint

/-- The banks of a relocation are below the limit (R122, R124). -/
theorem bankNumber_lt_of_region {sub : Nat} (hs : SeqInv s) (hslot : isSlot s.par s.vars.slot = true)
    (hsub : sub < 8) : bankNumber s.w.legacyLayout s.vars.slot.toNat sub < Config.bankLimit :=
  bankNumber_lt (toNat_lt_of_isSlot hs.params hslot) hsub

/-- SEQ asks for nothing, or for a primitive that leaves its registers alone. -/
def Want.leavesControl : Want → Bool
  | .nothing => true
  | .prim pr => pr.leavesControl
  | .fatal .. => false

theorem want_leavesControl (hs : SeqInv s) (hpoint : s.pos.label.goesOn = true) : (want s).leavesControl = true := by
  cases hl : s.pos.label with
  | upRead =>
    obtain ⟨hslot, hbound, hi⟩ := hs.region_of hl
    have hone : s.vars.size = 1 := hs.upgrade (by rw [hl]; rfl)
    have hsub : siblingSubBank s < 8 := by
      simp only [siblingSubBank, upperHalf, beq_iff_eq]
      split <;> omega
    simp only [want, hl]
    rw [onBank_ok (bankNumber_lt_of_region hs hslot hsub)]
    rfl
  | pgErase | pgCompare | pgWrite | rsRead =>
    obtain ⟨hslot, hbound, hi⟩ := hs.region_of hl
    simp only [want, hl]
    rw [onBank_ok (bankNumber_lt_of_region hs hslot (by omega))]
    rfl
  | esErase =>
    obtain ⟨hslots, hbound, hi, hp⟩ := hs.slots_of hl
    obtain ⟨-, h15⟩ := hs.params
    simp only [want, hl]
    rw [onBank_ok (bankNumber_lt (by omega) (by omega))]
    rfl
  | swAdopt | swPersistNone | swPersistNew | pgUnlock | pgLock | esUnlock | esLock | fiUnlock | fiLock
  | rcMask | rcSelf | rcCancel | rcEot | rcGood | rcBad | rcGet | sdGet => simp [hl, Label.goesOn] at hpoint
  | _ =>
    simp only [want, hl]
    rfl

/-- Everything SEQ does at such a point keeps the invariant: the primitive, and the way on. -/
theorem runStep_sound_of_goesOn (hs : Sound d s) (hpoint : s.pos.label.goesOn = true) :
    Ensures (Sound d) (runStep s) := by
  have hwant := want_leavesControl hs.inv hpoint
  unfold runStep
  cases hw : want s with
  | nothing => exact hs
  | fatal code aux => simp [hw, Want.leavesControl] at hwant
  | prim pr =>
    rw [hw] at hwant
    have hrun : Ensures (fun t => Sound d t ∧ t.pos = s.pos) (pr.run s) :=
      (primRun_samePoint hwant s).mono fun t ht => ⟨hs.of_same ht, ht.pos⟩
    exact ensures_afterPrim_live hrun (fun _ ht => ht.1) fun t ht hlive =>
      resume_sound ht.1 hlive (ht.2 ▸ hpoint)

/-- After `persist()` of NONE: the load of the slot that was asked for (R170 step 5). -/
theorem switchLoad_sound (hc : Calm s) (hlive : s.halted = false)
    (htarget : isSlot s.par s.vars.a0 = true ∨ s.vars.a0 = Config.slotNone) : Ensures (Sound d) (switchLoad s) := by
  unfold switchLoad
  split
  · exact hc.finish hlive _
  · rename_i hnone
    cases hf : osFields s.vars.a1 with
    | none => exact ensures_refused _
    | some f => exact beginRestore_sound hc hlive (htarget.resolve_right hnone) hf

/-- After `persist()` (R146, R171). -/
theorem SeqInv.calm_of_persisted {l : Label} (h : SeqInv s) (hl : s.pos.label = l)
    (hbatch : l.inBatch = false := by rfl) (hmasked : l.masked = false := by rfl) :
    Calm { s with p := s.w, ret := .done } where
  params := h.params
  lock := by rw [h.lock, hl, hbatch]; rfl
  mask := by rw [h.mask, hl, hmasked]
  saved := rfl

/-- After `lock()` at the end of a batch (R144, R147). -/
theorem SeqInv.calm_of_locked {l : Label} (h : SeqInv s) (hl : s.pos.label = l)
    (hbatch : l.inBatch = true := by rfl) (hmasked : l.masked = false := by rfl)
    (hsaving : l.saving = false := by rfl) : Calm { s with lockDepth := s.lockDepth - 1, ret := .done } where
  params := h.params
  lock := by rw [h.lock, hl, hbatch]; rfl
  mask := by rw [h.mask, hl, hmasked]
  saved := h.saved (by rw [hl, hsaving])

/-- After `irq_unmask()` at the end of a block read (R157, R211). -/
theorem SeqInv.calm_of_unmasked {l : Label} (h : SeqInv s) (hl : s.pos.label = l)
    (hbatch : l.inBatch = false := by rfl) (hsaving : l.saving = false := by rfl) :
    Calm { s with irqMask := false, ret := .done } where
  params := h.params
  lock := by rw [h.lock, hl, hbatch]; rfl
  mask := rfl
  saved := h.saved (by rw [hl, hsaving])

theorem SeqInv.open {l : Label} (h : SeqInv s) (hl : s.pos.label = l) (hbatch : l.inBatch = true := by rfl) :
    s.lockDepth ≠ 0 := by
  simp [h.lock, hl, hbatch]

/-- `unlock()` from the closed lock opens the batch (R143, R147): the counter is far from its end. -/
theorem Sound.unlocked {l l₀ : Label} {k : FatalCode} {aux : Nat} (hs : Sound d s) (hl : s.pos.label = l₀)
    (hclosed : l₀.inBatch = false := by rfl) (hmasked : l₀.masked = false := by rfl)
    (hsaving : l₀.saving = false := by rfl) (hbatch : l.inBatch = true := by rfl)
    (hmasked' : l.masked = false := by rfl) (hsaving' : l.saving = false := by rfl)
    (hz : l.regionZone = l₀.regionZone := by rfl) (hi : l.relocating = true → 0 < s.vars.size := by nofun)
    (he : l.erasing = true → 0 < s.vars.slots ∧ 0 < s.vars.size := by nofun) :
    Sound d (if s.lockDepth = Config.lockMax then Machine.raiseFatal k aux s
      else Machine.goto l 0 0 { s with lockDepth := s.lockDepth + 1, ret := .done }) := by
  have hc := hs.inv.calm hl hclosed hmasked hsaving
  rw [if_neg (by rw [hc.lock]; decide)]
  refine hs.moveTo hl {} ?_ ?_ hc.saved hz hsaving' hi he
  · simp [hc.lock, hbatch]
  · simp [hc.mask, hmasked']

/-- The invariant's `target` at a point of an evict. -/
theorem SeqInv.target_of {l : Label} (h : SeqInv s) (hl : s.pos.label = l) (hevict : l.evicting = true := by rfl) :
    s.pos.cmd = some .switchToSlot → isSlot s.par s.vars.a0 = true ∨ s.vars.a0 = Config.slotNone :=
  fun hcmd => h.target (.inl ⟨hl ▸ hevict, hcmd⟩)

/-- One step of the running command keeps the invariant. -/
theorem runStep_sound (hs : Sound d s) (hlive : s.halted = false) : Ensures (Sound d) (runStep s) := by
  by_cases hpoint : s.pos.label.goesOn = true
  · exact runStep_sound_of_goesOn hs hpoint
  cases hl : s.pos.label with
  | swAdopt =>
    rw [runStep_swAdopt hlive hl]
    exact (hs.inv.calm_of_persisted hl).finish hlive _
  | swPersistNew =>
    rw [runStep_swPersistNew hlive hl]
    exact (hs.inv.calm_of_persisted hl).finish hlive _
  | swPersistNone =>
    rw [runStep_swPersistNone hlive hl]
    exact switchLoad_sound (hs.inv.calm_of_persisted hl) hlive (hs.inv.target (.inr hl))
  | pgUnlock =>
    obtain ⟨-, -, hi⟩ := hs.inv.region_of hl
    rw [runStep_pgUnlock hlive hl]
    exact hs.unlocked hl (hi := fun _ => by omega)
  | esUnlock =>
    obtain ⟨-, -, hi, hp⟩ := hs.inv.slots_of hl
    rw [runStep_esUnlock hlive hl]
    exact hs.unlocked hl (he := fun _ => ⟨by omega, by omega⟩)
  | fiUnlock =>
    rw [runStep_fiUnlock hlive hl]
    exact hs.unlocked hl
  | pgLock =>
    rw [runStep_pgLock hlive hl, if_neg (hs.inv.open hl)]
    exact programDone_sound (hs.inv.calm_of_locked hl) hlive (hs.inv.target_of hl)
  | esLock =>
    rw [runStep_esLock hlive hl, if_neg (hs.inv.open hl)]
    exact (hs.inv.calm_of_locked hl).finish hlive _
  | fiLock =>
    rw [runStep_fiLock hlive hl, if_neg (hs.inv.open hl)]
    exact (hs.inv.calm_of_locked hl).finish hlive _
  | rcMask =>
    have hc := hs.inv.calm hl
    rw [runStep_rcMask hlive hl]
    exact hs.moveTo hl {} hc.lock rfl hc.saved
  | rcSelf =>
    rw [runStep_rcSelf hlive hl]
    exact recvEnd_sound _ (hs.inv.calm_of_unmasked hl) hlive
  | rcCancel =>
    rw [runStep_rcCancel hlive hl]
    exact recvEnd_sound _ (hs.inv.calm_of_unmasked hl) hlive
  | rcEot =>
    rw [runStep_rcEot hlive hl]
    exact (hs.inv.calm_of_unmasked hl).goto hlive
  | rcGood =>
    have hc := hs.inv.calm_of_unmasked hl
    rw [runStep_rcGood hlive hl]
    exact Sound.ite (hc.goto hlive) (hc.finish hlive _)
  | rcBad =>
    rw [runStep_rcBad hlive hl]
    exact badUnit_sound (hs.inv.calm_of_unmasked hl) hlive
  | rcGet =>
    cases hq : s.rxq with
    | nil =>
      rw [runStep_rcGet_empty hlive hl hq]
      exact hs.goto hl
    | cons c rest =>
      rw [runStep_rcGet hlive hl hq]
      exact recvLeading_sound c (hs.of_same {}) hl
  | sdGet =>
    have hc := hs.inv.calm hl
    cases hq : s.rxq with
    | nil =>
      rw [runStep_sdGet_empty hlive hl hq]
      exact hs.goto hl
    | cons c rest =>
      rw [runStep_sdGet hlive hl hq]
      exact sendReply_sound c hc.of hlive
  | _ => exact absurd (by rw [hl]; rfl) hpoint

end Points

/-! ## The starts of the commands, and the other units -/

section Starts

variable {d : Byte} {s : State}

theorem beginProgram_sound {slot os : Byte} {offset size : Nat} (hc : Calm s) (hlive : s.halted = false)
    (hl : s.pos.label = .idle) (hslot : isSlot s.par slot = true) (hf : osFields os = some (offset, size))
    (htarget : s.pos.cmd = some .switchToSlot → isSlot s.par s.vars.a0 = true ∨ s.vars.a0 = Config.slotNone) :
    Sound d (beginProgram slot os offset size s) := by
  obtain ⟨hpos, hbound⟩ := osFields_bounds hf
  have hc' : Calm { s with vars := { s.vars with slot := slot, os := os, offset := offset, size := size } } := hc.of
  exact Sound.dite
    (fun hone => hc'.goto hlive (hregion := fun _ => ⟨hslot, hbound, hpos⟩) (hupgrade := fun _ => hone)
      (htarget := fun _ => htarget))
    fun _ => enterProgram_sound hc' hlive hl ⟨hslot, hbound, hpos⟩ htarget

theorem beginEraseSlots_sound {first : Byte} {count : Nat} (hc : Calm s) (hlive : s.halted = false)
    (hslots : first.toNat + count ≤ s.par.sramSlots) (hcount : 0 < count)
    (hregion : s.vars.offset + s.vars.size ≤ 8 ∧ 0 < s.vars.size) : Sound d (beginEraseSlots first count s) :=
  Calm.goto hc.of hlive (hslots := fun _ => ⟨hslots, hregion.1, hcount, hregion.2⟩)

/-- Steps 4 and 5 of SWITCH_TO_SLOT, for an operand that is a slot or NONE (R170). -/
theorem switchBody_sound {slot os : Byte} (hc : Calm s) (hlive : s.halted = false) (hl : s.pos.label = .idle)
    (ha0 : s.vars.a0 = slot) (htarget : isSlot s.par slot = true ∨ slot = Config.slotNone) :
    Ensures (Sound d) (switchBody slot os s) := by
  unfold switchBody
  dsimp only
  split
  · rename_i hactive
    cases hf : osFields s.w.activeOs with
    | none => exact ensures_refused _
    | some f =>
      refine ensures_ite (ensures_refused _) ?_
      exact beginProgram_sound hc hlive hl hactive hf fun _ => ha0 ▸ htarget
  · split
    · exact hc.finish hlive _
    · rename_i hnone
      cases hf : osFields os with
      | none => exact ensures_refused _
      | some f => exact beginRestore_sound hc hlive (htarget.resolve_right hnone) hf

/-- A command from an idle machine (R22): it is refused, ends at once, halts with a bad slot or an odd geometry, or goes
to its first point. -/
theorem exec_command_sound {i : Instr} (hf : i.format = .cmd) (hc : Calm s) (hi : Idle s) :
    Ensures (Sound d) (exec i s) := by
  have hlive := hi.1
  have start {c : Cmd} {a0 a1 : Byte} {body : State → Outcome}
      (hb : Calm (s.started c a0 a1) → Ensures (Sound d) (body (s.started c a0 a1))) :
      Ensures (Sound d) (startCommand c a0 a1 s body) := by
    rw [startCommand_idle hi]
    exact hb hc.of
  cases i with
  | resolveBank slot sub =>
    simp only [exec]
    refine start fun hc => ?_
    dsimp only
    split
    · exact ensures_refused _
    · rename_i hsub
      split
      · exact ensures_refused _
      · rename_i hslot
        rw [Bool.not_eq_true, Bool.not_eq_false'] at hslot
        rw [if_neg (Nat.not_le.2 (bankNumber_lt (toNat_lt_of_isSlot hc.params hslot) (by omega)))]
        refine ensures_next.2 (Calm.finish ?_ ?_ _)
        · exact hc.of
        · exact hlive
  | switchToSlot slot os =>
    have hstart : Calm (s.started .switchToSlot slot os) := hc.of
    rw [exec_switchToSlot hi]
    split
    · exact hstart.finish hlive _
    split
    · exact ensures_ite (hstart.finish hlive _) {
        inv := {
          params := hc.params, lock := hc.lock, mask := hc.mask, saved := nofun, region := nofun, upgrade := nofun
          slots := nofun, target := by rintro (⟨h, -⟩ | h) <;> cases h }
        halts := fun h => absurd h (by simp [hlive]) }
    split
    · exact hstart.raiseFatal rfl _ _ (.inr (.inl rfl))
    rename_i hslot
    split
    · exact hstart.raiseFatal rfl _ _ (.inr (.inl rfl))
    · exact switchBody_sound hstart hlive rfl rfl (by simpa [or_iff_not_imp_left] using hslot)
  | programToFlash slot os =>
    simp only [exec]
    refine start fun hc => ?_
    dsimp only
    split
    · exact ensures_refused _
    · rename_i hslot
      cases hf : osFields os with
      | none => exact ensures_refused _
      | some f => exact beginProgram_sound hc hlive rfl (by simpa using hslot) hf nofun
  | restoreFromFlash slot os =>
    simp only [exec]
    refine start fun hc => ?_
    dsimp only
    split
    · exact ensures_refused _
    · rename_i hslot
      cases hf : osFields os with
      | none => exact ensures_refused _
      | some f => exact beginRestore_sound hc hlive (by simpa using hslot) hf
  | erase target os =>
    obtain ⟨h1, -⟩ := hc.params
    cases hf : osFields os with
    | none =>
      simp only [exec]
      refine start fun hc => ?_
      simp only [hf]
      exact ensures_refused _
    | some f =>
      obtain ⟨hpos, hbound⟩ := osFields_bounds hf
      rw [exec_erase hi hf]
      split
      · exact Calm.goto hc.of hlive
      split
      · rename_i hslot
        exact beginEraseSlots_sound hc.of hlive (of_decide_eq_true hslot) Nat.one_pos ⟨hbound, hpos⟩
      · exact ensures_ite (beginEraseSlots_sound hc.of hlive (Nat.le_of_eq (Nat.zero_add _)) h1 ⟨hbound, hpos⟩)
          (ensures_refused _)
  | flashImage | xmOpen | xmClose =>
    simp only [exec]
    refine start fun hc => ?_
    exact hc.goto hlive
  | recvStart =>
    simp only [exec]
    refine start fun hc => ?_
    refine ensures_ite (ensures_next.2 (Calm.finish ?_ ?_ _)) (ensures_refused _)
    · exact hc.of
    · exact hlive
  | recvBlock =>
    simp only [exec]
    refine start fun hc => ?_
    exact ensures_ite (hc.goto hlive) (ensures_refused _)
  | sendStart =>
    simp only [exec]
    refine start fun hc => ?_
    refine ensures_ite (ensures_next.2 (Calm.goto ?_ hlive)) (ensures_refused _)
    exact hc.of
  | sendBlock | sendFinish =>
    simp only [exec]
    refine start fun hc => ?_
    exact ensures_ite (sendTransmit_sound hc.of hlive) (ensures_refused _)
  | installReceive =>
    simp only [exec]
    refine start fun hc => ?_
    exact ensures_ite (ensures_refused _) (Calm.goto hc.of hlive)
  | _ => cases hf

/-- A byte that SEQ does not wait for stays on the line (R162). -/
theorem takeLeading_of_line (h : s.pos.label ≠ .rcGet ∧ s.pos.label ≠ .sdGet) (c : Byte) :
    takeLeading c s = pushRx c s := by
  obtain ⟨hrc, hsd⟩ := h
  unfold takeLeading
  split
  · rename_i h
    exact absurd h hrc
  · rename_i h
    exact absurd h hsd
  · rfl

/-- A unit of the line, or an operand byte, that SEQ does not wait for leaves its registers alone (R92, R93, R162). -/
theorem exec_unit_samePoint {i : Instr} (hcmd : i.format ≠ .cmd) (hport : i.format ≠ .port)
    (hint : i.format ≠ .internal)
    (hp : s.pos.label ≠ .rcGet ∧ s.pos.label ≠ .sdGet ∨ i.format = .os ∨ i.format = .slotv) :
    Ensures (SamePoint s) (exec i s) := by
  have wire (h : s.pos.label ≠ .rcGet ∧ s.pos.label ≠ .sdGet) (c : Byte) :
      Ensures (SamePoint s) (whenLive s (.next (takeLeading c s))) :=
    ensures_whenLive {} (takeLeading_of_line h c ▸ pushRx_samePoint c s)
  cases i with
  | soh | eot | ack | nak | can => exact wire (hp.resolve_right nofun) _
  | frame seq nseq data ck =>
    obtain ⟨hrc, hsd⟩ := hp.resolve_right nofun
    refine ensures_whenLive {} ?_
    rw [if_neg (by simp [hrc, hsd])]
    exact pushRxAll_samePoint _ s
  | os | slotv => exact ensures_whenLive {} samePoint_next
  | decodeOs | checkGeometry => exact absurd rfl hint
  | eraseBank | writeSlot | readSlot | unlock | lock | getLaunchSlot | persist | getc | getcNb | putc | serialOpen
  | serialClose | rxIrqEnable | haltWait | irqMask | irqUnmask | pollCancel | progressInit | progressDraw | workTick
  | textOut => exact absurd rfl hport
  | _ => exact absurd rfl hcmd

end Starts

/-! ## A turn of each agent -/

section Turns

variable {d : Byte} {s : State}

theorem writeCommandRegisters_samePoint (u : HostUnit) (s : State) : SamePoint s (writeCommandRegisters u s) :=
  .ite {} {}

theorem SamePoint.idle {t : State} (h : SamePoint s t) (hi : Idle s) : Idle t :=
  ⟨h.halted.trans hi.1, (congrArg SeqPos.label h.pos).trans hi.2⟩

/-- What the host hands over, taken while SEQ is idle, or an operand byte at any time. -/
theorem takeUnit_sound {u : HostUnit} (hs : Sound d s) (hu : u.format ≠ .port)
    (hi : Idle s ∨ u.format = .os ∨ u.format = .slotv) : Ensures (Sound d) (takeUnit u s) := by
  unfold takeUnit
  cases hd : decode u.format u.bytes with
  | reject r => exact ensures_refused _
  | instr i rest =>
    obtain ⟨hf, -, -⟩ := decodedBytesAreTheEncoding _ _ _ _ hd
    have hint : i.format ≠ .internal := by
      intro h
      rw [← hf, h] at hd
      cases hd
    have hsame : SamePoint s (writeCommandRegisters u { s with ret := .done }) :=
      .trans {} (writeCommandRegisters_samePoint u _)
    have hs' := hs.of_same hsame
    have hexec : Ensures (Sound d) (exec i (writeCommandRegisters u { s with ret := .done })) := by
      by_cases hcmd : i.format = .cmd
      · have hidle : Idle s := hi.resolve_right (by simp [← hf, hcmd])
        have hidle' := hsame.idle hidle
        exact exec_command_sound hcmd (hs'.inv.calm hidle'.2) hidle'
      · refine (exec_unit_samePoint hcmd (hf ▸ hu) hint ?_).mono fun _ => hs'.of_same
        rw [hf, hsame.pos]
        exact hi.imp_left fun h => by simp [h.2]
    dsimp only
    split
    · rename_i t ht
      have hp := hexec.of_eq_next ht
      exact ensures_ite (hp.of_same {}) hp
    · exact ensures_fault _
    · exact ensures_refused _

theorem idle_of_not_running (hlive : s.halted = false) (h : ¬ s.running = true) : Idle s :=
  ⟨hlive, by simpa [State.running] using h⟩

theorem seqTurn_sound (hs : Sound d s) (hq : ∀ u ∈ s.hostq, u.format ≠ .port) : Ensures (Sound d) (seqTurn s) := by
  unfold seqTurn
  split
  · exact hs
  · rename_i hlive
    rw [Bool.not_eq_true] at hlive
    split
    · exact runStep_sound hs hlive
    · rename_i hrun
      split
      · exact hs
      · rename_i u rest hu
        exact takeUnit_sound (hs.of_same {}) (hq u (by simp [hu])) (.inl (idle_of_not_running hlive hrun))

theorem hostMove_sound {u : HostUnit} (hs : Sound d s) (hu : u.format ≠ .port) :
    Ensures (Sound d) (hostMove u s) := by
  unfold hostMove
  split
  · exact hs
  · rename_i hlive
    rw [Bool.not_eq_true] at hlive
    split
    · split
      · rename_i hop
        exact takeUnit_sound hs hu (.inr hop)
      · exact hs.of_same (writeCommandRegisters_samePoint u s)
    · rename_i hrun
      exact takeUnit_sound hs hu (.inl (idle_of_not_running hlive hrun))

/-- A power loss leaves the parameters as they are, whatever it damages. -/
theorem damage_par (persisted : Bool) (s : State) : (damage persisted s).par = s.par := by
  cases damage_cases persisted s with
  | nothing he | persist he | erase he | program he | store he => rw [he]

theorem powerUp_sound (launch : Byte) (hparams : LegalParams s.par) : Sound d (powerUp launch s) where
  inv := Calm.idle ⟨hparams, rfl, rfl, rfl⟩ rfl
  halts := nofun

theorem envMove_sound {m : Move} (hs : Sound d s) (hm : ∀ u, m = .host u → u.format ≠ .port) :
    Ensures (Sound d) (envMove m s) := by
  cases m with
  | peer b => exact hs.of_same (pushRx_samePoint b s)
  | key | tick => exact hs.of_same {}
  | power cut launch =>
    cases cut with
    | between => exact powerUp_sound launch hs.inv.params
    | inside persisted => exact powerUp_sound launch (damage_par persisted s ▸ hs.inv.params)
  | host u => exact hostMove_sound hs (hm u rfl)
  | payload k b => exact ensures_ite hs (hs.of_same {})

theorem step_sound (hs : Sound d s) (hc : CommandsOnly s) : Ensures (Sound d) (step s) := by
  obtain ⟨hq, hsched⟩ := hc
  unfold step
  split
  · exact seqTurn_sound hs hq
  · exact seqTurn_sound (hs.of_same {}) hq
  · rename_i m rest hm
    refine envMove_sound (hs.of_same {}) fun u hu => hsched u ?_
    simp [hm, hu]

end Turns

/-! ## What the host hands over -/

section Queues

variable {s t : State}

/-- The turns and the units to come are those of `s`. -/
def SameQueues (s t : State) : Prop := t.hostq = s.hostq ∧ t.sched = s.sched

theorem Kept.sameQueues (h : Kept s t) : SameQueues s t := ⟨h.hostq, h.sched⟩

theorem SameQueues.trans {u : State} (h : SameQueues s t) (h' : SameQueues t u) : SameQueues s u :=
  ⟨h'.1.trans h.1, h'.2.trans h.2⟩

theorem CommandsOnly.of_sameQueues (hs : CommandsOnly s) (h : SameQueues s t) : CommandsOnly t := by
  obtain ⟨hq, hsched⟩ := h
  unfold CommandsOnly
  rw [hq, hsched]
  exact hs

theorem exec_sameQueues (i : Instr) (s : State) : Ensures (SameQueues s) (exec i s) := by
  by_cases hi : drivesFlash i = true
  · cases i with
    | eraseBank =>
      refine ensures_whenLive ⟨rfl, rfl⟩ ?_
      exact ensures_ite (ensures_refused _) ⟨rfl, rfl⟩
    | writeSlot =>
      refine ensures_whenLive ⟨rfl, rfl⟩ ?_
      exact ensures_ite (ensures_refused _) (ensures_ite (ensures_refused _)
        (ensures_ite (ensures_refused _) ⟨rfl, rfl⟩))
    | unlock | lock =>
      refine ensures_whenLive ⟨rfl, rfl⟩ ?_
      exact ensures_ite ⟨rfl, rfl⟩ ⟨rfl, rfl⟩
    | _ => cases hi
  · exact (exec_kept (by simpa using hi) s).mono fun _ => Kept.sameQueues

theorem primRun_sameQueues (pr : Prim) (s : State) : Ensures (SameQueues s) (pr.run s) := by
  cases pr with
  | port i => exact exec_sameQueues i s
  | sramLoad | sramStore | stgStore => exact ensures_ite ⟨rfl, rfl⟩ (ensures_fault _)
  | stgLoad => exact ensures_ite (ensures_ite ⟨rfl, rfl⟩ (ensures_fault _)) (ensures_fault _)

theorem runStep_sameQueues (s : State) : Ensures (SameQueues s) (runStep s) := by
  unfold runStep
  split
  · exact ⟨rfl, rfl⟩
  · exact ⟨rfl, rfl⟩
  · exact ensures_afterPrim (primRun_sameQueues _ s) fun t ht =>
      (resume_kept t).mono fun _ hu => ht.trans hu.sameQueues

theorem takeUnit_commandsOnly {u : HostUnit} (hs : CommandsOnly s) (hu : u.format ≠ .port) :
    Ensures CommandsOnly (takeUnit u s) := by
  unfold takeUnit
  split
  · exact ensures_refused _
  · rename_i i rest hd
    have hregs : SameQueues s (writeCommandRegisters u { s with ret := .done }) :=
      (Kept.trans {} (writeCommandRegisters_kept _ u)).sameQueues
    have hexec := (exec_sameQueues i (writeCommandRegisters u { s with ret := .done })).mono fun _ ht =>
      hs.of_sameQueues (hregs.trans ht)
    split
    · rename_i t ht
      obtain ⟨hq, hsched⟩ := hexec.of_eq_next ht
      exact ensures_ite (ensures_next.2 ⟨List.forall_mem_cons.2 ⟨hu, hq⟩, hsched⟩) ⟨hq, hsched⟩
    · exact ensures_fault _
    · exact ensures_refused _

theorem seqTurn_commandsOnly (hs : CommandsOnly s) : Ensures CommandsOnly (seqTurn s) := by
  refine ensures_ite hs (ensures_ite ((runStep_sameQueues s).mono fun _ => hs.of_sameQueues) ?_)
  cases hq : s.hostq with
  | nil => exact hs
  | cons u rest =>
    obtain ⟨hu, hrest⟩ := List.forall_mem_cons.1 (hq ▸ hs.1)
    exact takeUnit_commandsOnly ⟨hrest, hs.2⟩ hu

theorem damage_sameQueues (persisted : Bool) (s : State) : SameQueues s (damage persisted s) := by
  cases damage_cases persisted s with
  | nothing he | persist he | erase he | program he | store he => rw [he]; exact ⟨rfl, rfl⟩

theorem envMove_commandsOnly {m : Move} (hs : CommandsOnly s) (hm : ∀ u, m = .host u → u.format ≠ .port) :
    Ensures CommandsOnly (envMove m s) := by
  cases m with
  | peer b => exact hs.of_sameQueues (pushRx_kept s b).sameQueues
  | key | tick => exact hs
  | power cut launch =>
    cases cut with
    | between => exact hs
    | inside persisted => exact hs.of_sameQueues (damage_sameQueues persisted s)
  | host u =>
    have hu := hm u rfl
    exact ensures_ite hs (ensures_ite
      (ensures_ite (takeUnit_commandsOnly hs hu) (hs.of_sameQueues (writeCommandRegisters_kept s u).sameQueues))
      (takeUnit_commandsOnly hs hu))
  | payload k b => exact ensures_ite hs hs

theorem step_commandsOnly (hs : CommandsOnly s) : Ensures CommandsOnly (step s) := by
  have hrest {turn : Turn} {rest : List Turn} (h : s.sched = turn :: rest) : CommandsOnly { s with sched := rest } :=
    ⟨hs.1, fun u hu => hs.2 u (by simp [h, hu])⟩
  unfold step
  split
  · exact seqTurn_commandsOnly hs
  · rename_i h
    exact seqTurn_commandsOnly (hrest h)
  · rename_i m rest h
    exact envMove_commandsOnly (hrest h) fun u hu => hs.2 u (by simp [h, hu])

end Queues

/-! ## The statements -/

/-- Settles O53: the agent's turn keeps the invariant, and hands over nothing new. -/
theorem everyStepKeepsTheSequencerInvariant : Obligations.EveryStepKeepsTheSequencerInvariant := by
  intro s t hs hc hstep
  have hsound : Sound s.diagCode s := ⟨hs, fun _ => .inl rfl⟩
  exact ⟨((step_sound hsound hc).of_eq_next hstep).inv, (step_commandsOnly hc).of_eq_next hstep⟩

/-- Settles O54: the step keeps the invariant with the three codes. -/
theorem commandsAloneReachThreeFatalCauses : Obligations.CommandsAloneReachThreeFatalCauses := by
  intro s t hs hc hlive hstep hhalt
  have hsound : Sound 0x02 s := ⟨hs, by simp [hlive]⟩
  exact (((step_sound hsound hc).of_eq_next hstep).halts hhalt).elim .inl id

/-- Settles O55: after reset nothing is stored, no command runs and nothing is handed over. -/
theorem resetMeetsTheInvariants : Obligations.ResetMeetsTheInvariants := by
  have hparams : LegalParams State.reset.par := ⟨by decide, by decide⟩
  exact ⟨⟨Mem.wf_empty _, Mem.wf_empty _, Mem.wf_empty _⟩, Calm.idle ⟨hparams, rfl, rfl, rfl⟩ rfl, nofun, nofun⟩

end Sys2Proof.Machine
end

section
/-! PROOF. The port primitives and the units, one law each (R92, R93, R96, R140 to R159), and the bank numbers (R121,
R122, R182). Most primitives are an operation on a machine that has not halted (R42): what `exec` answers for them is
their effect. -/

namespace Sys2Proof.Machine

/-! ## Bank numbers -/

/-- Settles O8: the number grows with `slot * 8 + sub`, and 15 slots of 8 banks end below the limit. -/
theorem resolvedBanksAreDistinctAndBelowLimit : Obligations.ResolvedBanksAreDistinctAndBelowLimit := by
  intro legacy
  refine ⟨?_, ?_, ?_, ?_⟩
  · intro slot sub slot' sub' hsub hsub' he
    have hle : ∀ {a b a' b' : Nat}, bankNumber legacy a b = bankNumber legacy a' b' → ¬ a * 8 + b < a' * 8 + b' :=
      fun he hlt => Nat.ne_of_lt (bankNumber_strict hlt) he
    have h1 := hle he
    have h2 := hle he.symm
    omega
  · intro slot sub slot' sub' _ _ hlt
    exact bankNumber_strict hlt
  · intro slots
    constructor
    · intro h
      by_contra hmany
      have hlast := h 15 7 (by omega) (by omega)
      rw [bankNumber_eq] at hlast
      split at hlast <;> omega
    · intro h15 slot sub hslot hsub
      exact bankNumber_lt (by omega) hsub
  · intro slot sub _
    rw [bankNumber_eq]
    split <;> rfl

/-- The banks below the carve-out are even, so no pair of them reaches into it (R69, R182). -/
theorem ne_carveOut {granule : Config.Granule} {slot sub : Nat} {b : Byte} (hslot : slot < 15) (hsub : sub < 8)
    (h : SameGranule granule b (BitVec.ofNat 8 (bankNumber false slot sub))) : b.toNat ≠ 0xF4 ∧ b.toNat ≠ 0xF5 := by
  have hbank := toNat_bank (bankNumber_lt (legacy := false) hslot hsub)
  have hnum := bankNumber_eq false slot sub
  simp only [true_and] at hnum
  cases granule with
  | bank =>
    obtain rfl : b = _ := h
    split at hnum <;> omega
  | pair =>
    have hpair : b.toNat / 2 = _ / 2 := h
    split at hnum <;> omega

/-- Settles O9: by the parity of the numbers. -/
theorem pairsAreAlignedAndTheCarveOutIsSpared : Obligations.PairsAreAlignedAndTheCarveOutIsSpared := by
  constructor
  · intro legacy slot k
    exact bankNumber_even (Nat.mul_mod_right 2 k)
  · intro granule slot sub b hslot hsub h
    obtain ⟨h4, h5⟩ := ne_carveOut hslot hsub h
    exact ⟨fun he => h4 (by rw [he]; rfl), fun he => h5 (by rw [he]; rfl)⟩

/-! ## Operands -/

section Laws

variable {s : State}

/-- Settles O5: the four refusals are those of the test. -/
theorem decodeOsGivesOffsetAndSize : Obligations.DecodeOsGivesOffsetAndSize := by
  intro s os hlive
  rw [exec, execDecodeOs, whenLive_of_not_halted hlive]
  constructor
  · rintro ⟨h1, -, -, h8⟩
    rw [osFields_some rfl rfl h1 h8]
  · intro h
    have hnone : osFields os = none := if_pos h
    rw [hnone]

theorem osByte_eq (size offset : BitVec 4) :
    osByte size offset = BitVec.ofNat 8 (size.toNat * 16 + offset.toNat) := by
  revert size offset
  decide

/-- Settles O7: each unit is the host's write of its register. -/
theorem operandUnitsWriteTheirRegister : Obligations.OperandUnitsWriteTheirRegister := by
  intro s size offset v hlive
  constructor
  · rw [exec, execOs, whenLive_of_not_halted hlive, osByte_eq]
  · rw [exec, execSlotv, whenLive_of_not_halted hlive]

/-! ## The driver -/

theorem exec_eraseBank (hlive : s.halted = false) (hlock : s.lockDepth ≠ 0) (device ps bank : Byte) :
    exec (.eraseBank device ps bank) s =
      .next { s with flash := eraseFlash s.par.granule device ps bank s.flash, ret := .done } := by
  rw [exec, execEraseBank, whenLive_of_not_halted hlive, if_neg hlock]

theorem exec_writeSlot (hlive : s.halted = false) (hlock : s.lockDepth ≠ 0) {buffer : List Byte} {offset length : Nat}
    (hin : offset + length ≤ Config.bankBytes) (hlen : buffer.length = length) (ps bank : Byte) :
    exec (.writeSlot buffer ps bank offset length) s =
      .next { s with flash := programFlash s.defects (flashAddr 0 ps bank offset) buffer s.flash, ret := .done } := by
  rw [exec, execWriteSlot, whenLive_of_not_halted hlive, if_neg hlock, if_neg (Nat.not_lt.2 hin),
    if_neg (not_not.2 hlen)]

theorem exec_readSlot (hlive : s.halted = false) {buffer : Buf} {offset length : Nat}
    (hin : offset + length ≤ Config.bankBytes) (hcap : length ≤ buffer.capacity) (ps bank : Byte) :
    exec (.readSlot buffer ps bank offset length) s =
      .next (fillBuf buffer (s.flash.bytes (flashAddr 0 ps bank offset) length) { s with ret := .done }) := by
  rw [exec, execReadSlot, whenLive_of_not_halted hlive, if_neg (Nat.not_lt.2 hin), if_neg (Nat.not_lt.2 hcap)]

end Laws

/-- Settles O14: inside the granule and outside it. -/
theorem eraseBankErasesTheWholeGranule : Obligations.EraseBankErasesTheWholeGranule := by
  intro s device ps bank hlive hlock
  refine ⟨_, exec_eraseBank hlive hlock device ps bank, ?_, ?_⟩
  · intro b off hoff hsame
    exact erase_in hsame hoff
  · intro a hout
    exact erase_out fun b off hsame hoff => hout b off hoff hsame

/-- Settles O15: inside the programmed range and outside it. -/
theorem writeSlotStoresOldAndNew : Obligations.WriteSlotStoresOldAndNew := by
  intro s buffer ps bank offset length hlive hlock hin hlen
  refine ⟨_, exec_writeSlot hlive hlock hin hlen ps bank, ?_, ?_⟩
  · intro k hk
    rw [get_programFlash, if_pos (by rw [flashAddr_add]; omega), programmed]
    simp only [flashAddr_add, Nat.add_sub_cancel_left]
  · intro a hout
    rw [get_programFlash, if_neg]
    rintro ⟨h1, h2⟩
    refine hout (a - flashAddr 0 ps bank offset) (by omega) ?_
    rw [flashAddr_add]
    omega

/-- A page file after a read: the bytes of the range, then what it held (R142). -/
theorem getElem_filled (m : Mem) (v : Vector Byte 256) {base n k : Nat} (hk : k < 256) :
    (tabulate 256 fun k => (m.bytes base n).getD k (v.toList.getD k 0))[k] =
      if k < n then m.get (base + k) else v[k] := by
  rw [getElem_tabulate]
  split
  · rename_i h
    exact Mem.getD_bytes m base n k h _
  · rename_i h
    rw [List.getD_eq_default _ _ (by simpa using h)]
    simp [hk]

/-- Settles O16: buffer by buffer. -/
theorem readSlotFillsOnlyItsBuffer : Obligations.ReadSlotFillsOnlyItsBuffer := by
  intro s ps bank offset length hlive hin
  refine ⟨fun hcap => ⟨_, exec_readSlot (buffer := .pageBuf) hlive hin hcap ps bank, ?_⟩,
    fun hcap => ⟨_, exec_readSlot (buffer := .cmpBuf) hlive hin hcap ps bank, ?_⟩,
    _, exec_readSlot (buffer := .xferBuf) hlive hin (Nat.le_of_add_left_le hin) ps bank, Mem.length_bytes .., ?_⟩
  · intro k hk
    rw [flashAddr_add]
    exact getElem_filled s.flash s.pagebuf hk
  · intro k hk
    rw [flashAddr_add]
    exact getElem_filled s.flash s.cmpbuf hk
  · intro k hk
    rw [flashAddr_add]
    exact Mem.getD_bytes _ _ _ _ hk _

/-- Settles O17: `unlock` and `lock` by the ends of the counter. -/
theorem lockLaunchAndPersistPrimitives : Obligations.LockLaunchAndPersistPrimitives := by
  intro s hlive
  have live := whenLive_of_not_halted hlive
  have hmax_eq : Config.lockMax = 255 := rfl
  refine ⟨fun hlt => ?_, fun hmax => ?_, fun hpos => ?_, fun hzero => ?_, ?_, ?_⟩
  · rw [exec, execUnlock, live, hmax_eq, if_neg (Nat.ne_of_lt hlt)]
  · rw [exec, execUnlock, live, hmax_eq, if_pos hmax]
    simp [raiseFatal, FatalCode.code, hmax]
  · rw [exec, execLock, live, if_neg (Nat.ne_of_gt hpos)]
  · rw [exec, execLock, live, if_pos hzero]
    rfl
  · rw [exec, execGetLaunchSlot, live]
  · rw [exec, execPersist, live]

/-! ## The transport and the user interface -/

/-- Settles O18: the two reads by the line, the others at once. -/
theorem serialAndMaskPrimitives : Obligations.SerialAndMaskPrimitives := by
  intro s b rest hlive
  have live := whenLive_of_not_halted hlive
  refine ⟨fun hq => ⟨?_, ?_⟩, fun hq => ⟨?_, ?_⟩, ?_, ?_, ?_, ?_, ?_⟩
  · rw [exec, execGetc, live, hq]
  · rw [exec, execGetcNb, live, hq]
  · rw [exec, execGetc, live, hq]
  · rw [exec, execGetcNb, live, hq]
  · rw [exec, execPutc, live]
  · rw [exec, execSerialOpen, live]
  · rw [exec, execSerialClose, live]
  · rw [exec, execIrqMask, live]
  · rw [exec, execIrqUnmask, live]

theorem rxIrqPending_iff {s : State} : s.rxIrqPending = true ↔ s.rxie = true ∧ s.rxq ≠ [] := by
  simp [State.rxIrqPending]

/-- Settles O20: by whether an interrupt is there to return at. -/
theorem haltWaitReturnsAtAnInterrupt : Obligations.HaltWaitReturnsAtAnInterrupt := by
  intro s hlive
  rw [exec, execHaltWait, whenLive_of_not_halted hlive]
  have hany : (s.rxIrqPending || s.tickPending) = true ↔ (s.rxie = true ∧ s.rxq ≠ []) ∨ s.tickPending = true := by
    rw [Bool.or_eq_true, rxIrqPending_iff]
  constructor
  · intro h
    rw [if_pos (hany.2 h)]
  · rintro ⟨hirq, htick⟩
    rw [if_neg (hany.not.2 (by rcases hirq with h | h <;> simp [h, htick]))]

/-- Settles O21: each by what it answers on a live machine. -/
theorem userInterfacePrimitives : Obligations.UserInterfacePrimitives := by
  intro s n hlive
  have live := whenLive_of_not_halted hlive
  refine ⟨?_, ?_, ?_⟩
  · rw [exec, execPollCancel, live]
  · rw [exec, execProgressInit, live]
  · rw [exec, execProgressDraw, live]

/-! ## Units of the line -/

section Line

variable {s : State}

/-- There is room for `n` bytes, and no byte has been lost (R46, U13). -/
def Room (n : Nat) (s : State) : Prop := ∀ d, s.par.rxDepth = some d → s.rxq.length + n ≤ d ∧ s.overrun = false

theorem pushRx_of_room (h : Room 1 s) (b : Byte) : pushRx b s = { s with rxq := s.rxq ++ [b] } := by
  unfold pushRx
  split
  · rfl
  · rename_i d hd
    obtain ⟨hlen, hov⟩ := h d hd
    rw [if_pos (Nat.lt_of_succ_le hlen), if_neg (by simp [hov])]

theorem pushRxAll_of_room {bs : List Byte} (h : Room bs.length s) :
    pushRxAll bs s = { s with rxq := s.rxq ++ bs } := by
  induction bs generalizing s with
  | nil => simp [pushRxAll]
  | cons b bs ih =>
    have h1 : Room 1 s := fun d hd => by
      obtain ⟨hlen, hov⟩ := h d hd
      rw [List.length_cons] at hlen
      exact ⟨by omega, hov⟩
    have hrest : Room bs.length { s with rxq := s.rxq ++ [b] } := fun d hd => by
      obtain ⟨hlen, hov⟩ := h d hd
      rw [List.length_cons] at hlen
      exact ⟨by rw [List.length_append, List.length_singleton]; omega, hov⟩
    rw [pushRxAll, pushRx_of_room h1, ih hrest]
    simp

theorem takeLeading_rcGet (hl : s.pos.label = .rcGet) (c : Byte) : takeLeading c s = recvLeading c s := by
  simp [takeLeading, hl]

end Line

/-- Settles O23: by whether SEQ waits for the unit. -/
theorem wireUnitsAreTakenOrKept : Obligations.WireUnitsAreTakenOrKept := by
  intro s seq nseq ck data hlive
  have live := whenLive_of_not_halted hlive
  constructor
  · intro hl
    refine ⟨?_, ?_, ?_, ?_, ?_, ?_⟩
    · rw [exec, execCan, live, takeLeading_rcGet hl]
      rfl
    · rw [exec, execEot, live, takeLeading_rcGet hl]
      rfl
    · rw [exec, execSoh, live, takeLeading_rcGet hl]
      rfl
    · rw [exec, execAck, live, takeLeading_rcGet hl]
      rfl
    · rw [exec, execNak, live, takeLeading_rcGet hl]
      rfl
    · rw [exec, execFrame, live, if_pos (.inl hl), takeLeading_rcGet]
      · simp [frameTail, recvLeading, goto, Config.SOH, Config.CAN, Config.EOT]
      · exact hl
  · intro hrc hsd hroom
    have h1 : Room 1 s := fun d hd => (hroom d hd).imp_left fun h => by omega
    have hline (c : Byte) : takeLeading c s = { s with rxq := s.rxq ++ [c] } :=
      (takeLeading_of_line ⟨hrc, hsd⟩ c).trans (pushRx_of_room h1 c)
    refine ⟨?_, ?_, ?_, ?_, ?_, ?_⟩
    · rw [exec, execSoh, live, hline]
      rfl
    · rw [exec, execEot, live, hline]
      rfl
    · rw [exec, execAck, live, hline]
      rfl
    · rw [exec, execNak, live, hline]
      rfl
    · rw [exec, execCan, live, hline]
      rfl
    · have hlen : (Config.SOH :: frameTail seq nseq data.toList ck).length = 132 := by simp [frameTail]
      rw [exec, execFrame, live, if_neg (by simp [hrc, hsd]), pushRxAll_of_room (by rw [hlen]; exact hroom)]
      simp [frameTail, Config.SOH]

end Sys2Proof.Machine
end

section
/-! PROOF. R22, R42, R121, R170, R282 to R284, R300 to R302: how commands start, are refused or halt, what a step does
for an idle and for a running SEQ, and what a power loss leaves. -/

namespace Sys2Proof.Machine

/-! ## Commands that start, halt or are refused -/

/-- Settles O11: by R22, command by command. -/
theorem commandsStartOnlyWhenIdle : Obligations.CommandsStartOnlyWhenIdle := by
  intro i s hf h
  have hbusy : (s.halted || s.running) = true := by simpa [State.running] using h
  cases i with
  | resolveBank | switchToSlot | programToFlash | restoreFromFlash | erase | flashImage | xmOpen | xmClose | recvStart
  | recvBlock | sendStart | sendBlock | sendFinish | installReceive => exact if_pos hbusy
  | _ => cases hf

/-- Settles O10: by the limit test. -/
theorem resolveBankCommand : Obligations.ResolveBankCommand := by
  intro s slot sub bank hi hslot hsub hbank
  have hnum : bankNumber s.w.legacyLayout slot.toNat sub.toNat = bank := by
    rw [hbank, bankNumber_eq]
    split <;> rfl
  have hexec : exec (.resolveBank slot sub) s =
      if Config.bankLimit ≤ bank then .next (raiseFatal .bankOverflow bank (s.started .resolveBank slot sub))
      else .next (finish .ok { s.started .resolveBank slot sub with resultAux := BitVec.ofNat 8 bank }) := by
    rw [exec, execResolveBank, startCommand_idle hi]
    dsimp only
    rw [if_neg (Nat.not_lt.2 hsub), if_neg (by simp [isSlot_true hslot]), hnum]
  constructor
  · intro hlt
    rw [hexec, if_neg (by exact Nat.not_le.2 hlt)]
    exact ⟨_, rfl, rfl⟩
  · intro hle
    rw [hexec, if_pos (by exact hle)]
    exact ⟨_, rfl, rfl⟩

section Refusals

variable {s : State}

/-- Past both validations SWITCH_TO_SLOT goes on to its body (R170 steps 3 to 5). -/
theorem exec_switchToSlot_validated (hi : Idle s) {slot os : Byte}
    (hne : ¬ (slot = s.w.activeSlot ∧ os = s.w.activeOs)) (hboot : s.w.activeSlot ≠ Config.slotFirstBoot)
    (hslot : isSlot s.par slot = true ∨ slot = Config.slotNone)
    (hactive : isSlot s.par s.w.activeSlot = true ∨ s.w.activeSlot = Config.slotNone) :
    exec (.switchToSlot slot os) s = switchBody slot os (s.started .switchToSlot slot os) := by
  rw [exec_switchToSlot hi, if_neg hne, if_neg hboot, if_neg (by simpa [or_iff_not_imp_left] using hslot),
    if_neg (by simpa [or_iff_not_imp_left] using hactive)]

/-- With no active slot nothing is evicted (R170 step 4). -/
theorem switchBody_of_none (hactive : isSlot s.par s.w.activeSlot = false) (os : Byte) :
    switchBody Config.slotNone os s = .next (finish .ok s) := by
  rw [switchBody, if_neg (by simp [hactive]), if_pos rfl]

theorem switchBody_load (hactive : isSlot s.par s.w.activeSlot = false) {slot os : Byte} {o n : Nat}
    (hslot : slot ≠ Config.slotNone) (hf : osFields os = some (o, n)) :
    switchBody slot os s = .next (beginRestore slot os o n s) := by
  rw [switchBody, if_neg (by simp [hactive]), if_neg hslot, hf]

/-- SWITCH_TO_SLOT refuses if a descriptor it would use is ill-formed (R170 step 3b). -/
theorem exec_switchToSlot_refused (hi : Idle s) {slot os : Byte}
    (hne : ¬ (slot = s.w.activeSlot ∧ os = s.w.activeOs)) (hboot : s.w.activeSlot ≠ Config.slotFirstBoot)
    (hslot : isSlot s.par slot = true ∨ slot = Config.slotNone)
    (hactive : isSlot s.par s.w.activeSlot = true ∨ s.w.activeSlot = Config.slotNone)
    (hbad : isSlot s.par s.w.activeSlot = true ∧ osFields s.w.activeOs = none ∨
      isSlot s.par slot = true ∧ slot ≠ Config.slotNone ∧ osFields os = none) :
    exec (.switchToSlot slot os) s = .refused .illFormedDescriptor := by
  rw [exec_switchToSlot_validated hi hne hboot hslot hactive]
  unfold switchBody
  dsimp only
  split
  · cases hf : osFields s.w.activeOs with
    | none => rfl
    | some f =>
      obtain ⟨h, -, hos⟩ := hbad.resolve_left (by simp [hf])
      exact if_pos (by simp [h, hos])
  · rename_i hnone
    obtain ⟨-, h, hos⟩ := hbad.resolve_left fun h => hnone h.1
    rw [if_neg h, hos]

theorem osFields_of_osOk {os : Byte} (h : osOk os = true) : ∃ o n, osFields os = some (o, n) := by
  simp only [osOk, osFieldsOk, Bool.and_eq_true, decide_eq_true_eq] at h
  exact ⟨_, _, osFields_some rfl rfl (by omega) (by omega)⟩

end Refusals

/-- Settles O12: each test of each command, in the order it is made. -/
theorem refusedWhereTheSpecRefuses : Obligations.RefusedWhereTheSpecRefuses := by
  intro s hi
  have hlive := whenLive_of_not_halted hi.1
  refine ⟨fun slot sub hsub => ?_, fun slot sub hsub hslot => ?_, fun slot os hslot => ⟨?_, ?_⟩,
    fun slot os hslot hos => ⟨?_, ?_⟩, fun hpar hactive slot os hne hslot hbad => ?_,
    fun hpar hnone slot os hslot hos => ?_, fun target os hos => ?_, fun target os hos htarget hnone hall => ?_,
    fun a0 a1 hport => ⟨?_, ?_⟩, fun a0 a1 hphase => ?_, fun a0 a1 hphase => ⟨?_, ?_⟩, fun a0 a1 hactive => ?_,
    fun hlock device ps bank => ?_, fun hlock buffer ps bank offset length => ?_,
    fun hlock buffer ps bank offset length hout => ?_, fun hlock buffer ps bank offset length hin hlen => ?_,
    fun buffer ps bank offset length hout => ?_, fun buffer ps bank offset length hin hbuf hlen => ?_⟩
  · rw [exec, execResolveBank, startCommand_idle hi]
    exact if_pos hsub
  · rw [exec, execResolveBank, startCommand_idle hi]
    dsimp only
    rw [if_neg (Nat.not_lt.2 hsub)]
    exact if_pos (by simp [isSlot_false hslot])
  · rw [exec, execProgramToFlash, startCommand_idle hi]
    exact if_pos (by simp [isSlot_false hslot])
  · rw [exec, execRestoreFromFlash, startCommand_idle hi]
    exact if_pos (by simp [isSlot_false hslot])
  · rw [exec, execProgramToFlash, startCommand_idle hi]
    simp [isSlot_true hslot, osFields_none hos]
  · rw [exec, execRestoreFromFlash, startCommand_idle hi]
    simp [isSlot_true hslot, osFields_none hos]
  · obtain ⟨hboot, -, -⟩ := not_firstBoot_of_slot hpar hactive
    have hactive' := isSlot_true hactive
    refine exec_switchToSlot_refused hi hne hboot (hslot.imp_left isSlot_true) (.inl hactive') ?_
    refine hbad.imp (fun h => ⟨hactive', osFields_none h⟩) fun ⟨h, hos⟩ => ?_
    exact ⟨isSlot_true h, (not_firstBoot_of_slot hpar h).2.1, osFields_none hos⟩
  · obtain ⟨-, hne, -⟩ := not_firstBoot_of_slot hpar hslot
    refine exec_switchToSlot_refused hi (fun h => hne (h.1.trans hnone)) ?_ (.inl (isSlot_true hslot)) (.inr hnone)
      (.inr ⟨isSlot_true hslot, hne, osFields_none hos⟩)
    rw [hnone]
    decide
  · rw [exec, execErase, startCommand_idle hi]
    simp only [osFields_none hos]
  · obtain ⟨o, n, hf⟩ := osFields_of_osOk hos
    rw [exec_erase hi hf, if_neg (by exact hnone), if_neg (by simp [isSlot_false htarget]),
      if_neg (by exact hall)]
  · exact exec_recvStart_of_closed hi hport a0 a1
  · rw [exec, execSendStart, startCommand_idle hi]
    exact if_neg (by simp [hport])
  · rw [exec, execRecvBlock, startCommand_idle hi]
    exact if_neg hphase
  · rw [exec, execSendBlock, startCommand_idle hi]
    exact if_neg hphase
  · rw [exec, execSendFinish, startCommand_idle hi]
    exact if_neg hphase
  · rw [exec, execInstallReceive, startCommand_idle hi]
    exact if_pos (isSlot_true hactive)
  · rw [exec, execEraseBank, hlive, if_pos hlock]
  · rw [exec, execWriteSlot, hlive, if_pos hlock]
  · rw [exec, execWriteSlot, hlive, if_neg hlock]
    exact if_pos hout
  · rw [exec, execWriteSlot, hlive, if_neg hlock]
    exact (if_neg (Nat.not_lt.2 hin)).trans (if_pos hlen)
  · rw [exec, execReadSlot, hlive]
    exact if_pos hout
  · have hcap : buffer.capacity < length := by
      cases buffer with
      | pageBuf | cmpBuf => exact hlen
      | xferBuf => exact absurd rfl hbuf
    rw [exec, execReadSlot, hlive]
    exact (if_neg (Nat.not_lt.2 hin)).trans (if_pos hcap)

/-- Settles O38: by the two validations, the operand's first. -/
theorem switchHaltsOnABadSlot : Obligations.SwitchHaltsOnABadSlot := by
  intro s slot os hi hne hboot
  constructor
  · intro hslot hnone
    have hbad : (!(isSlot s.par slot || slot == Config.slotNone)) = true := by
      simp only [isSlot_false hslot, Bool.false_or, Bool.not_eq_true', beq_eq_false_iff_ne]
      exact hnone
    rw [exec_switchToSlot hi, if_neg hne, if_neg (by exact hboot), if_pos hbad, raiseFatal_toNat]
    exact ⟨_, rfl, rfl⟩
  · intro hslot hactive hnone
    have hgood : ¬ (!(isSlot s.par slot || slot == Config.slotNone)) = true := by
      simp only [Bool.not_eq_true', Bool.not_eq_false, Bool.or_eq_true, beq_iff_eq]
      exact hslot.imp_left isSlot_true
    have hbad : (!(isSlot s.par s.w.activeSlot || s.w.activeSlot == Config.slotNone)) = true := by
      simp only [isSlot_false hactive, Bool.false_or, Bool.not_eq_true', beq_eq_false_iff_ne]
      exact hnone
    rw [exec_switchToSlot hi, if_neg hne, if_neg (by exact hboot), if_neg hgood, if_pos hbad, raiseFatal_toNat]
    exact ⟨_, rfl, rfl⟩

/-! ## After a halt -/

section Halted

variable {s : State}

/-- No instruction has an effect on a halted machine (R42). -/
theorem exec_halted (h : s.halted = true) (i : Instr) : exec i s = .next s := by
  cases hf : i.format with
  | cmd => exact commandsStartOnlyWhenIdle i s hf (.inl h)
  | _ =>
    cases i with
    | resolveBank | switchToSlot | programToFlash | restoreFromFlash | erase | flashImage | xmOpen | xmClose
    | recvStart | recvBlock | sendStart | sendBlock | sendFinish | installReceive => cases hf
    | _ => exact if_pos h

/-- `t` differs from `s` in nothing but the inputs and the schedule. -/
def OnlyInputs (s t : State) : Prop :=
  t = { s with
    cancelKey := t.cancelKey, rxq := t.rxq, overrun := t.overrun, freeNext := t.freeNext
    tickPending := t.tickPending, sched := t.sched }

theorem pushRx_onlyInputs (b : Byte) (s : State) : OnlyInputs s (pushRx b s) := by
  unfold pushRx
  split
  · rfl
  split
  · split
    · rfl
    · rfl
  split
  · rfl
  · rfl

theorem seqTurn_halted (h : s.halted = true) : seqTurn s = .next s := if_pos h

/-- On a halted machine a move that is no power loss reaches the inputs alone (R283). -/
theorem envMove_halted (h : s.halted = true) {m : Move} (hm : ∀ cut launch, m ≠ .power cut launch) :
    Ensures (OnlyInputs s) (envMove m s) := by
  cases m with
  | peer b => exact pushRx_onlyInputs b s
  | key | tick => exact rfl
  | power cut launch => exact absurd rfl (hm cut launch)
  | host u =>
    rw [envMove, hostMove, if_pos h]
    exact rfl
  | payload k b =>
    rw [envMove, if_pos (by simp [h])]
    exact rfl

end Halted

/-- Settles O13: by whose turn it is. -/
theorem haltIsLeftOnlyByReset : Obligations.HaltIsLeftOnlyByReset := by
  intro s h
  refine ⟨exec_halted h, fun t hpower hstep => ?_⟩
  unfold step at hstep
  split at hstep
  · cases (seqTurn_halted h).symm.trans hstep
    rfl
  · cases (seqTurn_halted (by exact h)).symm.trans hstep
    rfl
  · rename_i m rest hsched
    have hm (cut : Cut) (launch : Byte) : m ≠ .power cut launch := by
      rintro rfl
      exact hpower ⟨cut, launch, rest, hsched⟩
    exact (envMove_halted (s := { s with sched := rest }) h hm).of_eq_next hstep

/-! ## A step -/

/-- Settles O26: the unit that an idle SEQ takes, and the host's move of a command word. -/
theorem idleStepRunsTheDecodedInstruction : Obligations.IdleStepRunsTheDecodedInstruction := by
  constructor
  · intro s u q i rest hq hi hu hd
    rw [step_idle hq hi hu, takeUnit, hd]
    rfl
  · intro s c a0 a1 more rest hsched
    constructor
    · intro hlive hrun
      simp [step, hsched, envMove, hostMove, hlive, State.running, hrun, writeCommandRegisters]
    · intro h
      simp [step, hsched, envMove, hostMove, h]

/-- Settles O27: the primitive, and whether SEQ may go on. -/
theorem runningStepIssuesOnePrimitive : Obligations.RunningStepIssuesOnePrimitive := by
  intro s i hq hlive hrun hw
  rw [step_running hq hlive hrun, runStep, hw]
  simp only [Prim.run]
  cases exec i s with
  | next t => simp only [afterPrim, Bool.or_eq_true, beq_iff_eq]
  | fault r => rfl
  | refused r => rfl

/-! ## A power loss -/

/-- Settles O59: by what `powerUp` writes. -/
theorem powerLossKeepsWhatSurvivesReset : Obligations.PowerLossKeepsWhatSurvivesReset := by
  intro s launch
  refine ⟨powerUp launch s, rfl, rfl, rfl, rfl, rfl, rfl, rfl, rfl, rfl, rfl, rfl, rfl, rfl, rfl, rfl, rfl, rfl, rfl,
    rfl, rfl, rfl, ?_⟩
  intro a
  rfl

section Power

variable {s : State}

/-- A byte that a scrambled range does not hold stays (R302). -/
theorem mem_of_get_scramble_ne {m : Mem} {base n g a : Nat} (h : (scramble m base n g).get a ≠ m.get a) :
    base ≤ a ∧ a < base + n := by
  by_contra hout
  exact h (by rw [scramble, Mem.get_store, if_neg hout])

/-- The range that an erase writes lies in the banks of its granule (R140). -/
theorem flashAddr_of_mem_eraseSpan {g : Config.Granule} {d ps bank : Byte} {a : Nat}
    (h : flashAddr d ps (eraseSpan g bank).1 0 ≤ a ∧
      a < flashAddr d ps (eraseSpan g bank).1 0 + (eraseSpan g bank).2 * Config.bankBytes) :
    ∃ (b : Byte) (off : Nat), SameGranule g b bank ∧ off < 65536 ∧ a = flashAddr d ps b off := by
  by_contra hout
  push Not at hout
  have hget := erase_out (m := { fill := .byte 0, cells := [] }) hout
  rw [get_eraseFlash, if_pos h] at hget
  have hzero : Config.erased = 0 := hget
  exact absurd hzero (by decide)

end Power

/-- Settles O60: by what the primitive in progress can damage. -/
theorem powerLossDamagesOnlyTheBytesInProgress : Obligations.PowerLossDamagesOnlyTheBytesInProgress := by
  intro s persisted launch
  refine ⟨powerUp launch (damage persisted s), rfl, ?_⟩
  show ((damage persisted s).p = s.p ∨ _) ∧ (∀ a : Nat, (damage persisted s).flash.get a ≠ s.flash.get a → _) ∧
    ∀ a : Nat, (damage persisted s).sram.get a ≠ s.sram.get a → _
  cases damage_cases persisted s with
  | nothing he =>
    rw [he]
    exact ⟨.inl rfl, fun a h => absurd rfl h, fun a h => absurd rfl h⟩
  | persist he hc =>
    rw [he]
    exact ⟨.inr ⟨rfl, hc⟩, fun a h => absurd rfl h, fun a h => absurd rfl h⟩
  | @erase device ps bank he hc hopen =>
    rw [he]
    refine ⟨.inl rfl, fun a h => .inl ?_, fun a h => absurd rfl h⟩
    obtain ⟨b, off, hsame, hoff, ha⟩ := flashAddr_of_mem_eraseSpan (mem_of_get_scramble_ne h)
    exact ⟨device, ps, bank, b, off, hc, hsame, hoff, ha⟩
  | @program buffer ps bank offset length he hc hopen =>
    rw [he]
    refine ⟨.inl rfl, fun a h => .inr ?_, fun a h => absurd rfl h⟩
    obtain ⟨h1, h2⟩ := mem_of_get_scramble_ne h
    refine ⟨buffer, ps, bank, offset, length, a - flashAddr 0 ps bank offset, hc, by omega, ?_⟩
    rw [flashAddr_add]
    omega
  | @store rb off data he hc =>
    rw [he]
    refine ⟨.inl rfl, fun a h => absurd rfl h, fun a h => ?_⟩
    obtain ⟨h1, h2⟩ := mem_of_get_scramble_ne h
    refine ⟨rb, off, a - sramAddr rb off, data, hc, by omega, ?_⟩
    simp only [sramAddr] at h1 ⊢
    omega

end Sys2Proof.Machine
end

section
/-! PROOF. R200 to R235, R318: the transfer commands. One law per reply byte of the send side; runs of bad units and of
replies put together from the runs of one unit; silent lines by an invariant of the step. -/

namespace Sys2Proof.Machine

/-! ## The leading byte of a unit -/

section Bytes

variable {s : State}

theorem recvLeading_eq (c : Byte) (s : State) :
    recvLeading c s = goto (if c = Config.CAN then .rcCancel else if c = Config.EOT then .rcEot
      else if c = Config.SOH then .rcSeq else .rcBad) 0 0 s := by
  unfold recvLeading
  split
  · rfl
  split
  · rfl
  split
  · rfl
  · rfl

theorem sendReply_can (s : State) : sendReply Config.CAN s = sendEnd .cancel s := if_pos rfl

theorem sendReply_start_nak (hcmd : s.pos.cmd = some .sendStart) : sendReply Config.NAK s = finish .ok s := by
  rw [sendReply, if_neg (by decide), if_pos hcmd, if_pos rfl]

theorem sendReply_start_other (hcmd : s.pos.cmd = some .sendStart) {c : Byte} (hnak : c ≠ Config.NAK)
    (hcan : c ≠ Config.CAN) : sendReply c s = goto .sdPoll 0 0 s := by
  rw [sendReply, if_neg hcan, if_pos hcmd, if_neg hnak, sendWait, if_neg (by simp [hcmd])]

theorem sendReply_nak (hcmd : s.pos.cmd ≠ some .sendStart) : sendReply Config.NAK s = sendNak s := by
  rw [sendReply, if_neg (by decide), if_neg hcmd, if_pos rfl]

theorem sendReply_block_ack (hcmd : s.pos.cmd = some .sendBlock) :
    sendReply Config.ACK s = finish .ok { s with xmSeq := s.xmSeq + 1 } := by
  rw [sendReply, if_neg (by decide), if_neg (by simp [hcmd]), if_neg (by decide), if_pos rfl, if_neg (by simp [hcmd])]

theorem sendReply_finish_ack (hcmd : s.pos.cmd = some .sendFinish) :
    sendReply Config.ACK s = sendEnd .complete s := by
  rw [sendReply, if_neg (by decide), if_neg (by simp [hcmd]), if_neg (by decide), if_pos rfl, if_pos hcmd]

theorem sendReply_other (hcmd : s.pos.cmd ≠ some .sendStart) {c : Byte} (hack : c ≠ Config.ACK)
    (hnak : c ≠ Config.NAK) (hcan : c ≠ Config.CAN) : sendReply c s = sendWait s := by
  rw [sendReply, if_neg hcan, if_neg hcmd, if_neg hnak, if_neg hack]

theorem sendWait_eq (s : State) :
    sendWait s = goto (if s.pos.cmd = some .sendFinish then .sdGet else .sdPoll) 0 0 s := by
  unfold sendWait
  split
  · rfl
  · rfl

theorem sendTransmit_eq (s : State) :
    sendTransmit s = goto (if s.pos.cmd = some .sendFinish then .sdEot else .sdSoh) 0 0 s := by
  unfold sendTransmit
  split
  · rfl
  · rfl

theorem sendNak_of_lt (h : s.xmRetry.toNat < 9) : sendNak s = sendTransmit { s with xmRetry := s.xmRetry + 1 } := by
  have hbyte : BitVec.ofNat 8 (s.xmRetry.toNat + 1) = s.xmRetry + 1 := BitVec.eq_of_toNat_eq (by simp)
  rw [sendNak, if_neg (by omega), hbyte]

theorem sendNak_tenth (h : s.xmRetry.toNat = 9) : sendNak s = sendEnd .error { s with xmRetry := 10 } := by
  rw [sendNak, h, if_pos (Nat.le_refl _)]
  rfl

/-- The step of a send command at its wait is the reply to the byte. -/
theorem step_sdGet (hq : Quiet s) (hlive : s.halted = false) (hl : s.pos.label = .sdGet) {c : Byte} {rest : List Byte}
    (hr : s.rxq = c :: rest) : step s = .next (sendReply c { s with rxq := rest, ret := .byte c }) :=
  (step_running hq hlive (by simp [hl])).trans (runStep_sdGet hlive hl hr)

end Bytes

/-- Settles O24: by the byte. -/
theorem everyLeadingByteTakesItsPath : Obligations.EveryLeadingByteTakesItsPath := by
  intro s c rest hq hlive hl hr
  refine ⟨_, (step_running hq hlive (by simp [hl])).trans (runStep_rcGet hlive hl hr), ?_⟩
  rw [recvLeading_eq]
  rfl

/-- Settles O25: by the byte and the command. -/
theorem everyReplyByteTakesItsPath : Obligations.EveryReplyByteTakesItsPath := by
  intro s c rest hq hlive hl hr
  have hstep := step_sdGet hq hlive hl hr
  refine ⟨?_, ?_, ?_, ?_, ?_, ?_, ?_, ?_⟩
  · rintro rfl
    exact ⟨_, hstep.trans (congrArg _ (sendReply_can _)), rfl⟩
  · rintro hcmd rfl
    exact ⟨_, hstep.trans (congrArg _ (sendReply_start_nak hcmd)), rfl⟩
  · intro hcmd hnak hcan
    exact ⟨_, hstep.trans (congrArg _ (sendReply_start_other (by exact hcmd) hnak hcan)), rfl⟩
  · rintro hcmd rfl
    exact ⟨_, hstep.trans (congrArg _ (sendReply_block_ack hcmd)), rfl⟩
  · rintro hcmd rfl
    exact ⟨_, hstep.trans (congrArg _ (sendReply_finish_ack hcmd)), rfl⟩
  · rintro hcmd rfl hretry
    have hne : s.pos.cmd ≠ some .sendStart := by rcases hcmd with h | h <;> simp [h]
    refine ⟨_, hstep.trans (congrArg _ ((sendReply_nak (by exact hne)).trans (sendNak_of_lt (by exact hretry)))), ?_⟩
    rw [sendTransmit_eq]
    rfl
  · rintro hcmd rfl hretry
    have hne : s.pos.cmd ≠ some .sendStart := by rcases hcmd with h | h <;> simp [h]
    exact ⟨_, hstep.trans (congrArg _ ((sendReply_nak (by exact hne)).trans (sendNak_tenth (by exact hretry)))), rfl⟩
  · intro hcmd hack hnak hcan
    have hne : s.pos.cmd ≠ some .sendStart := by rcases hcmd with h | h <;> simp [h]
    refine ⟨_, hstep.trans (congrArg _ (sendReply_other (by exact hne) hack hnak hcan)), ?_⟩
    rw [sendWait_eq]
    rfl

/-! ## The port, and the ends of RECV_BLOCK -/

/-- Settles O28: one primitive each. -/
theorem openAndCloseThePort : Obligations.OpenAndCloseThePort := by
  intro s a0 a1 hq hi
  have hlive := hi.1
  constructor
  · exact ⟨_, _, exec_xmOpen hi a0 a1,
      Runs.cons hq hlive (by simp) (runStep_xoOpen hlive rfl) (Runs.refl _), rfl⟩
  · exact ⟨_, _, exec_xmClose hi a0 a1,
      Runs.cons hq hlive (by simp) (runStep_xcClose hlive rfl) (Runs.refl _), rfl⟩

theorem headerOk_eq_false {expected seq nseq : Byte} (h : seq ≠ expected ∨ nseq ≠ 255 - seq) :
    headerOk expected seq nseq = false := by
  simpa [headerOk, complement8_eq, ← not_and_or] using h

/-- Settles O31: by the run of each end. -/
theorem recvBlockOtherEnds : Obligations.RecvBlockOtherEnds := by
  intro s a0 a1 rest hq hi hx
  have hexec := exec_recvBlock hi hx a0 a1
  refine ⟨fun hc => ?_, fun hc hr => ?_, fun hc hr => ?_, fun seq nseq hc hr hbad => ?_⟩
  · exact ⟨_, _, hexec, self_run (s := goto .rcPrime 0 0 (s.started .recvBlock a0 a1))
      hq hi.1 rfl hc, rfl⟩
  · exact ⟨_, _, hexec, can_run (s := goto .rcPrime 0 0 (s.started .recvBlock a0 a1))
      hq hi.1 rfl hc hr, rfl⟩
  · refine ⟨_, _, hexec, eot_run (s := goto .rcPrime 0 0 (s.started .recvBlock a0 a1))
      hq hi.1 rfl hc hr, ?_⟩
    rw [List.append_assoc]
    rfl
  · exact ⟨_, _, hexec, badHeader_run (s := goto .rcPrime 0 0 (s.started .recvBlock a0 a1))
      hq hi.1 rfl hc hr (headerOk_eq_false hbad), rfl⟩

/-! ## Bad units one after the other -/

section BadUnits

variable {s : State} {units : List (List Byte)} {rest : List Byte} {c : Option Cmd}

theorem badUnit_of_ten (h : s.xmRetry.toNat = 10) : badUnit s = recvEnd .error { s with xmRetry := 11 } := by
  rw [badUnit, h, if_pos (by decide)]
  rfl

theorem primingByte_of_ne_zero {retry : Byte} (h : retry.toNat ≠ 0) : primingByte retry = Config.NAK :=
  if_neg (by rintro rfl; exact h rfl)

/-- Bad units that the session survives: each costs one retry, and the next unit is asked for with `NAK` (R207). -/
theorem survivedUnits_run (hq : Quiet s) (hlive : s.halted = false) (hp : s.pos = ⟨c, .rcPrime, 0, 0⟩)
    (hc : s.cancelKey = false) (hu : ∀ x ∈ units, BadUnit s.xmSeq x) (hr : s.rxq = units.flatten ++ rest)
    (hn : s.xmRetry.toNat + units.length ≤ 10) :
    ∃ t, Runs s t ∧ ∃ log bb v r m, t = { s with
        txlog := log, rxq := rest, blockbuf := bb, vars := v, ret := r, irqMask := m
        xmRetry := BitVec.ofNat 8 (s.xmRetry.toNat + units.length) } ∧
      log ++ [primingByte t.xmRetry] =
        s.txlog ++ primingByte s.xmRetry :: List.replicate units.length Config.NAK := by
  cases units with
  | nil =>
    refine ⟨s, Runs.refl s, s.txlog, s.blockbuf, s.vars, s.ret, s.irqMask, ?_, rfl⟩
    have hrest : rest = s.rxq := by simpa using hr.symm
    simp [hrest]
  | cons unit units =>
    rw [List.length_cons] at hn
    obtain ⟨bb, v, hrun⟩ := badUnits_run units s unit rest hq hlive (by rw [hp]) hc hu hr (by omega)
    refine ⟨_, hrun, s.txlog ++ primingByte s.xmRetry :: List.replicate units.length Config.NAK, bb, v, .done, false,
      ?_, ?_⟩
    · rw [hp]
      rfl
    · have hnak : primingByte (BitVec.ofNat 8 (s.xmRetry.toNat + units.length + 1)) = Config.NAK :=
        primingByte_of_ne_zero (by rw [BitVec.toNat_ofNat]; omega)
      rw [hnak, List.length_cons, List.replicate_succ', List.append_assoc]
      rfl

/-- The eleventh failure ends the session with `ERROR` (R207). -/
theorem tooManyBadUnits_run (hq : Quiet s) (hlive : s.halted = false) (hp : s.pos = ⟨c, .rcPrime, 0, 0⟩)
    (hc : s.cancelKey = false) (hu : ∀ x ∈ units, BadUnit s.xmSeq x) (hne : units ≠ [])
    (hr : s.rxq = units.flatten ++ rest) (hn : s.xmRetry.toNat + units.length = 11) :
    ∃ bb v, Runs s (recvEnd .error { s with
      txlog := s.txlog ++ primingByte s.xmRetry :: List.replicate (units.length - 1) Config.NAK
      irqMask := false, rxq := rest, blockbuf := bb, ret := .done, vars := v, xmRetry := 11
      pos := { cmd := c, label := .rcBad, i := 0, p := 0 } }) := by
  obtain ⟨init, last, rfl⟩ := (List.eq_nil_or_concat units).resolve_left hne
  rw [List.concat_eq_append] at hu hr hn ⊢
  rw [List.length_append, List.length_singleton] at hn
  obtain ⟨t, hrun, log, bb, v, r, m, rfl, hlog⟩ := survivedUnits_run (rest := last ++ rest) hq hlive hp hc
    (fun x hx => hu x (List.mem_append_left _ hx)) (by simpa using hr) (by omega)
  obtain ⟨bb', v', hlast⟩ := bad_run (s := { s with
      txlog := log, rxq := last ++ rest, blockbuf := bb, vars := v, ret := r, irqMask := m
      xmRetry := BitVec.ofNat 8 (s.xmRetry.toNat + init.length) })
    hq hlive (congrArg SeqPos.label hp) hc (hu last (by simp)) rfl
  have hten : (BitVec.ofNat 8 (s.xmRetry.toNat + init.length)).toNat = 10 := by
    rw [BitVec.toNat_ofNat]
    omega
  rw [badUnit_of_ten (by exact hten)] at hlast
  refine ⟨bb', v', hrun.trans ?_⟩
  simp only [hlog] at hlast
  rw [List.length_append, List.length_singleton, Nat.add_sub_cancel]
  simpa only [hp] using hlast

end BadUnits

/-- Settles O32: the bad units, then the last of them or the good frame. -/
theorem badUnitsAreRetriedUntilTheEleventh : Obligations.BadUnitsAreRetriedUntilTheEleventh := by
  intro s a0 a1 units rest hq hi hx hc hu
  have hexec := exec_recvBlock hi hx a0 a1
  constructor
  · intro hne hr hn
    obtain ⟨bb, v, hrun⟩ := tooManyBadUnits_run (s := goto .rcPrime 0 0 (s.started .recvBlock a0 a1))
      hq hi.1 rfl hc hu hne hr hn
    exact ⟨_, _, bb, hexec, hrun, rfl⟩
  · intro data hr hn
    obtain ⟨t, hrun, log, bb, v, r, m, rfl, hlog⟩ := survivedUnits_run
      (s := goto .rcPrime 0 0 (s.started .recvBlock a0 a1)) hq hi.1 rfl hc hu hr hn
    refine ⟨_, _, hexec, hrun.trans (acceptFrame_run ?_ ?_ ?_ ?_ ?_ data (rest := rest) ?_), ?_⟩
    · exact hq
    · exact hi.1
    · rfl
    · simp
    · exact hc
    · rw [← wireFrame_eq]
      rfl
    · dsimp only
      rw [hlog]
      rfl

/-! ## Silent lines -/

section Silence

variable {s : State} {P : State → Prop}

/-- What every step keeps holds at the end of every run. -/
theorem run_invariant (hstep : ∀ t, P t → ∃ u, step t = .next u ∧ P u) (n : Nat) (h : P s) :
    ∃ t, Host.Core.run Sys2Proof.core n s = .next t ∧ P t := by
  induction n generalizing s with
  | zero => exact ⟨s, rfl, h⟩
  | succ n ih =>
    obtain ⟨u, hu, hPu⟩ := hstep s h
    obtain ⟨t, ht, hPt⟩ := ih hPu
    refine ⟨t, ?_, hPt⟩
    rw [Nat.add_comm, run_add (M := Sys2Proof.core) 1 n s u (run_one (M := Sys2Proof.core) s u hu)]
    exact ht

/-- A state with the position and the registers of `s`, working registers and `q`, `tick` aside. -/
theorem arch_of_arch {t : State} {q q' : SeqPos} {tick tick' : Bool}
    (h : t.arch = { s with pos := q, tickPending := tick }.arch) :
    { t with pos := q', tickPending := tick' }.arch = { s with pos := q', tickPending := tick' }.arch :=
  congrArg (fun x : State => { x with pos := q', tickPending := tick' }) h

/-- The wait of a read inside a frame goes on (R150, R318). -/
theorem step_getc_silent (hq : Quiet s) (hlive : s.halted = false) (hr : s.rxq = [])
    (hl : s.pos.label = .rcSeq ∨ s.pos.label = .rcNseq ∨ s.pos.label = .rcData ∨ s.pos.label = .rcCheck) :
    step s = .next { s with ret := .waiting } := by
  have hne : s.pos.label ≠ .idle := by rcases hl with h | h | h | h <;> simp [h]
  exact (step_running hq hlive hne).trans (runStep_wait hlive hl hr)

/-- One step of the poll loop (R203). -/
theorem step_poll_silent (hq : Quiet s) (hlive : s.halted = false) (hr : s.rxq = []) (hc : s.cancelKey = false)
    (hl : s.pos.label = .rcPoll ∨ s.pos.label = .rcGet) :
    ∃ u, step s = .next u ∧ (u.pos.label = .rcPoll ∨ u.pos.label = .rcGet) ∧ u.arch = { s with pos := u.pos }.arch := by
  rcases hl with hl | hl
  · refine ⟨_, (step_running hq hlive (by simp [hl])).trans (runStep_rcPoll hlive hl), ?_⟩
    rw [if_neg (by simp [hc])]
    exact ⟨.inr rfl, rfl⟩
  · exact ⟨_, (step_running hq hlive (by simp [hl])).trans (runStep_rcGet_empty hlive hl hr), .inl rfl, rfl⟩

/-- SEQ is in the wait of the send side, at the key only where the key is looked at and up (R234). -/
def SendWaits (s : State) : Prop :=
  s.pos.label = .sdPoll ∧ s.cancelKey = false ∨ s.pos.label = .sdGet ∨ s.pos.label = .sdHalt

/-- One step of the wait of the send side: at most a tick is used up, and SEND_FINISH does not go to the key (R234). -/
theorem step_send_silent (hq : Quiet s) (hlive : s.halted = false) (hr : s.rxq = []) (hl : SendWaits s) :
    ∃ u, step s = .next u ∧
      (u.pos.label = .sdPoll ∧ s.pos.cmd ≠ some .sendFinish ∨ u.pos.label = .sdGet ∨ u.pos.label = .sdHalt) ∧
      u.pos.cmd = s.pos.cmd ∧ u.arch = { s with pos := u.pos, tickPending := u.tickPending }.arch := by
  rcases hl with ⟨hl, hc⟩ | hl | hl
  · refine ⟨_, (step_running hq hlive (by simp [hl])).trans (runStep_sdPoll hlive hl), ?_⟩
    rw [if_neg (by simp [hc])]
    exact ⟨.inr (.inl rfl), rfl, rfl⟩
  · exact ⟨_, (step_running hq hlive (by simp [hl])).trans (runStep_sdGet_empty hlive hl hr), .inr (.inr rfl), rfl, rfl⟩
  · refine ⟨_, (step_running hq hlive (by simp [hl])).trans (runStep_sdHalt hlive hl), ?_⟩
    split
    · rw [sendWait_eq]
      refine ⟨?_, rfl, rfl⟩
      by_cases hf : s.pos.cmd = some .sendFinish
      · exact .inr (.inl (if_pos hf))
      · exact .inl ⟨if_neg hf, hf⟩
    · exact ⟨.inr (.inr hl), rfl, rfl⟩

end Silence

/-- Settles O33: by what the step of each wait leaves as it is. -/
theorem silentPeerKeepsTheCommandRunning : Obligations.SilentPeerKeepsTheCommandRunning := by
  intro s n hq hlive hr
  refine ⟨fun hl => ?_, fun hl hc => ?_, fun hl hc => ?_, fun hcmd hl => ?_⟩
  · have hfirst := step_getc_silent hq hlive hr hl
    have hnext : step { s with ret := .waiting } = .next { s with ret := .waiting } :=
      step_getc_silent (s := { s with ret := .waiting }) hq hlive hr hl
    obtain ⟨t, ht, rfl⟩ := run_invariant (P := (· = { s with ret := .waiting }))
      (fun t ht => ⟨t, by rw [ht, hnext], ht⟩) n rfl
    rw [Nat.add_comm, run_add (M := Sys2Proof.core) 1 n s _ (run_one (M := Sys2Proof.core) s _ hfirst)]
    exact ht
  · refine run_invariant (fun t ⟨hl, ha⟩ => ?_) n ⟨hl, rfl⟩
    obtain ⟨u, hu, hlu, hau⟩ := step_poll_silent (s := t) ((congrArg State.sched ha).trans hq)
      ((congrArg State.halted ha).trans hlive) ((congrArg State.rxq ha).trans hr)
      ((congrArg State.cancelKey ha).trans hc) hl
    exact ⟨u, hu, hlu, hau.trans (congrArg (fun x : State => { x with pos := u.pos }) ha)⟩
  · refine run_invariant (fun t ⟨hl, hcmd, ha⟩ => ?_) n ⟨hl, rfl, rfl⟩
    have hct : t.cancelKey = false := (congrArg State.cancelKey ha).trans hc
    obtain ⟨u, hu, hlu, hcu, hau⟩ := step_send_silent (s := t) ((congrArg State.sched ha).trans hq)
      ((congrArg State.halted ha).trans hlive) ((congrArg State.rxq ha).trans hr) (hl.imp_left fun h => ⟨h, hct⟩)
    exact ⟨u, hu, hlu.imp_left And.left, hcu.trans hcmd, hau.trans (arch_of_arch ha)⟩
  · refine run_invariant (fun t ⟨hl, hcmd, ha⟩ => ?_) n ⟨hl, hcmd, rfl⟩
    obtain ⟨u, hu, hlu, hcu, hau⟩ := step_send_silent (s := t) ((congrArg State.sched ha).trans hq)
      ((congrArg State.halted ha).trans hlive) ((congrArg State.rxq ha).trans hr) (.inr hl)
    exact ⟨u, hu, hlu.resolve_left fun h => h.2 hcmd, hcu.trans hcmd, hau.trans (arch_of_arch ha)⟩

/-! ## The send side -/

section Send

variable {s : State}

/-- SEND_START drops bytes that are neither `NAK` nor `CAN` (R230, R233). -/
theorem junk_run (junk : List Byte) {rest : List Byte} (hq : Quiet s) (hlive : s.halted = false)
    (hcmd : s.pos.cmd = some .sendStart) (hc : s.cancelKey = false)
    (hjunk : ∀ c ∈ junk, c ≠ Config.NAK ∧ c ≠ Config.CAN) (hr : s.rxq = junk ++ rest) :
    ∃ r, Runs (sendWait s) (sendWait { s with rxq := rest, ret := r }) := by
  induction junk generalizing s with
  | nil =>
    refine ⟨s.ret, ?_⟩
    rw [List.nil_append] at hr
    subst hr
    exact Runs.refl _
  | cons b junk ih =>
    obtain ⟨hnak, hcan⟩ := hjunk b (by simp)
    have hbyte := reply_run hq hlive (.inr hc) (c := b) (rest := junk ++ rest) hr
    rw [sendReply_start_other (by exact hcmd) hnak hcan] at hbyte
    obtain ⟨r, hrest⟩ := ih (s := { s with rxq := junk ++ rest, ret := .byte b }) hq hlive hcmd hc
      (fun c hmem => hjunk c (by simp [hmem])) rfl
    refine ⟨r, hbyte.trans ?_⟩
    rw [sendWait_eq, if_neg (by simp [hcmd])] at hrest
    exact hrest

/-- A byte that ends SEND_START's wait, after bytes that do not. -/
theorem startReply_run (junk : List Byte) {c : Byte} {rest : List Byte} (hq : Quiet s) (hlive : s.halted = false)
    (hcmd : s.pos.cmd = some .sendStart) (hc : s.cancelKey = false)
    (hjunk : ∀ c ∈ junk, c ≠ Config.NAK ∧ c ≠ Config.CAN) (hr : s.rxq = junk ++ c :: rest) :
    Runs (sendWait s) (sendReply c { s with
      rxq := rest, ret := .byte c, pos := { cmd := s.pos.cmd, label := .sdGet, i := 0, p := 0 } }) := by
  obtain ⟨r, hrun⟩ := junk_run junk hq hlive hcmd hc hjunk hr
  exact hrun.trans (reply_run (s := { s with rxq := c :: rest, ret := r }) hq hlive (.inr hc) rfl)

/-- SEND_START goes to its wait with a new session and `RXIE` set (R230). -/
theorem sendStart_run (hq : Quiet s) (hi : Idle s) (a0 a1 : Byte) {u : State}
    (hrun : Runs (sendWait { s.started .sendStart a0 a1 with
      pos := { cmd := some .sendStart, label := .sdIrq, i := 0, p := 0 }
      xmSeq := 1, xmRetry := 0, xmPhase := .sending, rxie := true, ret := .done }) u) :
    Runs (goto .sdIrq 0 0 { s.started .sendStart a0 a1 with xmSeq := 1, xmRetry := 0, xmPhase := .sending }) u :=
  Runs.cons hq hi.1 (by simp) (runStep_sdIrq (by exact hi.1) rfl) hrun

/-- A transmission, at most nine `NAK`s with one more transmission each, and then the byte `c` (R231, R232). -/
theorem exchange_run (hq : Quiet s) (hlive : s.halted = false)
    (hcmd : s.pos.cmd = some .sendFinish ∨ s.pos.cmd = some .sendBlock ∧ s.cancelKey = false)
    (hretry : s.xmRetry = 0) {n : Nat} (hn : n ≤ 9) {c : Byte} {rest : List Byte}
    (hr : s.rxq = List.replicate n Config.NAK ++ c :: rest) :
    ∃ v, Runs (sendTransmit s) (sendReply c { s with
      rxq := rest, ret := .byte c, pos := { cmd := s.pos.cmd, label := .sdGet, i := 0, p := 0 }
      txlog := s.txlog ++ (List.replicate (n + 1) (sendUnit s)).flatten, xmRetry := BitVec.ofNat 8 n, vars := v }) := by
  obtain ⟨v, l, hfirst⟩ := sendTransmit_run hq hlive
  obtain ⟨v', l', r', hnaks⟩ := naks_run n { s with
    pos := { cmd := s.pos.cmd, label := l, i := 0, p := 0 }, txlog := s.txlog ++ sendUnit s, vars := v, ret := .done }
    (c :: rest) hq hlive hcmd hr (by simpa [hretry] using hn)
  have hkey : s.pos.cmd = some .sendFinish ∨ s.cancelKey = false := hcmd.imp_right And.right
  have hzero : s.xmRetry.toNat = 0 := by
    rw [hretry]
    rfl
  simp only [hzero, Nat.zero_add] at hnaks
  refine ⟨v', hfirst.trans (hnaks.trans ?_)⟩
  rw [List.replicate_succ, List.flatten_cons, ← List.append_assoc]
  exact reply_run (s := { s with
    pos := { cmd := s.pos.cmd, label := l', i := 0, p := 0 }, vars := v', ret := r', rxq := c :: rest
    txlog := s.txlog ++ sendUnit s ++ (List.replicate n (sendUnit s)).flatten, xmRetry := BitVec.ofNat 8 n })
    hq hlive hkey rfl

end Send

/-- Settles O34: by the byte that ends the wait, or the key. -/
theorem sendStartWaitsForNak : Obligations.SendStartWaitsForNak := by
  intro s a0 a1 junk rest hq hi ho hjunk
  have hexec := exec_sendStart hi ho a0 a1
  refine ⟨fun hc hr => ?_, fun hc hr => ?_, fun hc => ?_⟩
  · refine ⟨_, _, hexec, sendStart_run hq hi a0 a1 (startReply_run junk (c := Config.NAK) hq hi.1 rfl hc hjunk hr), ?_⟩
    rw [sendReply_start_nak rfl]
    rfl
  · refine ⟨_, _, hexec, sendStart_run hq hi a0 a1 (startReply_run junk (c := Config.CAN) hq hi.1 rfl hc hjunk hr), ?_⟩
    rw [sendReply_can]
    rfl
  · exact ⟨_, _, hexec, sendStart_run hq hi a0 a1 (sendSelf_run hq hi.1 (by simp) hc), rfl⟩

section Exchanges

variable {s : State}

theorem sendUnit_block (hcmd : s.pos.cmd = some .sendBlock) : sendUnit s = wireFrame s.xmSeq s.blockbuf := by
  rw [sendUnit, if_neg (by simp [hcmd]), wireFrame_eq]

theorem sendUnit_finish (hcmd : s.pos.cmd = some .sendFinish) : sendUnit s = [Config.EOT] := if_pos hcmd

/-- The tenth `NAK` ends the session with `ERROR` (R231, R232). -/
theorem sendReply_tenth_nak (hcmd : s.pos.cmd ≠ some .sendStart) (hretry : s.xmRetry.toNat = 9) :
    sendReply Config.NAK s = sendEnd .error { s with xmRetry := 10 } :=
  (sendReply_nak hcmd).trans (sendNak_tenth hretry)

/-- Where SEND_BLOCK and SEND_FINISH begin (R231, R232). -/
abbrev State.sends (s : State) (c : Cmd) (a0 a1 : Byte) : State := { s.started c a0 a1 with xmRetry := 0 }

end Exchanges

/-- Settles O35: by the exchange, or the key at its first wait. -/
theorem sendBlockTransmitsUntilAcked : Obligations.SendBlockTransmitsUntilAcked := by
  intro s a0 a1 n rest hq hi hx
  have hexec : exec (.sendBlock a0 a1) s = .next (sendTransmit (s.sends .sendBlock a0 a1)) := exec_sendBlock hi hx a0 a1
  have hunit : sendUnit (s.sends .sendBlock a0 a1) = wireFrame s.xmSeq s.blockbuf := sendUnit_block rfl
  refine ⟨fun hc hn hr => ?_, fun hc hr => ?_, fun hc => ?_⟩
  · obtain ⟨v, hrun⟩ := exchange_run (s := s.sends .sendBlock a0 a1) (c := Config.ACK) hq hi.1
      (.inr ⟨rfl, hc⟩) rfl hn hr
    rw [sendReply_block_ack rfl, hunit] at hrun
    exact ⟨_, _, hexec, hrun, rfl⟩
  · obtain ⟨v, hrun⟩ := exchange_run (s := s.sends .sendBlock a0 a1) (c := Config.NAK) (n := 9) hq hi.1
      (.inr ⟨rfl, hc⟩) rfl (Nat.le_refl 9) hr
    rw [sendReply_tenth_nak (by simp) rfl, hunit] at hrun
    exact ⟨_, _, hexec, hrun, rfl⟩
  · obtain ⟨v, l, hrun⟩ := sendTransmit_run (s := s.sends .sendBlock a0 a1) hq hi.1
    rw [hunit] at hrun
    exact ⟨_, _, hexec, hrun.trans (sendSelf_run hq hi.1 (by simp) hc), rfl⟩

/-- Settles O36: by the exchange, whatever the key. -/
theorem sendFinishTransmitsEotUntilAcked : Obligations.SendFinishTransmitsEotUntilAcked := by
  intro s a0 a1 n rest hq hi hx
  have hexec : exec (.sendFinish a0 a1) s = .next (sendTransmit (s.sends .sendFinish a0 a1)) :=
    exec_sendFinish hi hx a0 a1
  have hunit : sendUnit (s.sends .sendFinish a0 a1) = [Config.EOT] := sendUnit_finish rfl
  constructor
  · intro hn hr
    obtain ⟨v, hrun⟩ := exchange_run (s := s.sends .sendFinish a0 a1) (c := Config.ACK) hq hi.1 (.inl rfl) rfl hn hr
    rw [sendReply_finish_ack rfl, hunit, List.flatten_replicate_singleton] at hrun
    exact ⟨_, _, hexec, hrun, rfl⟩
  · intro hr
    obtain ⟨v, hrun⟩ := exchange_run (s := s.sends .sendFinish a0 a1) (c := Config.NAK) (n := 9) hq hi.1 (.inl rfl) rfl
      (Nat.le_refl 9) hr
    rw [sendReply_tenth_nak (by simp) rfl, hunit, List.flatten_replicate_singleton] at hrun
    exact ⟨_, _, hexec, hrun, rfl⟩

end Sys2Proof.Machine
end

section
/-! PROOF. R170 to R183: the save relocation commands. What an evict, a load and an erase do to the memories, from where
the command begins to its end; how SWITCH_TO_SLOT goes from one to the other; then the statements. -/

namespace Sys2Proof.Machine

/-! ## What the commands do to the memories -/

/-- `f` is the flash of `s` with RAM banks `0` to `n - 1` of `ram` in the region of the slot (R173). -/
def Evicted (s : State) (slot : Byte) (o n : Nat) (ram f : Mem) : Prop :=
  (∀ k < n, ∀ off < 65536, f.get (s.saveAddr slot (o + k) off) = ram.get (sramAddr k off)) ∧
    ∀ a, (∀ k < n, ∀ off < 65536, a ≠ s.saveAddr slot (o + k) off) → f.get a = s.flash.get a

/-- `m` is the `SRAM` of `s` with the live bank and its flash sibling in RAM banks 0 and 1, in sub-bank order (R174). -/
def Gathered (s : State) (slot : Byte) (o : Nat) (m : Mem) : Prop :=
  (∀ off < 65536, m.get (sramAddr (o % 2) off) = s.sram.get (sramAddr 0 off)) ∧
    (∀ off < 65536, m.get (sramAddr (1 - o % 2) off) =
      s.flash.get (s.saveAddr slot (o - o % 2 + (1 - o % 2)) off)) ∧
    ∀ a, 131072 ≤ a → m.get a = s.sram.get a

/-- `m` is the `SRAM` of `s` with the region of the slot in RAM banks `0` to `n - 1` (R178). -/
def Loaded (s : State) (slot : Byte) (o n : Nat) (m : Mem) : Prop :=
  (∀ k < n, ∀ off < 65536, m.get (sramAddr k off) = s.flash.get (s.saveAddr slot (o + k) off)) ∧
    ∀ a, 65536 * n ≤ a → m.get a = s.sram.get a

/-- Where an evict ends: `SRAM` and flash are `m` and `f`, the page files, the progress and the working registers any
values, but for the sampled operands. -/
structure EvictEnd (s : State) (steps : Nat) (m f : Mem) (t : State) : Prop where
  eq : ∃ pb cb x v, t = { s with
    pos := { cmd := s.pos.cmd, label := .pgLock, i := 0, p := 0 }, vars := v, sram := m, flash := f
    pagebuf := pb, cmpbuf := cb, progCur := stepNumber steps, progMax := stepNumber steps, ret := .done, xfer := x }
  a0 : t.vars.a0 = s.vars.a0
  a1 : t.vars.a1 = s.vars.a1

section Runs

variable {s : State} {slot os : Byte} {o n : Nat}

theorem beginProgram_of_even (hn : n % 2 = 0) (ho : o % 2 = 0) (slot os : Byte) (s : State) :
    beginProgram slot os o n s =
      goto .pgLaunch 0 0 { s with vars := { s.vars with slot := slot, os := os, offset := o, size := n } } := by
  rw [beginProgram, if_neg (by omega), enterProgram, if_neg (not_oddGeometry_of_even hn ho)]

/-- The evict of an even region (R173). -/
theorem evict_run (hq : Quiet s) (hlive : s.halted = false) (hslot : slot.toNat < 15) (h1 : 1 ≤ n) (h8 : o + n ≤ 8)
    (ho : o % 2 = 0) (hn : n % 2 = 0) (hk : s.lockDepth < 255) (hd : s.defects = []) :
    ∃ f t, Runs (beginProgram slot os o n s) (programDone t) ∧ EvictEnd s (256 * n) s.sram f t ∧
      Evicted s slot o n s.sram f := by
  obtain ⟨f, pb, cb, x, hrun, hregion⟩ := program_run (s := goto .pgLaunch 0 0 { s with
    vars := { s.vars with slot := slot, os := os, offset := o, size := n } }) hq hlive rfl hslot h1 h8 (.inr ⟨ho, hn⟩)
    hk hd
  rw [beginProgram_of_even hn ho]
  exact ⟨f, _, hrun, ⟨⟨pb, cb, x, _, rfl⟩, rfl, rfl⟩, hregion⟩

/-- The evict of a region of size 1 (R173, R174). -/
theorem evictOne_run (hq : Quiet s) (hlive : s.halted = false) (hslot : slot.toNat < 15) (ho : o ≤ 7)
    (hk : s.lockDepth < 255) (hd : s.defects = []) :
    ∃ m f t, Runs (beginProgram slot os o 1 s) (programDone t) ∧ EvictEnd s 512 m f t ∧ Gathered s slot o m ∧
      Evicted s slot (o - o % 2) 2 m f := by
  obtain ⟨m, x, hupgrade, hgathered⟩ := upgrade_run (s := goto .upLaunch 0 0 { s with
    vars := { s.vars with slot := slot, os := os, offset := o, size := 1 } }) hq hlive rfl hslot (Nat.lt_succ_of_le ho)
  obtain ⟨f, pb, cb, x', hrun, hregion⟩ := program_run (s := goto .pgLaunch 0 0 { s with
    pos := { cmd := s.pos.cmd, label := .upLaunch, i := 0, p := 0 }
    vars := { s.vars with slot := slot, os := os, launch := s.launchSlot, offset := o - o % 2, size := 2 }
    sram := m, xfer := x, ret := .done }) hq hlive rfl hslot Nat.two_pos
    (by show o - o % 2 + 2 ≤ 8; omega) (.inr ⟨by show (o - o % 2) % 2 = 0; omega, Nat.mod_self 2⟩) hk hd
  rw [beginProgram, if_pos rfl]
  exact ⟨m, f, _, hupgrade.trans hrun, ⟨⟨pb, cb, x', _, rfl⟩, rfl, rfl⟩, hgathered, hregion⟩

/-- The load (R178). -/
theorem load_run (hq : Quiet s) (hlive : s.halted = false) (hslot : slot.toNat < 15) (h1 : 1 ≤ n) (h8 : o + n ≤ 8) :
    ∃ m x v, Runs (beginRestore slot os o n s) (restoreDone { s with
        pos := { cmd := s.pos.cmd, label := .rsTick, i := n - 1, p := 31 }, vars := v, sram := m, xfer := x
        progCur := stepNumber (32 * n), progMax := stepNumber (32 * n), ret := .done }) ∧
      (v.a0 = s.vars.a0 ∧ v.a1 = s.vars.a1) ∧ Loaded s slot o n m := by
  obtain ⟨m, x, hrun, hloaded⟩ := restore_run (s := beginRestore slot os o n s) hq hlive rfl hslot h1 h8
  exact ⟨m, x, _, hrun, ⟨rfl, rfl⟩, hloaded⟩

/-- The load of SWITCH_TO_SLOT, and the `persist()` of the new slot (R170 step 5, R171). -/
theorem switchLoad_run (hq : Quiet s) (hlive : s.halted = false) (hcmd : s.pos.cmd = some .switchToSlot)
    (ha0 : s.vars.a0 = slot) (ha1 : s.vars.a1 = os) (hslot : slot.toNat < 15) (h1 : 1 ≤ n) (h8 : o + n ≤ 8) :
    ∃ u m, Runs (beginRestore slot os o n s) u ∧ Loaded s slot o n m ∧ u.arch = { s with
      w := { s.w with activeSlot := slot, activeOs := os }, p := { s.w with activeSlot := slot, activeOs := os }
      sram := m, progCur := stepNumber (32 * n), progMax := stepNumber (32 * n), result := 0x00
      pos := SeqPos.idle }.arch := by
  obtain ⟨m, x, v, hrun, ⟨hv0, hv1⟩, hloaded⟩ := load_run (os := os) hq hlive hslot h1 h8
  rw [restoreDone, if_pos (by exact hcmd)] at hrun
  refine ⟨_, m, hrun.trans (Runs.cons hq hlive (by simp) (runStep_swPersistNew hlive rfl) (Runs.refl _)), hloaded, ?_⟩
  rw [← ha0, ← ha1, ← hv0, ← hv1]
  rfl

/-- After the evict SWITCH_TO_SLOT persists NONE (R170 step 4, R171). -/
theorem persistNone_step {t : State} (hlive : t.halted = false) (hcmd : t.pos.cmd = some .switchToSlot) :
    runStep (programDone t) = switchLoad { t with
      pos := { cmd := t.pos.cmd, label := .swPersistNone, i := 0, p := 0 }
      w := { t.w with activeSlot := Config.slotNone }, p := { t.w with activeSlot := Config.slotNone }
      ret := .done } := by
  rw [programDone, if_pos hcmd]
  exact runStep_swPersistNone hlive rfl

/-- PROGRAM_TO_FLASH ends where the evict does (R173). -/
theorem programDone_of_program {t : State} (hcmd : t.pos.cmd = some .programToFlash) :
    programDone t = finish .ok t :=
  if_neg (by simp [hcmd])

theorem restoreDone_of_restore {t : State} (hcmd : t.pos.cmd = some .restoreFromFlash) :
    restoreDone t = finish .ok t :=
  if_neg (by simp [hcmd])

/-- A slot index of a legal unit is below 15 (R92). -/
theorem slot_lt (hp : LegalParams s.par) (h : slot.toNat < s.par.sramSlots) : slot.toNat < 15 :=
  Nat.lt_of_lt_of_le h hp.2

/-- PROGRAM_TO_FLASH of an even region, from its start to its end. -/
theorem programEven_run (hq : Quiet s) (hi : Idle s) (hp : LegalParams s.par) (hd : s.defects = [])
    (hk : s.lockDepth < 255) (hslot : slot.toNat < s.par.sramSlots) (hf : osFields os = some (o, n)) (h1 : 1 ≤ n)
    (h8 : o + n ≤ 8) (ho : o % 2 = 0) (hn : n % 2 = 0) :
    ∃ t u f pb cb, exec (.programToFlash slot os) s = .next t ∧ Runs t u ∧ Evicted s slot o n s.sram f ∧
      u.arch = { s with
        flash := f, pagebuf := pb, cmpbuf := cb, progCur := stepNumber (256 * n), progMax := stepNumber (256 * n)
        result := 0x00, pos := SeqPos.idle }.arch := by
  obtain ⟨f, t, hrun, ⟨⟨pb, cb, x, v, rfl⟩, -, -⟩, hregion⟩ := evict_run (s := s.started .programToFlash slot os)
    (os := os) hq hi.1 (slot_lt hp hslot) h1 h8 ho hn hk hd
  rw [programDone_of_program rfl] at hrun
  exact ⟨_, _, f, pb, cb, exec_programToFlash hi hslot hf, hrun, hregion, rfl⟩

/-- PROGRAM_TO_FLASH of a region of size 1, from its start to its end. -/
theorem programOne_run (hq : Quiet s) (hi : Idle s) (hp : LegalParams s.par) (hd : s.defects = [])
    (hk : s.lockDepth < 255) (hslot : slot.toNat < s.par.sramSlots) (hf : osFields os = some (o, 1)) (ho : o ≤ 7) :
    ∃ t u f m pb cb, exec (.programToFlash slot os) s = .next t ∧ Runs t u ∧ Gathered s slot o m ∧
      Evicted s slot (o - o % 2) 2 m f ∧
      u.arch = { s with
        flash := f, sram := m, pagebuf := pb, cmpbuf := cb, progCur := 512, progMax := 512, result := 0x00
        pos := SeqPos.idle }.arch := by
  obtain ⟨m, f, t, hrun, ⟨⟨pb, cb, x, v, rfl⟩, -, -⟩, hgathered, hregion⟩ :=
    evictOne_run (s := s.started .programToFlash slot os) (os := os) hq hi.1 (slot_lt hp hslot) ho hk hd
  rw [programDone_of_program rfl] at hrun
  exact ⟨_, _, f, m, pb, cb, exec_programToFlash hi hslot hf, hrun, hgathered, hregion, rfl⟩

/-- RESTORE_FROM_FLASH, from its start to its end. -/
theorem restoreAll_run (hq : Quiet s) (hi : Idle s) (hp : LegalParams s.par) (hslot : slot.toNat < s.par.sramSlots)
    (hf : osFields os = some (o, n)) (h1 : 1 ≤ n) (h8 : o + n ≤ 8) :
    ∃ t u m, exec (.restoreFromFlash slot os) s = .next t ∧ Runs t u ∧ Loaded s slot o n m ∧
      u.arch = { s with
        sram := m, progCur := stepNumber (32 * n), progMax := stepNumber (32 * n), result := 0x00
        pos := SeqPos.idle }.arch := by
  obtain ⟨m, x, v, hrun, -, hloaded⟩ := load_run (s := s.started .restoreFromFlash slot os) (os := os) hq hi.1
    (slot_lt hp hslot) h1 h8
  rw [restoreDone_of_restore rfl] at hrun
  exact ⟨_, _, m, exec_restoreFromFlash hi hslot hf, hrun, hloaded, rfl⟩

end Runs

/-- Settles O41: by the evict. -/
theorem programMakesTheRegionEqualToRam : Obligations.ProgramMakesTheRegionEqualToRam := by
  intro s slot os o n hq hi hp hd hk hslot ho hn h1 h8 hoeven hneven
  obtain ⟨t, u, f, pb, cb, hexec, hrun, ⟨hin, hout⟩, hu⟩ := programEven_run hq hi hp hd hk hslot
    (osFields_some ho hn h1 h8) h1 h8 hoeven hneven
  exact ⟨t, u, f, pb, cb, hexec, hrun, hin, hout, hu⟩

/-- Settles O43: by the upgrade and the evict of the pair. -/
theorem programOfSizeOneRewritesThePair : Obligations.ProgramOfSizeOneRewritesThePair := by
  intro s slot os o hq hi hp hd hk hslot hone ho h7
  obtain ⟨t, u, f, m, pb, cb, hexec, hrun, ⟨hlive, hsibling, habove⟩, ⟨hin, hout⟩, hu⟩ := programOne_run hq hi hp hd hk
    hslot (osFields_some ho hone.symm (Nat.le_refl 1) (by omega)) h7
  exact ⟨t, u, f, m, pb, cb, hexec, hrun, hlive, hsibling, habove, hin, hout, hu⟩

/-- Settles O44: by the load. -/
theorem restoreMakesRamEqualToTheRegion : Obligations.RestoreMakesRamEqualToTheRegion := by
  intro s slot os o n hq hi hp hslot ho hn h1 h8
  obtain ⟨t, u, m, hexec, hrun, ⟨hin, habove⟩, hu⟩ := restoreAll_run hq hi hp hslot (osFields_some ho hn h1 h8) h1 h8
  exact ⟨t, u, m, hexec, hrun, hin, habove, hu⟩

/-- What PROGRAM_TO_FLASH leaves, read back: bank `k` of the region is the old RAM bank `k` (R183). -/
theorem program_run_readBack {s : State} {slot os : Byte} {o n : Nat} (hq : Quiet s) (hi : Idle s)
    (hp : LegalParams s.par) (hd : s.defects = []) (hk : s.lockDepth < 255) (hslot : slot.toNat < s.par.sramSlots)
    (hf : osFields os = some (o, n)) (h1 : 1 ≤ n) (h8 : o + n ≤ 8) (hn : n = 1 ∨ o % 2 = 0 ∧ n % 2 = 0) :
    ∃ t u f m pb cb steps, exec (.programToFlash slot os) s = .next t ∧ Runs t u ∧
      (∀ k < n, ∀ off < 65536, f.get (s.saveAddr slot (o + k) off) = s.sram.get (sramAddr k off)) ∧
      u.arch = { s with
        flash := f, sram := m, pagebuf := pb, cmpbuf := cb, progCur := steps, progMax := steps, result := 0x00
        pos := SeqPos.idle }.arch := by
  rcases hn with rfl | ⟨hoeven, hneven⟩
  · obtain ⟨t, u, f, m, pb, cb, hexec, hrun, ⟨hlive, -, -⟩, ⟨hin, -⟩, hu⟩ :=
      programOne_run hq hi hp hd hk hslot hf (by omega)
    refine ⟨t, u, f, m, pb, cb, 512, hexec, hrun, fun k hk off hoff => ?_, hu⟩
    obtain rfl : k = 0 := Nat.lt_one_iff.1 hk
    have hbank := hin (o % 2) (Nat.mod_lt _ Nat.two_pos) off hoff
    rw [Nat.sub_add_cancel (Nat.mod_le o 2), hlive off hoff] at hbank
    exact hbank
  · obtain ⟨t, u, f, pb, cb, hexec, hrun, ⟨hin, -⟩, hu⟩ :=
      programEven_run hq hi hp hd hk hslot hf h1 h8 hoeven hneven
    exact ⟨t, u, f, s.sram, pb, cb, _, hexec, hrun, hin, hu⟩

/-- Settles O45: the load reads what the evict wrote. -/
theorem programThenRestoreGivesBackRam : Obligations.ProgramThenRestoreGivesBackRam := by
  intro s slot os o n hq hi hp hd hk hslot ho hn h1 h8 hgeo
  have hf := osFields_some ho hn h1 h8
  obtain ⟨t, u, f, m, pb, cb, steps, hexec, hrun, hback, hu⟩ := program_run_readBack hq hi hp hd hk hslot hf h1 h8 hgeo
  have hiu : Idle u := ⟨(congrArg State.halted hu).trans hi.1, congrArg (fun x : State => x.pos.label) hu⟩
  have hflash : u.flash = f := congrArg State.flash hu
  have hpar : u.par = s.par := (congrArg State.par hu :)
  have haddr : u.saveAddr = s.saveAddr := (congrArg State.saveAddr hu :)
  refine ⟨t, u, hexec, hrun, hiu, congrArg State.result hu, fun sram => ?_⟩
  obtain ⟨t', u', m', hexec', hrun', ⟨hin, -⟩, hu'⟩ := restoreAll_run (s := { u with sram := sram })
    ((congrArg State.sched hu).trans hq) hiu (hpar ▸ hp) (hpar ▸ hslot) hf h1 h8
  refine ⟨t', u', hexec', hrun', congrArg State.result hu', fun k hk off hoff => ?_⟩
  have hsram : u'.sram = m' := congrArg State.sram hu'
  calc u'.sram.get (sramAddr k off)
      = u.flash.get (u.saveAddr slot (o + k) off) := by rw [hsram]; exact hin k hk off hoff
    _ = s.sram.get (sramAddr k off) := by rw [hflash, haddr]; exact hback k hk off hoff

/-! ## SWITCH_TO_SLOT -/

/-- Settles O37: by the tests in their order. -/
theorem switchesThatMoveNothing : Obligations.SwitchesThatMoveNothing := by
  intro s slot os hq hi
  have same (hslot : slot = s.w.activeSlot) (hos : os = s.w.activeOs) :
      ∃ t, exec (.switchToSlot slot os) s = .next t ∧ t.arch = { s with result := 0x00, pos := SeqPos.idle }.arch := by
    rw [exec_switchToSlot hi, if_pos ⟨hslot, hos⟩]
    exact ⟨_, rfl, rfl⟩
  refine ⟨same, fun hboot hnone => ?_, fun hp hactive hnone => ?_, fun hboot hne hnone => ?_⟩
  · have hne : ¬ (slot = s.w.activeSlot ∧ os = s.w.activeOs) := by
      rw [hboot, hnone]
      exact fun h => absurd h.1 (by decide)
    rw [exec_switchToSlot hi, if_neg hne, if_pos (by exact hboot), if_pos (by exact hnone)]
    exact ⟨_, rfl, rfl⟩
  · by_cases hos : os = s.w.activeOs
    · exact same (hnone.trans hactive.symm) hos
    · have hnoslot : isSlot s.par s.w.activeSlot = false := by
        rw [hactive]
        exact isSlot_false (hp.2.trans (by decide))
      obtain rfl : slot = Config.slotNone := hnone
      have hbody := exec_switchToSlot_validated hi (fun h => hos h.2) (by rw [hactive]; decide) (.inr rfl)
        (.inr hactive)
      exact ⟨_, hbody.trans (switchBody_of_none (by exact hnoslot) os), rfl⟩
  · have hne' : ¬ (slot = s.w.activeSlot ∧ os = s.w.activeOs) := by rwa [hboot]
    rw [exec_switchToSlot hi, if_neg hne', if_pos (by exact hboot), if_neg (by exact hnone)]
    exact ⟨_, _, rfl, Runs.cons hq hi.1 (by simp) (runStep_swAdopt hi.1 rfl) (Runs.refl _), rfl⟩

section Switch

variable {s t : State} {slot os : Byte} {o n steps : Nat} {m f : Mem}

/-- From the end of the evict of SWITCH_TO_SLOT to its end at NONE, which nothing follows (R170 step 5). -/
theorem switchToNone_run (hq : Quiet s) (hi : Idle s)
    (hend : EvictEnd (s.started .switchToSlot Config.slotNone os) steps m f t) :
    ∃ u pb cb, Runs (programDone t) u ∧ u.arch = { s with
      w := { s.w with activeSlot := 0xFF }, p := { s.w with activeSlot := 0xFF }, sram := m, flash := f
      pagebuf := pb, cmpbuf := cb, progCur := stepNumber steps, progMax := stepNumber steps, result := 0x00
      pos := SeqPos.idle }.arch := by
  obtain ⟨⟨pb, cb, x, v, rfl⟩, ha0, -⟩ := hend
  have hstep := persistNone_step (t := { s.started .switchToSlot Config.slotNone os with
    pos := { cmd := some .switchToSlot, label := .pgLock, i := 0, p := 0 }, vars := v, sram := m, flash := f
    pagebuf := pb, cmpbuf := cb, progCur := stepNumber steps, progMax := stepNumber steps, ret := .done, xfer := x })
    hi.1 rfl
  rw [switchLoad, if_pos (by exact ha0)] at hstep
  exact ⟨_, pb, cb, Runs.cons hq hi.1 (by simp [programDone]) hstep (Runs.refl _), rfl⟩

/-- From the end of the evict of SWITCH_TO_SLOT to its end at the new slot, through the state in which NONE is
persisted (R170 step 5, R171). -/
theorem switchToNext_run (hq : Quiet s) (hi : Idle s) (hslot : slot.toNat < 15) (hf : osFields os = some (o, n))
    (h1 : 1 ≤ n) (h8 : o + n ≤ 8) (hend : EvictEnd (s.started .switchToSlot slot os) steps m f t) :
    ∃ mid u pb cb, Runs (programDone t) mid ∧ Runs mid u ∧
      (mid.w = { s.w with activeSlot := 0xFF } ∧ mid.p = { s.w with activeSlot := 0xFF } ∧ mid.sram = m ∧
        mid.flash = f) ∧ Loaded { s with sram := m, flash := f } slot o n u.sram ∧
      u.arch = { s with
        w := { s.w with activeSlot := slot, activeOs := os }, p := { s.w with activeSlot := slot, activeOs := os }
        flash := f, sram := u.sram, pagebuf := pb, cmpbuf := cb, progCur := stepNumber (32 * n)
        progMax := stepNumber (32 * n), result := 0x00, pos := SeqPos.idle }.arch := by
  obtain ⟨⟨pb, cb, x, v, rfl⟩, ha0, ha1⟩ := hend
  have hne : slot ≠ Config.slotNone := by
    rintro rfl
    exact absurd hslot (by decide)
  have hstep := persistNone_step (t := { s.started .switchToSlot slot os with
    pos := { cmd := some .switchToSlot, label := .pgLock, i := 0, p := 0 }, vars := v, sram := m, flash := f
    pagebuf := pb, cmpbuf := cb, progCur := stepNumber steps, progMax := stepNumber steps, ret := .done, xfer := x })
    hi.1 rfl
  rw [switchLoad, if_neg (by rw [show v.a0 = slot from ha0]; exact hne)] at hstep
  dsimp only at ha0 ha1 hstep
  simp only [ha0, ha1, hf] at hstep
  obtain ⟨u, m', hload, hloaded, hu⟩ := switchLoad_run (s := { s.started .switchToSlot slot os with
    pos := { cmd := some .switchToSlot, label := .swPersistNone, i := 0, p := 0 }, vars := v, sram := m, flash := f
    w := { s.w with activeSlot := Config.slotNone }, p := { s.w with activeSlot := Config.slotNone }
    pagebuf := pb, cmpbuf := cb, progCur := stepNumber steps, progMax := stepNumber steps, ret := .done, xfer := x })
    hq hi.1 rfl ha0 ha1 hslot h1 h8
  have hsram : u.sram = m' := congrArg State.sram hu
  refine ⟨_, u, pb, cb, Runs.cons hq hi.1 (by simp [programDone]) hstep (Runs.refl _), hload, ⟨rfl, rfl, rfl, rfl⟩,
    ?_, ?_⟩
  · rw [hsram]
    exact hloaded
  · rw [hu, hsram]
    rfl

end Switch

/-- Settles O39: the evict, the state between, and the load. -/
theorem switchEvictsThenLoads : Obligations.SwitchEvictsThenLoads := by
  intro s slot os oa ob nb hq hi hp hd hk hactive hslot hne hoa hob hnb h1 h8
  have hf := osFields_some hob hnb h1 h8
  have hos : slot = Config.slotNone ∨ slot.toNat < s.par.sramSlots ∧ osOk os = true :=
    .inr ⟨hslot, by simp only [osOk, osFieldsOk, Bool.and_eq_true, decide_eq_true_eq]; omega⟩
  constructor
  · intro na hna h1a h8a hoeven hneven
    have hexec := exec_switchToSlot_of_slot hi hp hactive (osFields_some hoa hna h1a h8a) hne hos
    obtain ⟨f, t, hevict, hend, hin, hout⟩ := evict_run (s := s.started .switchToSlot slot os) (os := s.w.activeOs)
      hq hi.1 (slot_lt hp hactive) h1a h8a hoeven hneven hk hd
    obtain ⟨mid, u, pb, cb, hmid, hu, ⟨hw, hp', hsram, rfl⟩, ⟨hload, habove⟩, harch⟩ :=
      switchToNext_run hq hi (slot_lt hp hslot) hf h1 h8 hend
    exact ⟨_, mid, u, pb, cb, hexec, hevict.trans hmid, hu, hw, hp', hsram, hin, hout, hload, habove, harch⟩
  · intro hone h7
    have hfa := osFields_some hoa hone.symm (Nat.le_refl 1) (by omega)
    have hexec := exec_switchToSlot_of_slot hi hp hactive hfa hne hos
    obtain ⟨m, f, t, hevict, hend, ⟨hlive, hsibling, hram⟩, hin, hout⟩ := evictOne_run
      (s := s.started .switchToSlot slot os) (os := s.w.activeOs) hq hi.1 (slot_lt hp hactive) h7 hk hd
    obtain ⟨mid, u, pb, cb, hmid, hu, ⟨hw, hp', rfl, rfl⟩, ⟨hload, habove⟩, harch⟩ :=
      switchToNext_run hq hi (slot_lt hp hslot) hf h1 h8 hend
    exact ⟨_, mid, u, pb, cb, hexec, hevict.trans hmid, hu, hw, hp', hlive, hsibling, hram, hin, hout, hload, habove,
      harch⟩

/-- Settles O40: the evict alone, and the load alone. -/
theorem switchToAndFromNone : Obligations.SwitchToAndFromNone := by
  intro s slot os o n hq hi hp
  refine ⟨?_, ?_, ?_⟩
  · rintro hactive rfl hd hk ho hn h1 h8 hoeven hneven
    obtain ⟨-, hactive', -⟩ := not_firstBoot_of_slot hp hactive
    have hexec := exec_switchToSlot_of_slot hi hp (newSlot := Config.slotNone) (newOs := os) hactive
      (osFields_some ho hn h1 h8) (fun h => hactive' h.1.symm) (.inl rfl)
    obtain ⟨f, t, hevict, hend, hin, hout⟩ := evict_run (s := s.started .switchToSlot Config.slotNone os)
      (os := s.w.activeOs) hq hi.1 (slot_lt hp hactive) h1 h8 hoeven hneven hk hd
    obtain ⟨u, pb, cb, hrun, hu⟩ := switchToNone_run hq hi hend
    exact ⟨_, u, f, pb, cb, hexec, hevict.trans hrun, hin, hout, hu⟩
  · rintro hactive rfl hd hk ho hone h7
    obtain ⟨-, hactive', -⟩ := not_firstBoot_of_slot hp hactive
    have hexec := exec_switchToSlot_of_slot hi hp (newSlot := Config.slotNone) (newOs := os) hactive
      (osFields_some ho hone.symm (Nat.le_refl 1) (by omega)) (fun h => hactive' h.1.symm) (.inl rfl)
    obtain ⟨m, f, t, hevict, hend, ⟨hlive, hsibling, hram⟩, hin, hout⟩ := evictOne_run
      (s := s.started .switchToSlot Config.slotNone os) (os := s.w.activeOs) hq hi.1 (slot_lt hp hactive) h7 hk hd
    obtain ⟨u, pb, cb, hrun, hu⟩ := switchToNone_run hq hi hend
    exact ⟨_, u, f, m, pb, cb, hexec, hevict.trans hrun, hlive, hsibling, hram, hin, hout, hu⟩
  · intro hactive hslot ho hn h1 h8
    have hf := osFields_some ho hn h1 h8
    obtain ⟨-, hnone, -⟩ := not_firstBoot_of_slot hp hslot
    have hnoslot : isSlot s.par s.w.activeSlot = false := by
      rw [hactive]
      exact isSlot_false (hp.2.trans (by decide))
    have hexec := exec_switchToSlot_validated hi (os := os) (fun h => hnone (h.1.trans hactive))
      (by rw [hactive]; decide) (.inl (isSlot_true hslot)) (.inr hactive)
    obtain ⟨u, m, hrun, ⟨hload, habove⟩, hu⟩ := switchLoad_run (s := s.started .switchToSlot slot os) hq hi.1 rfl rfl
      rfl (slot_lt hp hslot) h1 h8
    exact ⟨_, u, m, hexec.trans (switchBody_load (by exact hnoslot) hnone hf), hrun, hload, habove, hu⟩

/-! ## ERASE -/

section Erase

variable {s : State}

/-- ERASE_SLOTS from its start: the granules of the regions of the slots `first` to `first + count - 1` (R181). -/
theorem eraseSlotsAll_run (hq : Quiet s) (hlive : s.halted = false) {first : Byte} {count : Nat}
    (hcount : 0 < count) (h15 : first.toNat + count ≤ 15) (h1 : 1 ≤ s.vars.size) (h8 : s.vars.offset + s.vars.size ≤ 8)
    (hk : s.lockDepth < 255) :
    ∃ u f, Runs (beginEraseSlots first count s) u ∧
      (∀ (slot k off : Nat) (b : Byte), first.toNat ≤ slot → slot < first.toNat + count → k < s.vars.size →
        off < 65536 →
        SameGranule s.par.granule b (BitVec.ofNat 8 (bankNumber s.w.legacyLayout slot (s.vars.offset + k))) →
        f.get (flashAddr 0 s.launchSlot b off) = 0xFF) ∧
      (∀ a : Nat, (∀ (slot k off : Nat) (b : Byte), first.toNat ≤ slot → slot < first.toNat + count →
        k < s.vars.size → off < 65536 →
        SameGranule s.par.granule b (BitVec.ofNat 8 (bankNumber s.w.legacyLayout slot (s.vars.offset + k))) →
        a ≠ flashAddr 0 s.launchSlot b off) → f.get a = s.flash.get a) ∧
      u.arch = { s with
        flash := f, progCur := stepNumber (count * s.vars.size), progMax := stepNumber (count * s.vars.size)
        result := 0x00, pos := SeqPos.idle }.arch := by
  obtain ⟨f, hrun, hin, hout⟩ := eraseSlots_run (s := beginEraseSlots first count s) hq hlive rfl hcount h1 h15 h8 hk
  refine ⟨_, f, hrun, ?_, ?_, rfl⟩
  · intro slot k off b hlo hhi hk hoff hsame
    refine hin (slot - first.toNat) k b off (by show slot - first.toNat < count; omega) hk ?_ hoff
    show SameGranule _ b (BitVec.ofNat 8 (bankNumber s.w.legacyLayout (first.toNat + (slot - first.toNat)) _))
    rw [Nat.add_sub_cancel' hlo]
    exact hsame
  · intro a ha
    refine hout a fun i p b off hi hp hsame hoff => ?_
    exact ha (first.toNat + i) p off b (Nat.le_add_right _ _) (Nat.add_lt_add_left hi _) hp hoff hsame

end Erase

/-- Settles O46: by the mode. -/
theorem eraseModes : Obligations.EraseModes := by
  intro s os o n hq hi hp ho hn h1 h8
  have hexec (target : Byte) := exec_erase hi (target := target) (osFields_some ho hn h1 h8)
  constructor
  · obtain ⟨m, hrun, hm⟩ := eraseRam_run (s := goto .erInit 0 0 { s.started .erase 0xFF os with
      vars := { s.vars with a0 := 0xFF, a1 := os, os := os, offset := o, size := n } }) hq hi.1 rfl h1
      (by show n ≤ 8; omega)
    exact ⟨_, _, m, (hexec 0xFF).trans (if_pos rfl), hrun, hm, rfl⟩
  · rintro target first count hk (⟨hslot, rfl, rfl⟩ | ⟨rfl, rfl, rfl⟩)
    · obtain ⟨-, hnone, -⟩ := not_firstBoot_of_slot hp hslot
      have hstart := hexec target
      rw [if_neg hnone, if_pos (isSlot_true hslot)] at hstart
      obtain ⟨u, f, hrun, hin, hout, hu⟩ := eraseSlotsAll_run (first := target) (count := 1)
        (s := { s.started .erase target os with
          vars := { s.vars with a0 := target, a1 := os, os := os, offset := o, size := n } })
        hq hi.1 Nat.one_pos (slot_lt hp hslot) h1 h8 hk
      exact ⟨_, u, f, hstart, hrun, hin, hout, hu⟩
    · have hstart := hexec 0xFE
      rw [if_neg (by decide), if_neg (by rw [isSlot_false (hp.2.trans (by decide))]; decide),
        if_pos (by decide)] at hstart
      obtain ⟨u, f, hrun, hin, hout, hu⟩ := eraseSlotsAll_run (first := 0) (count := s.par.sramSlots)
        (s := { s.started .erase 0xFE os with
          vars := { s.vars with a0 := 0xFE, a1 := os, os := os, offset := o, size := n } })
        hq hi.1 hp.1 ((Nat.zero_add _).trans_le hp.2) h1 h8 hk
      exact ⟨_, u, f, hstart, hrun, hin, hout, hu⟩

end Sys2Proof.Machine
end

section
/-! PROOF. R256, R257: FLASH_IMAGE. The erase, the pages that program as asked, and then the end of the command or the
first page that does not; then the statements. -/

namespace Sys2Proof.Machine

section Image

variable {s : State}

theorem sameGranule_refl (g : Config.Granule) (b : Byte) : SameGranule g b b := by
  cases g with
  | bank => rfl
  | pair => rfl

theorem flashAddr_ne_of_bank_ne {ps b bank : Byte} {off off' : Nat} (h : b ≠ bank) (hoff : off < 65536)
    (hoff' : off' < 65536) : flashAddr 0 ps b off ≠ flashAddr 0 ps bank off' := by
  rw [flashAddr_zero, flashAddr_zero]
  have hne : b.toNat ≠ bank.toNat := fun he => h (BitVec.eq_of_toNat_eq he)
  omega

/-- A flash that differs from the erased one in the image's bank alone: the other bank of the granule is erased, and no
byte outside the granule has changed (R140, R256). -/
theorem outside_image {f : Mem} {launch : Byte}
    (hout : ∀ a, (∀ off < 65536, a ≠ flashAddr 0 launch s.par.biosBank off) →
      f.get a = (eraseFlash s.par.granule 0 launch s.par.biosBank s.flash).get a) :
    (∀ (b : Byte) (off : Nat), off < 65536 → SameGranule s.par.granule b s.par.biosBank → b ≠ s.par.biosBank →
      f.get (flashAddr 0 launch b off) = 0xFF) ∧
    ∀ a : Nat, (∀ (b : Byte) (off : Nat), off < 65536 → SameGranule s.par.granule b s.par.biosBank →
      a ≠ flashAddr 0 launch b off) → f.get a = s.flash.get a := by
  constructor
  · intro b off hoff hsame hne
    rw [hout _ fun off' hoff' => flashAddr_ne_of_bank_ne hne hoff hoff']
    exact erase_in hsame hoff
  · intro a ha
    rw [hout a fun off hoff => ha _ off hoff (sameGranule_refl ..)]
    exact erase_out fun b off hsame hoff => ha b off hoff hsame

/-- FLASH_IMAGE where its pages begin: the lock is open, the granule of the image is erased (R256). -/
abbrev State.imageErased (s : State) (a0 a1 : Byte) : State := { s.started .flashImage a0 a1 with
  pos := { cmd := some .flashImage, label := .fiLoad, i := 0, p := 0 }
  vars := { s.vars with a0 := a0, a1 := a1, launch := s.launchSlot }
  lockDepth := s.lockDepth + 1, flash := eraseFlash s.par.granule 0 s.launchSlot s.par.biosBank s.flash
  progCur := 0, progMax := stepNumber 256, ret := .done }

theorem imageErased_run (hq : Quiet s) (hi : Idle s) (hk : s.lockDepth < 255) (a0 a1 : Byte) :
    Runs (goto .fiLaunch 0 0 (s.started .flashImage a0 a1)) (s.imageErased a0 a1) :=
  imageStart_run (s := goto .fiLaunch 0 0 (s.started .flashImage a0 a1)) hq hi.1 rfl hk

/-- The pages before a page, when each of them programs as asked (R256). -/
theorem pagesBefore_run (hq : Quiet s) (hlive : s.halted = false) {c : Option Cmd}
    (hp : s.pos = { cmd := c, label := .fiLoad, i := 0, p := 0 }) (hlock : s.lockDepth ≠ 0)
    (hcur : s.progCur = 0) (hret : s.ret = .done) (hst : ∀ a < 65536, s.stg.known a = true) {page : Nat}
    (hpage : page < 256) (htakes : ∀ p < page, PageTakes s p)
    (he : ∀ off < 65536, s.flash.get (imageAddr s off) = Config.erased) :
    ∃ f pb cb x, Runs s { s with
        pos := { cmd := c, label := .fiLoad, i := 0, p := page }, flash := f, pagebuf := pb, cmpbuf := cb
        progCur := stepNumber page, ret := .done, xfer := x } ∧
      (∀ off < 65536, f.get (imageAddr s off) = if off < 256 * page then s.stg.get off else Config.erased) ∧
      ∀ a, (∀ off < 65536, a ≠ imageAddr s off) → f.get a = s.flash.get a := by
  cases page with
  | zero =>
    refine ⟨s.flash, s.pagebuf, s.cmpbuf, s.xfer, ?_, fun off hoff => he off hoff, fun a _ => rfl⟩
    rw [← hp, show stepNumber 0 = s.progCur from hcur.symm, ← hret]
    exact Runs.refl s
  | succ page =>
    have hpos : s.pos.p = 0 := congrArg SeqPos.p hp
    have hcmd : s.pos.cmd = c := congrArg SeqPos.cmd hp
    obtain ⟨f, pb, cb, x, hrun, hin, hout⟩ := imagePages_run (page + 1) (Nat.le_of_lt hpage) (page + 1) s
      (by omega) (Nat.succ_pos page) hq hlive (congrArg SeqPos.label hp) (congrArg SeqPos.i hp) hlock hst
      (fun p _ h => htakes p h) (fun off _ hoff => he off hoff)
    rw [if_pos hpage, if_pos hpage, hcmd] at hrun
    refine ⟨f, pb, cb, x, hrun, fun off hoff => ?_, hout⟩
    rw [hin off hoff, hpos, he off hoff]
    simp only [Nat.mul_zero, Nat.zero_le, true_and]

end Image

/-- Settles O47: all pages program as asked, and the lock is closed again. -/
theorem flashImageCommitsTheStagingBuffer : Obligations.FlashImageCommitsTheStagingBuffer := by
  intro s a0 a1 hq hi hk hst htakes
  have herased : ∀ off < 65536, (s.imageErased a0 a1).flash.get (imageAddr (s.imageErased a0 a1) off) = Config.erased :=
    fun off hoff => erase_in (sameGranule_refl ..) hoff
  obtain ⟨f, pb, cb, x, hpages, hin, hout⟩ := imagePages_run 256 (Nat.le_refl 256) 256 (s.imageErased a0 a1) rfl
    (by decide) hq hi.1 rfl rfl (Nat.succ_ne_zero _) hst
    (fun p _ hp k hk v hv => htakes (256 * p + k) (by omega) v hv) fun off _ hoff => herased off hoff
  obtain ⟨hbank, hrest⟩ := outside_image (s := s) (launch := s.launchSlot) hout
  have hlast := runStep_fiLock (s := { s.imageErased a0 a1 with
    pos := { cmd := some .flashImage, label := .fiLock, i := 0, p := 0 }, flash := f, pagebuf := pb, cmpbuf := cb
    progCur := stepNumber 256, ret := .done, xfer := x }) hi.1 rfl
  rw [if_neg (Nat.succ_ne_zero _)] at hlast
  refine ⟨_, _, f, pb, cb, exec_flashImage hi a0 a1, (imageErased_run hq hi hk a0 a1).trans
    (hpages.trans (Runs.cons hq hi.1 (by simp) hlast (Runs.refl _))), fun off hoff => ?_, hbank, hrest, rfl⟩
  exact (hin off hoff).trans (if_pos ⟨Nat.zero_le _, hoff⟩)

/-- Settles O48: the pages before the bad one, and its write and read-back. -/
theorem verifyMismatchHaltsAtTheFirstBadPage : Obligations.VerifyMismatchHaltsAtTheFirstBadPage := by
  intro s a0 a1 page k v hq hi hlock hst hpage hk hdefect hne htakes
  have herased : ∀ off < 65536, (s.imageErased a0 a1).flash.get (imageAddr (s.imageErased a0 a1) off) = Config.erased :=
    fun off hoff => erase_in (sameGranule_refl ..) hoff
  obtain ⟨f, pb, cb, x, hbefore, hin, hout⟩ := pagesBefore_run (s := s.imageErased a0 a1) hq hi.1 rfl
    (Nat.succ_ne_zero _) rfl rfl hst hpage (fun p hp k hk w hw => htakes (256 * p + k) (by omega) w hw) herased
  obtain ⟨f', x', hwrite, hpageBytes, hother⟩ := imageWrite_run (s := { s.imageErased a0 a1 with
    pos := { cmd := some .flashImage, label := .fiLoad, i := 0, p := page }, flash := f, pagebuf := pb, cmpbuf := cb
    progCur := stepNumber page, ret := .done, xfer := x }) hq hi.1 rfl rfl hpage (Nat.succ_ne_zero _) hst
    fun k hk => (hin (256 * page + k) (by omega)).trans (if_neg (by omega))
  have hbad : ¬ PageTakes (s.imageErased a0 a1) page := fun h => hne (h k hk v hdefect)
  have hread := runStep_fiRead (s := { s.imageErased a0 a1 with
    pos := { cmd := some .flashImage, label := .fiRead, i := 0, p := page }, flash := f'
    pagebuf := pageOf s.stg (256 * page), cmpbuf := cb, progCur := stepNumber page, ret := .done, xfer := x' })
    hi.1 rfl hpage
  rw [if_neg (by exact mt (imagePage_eq (s := s.imageErased a0 a1) hpageBytes).1 hbad)] at hread
  -- a byte of the bank outside the bad page is as before the page was programmed
  have hkeep (off : Nat) (hoff : off < 65536) (hnot : ¬ (256 * page ≤ off ∧ off < 256 * page + 256)) :
      f'.get (flashAddr 0 s.launchSlot s.par.biosBank off) =
        if off < 256 * page then s.stg.get off else Config.erased := by
    rw [hother, hin off hoff]
    intro k hk
    simp only [imageAddr, flashAddr_zero]
    omega
  obtain ⟨hbank, hrest⟩ := outside_image (s := s) (f := f') (launch := s.launchSlot) fun a ha => by
    rw [hother a fun k hk => ha _ (by show 256 * page + k < 65536; omega)]
    exact hout a ha
  refine ⟨_, _, f', _, _, exec_flashImage hi a0 a1, (imageErased_run hq hi hlock a0 a1).trans
    (hbefore.trans (hwrite.trans (Runs.cons hq hi.1 (by simp) hread (Runs.refl _)))), fun off hoff => ?_,
    fun off hoff hlo hhi => ?_, fun off hoff hlo => ?_, hbank, hrest, rfl⟩
  · rw [hkeep off (by omega) (by omega), if_pos hoff]
  · have hbyte := hpageBytes (off - 256 * page) (by omega)
    simp only [Nat.add_sub_cancel' hlo] at hbyte
    exact hbyte
  · rw [hkeep off hoff (by omega), if_neg (by omega)]
    rfl

end Sys2Proof.Machine
end

section
/-! PROOF. R250 to R255, R259, R289: INSTALL_RECEIVE, from its start to the blocks, from the blocks to an end, and
through its clean-up; then the statements. -/

namespace Sys2Proof.Machine

section Install

variable {s : State}

/-- INSTALL_RECEIVE where its blocks begin: the port and the session are open, `SRAM` holds free values (R250 I1). -/
abbrev State.installing (s : State) (sram : Mem) (free : Nat) (v : Vars) : State := { s with
  pos := { cmd := some .installReceive, label := .rcPrime, i := 0, p := 0 }, vars := v, ret := .done
  sram := sram, freeNext := free, portOpen := true, xmSeq := 1, xmRetry := 1, xmPhase := .awaitBlock
  deltaPrev := s.par.delta.start, blkCount := 0 }

/-- The start of INSTALL_RECEIVE with no active slot (R64, R250). -/
theorem install_begins (hq : Quiet s) (hi : Idle s) (hactive : s.par.sramSlots ≤ s.w.activeSlot.toNat) (a0 a1 : Byte) :
    ∃ t sram free v, exec (.installReceive a0 a1) s = .next t ∧ SramUnspecified t ∧
      Runs t (s.installing sram free v) ∧ ∀ a, sram.known a = false :=
  ⟨_, _, _, _, exec_installReceive hi hactive a0 a1, fun _ => rfl,
    Runs.cons hq hi.1 (by simp) (runStep_inOpen (by exact hi.1) rfl) (Runs.refl _), fun _ => rfl⟩

/-- A failing end of RECV_BLOCK goes through the clean-up and is returned (R250, R255). -/
theorem installFails_run (hq : Quiet s) (hlive : s.halted = false) (hcmd : s.pos.cmd = some .installReceive)
    {r : Status} (hr : r.failed = true) :
    Runs (recvEnd r s) (finish r { s with
      portOpen := false, rxie := false, xmPhase := .awaitStart, ret := .done
      vars := { s.vars with status := r } }) := by
  rw [recvEnd_of_install hcmd]
  refine Runs.cons hq hlive (by simp) (runStep_inClose hlive rfl) ?_
  rw [installCleanup, if_pos (by exact hr)]
  exact Runs.refl _

/-- INSTALL_RECEIVE ends with the failing result `r`, flash, settings and lock untouched, in a state with `post`
(R259). -/
def InstallFails (s : State) (a0 a1 : Byte) (r : Status) (post : State → Prop) : Prop :=
  ∃ t u, exec (.installReceive a0 a1) s = .next t ∧ Runs t u ∧ Idle u ∧ SramUnspecified t ∧ SramUnspecified u ∧
    u.result = r.code ∧ u.portOpen = false ∧ u.xmPhase = .awaitStart ∧ u.flash = s.flash ∧ u.w = s.w ∧ u.p = s.p ∧
    u.lockDepth = s.lockDepth ∧ post u

/-- What the blocks of an install leave as it is. -/
structure Untouched (s t : State) : Prop where
  quiet : t.sched = s.sched := by rfl
  live : t.halted = s.halted := by rfl
  cmd : t.pos.cmd = some .installReceive := by rfl
  flash : t.flash = s.flash := by rfl
  w : t.w = s.w := by rfl
  p : t.p = s.p := by rfl
  lock : t.lockDepth = s.lockDepth := by rfl

/-- A run of INSTALL_RECEIVE to a failing end of RECV_BLOCK. -/
theorem install_fails {t c : State} {a0 a1 : Byte} {r : Status} {post : State → Prop} (hq : Quiet s) (hi : Idle s)
    (hexec : exec (.installReceive a0 a1) s = .next t) (ht : SramUnspecified t) (hrun : Runs t (recvEnd r c))
    (hr : r.failed = true) (hc : Untouched s c) (hsram : SramUnspecified c)
    (hpost : ∀ u : State, u.stg = c.stg → u.rxq = c.rxq → u.blkCount = c.blkCount → u.txlog = c.txlog → post u) :
    InstallFails s a0 a1 r post := by
  have hlive : c.halted = false := hc.live.trans hi.1
  exact ⟨t, _, hexec, hrun.trans (installFails_run (hc.quiet.trans hq) hlive hc.cmd hr), ⟨hlive, rfl⟩, ht, hsram, rfl,
    rfl, rfl, hc.flash, hc.w, hc.p, hc.lock, hpost _ rfl rfl rfl rfl⟩

/-- Good blocks, fewer than the whole image: each is stored, and the next one is asked for (R250 I2). -/
theorem storedBlocks_run (blocks : List (Vector Byte 128)) {rest : List Byte} (hq : Quiet s) (hlive : s.halted = false)
    (hp : s.pos = { cmd := some .installReceive, label := .rcPrime, i := 0, p := 0 }) (hc : s.cancelKey = false)
    (hdelta : s.par.delta = .stated) (hr : s.rxq = framesFrom s.xmSeq blocks ++ rest) (hcount : s.blkCount = 0)
    (hlen : blocks.length < 512) :
    ∃ t, Runs s t ∧ ∃ log bb m v r mask, t = { s with
        txlog := log, rxq := rest, blockbuf := bb, xmSeq := s.xmSeq + BitVec.ofNat 8 blocks.length
        xmRetry := if blocks = [] then s.xmRetry else 0, irqMask := mask, blkCount := BitVec.ofNat 16 blocks.length
        deltaPrev := xorFrom s.deltaPrev (streamOf blocks), stg := m, vars := v, ret := r } ∧
      log ++ [primingByte t.xmRetry] =
        s.txlog ++ primingByte s.xmRetry :: List.replicate blocks.length Config.ACK ∧
      (∀ k < 128 * blocks.length, m.get k = xorFrom s.deltaPrev ((streamOf blocks).take (k + 1))) ∧
      ∀ a, 128 * blocks.length ≤ a → m.get a = s.stg.get a := by
  have hzero : s.blkCount.toNat = 0 := by rw [hcount]; rfl
  cases blocks with
  | nil =>
    refine ⟨s, Runs.refl s, s.txlog, s.blockbuf, s.stg, s.vars, s.ret, s.irqMask, ?_, rfl, nofun, fun a _ => rfl⟩
    have hrest : rest = s.rxq := hr.symm
    have hcount' : BitVec.ofNat 16 0 = s.blkCount := hcount.symm
    have hseq : s.xmSeq + BitVec.ofNat 8 0 = s.xmSeq := BitVec.add_zero _
    rw [List.length_nil, hcount', hseq, hrest, if_pos rfl]
    rfl
  | cons b bs =>
    obtain ⟨bb, m, v, r, hrun, -, hin, hout⟩ := blocks_run (b :: bs) s rest (List.cons_ne_nil b bs) hq hlive
      (congrArg SeqPos.label hp) (congrArg SeqPos.cmd hp) hc hdelta hr (by omega)
    simp only [hzero, Nat.zero_add, Nat.mul_zero] at hrun hin hout
    refine ⟨_, hrun, s.txlog ++ primingByte s.xmRetry :: List.replicate bs.length Config.ACK, bb, m, v, r, false,
      ?_, ?_, hin, fun a ha => hout a (.inr ha)⟩
    · rw [if_pos hlen, hp]
      rfl
    · rw [primingByte_zero, List.length_cons, List.replicate_succ', List.append_assoc]
      rfl

/-- What INSTALL_RECEIVE, started in `s`, has done when `blocks` are stored and `rest` stands on the line. -/
structure BlocksStored (s : State) (blocks : List (Vector Byte 128)) (rest : List Byte) (x : State) : Prop
    extends Untouched s x where
  pos : x.pos = { cmd := some .installReceive, label := .rcPrime, i := 0, p := 0 }
  key : x.cancelKey = s.cancelKey
  rxq : x.rxq = rest
  seq : x.xmSeq = 1 + BitVec.ofNat 8 blocks.length
  retry : x.xmRetry = if blocks = [] then 1 else 0
  count : x.blkCount = BitVec.ofNat 16 blocks.length
  sram : SramUnspecified x
  stg : ∀ a, 128 * blocks.length ≤ a → x.stg.get a = s.stg.get a
  log : x.txlog ++ [primingByte x.xmRetry] = s.txlog ++ Config.NAK :: List.replicate blocks.length Config.ACK

/-- INSTALL_RECEIVE stores the good blocks that stand first on the line. -/
theorem installing_storesBlocks {blocks : List (Vector Byte 128)} {rest : List Byte} {sram : Mem} {free : Nat}
    {v : Vars} (hq : Quiet s) (hi : Idle s) (hc : s.cancelKey = false) (hdelta : s.par.delta = .stated)
    (hsram : ∀ a, sram.known a = false) (hr : s.rxq = framesFrom 1 blocks ++ rest) (hlen : blocks.length < 512) :
    ∃ x, Runs (s.installing sram free v) x ∧ BlocksStored s blocks rest x := by
  obtain ⟨x, hrun, log, bb, m, v', r, mask, rfl, hlog, -, hout⟩ := storedBlocks_run (s := s.installing sram free v)
    blocks hq hi.1 rfl hc hdelta hr rfl hlen
  exact ⟨_, hrun, { pos := rfl, key := rfl, rxq := rfl, seq := rfl, retry := rfl, count := rfl
                    sram := hsram, stg := hout, log := hlog }⟩

/-- INSTALL_RECEIVE where its port is to be closed, after `blocks` were stored in `m` (R250, R255). -/
abbrev State.installed (s : State) (blocks : List (Vector Byte 128)) (rest : List Byte) (sram : Mem) (free : Nat)
    (ph : Phase) (bb : Vector Byte 128) (m : Mem) (v : Vars) (r : Ret) : State := { s with
  pos := { cmd := some .installReceive, label := .inClose, i := 0, p := 0 }, vars := v, ret := r
  sram := sram, freeNext := free, portOpen := true, xmPhase := ph, irqMask := false
  xmSeq := 1 + BitVec.ofNat 8 blocks.length, xmRetry := if blocks = [] then 1 else 0
  blkCount := BitVec.ofNat 16 blocks.length, deltaPrev := xorFrom 0 (streamOf blocks), stg := m, blockbuf := bb
  txlog := s.txlog ++ Config.NAK ::
    List.replicate (if blocks.length < 512 then blocks.length + 1 else blocks.length - 1) Config.ACK
  rxq := rest }

/-- Every good block is stored, and the reception ends: at `EOT`, or with the 512th block (R250, R255). -/
theorem installing_reachesClose {blocks : List (Vector Byte 128)} {rest : List Byte} (sram : Mem) (free : Nat)
    (v : Vars) (hq : Quiet s) (hi : Idle s) (hc : s.cancelKey = false) (hdelta : s.par.delta = .stated)
    (hlen : blocks.length ≤ 512)
    (hr : s.rxq = framesFrom 1 blocks ++ (if blocks.length < 512 then Config.EOT :: rest else rest)) :
    ∃ ph bb m v' r, Runs (s.installing sram free v) (s.installed blocks rest sram free ph bb m v' r) ∧
      v'.status.failed = false ∧ ∀ k < 128 * blocks.length, m.get k = xorFrom 0 ((streamOf blocks).take (k + 1)) := by
  have hstart : (s.installing sram free v).deltaPrev = 0 := by
    simp only [hdelta]
    rfl
  by_cases hlt : blocks.length < 512
  · rw [if_pos hlt] at hr
    obtain ⟨x, hrun, log, bb, m, v', r, mask, hx, hlog, hin, -⟩ := storedBlocks_run (s := s.installing sram free v)
      blocks hq hi.1 rfl hc hdelta hr rfl hlt
    rw [hstart] at hx hin
    have hend := eot_run (s := x) (rest := rest) (by rw [hx]; exact hq) (by rw [hx]; exact hi.1) (by rw [hx])
      (by rw [hx]; exact hc) (by rw [hx])
    rw [recvEnd_of_install (by rw [hx])] at hend
    refine ⟨.awaitStart, bb, m, { v' with status := .complete }, .done, ?_, rfl, hin⟩
    have hsent : x.txlog ++ [primingByte x.xmRetry] ++ [Config.ACK] =
        s.txlog ++ Config.NAK :: List.replicate (blocks.length + 1) Config.ACK := by
      rw [show x.txlog = log by rw [hx], hlog, List.replicate_succ', List.append_assoc]
      rfl
    rw [hsent] at hend
    subst hx
    rw [State.installed, if_pos hlt]
    exact hrun.trans hend
  · have hfull : blocks.length = 512 := by omega
    rw [if_neg hlt] at hr
    obtain ⟨bb, m, v', r, hrun, hok, hin, -⟩ := blocks_run blocks (s.installing sram free v) rest
      (by rintro rfl; cases hfull) hq hi.1 rfl rfl hc hdelta hr (by exact (Nat.zero_add _).trans_le hlen)
    have hcount : (s.installing sram free v).blkCount.toNat + blocks.length = blocks.length := Nat.zero_add _
    rw [hcount, if_neg hlt, hstart] at hrun
    rw [hstart] at hin
    refine ⟨.awaitBlock, bb, m, v', r, ?_, by rw [hok (hcount.trans hfull)]; rfl, fun k hk => ?_⟩
    · rw [State.installed, if_neg hlt, if_neg (by rintro rfl; cases hfull)]
      exact hrun
    · exact (congrArg m.get (Nat.zero_add k)).symm.trans (hin k hk)

/-- The end of INSTALL_RECEIVE: the port closed, the image padded and the trailer stored (R250, R253, R254). -/
theorem installed_run {blocks : List (Vector Byte 128)} {rest : List Byte} {sram : Mem} {free : Nat}
    {ph : Phase} {bb : Vector Byte 128} {m : Mem} {v : Vars} {r : Ret} (hq : Quiet s) (hi : Idle s)
    (hlen : blocks.length ≤ 512) (hv : v.status.failed = false)
    (hin : ∀ k < 128 * blocks.length, m.get k = xorFrom 0 ((streamOf blocks).take (k + 1))) :
    ∃ m', Runs (s.installed blocks rest sram free ph bb m v r) (finish .complete
        { s.installed blocks rest sram free .awaitStart bb m' v .done with portOpen := false, rxie := false }) ∧
      ∀ off < 65536, m'.get off =
        if 0xFFF0 ≤ off then (Config.trailer blocks.length).toList.getD (off - 0xFFF0) 0
        else if 128 * blocks.length ≤ off then Config.padByte
        else xorFrom 0 ((streamOf blocks).take (off + 1)) := by
  have hcount : (BitVec.ofNat 16 blocks.length).toNat = blocks.length := Nat.mod_eq_of_lt (by omega)
  obtain ⟨m', hrun, hget⟩ := finishInstall_run (s := s.installed blocks rest sram free ph bb m v r) hq hi.1 rfl hv
    (by rw [hcount]; exact hlen)
  refine ⟨m', hrun, fun off hoff => ?_⟩
  rw [hget off hoff, hcount]
  split_ifs with htrailer hpad
  · rfl
  · rfl
  · exact hin off (by omega)

end Install

/-- Settles O49: the start, the blocks up to the closing of the port, the padding and the trailer. -/
theorem installReceiveDecodesAndPads : Obligations.InstallReceiveDecodesAndPads := by
  intro s a0 a1 blocks rest hq hi hactive hc hdelta hlen hr
  obtain ⟨t, sram, free, v, hexec, ht, hbegin, hsram⟩ := install_begins hq hi hactive a0 a1
  obtain ⟨ph, bb, m, v', r, hblocks, hok, hin⟩ := installing_reachesClose sram free v hq hi hc hdelta hlen hr
  obtain ⟨m', hend, hstg⟩ := installed_run (rest := rest) (sram := sram) (free := free) (ph := ph) (bb := bb) (r := r)
    hq hi hlen hok hin
  exact ⟨t, _, m', sram, free, bb, hexec, hbegin.trans (hblocks.trans hend), ht, hsram, hstg, rfl⟩

/-- Settles O50: by the run of each end, through the clean-up. -/
theorem failedInstallTouchesNoFlash : Obligations.FailedInstallTouchesNoFlash := by
  intro s a0 a1 rest hq
  constructor
  · intro hi hactive hdelta
    obtain ⟨t, sram, free, v, hexec, ht, hbegin, hsram⟩ := install_begins hq hi hactive a0 a1
    refine ⟨fun blocks hc hlen hr => ?_, fun blocks seq nseq hc hlen hr hbad => ?_, fun hc => ?_,
      fun units hc hlen hu hr => ?_, fun blocks units hc hne hlen hunits hu hr => ?_⟩
    · obtain ⟨x, hblocks, hx⟩ := installing_storesBlocks (free := free) (v := v) hq hi hc hdelta hsram hr hlen
      have hend := can_run (hx.quiet.trans hq) (hx.live.trans hi.1) (congrArg SeqPos.label hx.pos)
        (hx.key.trans hc) hx.rxq
      refine install_fails hq hi hexec ht (hbegin.trans (hblocks.trans hend)) rfl
        { hx with } hx.sram fun u hstg hrxq hcount _ => ?_
      exact ⟨hrxq, hcount.trans hx.count, fun a ha => hstg ▸ hx.stg a ha⟩
    · obtain ⟨x, hblocks, hx⟩ := installing_storesBlocks (free := free) (v := v) hq hi hc hdelta hsram hr hlen
      have hend := badHeader_run (hx.quiet.trans hq) (hx.live.trans hi.1) (congrArg SeqPos.label hx.pos)
        (hx.key.trans hc) hx.rxq (headerOk_eq_false (by rw [hx.seq]; exact hbad))
      refine install_fails hq hi hexec ht (hbegin.trans (hblocks.trans hend)) rfl
        { hx with } hx.sram fun u hstg _ hcount _ => ?_
      exact ⟨hcount.trans hx.count, fun a ha => hstg ▸ hx.stg a ha⟩
    · have hend := self_run (s := s.installing sram free v) hq hi.1 rfl hc
      exact install_fails hq hi hexec ht (hbegin.trans hend) rfl {} hsram
        fun u hstg hrxq hcount hlog => ⟨hstg, hrxq, hcount, hlog⟩
    · obtain ⟨bb, v', hend⟩ := tooManyBadUnits_run (s := s.installing sram free v) hq hi.1 rfl hc hu
        (by rintro rfl; cases hlen) hr (by rw [hlen]; rfl)
      rw [hlen] at hend
      exact install_fails hq hi hexec ht (hbegin.trans hend) rfl {} hsram
        fun u hstg hrxq hcount hlog => ⟨hstg, hrxq, hcount, hlog⟩
    · obtain ⟨x, hblocks, hx⟩ := installing_storesBlocks (free := free) (v := v) hq hi hc hdelta hsram hr hlen
      have hretry : x.xmRetry = 0 := hx.retry.trans (if_neg hne)
      obtain ⟨bb, v', hend⟩ := tooManyBadUnits_run (hx.quiet.trans hq) (hx.live.trans hi.1) hx.pos (hx.key.trans hc)
        (by rw [hx.seq]; exact hu) (by rintro rfl; cases hunits) hx.rxq (by rw [hretry, hunits]; rfl)
      refine install_fails hq hi hexec ht (hbegin.trans (hblocks.trans hend)) rfl
        { hx with cmd := rfl } hx.sram fun u hstg hrxq hcount hlog => ?_
      refine ⟨hrxq, hcount.trans hx.count, hlog.trans ?_, fun a ha => hstg ▸ hx.stg a ha⟩
      rw [hunits]
      calc x.txlog ++ primingByte x.xmRetry :: List.replicate 10 Config.NAK
          = (x.txlog ++ [primingByte x.xmRetry]) ++ List.replicate 10 Config.NAK := by rw [List.append_assoc]; rfl
        _ = _ := by rw [hx.log, List.append_assoc]; rfl
  · intro hlive hcmd hl hc
    have hpoll := runStep_rcPoll hlive hl
    rw [if_pos hc] at hpoll
    have hself := runStep_rcSelf (s := goto .rcSelf 0 0 { s with ret := .flag true }) hlive rfl
    exact ⟨_, Runs.cons hq hlive (by simp [hl]) hpoll (Runs.cons hq hlive (by simp) hself
      (installFails_run (by exact hq) (by exact hlive) (by exact hcmd) rfl)), rfl⟩

end Sys2Proof.Machine
end
